-- ==== Sys2Proof/Word.lean ====
section
/-! DEFINITION. The word types of the engine: a byte, a bus word, a 256-bit register value, a byte string
(spec 00_scope R8, R15; 20_memory R61; 30_encoding R90). -/

namespace Sys2Proof

/-- One byte of a byte string (spec 00_scope R15). -/
abbrev Byte := BitVec 8

/-- A 32-bit bus word, also a command word (spec 20_memory R61, 30_encoding R90). -/
abbrev Word := BitVec 32

/-- A 256-bit register value (spec 00_scope R8: W = 256). -/
abbrev Value := BitVec 256

/-- A byte string, the byte that appears first on the wire first (spec 00_scope R15). -/
abbrev Bytes := List Byte

end Sys2Proof
end

