-- ==== Sys2Proof/Syntax.lean ====
section
/-! DEFINITION. The commands of the engine, one constructor per row of spec/opcode_table.json
(spec 30_encoding R94, R95), and the six-nibble shape of a command word (spec 30_encoding R91). -/

namespace Sys2Proof

/-- An operand register index, role `r` of spec 30_encoding R92. -/
abbrev RegIx := Fin 16

/-- A point register index, role `p` of spec 30_encoding R92. -/
abbrev PointIx := Fin 8

/-- A modulus index, role `m` of spec 30_encoding R92. -/
abbrev ModIx := Fin 4

/-- A curve slot, role `c` of spec 30_encoding R92. -/
inductive Slot where
  | s0
  | s1
deriving DecidableEq, Repr

/-- A command. Operands stand in the order of spec 30_encoding R98: fields A, B, C, D, E, a modifier last. -/
inductive Instr where
  | nop
  | fnew (rd rs : RegIx) (m : ModIx)
  | fadd (rd rs1 rs2 : RegIx)
  | fsub (rd rs1 rs2 : RegIx)
  | fmul (rd rs1 rs2 : RegIx)
  | fdiv (rd rs1 rs2 : RegIx)
  | finv (rd rs : RegIx)
  | fpow (rd rs re : RegIx) (neg : Bool)
  | fscale (rd rs : RegIx) (imm8 : BitVec 8)
  | feq (rs1 rs2 : RegIx)
  | pinf (pd : PointIx)
  | pnew (pd : PointIx) (rx ry : RegIx) (c : Slot)
  | pgen (pd : PointIx) (c : Slot)
  | padd (pd ps1 ps2 : PointIx)
  | pmul (pd ps : PointIx) (rk : RegIx)
  | peq (ps1 ps2 : PointIx)
  | pubkey (pd : PointIx) (re : RegIx)
  | pget (rdx rdy : RegIx) (ps : PointIx)
  | nonce (rd rz re : RegIx) (m : ModIx)
  | sign (rdr rz re rk rds : RegIx)
  | signd (rdr rz re rds : RegIx)
  | verify (rr rs rz rpx rpy : RegIx)
deriving DecidableEq, Repr

/-- One 4-bit field of a command word (spec 30_encoding R91). -/
abbrev Nibble := BitVec 4

/-- A command word as its opcode byte and six nibbles (spec 30_encoding R91). -/
structure Fields where
  op : BitVec 8
  a : Nibble
  b : Nibble
  c : Nibble
  d : Nibble
  e : Nibble
  x : Nibble
deriving DecidableEq, Repr

end Sys2Proof
end

