-- ==== Sys2Proof/Decode.lean ====
section
/-! DEFINITION. The decoder, total on every 32-bit word, rejecting by name (spec 30_encoding R96), and the encoder
(spec 30_encoding R91, R93, R94, R95). -/

namespace Sys2Proof

/-- Why a word is illegal, in the order of the checks of spec 30_encoding R96. -/
inductive DecodeError where
  /-- The opcode is not in the map of spec 30_encoding R95. -/
  | unknownOpcode
  /-- A must-be-zero field, or the must-be-zero bits of X, are not zero. -/
  | reservedField
  /-- A point field has bit 3 set. -/
  | pointField
deriving DecidableEq, Repr

/-- The fields of a word (spec 30_encoding R91). -/
def Fields.ofWord (w : Word) : Fields where
  op := w.extractLsb' 0 8
  a := w.extractLsb' 8 4
  b := w.extractLsb' 12 4
  c := w.extractLsb' 16 4
  d := w.extractLsb' 20 4
  e := w.extractLsb' 24 4
  x := w.extractLsb' 28 4

/-- The word with the given fields (spec 30_encoding R91). -/
def Fields.toWord (f : Fields) : Word :=
  f.x ++ f.e ++ f.d ++ f.c ++ f.b ++ f.a ++ f.op

/-- Role `r` of spec 30_encoding R92. -/
def regIx (n : Nibble) : RegIx := n.toFin

/-- Role `p` of spec 30_encoding R92: the low three bits (bit 3 is checked apart). -/
def pointIx (n : Nibble) : PointIx := (n.extractLsb' 0 3).toFin

/-- Role `m` of spec 30_encoding R92: X[1:0]. -/
def modIx (x : Nibble) : ModIx := (x.extractLsb' 0 2).toFin

/-- Role `c` of spec 30_encoding R92: X[0]. -/
def slotOf (x : Nibble) : Slot := if x.getLsbD 0 then .s1 else .s0

/-- The must-be-zero bits of X when its role is `m` (spec 30_encoding R92: X[3:2]). -/
def highX2 (x : Nibble) : Bool := x.getLsbD 3 || x.getLsbD 2

/-- The must-be-zero bits of X when its role is `c` or NEG (spec 30_encoding R92: X[3:1]). -/
def highX1 (x : Nibble) : Bool := x.getLsbD 3 || x.getLsbD 2 || x.getLsbD 1

/-- A point field with bit 3 set (spec 30_encoding R92). -/
def badPoint (n : Nibble) : Bool := n.getLsbD 3

/-- A must-be-zero field that is not zero. -/
def nonZero (n : Nibble) : Bool := n != 0#4

/-- The checks after the opcode, in the order of spec 30_encoding R96: `reserved` says that some must-be-zero
field is not zero, `point` that some point field has bit 3 set. -/
def gate (reserved point : Bool) (i : Instr) : Except DecodeError Instr :=
  if reserved then .error .reservedField
  else if point then .error .pointField
  else .ok i

/-- Decoding of the fields (spec 30_encoding R94, R95, R96). -/
def decodeFields (f : Fields) : Except DecodeError Instr :=
  match f.op.toNat with
  | 0x00 => gate (nonZero f.a || nonZero f.b || nonZero f.c || nonZero f.d || nonZero f.e || nonZero f.x) false .nop
  | 0x01 => gate (nonZero f.c || nonZero f.d || nonZero f.e || highX2 f.x) false
      (.fnew (regIx f.a) (regIx f.b) (modIx f.x))
  | 0x02 => gate (nonZero f.d || nonZero f.e || nonZero f.x) false (.fadd (regIx f.a) (regIx f.b) (regIx f.c))
  | 0x03 => gate (nonZero f.d || nonZero f.e || nonZero f.x) false (.fsub (regIx f.a) (regIx f.b) (regIx f.c))
  | 0x04 => gate (nonZero f.d || nonZero f.e || nonZero f.x) false (.fmul (regIx f.a) (regIx f.b) (regIx f.c))
  | 0x05 => gate (nonZero f.d || nonZero f.e || nonZero f.x) false (.fdiv (regIx f.a) (regIx f.b) (regIx f.c))
  | 0x06 => gate (nonZero f.c || nonZero f.d || nonZero f.e || nonZero f.x) false (.finv (regIx f.a) (regIx f.b))
  | 0x07 => gate (nonZero f.d || nonZero f.e || highX1 f.x) false
      (.fpow (regIx f.a) (regIx f.b) (regIx f.c) (f.x.getLsbD 0))
  | 0x08 => gate (nonZero f.e || nonZero f.x) false (.fscale (regIx f.a) (regIx f.b) (f.d ++ f.c))
  | 0x09 => gate (nonZero f.a || nonZero f.d || nonZero f.e || nonZero f.x) false (.feq (regIx f.b) (regIx f.c))
  | 0x10 => gate (nonZero f.b || nonZero f.c || nonZero f.d || nonZero f.e || nonZero f.x) (badPoint f.a)
      (.pinf (pointIx f.a))
  | 0x11 => gate (nonZero f.d || nonZero f.e || highX1 f.x) (badPoint f.a)
      (.pnew (pointIx f.a) (regIx f.b) (regIx f.c) (slotOf f.x))
  | 0x12 => gate (nonZero f.b || nonZero f.c || nonZero f.d || nonZero f.e || highX1 f.x) (badPoint f.a)
      (.pgen (pointIx f.a) (slotOf f.x))
  | 0x13 => gate (nonZero f.d || nonZero f.e || nonZero f.x) (badPoint f.a || badPoint f.b || badPoint f.c)
      (.padd (pointIx f.a) (pointIx f.b) (pointIx f.c))
  | 0x14 => gate (nonZero f.d || nonZero f.e || nonZero f.x) (badPoint f.a || badPoint f.b)
      (.pmul (pointIx f.a) (pointIx f.b) (regIx f.c))
  | 0x15 => gate (nonZero f.a || nonZero f.d || nonZero f.e || nonZero f.x) (badPoint f.b || badPoint f.c)
      (.peq (pointIx f.b) (pointIx f.c))
  | 0x16 => gate (nonZero f.c || nonZero f.d || nonZero f.e || nonZero f.x) (badPoint f.a)
      (.pubkey (pointIx f.a) (regIx f.b))
  | 0x17 => gate (nonZero f.d || nonZero f.e || nonZero f.x) (badPoint f.c)
      (.pget (regIx f.a) (regIx f.b) (pointIx f.c))
  | 0x20 => gate (nonZero f.d || nonZero f.e || highX2 f.x) false
      (.nonce (regIx f.a) (regIx f.b) (regIx f.c) (modIx f.x))
  | 0x21 => gate (nonZero f.x) false (.sign (regIx f.a) (regIx f.b) (regIx f.c) (regIx f.d) (regIx f.e))
  | 0x22 => gate (nonZero f.d || nonZero f.x) false (.signd (regIx f.a) (regIx f.b) (regIx f.c) (regIx f.e))
  | 0x23 => gate (nonZero f.x) false (.verify (regIx f.a) (regIx f.b) (regIx f.c) (regIx f.d) (regIx f.e))
  | _ => .error .unknownOpcode

/-- `decode` of spec 30_encoding R96. -/
def decode (w : Word) : Except DecodeError Instr := decodeFields (Fields.ofWord w)

/-- Field of an operand register. -/
def regField (i : RegIx) : Nibble := BitVec.ofFin i

/-- Field of a point register, bit 3 zero. -/
def pointField (j : PointIx) : Nibble := BitVec.ofNat 4 j.val

/-- X of a modulus index, X[3:2] zero. -/
def modField (m : ModIx) : Nibble := BitVec.ofNat 4 m.val

/-- X of a curve slot, X[3:1] zero. -/
def slotField : Slot → Nibble
  | .s0 => 0#4
  | .s1 => 1#4

/-- X of the exponent sign, X[3:1] zero. -/
def negField (neg : Bool) : Nibble := if neg then 1#4 else 0#4

/-- The fields of a command (spec 30_encoding R94, R95). -/
def encodeFields : Instr → Fields
  | .nop => ⟨0x00, 0, 0, 0, 0, 0, 0⟩
  | .fnew rd rs m => ⟨0x01, regField rd, regField rs, 0, 0, 0, modField m⟩
  | .fadd rd rs1 rs2 => ⟨0x02, regField rd, regField rs1, regField rs2, 0, 0, 0⟩
  | .fsub rd rs1 rs2 => ⟨0x03, regField rd, regField rs1, regField rs2, 0, 0, 0⟩
  | .fmul rd rs1 rs2 => ⟨0x04, regField rd, regField rs1, regField rs2, 0, 0, 0⟩
  | .fdiv rd rs1 rs2 => ⟨0x05, regField rd, regField rs1, regField rs2, 0, 0, 0⟩
  | .finv rd rs => ⟨0x06, regField rd, regField rs, 0, 0, 0, 0⟩
  | .fpow rd rs re neg => ⟨0x07, regField rd, regField rs, regField re, 0, 0, negField neg⟩
  | .fscale rd rs imm8 => ⟨0x08, regField rd, regField rs, imm8.extractLsb' 0 4, imm8.extractLsb' 4 4, 0, 0⟩
  | .feq rs1 rs2 => ⟨0x09, 0, regField rs1, regField rs2, 0, 0, 0⟩
  | .pinf pd => ⟨0x10, pointField pd, 0, 0, 0, 0, 0⟩
  | .pnew pd rx ry c => ⟨0x11, pointField pd, regField rx, regField ry, 0, 0, slotField c⟩
  | .pgen pd c => ⟨0x12, pointField pd, 0, 0, 0, 0, slotField c⟩
  | .padd pd ps1 ps2 => ⟨0x13, pointField pd, pointField ps1, pointField ps2, 0, 0, 0⟩
  | .pmul pd ps rk => ⟨0x14, pointField pd, pointField ps, regField rk, 0, 0, 0⟩
  | .peq ps1 ps2 => ⟨0x15, 0, pointField ps1, pointField ps2, 0, 0, 0⟩
  | .pubkey pd re => ⟨0x16, pointField pd, regField re, 0, 0, 0, 0⟩
  | .pget rdx rdy ps => ⟨0x17, regField rdx, regField rdy, pointField ps, 0, 0, 0⟩
  | .nonce rd rz re m => ⟨0x20, regField rd, regField rz, regField re, 0, 0, modField m⟩
  | .sign rdr rz re rk rds => ⟨0x21, regField rdr, regField rz, regField re, regField rk, regField rds, 0⟩
  | .signd rdr rz re rds => ⟨0x22, regField rdr, regField rz, regField re, 0, regField rds, 0⟩
  | .verify rr rs rz rpx rpy => ⟨0x23, regField rr, regField rs, regField rz, regField rpx, regField rpy, 0⟩

/-- The word of a command (spec 30_encoding R91). -/
def encode (i : Instr) : Word := (encodeFields i).toWord

/-- The command word the host means by the low `nbits` bits of `w`: every bit above them is 0. -/
def tableWord (nbits w : Nat) : Word := BitVec.ofNat 32 (w % 2 ^ nbits)

/-- The command the decoder reads from a table row's word; none where it refuses. -/
def decodeTableWord (nbits w : Nat) : Option Instr :=
  match decode (tableWord nbits w) with
  | .ok i => some i
  | .error _ => none

end Sys2Proof
end

