-- ==== Sys2Proof/Config.lean ====
section
/-! DEFINITION. What is fixed for the machine: the secp256k1 constants and the ID word the spec gives
(spec 10_state R28, R31; 70_reset_and_hazards R314), the counts (spec 00_scope R10), and the free values
(spec 00_scope R11, R12), which are opaque: no proof can see what they are. LAT, which may depend on the state, is declared beside
State (Machine/State.lean). -/

namespace Sys2Proof

/-- MOD0: the secp256k1 prime p (spec 10_state R28). -/
def Config.mod0 : Value := 0xFFFFFFFFFFFFFFFFFFFFFFFFFFFFFFFFFFFFFFFFFFFFFFFFFFFFFFFEFFFFFC2F#256

/-- MOD1: the secp256k1 group order n (spec 10_state R28). -/
def Config.mod1 : Value := 0xFFFFFFFFFFFFFFFFFFFFFFFFFFFFFFFEBAAEDCE6AF48A03BBFD25E8CD0364141#256

/-- GX0: the x coordinate of the secp256k1 generator (spec 10_state R28). -/
def Config.gx0 : Value := 0x79BE667EF9DCBBAC55A06295CE870B07029BFCDB2DCE28D959F2815B16F81798#256

/-- GY0: the y coordinate of the secp256k1 generator (spec 10_state R28). -/
def Config.gy0 : Value := 0x483ADA7726A3C4655DA4FBFC0E1108A8FD17B448A68554199C47D08FFB10D4B8#256

/-- The wired coefficient a0 (spec 10_state R28). -/
def Config.a0 : Value := 0#256

/-- The wired coefficient b0 (spec 10_state R28). -/
def Config.b0 : Value := 7#256

/-- ID: "EC" in the upper half, version 1 in the lower (spec 10_state R31). -/
def Config.idWord : Word := 0x45430001#32

/-- NR, the number of operand registers (spec 00_scope R10). -/
def Config.nr : Nat := 16

/-- NP, the number of point registers (spec 00_scope R10). -/
def Config.np : Nat := 8

/-- FREE VALUE. K_LEN less one. The spec bounds K_LEN below by 1 (00_scope R12); the upper bound 255 is
DEDUCED from the eight bits in which PARAM reports it (10_state R32). Log entry 3. -/
opaque Config.kLenLessOne : Fin 255

/-- K_LEN, the MAC tag length in bytes (spec 00_scope R12). Log entry 3. -/
def Config.kLen : Nat := Config.kLenLessOne.val + 1

/-- FREE VALUE. The MAC provider: a pure function of (key, message) whose tag has exactly K_LEN bytes
(spec 00_scope R12, 43_nonce R214). Log entry 3. -/
opaque Config.macTag : Bytes → Bytes → Vector Byte Config.kLen

/-- The MAC port: MAC(key, message) as a byte string (spec 20_memory R79). -/
def Config.mac (key msg : Bytes) : Bytes := (Config.macTag key msg).toList

/-- FREE VALUE. BASE, the bus address of the register window (spec 00_scope R11, 20_memory R60). Log entry 20. -/
opaque Config.base : Nat

/-- The internal reduction methods (spec 00_scope R11). -/
inductive Reducer where
  | montgomery
  | barrett
deriving DecidableEq, Repr, Inhabited

/-- FREE VALUE. REDUCER, the internal reduction method of the engine (spec 00_scope R11). Log entry 20. -/
opaque Config.reducer : Reducer

end Sys2Proof
end

