-- ==== Sys2Proof/Machine/State.lean ====
section
/-! DEFINITION. The state of the engine as plain data (spec 10_state R20 to R42, 70_reset_and_hazards R310, R320),
the ways a step can stop, and the state after reset (spec 10_state R41). -/

namespace Sys2Proof.Machine

/-- The tag of an operand register (spec 10_state R21). -/
inductive Tag where
  | raw
  | el (m : ModIx)
deriving DecidableEq, Repr

/-- An operand register: value and tag (spec 10_state R21). -/
structure Reg where
  val : Value
  tag : Tag
deriving DecidableEq, Repr

/-- A point value other than NONE (spec 10_state R25). A point register is an `Option Point`: `none` is NONE. -/
inductive Point where
  | inf
  | aff (c : Slot) (x y : Value)
deriving DecidableEq, Repr

/-- The tuple (p, a, b, Gx, Gy) of a curve slot (spec 10_state R38). -/
structure Curve where
  p : Value
  a : Value
  b : Value
  gx : Value
  gy : Value
deriving DecidableEq, Repr

/-- The error codes of STATUS.ERRCODE (spec 60_exceptions R271); the reserved codes 11 to 15 are no values. -/
inductive ErrCode where
  | ok
  | invalidElement
  | orderMismatch
  | notOnCurve
  | curveMismatch
  | degenerateNonce
  | divisionByZero
  | badModulus
  | undefinedOperand
  | illegalCommand
  | aborted
deriving DecidableEq, Repr

/-- One request on the MAC port (spec 20_memory R79). -/
structure MacReq where
  key : Bytes
  msg : Bytes
deriving DecidableEq, Repr

/-- The MAC calls of GEN_K, named by where they stand in spec 43_nonce R216: steps 2 to 5, the call of the T loop in step 6, and
the two calls after a rejected candidate. -/
inductive MacCall where
  | seedK0
  | seedV0
  | seedK1
  | seedV1
  | fill
  | rejectK
  | rejectV
deriving DecidableEq, Repr

/-- The RFC6979 working values K, V, T and the candidate (spec 10_state R40, 43_nonce R216), with the MAC port of the executing
command (spec 20_memory R79): which call it is at, its request, the tag once the response has arrived, and every request sent so
far, in order. -/
structure Drbg where
  k : Bytes
  v : Bytes
  t : Bytes
  candidate : Nat
  call : MacCall
  req : MacReq
  tag : Option Bytes
  sent : List MacReq
deriving DecidableEq, Repr

/-- A scalar multiplication under way: the accumulators `result` and `current` (spec 10_state R40, 42_point R181), with the
scalar, the number of iterations done, and the product of the command's first multiplication once VERIFY is in its second
(spec 44_ecdsa R245). -/
structure Mul where
  k : Nat
  iters : Nat
  earlier : Option Point
  result : Point
  current : Point
deriving DecidableEq, Repr

/-- The working values of the executing command (spec 10_state R40). -/
inductive Work where
  /-- Execution has not begun. -/
  | fresh
  /-- NONCE or SIGND inside GEN_K (spec 43_nonce R216), with a request on the MAC port. -/
  | gen (g : Drbg)
  /-- PMUL, PUBKEY, SIGN, SIGND or VERIFY inside the loop of spec 42_point R181. -/
  | mul (m : Mul)
deriving DecidableEq, Repr

/-- The engine phase (spec 10_state R40). -/
inductive Phase where
  | idle
  /-- Executing the latched command: `beats` bus accesses are still to be served before it goes on
  (spec 70_reset_and_hazards R320). -/
  | exec (beats : Nat) (work : Work)
deriving DecidableEq, Repr

/-- The direction of a bus access (spec 20_memory R60). -/
inductive BusOp where
  | read
  | write (data : Word)
deriving DecidableEq, Repr

/-- What can arrive at the engine from outside (spec 20_memory R60, R61, R79; 70_reset_and_hazards R310). -/
inductive HostEvent where
  /-- A bus access of `width` bits at bus address `addr`; the register window stands at `Config.base`. -/
  | access (width : Nat) (addr : Nat) (op : BusOp)
  /-- The reset input RST is driven to a level. -/
  | rst (asserted : Bool)
  /-- The MAC provider answers the oldest request that has no answer yet (log entry 19). -/
  | macReply
  /-- A moment in which nothing arrives (log entry 2). -/
  | quiet
deriving DecidableEq, Repr

/-- The bus response to an access (spec 20_memory R61, R62). -/
inductive BusResp where
  | read (error : Bool) (data : Word)
  | write (error : Bool)
deriving DecidableEq, Repr

/-- The whole state. INVENTORY.md lists each field with the rule of the spec that names it. -/
structure State where
  /-- R0..R15 (spec 10_state R21). -/
  regs : Vector Reg 16
  /-- P0..P7 (spec 10_state R25). -/
  points : Vector (Option Point) 8
  /-- MOD2 (spec 10_state R27). -/
  mod2 : Value
  /-- MOD3 (spec 10_state R27). -/
  mod3 : Value
  /-- A1 (spec 10_state R29). -/
  a1 : Value
  /-- B1 (spec 10_state R29). -/
  b1 : Value
  /-- GX1 (spec 10_state R29). -/
  gx1 : Value
  /-- GY1 (spec 10_state R29). -/
  gy1 : Value
  /-- CTRL.IE (spec 10_state R33). -/
  ie : Bool
  /-- STATUS.DONE (spec 10_state R34). -/
  done : Bool
  /-- STATUS.ERR (spec 10_state R34). -/
  err : Bool
  /-- STATUS.VRES (spec 10_state R34). -/
  vres : Bool
  /-- STATUS.EQ (spec 10_state R34). -/
  eqFlag : Bool
  /-- STATUS.WIGN (spec 10_state R34). -/
  wign : Bool
  /-- STATUS.ERRCODE (spec 10_state R34). -/
  errcode : ErrCode
  /-- CMD, and the latched command word while a command executes (spec 10_state R35, R40; log entry 10). -/
  cmd : Word
  /-- ITER (spec 10_state R36). -/
  iter : Word
  /-- The engine phase, visible as STATUS.BUSY, with the working values (spec 10_state R40). -/
  phase : Phase
  /-- The level of the reset input RST, true while asserted (spec 70_reset_and_hazards R310). -/
  rst : Bool
  /-- The requests of commands that an abort or a reset ended whose responses are still to arrive, and to be discarded
  (spec 20_memory R79, 70_reset_and_hazards R310). -/
  abandoned : Nat
  /-- INPUT: the pending events, oldest first (spec 20_memory R72; log entry 1). -/
  host : List HostEvent
  /-- OUTPUT: the bus response to the access served last (log entry 6). -/
  resp : Option BusResp
  /-- The model's own counter of the draws of LAT (log entry 2). -/
  draws : Nat
deriving DecidableEq, Repr

/-- Ways the machine stops with a fault: none. Every failure the spec describes is a completion with an error
code (spec 60_exceptions R280, R285) or a bus error response (spec 20_memory R61). Log entry 12. -/
inductive Fault where
deriving DecidableEq, Repr

/-- Ways the model refuses an instruction. -/
inductive Refusal where
  /-- Raised only by an arm of `exec` for an instruction that has no meaning yet; no arm does. Safe. -/
  | notModelled (mnemonic : String)
deriving DecidableEq, Repr

/-- The state right after reset (spec 10_state R41, 70_reset_and_hazards R311): RST released, no host event
pending, no access answered and no request sent yet. -/
def State.reset : State where
  regs := Vector.replicate 16 ⟨0#256, .raw⟩
  points := Vector.replicate 8 none
  mod2 := 0#256
  mod3 := 0#256
  a1 := 0#256
  b1 := 0#256
  gx1 := 0#256
  gy1 := 0#256
  ie := false
  done := false
  err := false
  vres := false
  eqFlag := false
  wign := false
  errcode := .ok
  cmd := 0#32
  iter := 0#32
  phase := .idle
  rst := false
  abandoned := 0
  host := []
  resp := none
  draws := 0

end Sys2Proof.Machine

namespace Sys2Proof

/-- FREE VALUE. The n-th draw of LAT, a number of bus accesses (spec 70_reset_and_hazards R320: "chosen afresh for each command, and
a model takes it as an oracle or a draw"), for the state in which the command begins: it may depend on the command and on its operands
(R327: "a command's LAT may depend on its operand values"). Log entry 2. -/
opaque Config.lat : Nat → Machine.State → Nat

end Sys2Proof
end

