-- ==== Sys2Proof/Machine/Ops.lean ====
section
/-! DEFINITION. The named operations every meaning is written over: register access, accept, the two kinds of
completion (the error completion is the engine's one way of taking an exception), acknowledging, abort and reset
(spec 60_exceptions R270, R280, R284, R286; 70_reset_and_hazards R310, R312). -/

namespace Sys2Proof.Machine

/-- x[i] (spec 00_scope R16). -/
def State.reg (s : State) (i : RegIx) : Reg := s.regs[i.val]

/-- x[i] <- r (spec 00_scope R16). -/
def State.setReg (s : State) (i : RegIx) (r : Reg) : State := { s with regs := s.regs.set i.val r }

/-- p[j] (spec 00_scope R16). -/
def State.point (s : State) (j : PointIx) : Option Point := s.points[j.val]

/-- p[j] <- v for a point v, never NONE (spec 42_point R170). -/
def State.setPoint (s : State) (j : PointIx) (v : Point) : State := { s with points := s.points.set j.val (some v) }

/-- EQ <- b (spec 10_state R39). -/
def State.setEq (s : State) (b : Bool) : State := { s with eqFlag := b }

/-- VRES <- b (spec 10_state R39). -/
def State.setVres (s : State) (b : Bool) : State := { s with vres := b }

/-- MOD[m] (spec 10_state R27). -/
def State.modulus (s : State) (m : ModIx) : Value :=
  match m with
  | 0 => Config.mod0
  | 1 => Config.mod1
  | 2 => s.mod2
  | 3 => s.mod3

/-- Curve(c) (spec 10_state R38). -/
def State.curve (s : State) : Slot → Curve
  | .s0 => ⟨Config.mod0, Config.a0, Config.b0, Config.gx0, Config.gy0⟩
  | .s1 => ⟨s.mod2, s.a1, s.b1, s.gx1, s.gy1⟩

/-- STATUS.BUSY, which is the engine phase (spec 10_state R40). -/
def State.busy (s : State) : Bool :=
  match s.phase with
  | .idle => false
  | .exec _ _ => true

/-- The working values of the executing command (spec 10_state R40). -/
def State.work (s : State) : Work :=
  match s.phase with
  | .idle => .fresh
  | .exec _ w => w

/-- The IRQ output (spec 10_state R42). -/
def State.irq (s : State) : Bool := s.ie && s.done

/-- The opcodes whose accept clears ITER (spec 60_exceptions R270: w[7:0] in {0x20, 0x22}; log entry 17). -/
def clearsIter (w : Word) : Bool := w.extractLsb' 0 8 == 0x20#8 || w.extractLsb' 0 8 == 0x22#8

/-- Accept of the command word w, with `beats` bus accesses to be served before the command goes on
(spec 60_exceptions R270, 70_reset_and_hazards R320). -/
def State.accept (s : State) (beats : Nat) (w : Word) : State :=
  { s with
    cmd := w
    done := false
    err := false
    errcode := .ok
    vres := false
    eqFlag := false
    iter := if clearsIter w then 0#32 else s.iter
    phase := .exec beats .fresh }

/-- The last line of both kinds of completion: BUSY <- 0, DONE <- 1, working values discarded
(spec 60_exceptions R280, 10_state R40). -/
def State.finish (s : State) : State := { s with phase := .idle, done := true }

/-- `complete_err(code)` (spec 60_exceptions R280): the engine's one way of taking an exception. No destination
and no flag is written. -/
def State.completeErr (s : State) (code : ErrCode) : State :=
  { s with err := true, errcode := code, phase := .idle, done := true }

/-- The completion of a command whose checks gave an error or whose writes gave a state
(spec 60_exceptions R280): `complete_ok` or `complete_err`. -/
def State.complete (s : State) : Except ErrCode State → State
  | .ok t => t.finish
  | .error e => s.completeErr e

/-- The host's acknowledgement of a completion, the engine's nearest thing to a return
(spec 60_exceptions R286, 10_state R34): DONE <- 0; ERR and ERRCODE stay (spec 60_exceptions R281). -/
def State.acknowledge (s : State) : State := { s with done := false }

/-- The executing command has sent a request on the MAC port and waits for its response (spec 20_memory R79). -/
def State.waiting (s : State) : Bool :=
  match s.phase with
  | .exec _ (.gen g) => g.tag.isNone
  | .exec _ .fresh => false
  | .exec _ (.mul _) => false
  | .idle => false

/-- How many responses are to be discarded once the executing command is ended: its request, if it waits for a response, is abandoned
(spec 20_memory R79, 60_exceptions R284, 70_reset_and_hazards R310). -/
def State.abandons (s : State) : Nat := if s.waiting then s.abandoned + 1 else s.abandoned

/-- Abort of the executing command (spec 60_exceptions R284). -/
def State.abort (s : State) : State := { s.completeErr .aborted with abandoned := s.abandons }

/-- Every piece of the engine's state at its reset value (spec 10_state R41, 70_reset_and_hazards R311), and an outstanding MAC
request abandoned (R310, R312). What the host drives (RST, the pending events), the response latch and the model's draw counter are no
state of the engine's. -/
def State.toReset (s : State) : State :=
  { State.reset with rst := s.rst, abandoned := s.abandons, host := s.host, resp := s.resp, draws := s.draws }

/-- GEN_K goes on with these working values: a request stands on the MAC port (spec 43_nonce R216, 20_memory R79). -/
def State.holdGen (s : State) (g : Drbg) : State := { s with phase := .exec 0 (.gen g) }

/-- The loop of PMUL goes on with these accumulators; no bus access is served in between (spec 70_reset_and_hazards R320;
log entry 5). -/
def State.holdMul (s : State) (m : Mul) : State := { s with phase := .exec 0 (.mul m) }

/-- ITER <- min(ITER + 1, 0xFFFF_FFFF) (spec 43_nonce R216, 10_state R36). -/
def State.countRejection (s : State) : State :=
  { s with iter := if s.iter = 0xFFFFFFFF#32 then 0xFFFFFFFF#32 else s.iter + 1#32 }

end Sys2Proof.Machine
end

