-- ==== Sys2Proof/Machine/Arith.lean ====
section
/-! DEFINITION. The modular arithmetic unit: exact integers reduced once into [0, M) (spec 00_scope R13, 41_field R130,
R143) and the exponentiation primitive FPOW_M (spec 41_field R137). -/

namespace Sys2Proof.Machine

/-- bitlen(v) (spec 00_scope R14). -/
def bitlen (v : Nat) : Nat := if v = 0 then 0 else Nat.log2 v + 1

/-- `a mod m`, the mathematical residue of an integer (spec 00_scope R14). -/
def residue (a : Int) (m : Nat) : Nat := (a % (m : Int)).toNat

/-- A residue as a register value (spec 00_scope R8, R13). -/
def toValue (v : Nat) : Value := BitVec.ofNat 256 v

/-- The reduction of v ≥ 0 into [0, M) by either method (spec 00_scope R13: "the canonical residue in [0, M) of the exact mathematical
result", whatever the internal representation). -/
def reduce (_method : Reducer) (v M : Nat) : Nat := v % M

/-- The multiplier: a · b reduced into [0, M) (spec 00_scope R1 (a), 41_field R130). -/
def mulMod (a b M : Nat) : Nat := reduce Config.reducer (a * b) M

/-- The square-and-multiply loop of spec 41_field R137; the third number is how many bits of e are still to come. -/
def powLoop (M b e : Nat) : Nat → Nat → Nat
  | 0, r => r
  | i + 1, r => powLoop M b e i (if e.testBit i then mulMod (mulMod r r M) b M else mulMod r r M)

/-- FPOW_M(b, s) (spec 41_field R137). -/
def fpowM (M b : Nat) (s : Int) : Nat :=
  let e := residue s (M - 1)
  powLoop M b e (bitlen e) (1 % M)

/-- u / v mod M, which is u · FPOW_M(v, M − 2) mod M (spec 41_field R138, 42_point R176). -/
def fdivM (M u v : Nat) : Nat := mulMod u (fpowM M v (M - 2)) M

end Sys2Proof.Machine
end

