-- ==== Sys2Proof/Machine/Rfc6979.lean ====
section
/-! DEFINITION. The RFC 6979 generator over any MAC port: byte strings and GEN_K (spec 00_scope R15; 43_nonce R210 to
R216), one MAC call at a time (log entry 4). `kLen` is the tag length of the port. -/

namespace Sys2Proof.Machine

/-- int(bs), the big-endian integer of a byte string (spec 00_scope R15). -/
def intOfBytes (bs : Bytes) : Nat := bs.foldl (fun acc b => acc * 256 + b.toNat) 0

/-- BE(v, N), the N-byte big-endian string of v mod 2^(8N) (spec 00_scope R15). -/
def beBytes (v : Nat) : Nat → Bytes
  | 0 => []
  | n + 1 => BitVec.ofNat 8 (v / 256 ^ n) :: beBytes v n

/-- N = ceil(qlen / 8) (spec 43_nonce R210). -/
def octetLen (q : Nat) : Nat := (bitlen q + 7) / 8

/-- bits2int(bs, qlen), on the bit-length of the string (spec 43_nonce R211). -/
def bits2int (bs : Bytes) (qlen : Nat) : Nat :=
  if 8 * bs.length > qlen then intOfBytes bs >>> (8 * bs.length - qlen) else intOfBytes bs

/-- int2octets(v, N) (spec 43_nonce R212). -/
def int2octets (v N : Nat) : Bytes := beBytes v N

/-- bits2octets(bs, q) (spec 43_nonce R213). It subtracts q once, so digests z and z + n below 2^256 give one Hq:
R213 defines what a z not below q does (R215), and vector N-10 of spec 95 has the nonce of z - n. The last sentence of spec 44_ecdsa
R251 says otherwise of SIGND and gives no value (log entry 21). -/
def bits2octets (bs : Bytes) (q : Nat) : Bytes :=
  let v := bits2int bs (bitlen q)
  int2octets (if v ≥ q then v - q else v) (octetLen q)

/-- What the messages of steps 2 and 4 of spec 43_nonce R216 hold after V: the separator byte, X = int2octets(e, N) and
Hq = bits2octets(BE(z, 32), q). -/
def seedTail (separator : Byte) (z e q : Nat) : Bytes :=
  [separator] ++ int2octets e (octetLen q) ++ bits2octets (beBytes z 32) q

/-- A request mac(K, msg) goes out on the MAC port (spec 43_nonce R214, 20_memory R79). -/
def Drbg.send (g : Drbg) (call : MacCall) (msg : Bytes) : Drbg :=
  { g with call := call, req := ⟨g.k, msg⟩, tag := none, sent := g.sent ++ [⟨g.k, msg⟩] }

/-- The response to the outstanding request (spec 00_scope R12, 20_memory R79). -/
def Drbg.answered (mac : Bytes → Bytes → Bytes) (g : Drbg) : Drbg := { g with tag := some (mac g.req.key g.req.msg) }

/-- Step 1 of spec 43_nonce R216, and the request of step 2. -/
def Drbg.begin (kLen z e q : Nat) : Drbg :=
  let V := List.replicate kLen 0x01#8
  let g : Drbg :=
    { k := List.replicate kLen 0x00#8, v := V, t := [], candidate := 0, call := .seedK0, req := ⟨[], []⟩, tag := none, sent := [] }
  g.send .seedK0 (V ++ seedTail 0x00#8 z e q)

/-- What follows a response. -/
inductive GenResult where
  /-- The next request is out. -/
  | goes (g : Drbg)
  /-- A candidate was rejected, and the next request is out. -/
  | rejects (g : Drbg)
  /-- A candidate was accepted. -/
  | accepts (k : Nat)
deriving DecidableEq, Repr

/-- The test of spec 43_nonce R216 step 6. -/
def inRange (q candidate : Nat) : Bool := 0 < candidate && candidate < q

/-- Step 6 of spec 43_nonce R216 once T has N bytes: prefix(T, N), the candidate, its test, and after a rejection the request
mac(K, V ‖ 0x00). -/
def Drbg.test (q : Nat) (g : Drbg) : GenResult :=
  let t := g.t.take (octetLen q)
  let candidate := bits2int t (bitlen q)
  if inRange q candidate then .accepts candidate
  else .rejects ({ g with t := t, candidate := candidate }.send .rejectK (g.v ++ [0x00#8]))

/-- GEN_K(z, e, q) from the response y to the outstanding request on, up to the next request or the end (spec 43_nonce R216). -/
def Drbg.advance (z e q : Nat) (g : Drbg) (y : Bytes) : GenResult :=
  match g.call with
  | .seedK0 => .goes ({ g with k := y }.send .seedV0 g.v)
  | .seedV0 => .goes ({ g with v := y }.send .seedK1 (y ++ seedTail 0x01#8 z e q))
  | .seedK1 => .goes ({ g with k := y }.send .seedV1 g.v)
  | .seedV1 => .goes ({ g with v := y, t := [] }.send .fill y)
  | .fill =>
    let g' := { g with v := y, t := g.t ++ y }
    if g'.t.length < octetLen q then .goes (g'.send .fill y) else g'.test q
  | .rejectK => .goes ({ g with k := y }.send .rejectV g.v)
  | .rejectV => .goes ({ g with v := y, t := [] }.send .fill y)

end Sys2Proof.Machine
end

