-- ==== Sys2Proof/Machine/Bus.lean ====
section
/-! DEFINITION. The register window: the address map, bus reads and writes, the bus responses, the MAC responses and the
reset input (spec 20_memory R60 to R70, R79; 10_state R23, R26, R30 to R37; 70_reset_and_hazards R310). -/

namespace Sys2Proof.Machine

/-- The 256-bit registers of the window other than R0..R15 and the point windows (spec 20_memory R70). -/
inductive Wide where
  | mod0
  | mod1
  | mod2
  | mod3
  | gx0
  | gy0
  | a1
  | b1
  | gx1
  | gy1
deriving DecidableEq, Repr

/-- What stands at a word of the window (spec 20_memory R70); k is the word's number within a 256-bit register. -/
inductive Target where
  | id
  | param
  | ctrl
  | status
  | cmd
  | iter
  | tags0
  | tags1
  | pstat
  | reserved
  | reg (i : RegIx) (k : Fin 8)
  | wide (r : Wide) (k : Fin 8)
  | pointX (j : PointIx) (k : Fin 8)
  | pointY (j : PointIx) (k : Fin 8)
deriving DecidableEq, Repr

/-- The n-th 256-bit register from offset 0x300 (spec 20_memory R70). -/
def wideAt : Nat → Wide
  | 0 => .mod0
  | 1 => .mod1
  | 2 => .mod2
  | 3 => .mod3
  | 4 => .gx0
  | 5 => .gy0
  | 6 => .a1
  | 7 => .b1
  | 8 => .gx1
  | _ => .gy1

/-- The n-th of the nine 32-bit registers from offset 0x000 (spec 20_memory R70). -/
def narrowAt : Nat → Target
  | 0 => .id
  | 1 => .param
  | 2 => .ctrl
  | 3 => .status
  | 4 => .cmd
  | 5 => .iter
  | 6 => .tags0
  | 7 => .tags1
  | _ => .pstat

/-- The offset within the register window of a bus address, for the 4096 bytes from BASE on (spec 20_memory R60). -/
def windowOffset (addr : Nat) : Option (BitVec 12) :=
  if Config.base ≤ addr ∧ addr < Config.base + 4096 then some (BitVec.ofNat 12 (addr - Config.base)) else none

/-- The address map (spec 20_memory R70), for an offset divisible by 4. -/
def locate (off : BitVec 12) : Target :=
  let o := off.toNat
  let k : Fin 8 := Fin.ofNat 8 (o / 4)
  if o < 0x024 then narrowAt (o / 4)
  else if o < 0x100 then .reserved
  else if o < 0x300 then .reg (Fin.ofNat 16 ((o - 0x100) / 0x20)) k
  else if o < 0x440 then .wide (wideAt ((o - 0x300) / 0x20)) k
  else if o < 0x500 then .reserved
  else if o < 0x700 then
    if (o - 0x500) % 0x40 < 0x20 then .pointX (Fin.ofNat 8 ((o - 0x500) / 0x40)) k
    else .pointY (Fin.ofNat 8 ((o - 0x500) / 0x40)) k
  else .reserved

/-- Word k of a 256-bit register: V[255 − 32k : 224 − 32k] (spec 20_memory R62). -/
def wordOf (v : Value) (k : Fin 8) : Word := v.extractLsb' (224 - 32 * k.val) 32

/-- V with word k replaced by w (spec 20_memory R62). -/
def withWord (v : Value) (k : Fin 8) (w : Word) : Value :=
  (v &&& ~~~(0xFFFFFFFF#256 <<< (224 - 32 * k.val))) ||| (w.setWidth 256 <<< (224 - 32 * k.val))

/-- The code of an error in STATUS.ERRCODE (spec 60_exceptions R271). -/
def ErrCode.bits : ErrCode → BitVec 4
  | .ok => 0#4
  | .invalidElement => 1#4
  | .orderMismatch => 2#4
  | .notOnCurve => 3#4
  | .curveMismatch => 4#4
  | .degenerateNonce => 5#4
  | .divisionByZero => 6#4
  | .badModulus => 7#4
  | .undefinedOperand => 8#4
  | .illegalCommand => 9#4
  | .aborted => 10#4

/-- PARAM (spec 10_state R32). -/
def paramWord : Word :=
  0#8 ++ BitVec.ofNat 8 Config.np ++ BitVec.ofNat 8 Config.nr ++ BitVec.ofNat 8 Config.kLen

/-- CTRL as read: only IE holds a value (spec 10_state R33). -/
def ctrlWord (s : State) : Word := 0#31 ++ BitVec.ofBool s.ie

/-- STATUS as read (spec 10_state R34). -/
def statusWord (s : State) : Word :=
  0#20 ++ s.errcode.bits ++ 0#2 ++ BitVec.ofBool s.wign ++ BitVec.ofBool s.eqFlag ++ BitVec.ofBool s.vres
    ++ BitVec.ofBool s.err ++ BitVec.ofBool s.done ++ BitVec.ofBool s.busy

/-- The nibble of a tag in TAGS0 and TAGS1 (spec 10_state R37). -/
def Tag.nibble : Tag → BitVec 4
  | .raw => 0#4
  | .el m => 0#1 ++ 1#1 ++ BitVec.ofNat 2 m.val

/-- TAGS0 (base 0) and TAGS1 (base 8) (spec 10_state R37). -/
def tagsWord (s : State) (base : Nat) : Word :=
  let t := fun (k : Nat) => (s.reg (Fin.ofNat 16 (base + k))).tag.nibble
  t 7 ++ t 6 ++ t 5 ++ t 4 ++ t 3 ++ t 2 ++ t 1 ++ t 0

/-- The nibble of a point register in PSTAT (spec 10_state R37). -/
def pointNibble : Option Point → BitVec 4
  | none => 0#4
  | some .inf => 1#4
  | some (.aff .s0 _ _) => 2#4
  | some (.aff .s1 _ _) => 6#4

/-- PSTAT (spec 10_state R37). -/
def pstatWord (s : State) : Word :=
  let t := fun (j : Nat) => pointNibble (s.point (Fin.ofNat 8 j))
  t 7 ++ t 6 ++ t 5 ++ t 4 ++ t 3 ++ t 2 ++ t 1 ++ t 0

/-- The X window of a point register: 0 for NONE and INF (spec 10_state R26). -/
def pointXVal : Option Point → Value
  | some (.aff _ x _) => x
  | some .inf => 0#256
  | none => 0#256

/-- The Y window of a point register: 0 for NONE and INF (spec 10_state R26). -/
def pointYVal : Option Point → Value
  | some (.aff _ _ y) => y
  | some .inf => 0#256
  | none => 0#256

/-- The content of a 256-bit register (spec 20_memory R70). -/
def wideVal (s : State) : Wide → Value
  | .mod0 => Config.mod0
  | .mod1 => Config.mod1
  | .mod2 => s.mod2
  | .mod3 => s.mod3
  | .gx0 => Config.gx0
  | .gy0 => Config.gy0
  | .a1 => s.a1
  | .b1 => s.b1
  | .gx1 => s.gx1
  | .gy1 => s.gy1

/-- What a well-formed read returns (spec 20_memory R62, R64, R67, R70); no read has a side effect (R69). -/
def readTarget (s : State) : Target → Word
  | .id => Config.idWord
  | .param => paramWord
  | .ctrl => ctrlWord s
  | .status => statusWord s
  | .cmd => s.cmd
  | .iter => s.iter
  | .tags0 => tagsWord s 0
  | .tags1 => tagsWord s 8
  | .pstat => pstatWord s
  | .reserved => 0#32
  | .reg i k => wordOf (s.reg i).val k
  | .wide r k => wordOf (wideVal s r) k
  | .pointX j k => wordOf (pointXVal (s.point j)) k
  | .pointY j k => wordOf (pointYVal (s.point j)) k

/-- MemRead(off, 4) of spec 20_memory R60, for an offset divisible by 4. -/
def memRead (s : State) (off : BitVec 12) : Word := readTarget s (locate off)

/-- Every operand register with tag EL(m) becomes RAW, keeping its value (spec 10_state R30). -/
def State.dropElements (s : State) (m : ModIx) : State :=
  { s with regs := s.regs.map fun r => if r.tag = .el m then ⟨r.val, .raw⟩ else r }

/-- A slot-1 point becomes NONE (spec 10_state R30). -/
def dropSlot1 : Option Point → Option Point
  | some (.aff .s1 _ _) => none
  | some (.aff .s0 x y) => some (.aff .s0 x y)
  | some .inf => some .inf
  | none => none

/-- Every point register with p[j] = AFF(1, ·, ·) becomes NONE (spec 10_state R30). -/
def State.dropPoints (s : State) : State := { s with points := s.points.map dropSlot1 }

/-- A write that spec 20_memory R66 ignores while BUSY: then only WIGN is set. -/
def State.unlessBusy (s : State) (t : State) : State := if s.busy then { s with wign := true } else t

/-- A write to a 256-bit register outside R0..R15: MOD0, MOD1, GX0, GY0 are read-only (spec 20_memory R65); the others are
written unless BUSY (R66), with the invalidations of 10_state R30. -/
def writeWide (s : State) (r : Wide) (k : Fin 8) (w : Word) : State :=
  match r with
  | .mod0 => s
  | .mod1 => s
  | .gx0 => s
  | .gy0 => s
  | .mod2 => s.unlessBusy ({ s with mod2 := withWord s.mod2 k w }.dropElements 2).dropPoints
  | .mod3 => s.unlessBusy ({ s with mod3 := withWord s.mod3 k w }.dropElements 3)
  | .a1 => s.unlessBusy { s with a1 := withWord s.a1 k w }.dropPoints
  | .b1 => s.unlessBusy { s with b1 := withWord s.b1 k w }.dropPoints
  | .gx1 => s.unlessBusy { s with gx1 := withWord s.gx1 k w }
  | .gy1 => s.unlessBusy { s with gy1 := withWord s.gy1 k w }

/-- A write to CTRL (spec 10_state R33): SRST governs (70_reset_and_hazards R312); otherwise IE takes bit 0 and ABORT ends
an executing command (60_exceptions R284). -/
def writeCtrl (s : State) (w : Word) : State :=
  if w.getLsbD 2 then s.toReset
  else
    let t := { s with ie := w.getLsbD 0 }
    if w.getLsbD 1 && s.busy then t.abort else t

/-- A write to STATUS (spec 10_state R34): W1C of DONE (bit 1) and of WIGN (bit 5). -/
def writeStatus (s : State) (w : Word) : State :=
  let t := if w.getLsbD 1 then s.acknowledge else s
  if w.getLsbD 5 then { t with wign := false } else t

/-- A write to CMD: an accept, with a fresh draw of LAT for the command and its operands, unless BUSY (spec 10_state R35, 60_exceptions R270,
70_reset_and_hazards R320). -/
def writeCmd (s : State) (w : Word) : State :=
  s.unlessBusy ({ s with draws := s.draws + 1 }.accept (Config.lat s.draws (s.accept 0 w)) w)

/-- A well-formed write (spec 20_memory R64, R65, R66, R70; 10_state R23, R30). -/
def writeTarget (s : State) (t : Target) (w : Word) : State :=
  match t with
  | .id => s
  | .param => s
  | .ctrl => writeCtrl s w
  | .status => writeStatus s w
  | .cmd => writeCmd s w
  | .iter => s
  | .tags0 => s
  | .tags1 => s
  | .pstat => s
  | .reserved => s
  | .reg i k => s.unlessBusy (s.setReg i ⟨withWord (s.reg i).val k w, .raw⟩)
  | .wide r k => writeWide s r k w
  | .pointX _ _ => s
  | .pointY _ _ => s

/-- MemWrite(off, 4, w) of spec 20_memory R60, for an offset divisible by 4. -/
def memWrite (s : State) (off : BitVec 12) (w : Word) : State := writeTarget s (locate off) w

/-- The only legal access: 32 bits at an offset divisible by 4 (spec 20_memory R61). -/
def wellFormedAccess (width : Nat) (off : BitVec 12) : Bool := width == 32 && off.toNat % 4 == 0

/-- The bus answers the access served. -/
def State.respond (s : State) (r : BusResp) : State := { s with resp := some r }

/-- One bus access at an offset of the window. A malformed one gets the error response, reads 0 and has no effect (spec 20_memory R61). While RST is
asserted reads return 0 and writes are ignored (spec 70_reset_and_hazards R310; log entry 7). -/
def busAccess (s : State) (width : Nat) (off : BitVec 12) : BusOp → State
  | .read =>
    if wellFormedAccess width off then
      s.respond (.read false (if s.rst then 0#32 else memRead s off))
    else s.respond (.read true 0#32)
  | .write w =>
    if wellFormedAccess width off then
      (if s.rst then s else memWrite s off w).respond (.write false)
    else s.respond (.write true)

/-- A level of the reset input (spec 70_reset_and_hazards R310, R313): reset values when RST is asserted and when it is
released (log entry 8). -/
def driveReset (s : State) (asserted : Bool) : State :=
  if asserted then { s.toReset with rst := true }
  else if s.rst then { s.toReset with rst := false }
  else s

/-- A response on the MAC port: it answers the oldest request that has no answer yet, so those of abandoned requests come first and
are discarded (spec 20_memory R79; log entry 19); then it is the tag of the request that the executing command waits for. With no
request outstanding it changes nothing. -/
def macResponse (s : State) : State :=
  if 0 < s.abandoned then { s with abandoned := s.abandoned - 1 }
  else
    match s.phase with
    | .exec n (.gen g) => if g.tag.isNone then { s with phase := .exec n (.gen (g.answered Config.mac)) } else s
    | .exec _ .fresh => s
    | .exec _ (.mul _) => s
    | .idle => s

/-- An access at a bus address: outside the register window it is none of the engine's (spec 20_memory R60; log entry 20). -/
def addressed (s : State) (width addr : Nat) (op : BusOp) : State :=
  match windowOffset addr with
  | some off => busAccess s width off op
  | none => s

/-- One event. -/
def handleEvent (s : State) : HostEvent → State
  | .access width addr op => addressed s width addr op
  | .rst asserted => driveReset s asserted
  | .macReply => macResponse s
  | .quiet => s

/-- The engine serves the oldest pending event, if there is one (spec 20_memory R72). An idle engine without one keeps
its state (spec 60_exceptions R295). -/
def serveHost (s : State) : State :=
  match s.host with
  | [] => s
  | ev :: rest => handleEvent { s with host := rest } ev

/-- The next event to be served is a level of RST. -/
def State.resetPending (s : State) : Bool :=
  match s.host with
  | .rst _ :: _ => true
  | _ => false

/-- What the engine serves next counts against LAT: an access that reaches it (spec 70_reset_and_hazards R320), or a moment without an
event (log entry 2). -/
def State.countsBeat (s : State) : Bool :=
  match s.host with
  | [] => true
  | .access _ addr _ :: _ => (windowOffset addr).isSome
  | .quiet :: _ => true
  | .macReply :: _ => false
  | .rst _ :: _ => false

end Sys2Proof.Machine
end

