-- ==== Sys2Proof/Machine/Control.lean ====
section
/-! DEFINITION. The control command (spec 40_control R120). -/

namespace Sys2Proof.Machine

/-- NOP (spec 40_control R120): nothing is written; it completes. -/
def execNop (s : State) : Host.Outcome State Fault Refusal := .next (s.complete (.ok s))

end Sys2Proof.Machine
end

