-- ==== Sys2Proof/Machine/CurveArith.lean ====
section
/-! DEFINITION. The point adder and the scalar multiplier (spec 42_point R172, R176, R178, R181). -/

namespace Sys2Proof.Machine

/-- OnCurve(c, x, y) (spec 42_point R172). -/
def onCurve (cv : Curve) (x y : Value) : Bool :=
  residue ((y.toNat * y.toNat : Int) - (x.toNat * x.toNat * x.toNat + cv.a.toNat * x.toNat + cv.b.toNat))
    cv.p.toNat = 0

/-- The first three entries of Curve(c): (p, a, b) (spec 42_point R176, R184). -/
def Curve.params (cv : Curve) : Value × Value × Value := (cv.p, cv.a, cv.b)

/-- The third point of the line with slope s through (x1, y1) and a second point with x coordinate x2
(spec 42_point R176, cases 5 and 6, where in case 6 x2 = x1). -/
def chord (c : Slot) (p s x1 y1 x2 : Nat) : Point :=
  let x3 := residue ((s : Int) * s - x1 - x2) p
  let y3 := residue ((s : Int) * ((x1 : Int) - x3) - y1) p
  .aff c (toValue x3) (toValue y3)

/-- A quotient in the point adder: a zero divisor raises DIVISION_BY_ZERO (spec 42_point R176, R178). -/
def slope (p num den : Nat) : Except ErrCode Nat :=
  if den = 0 then .error .divisionByZero else .ok (fdivM p num den)

/-- PADD(P, Q) (spec 42_point R176), the six cases in order; the slot of the result is that of spec 42_point R179. -/
def pointAdd (curve : Slot → Curve) : Point → Point → Except ErrCode Point
  | .inf, q => .ok q
  | q, .inf => .ok q
  | .aff c1 x1 y1, .aff c2 x2 y2 =>
    if (curve c1).params ≠ (curve c2).params then .error .curveMismatch
    else
      let p := (curve c1).p.toNat
      let a := (curve c1).a.toNat
      if x1 = x2 ∧ y1 ≠ y2 then .ok .inf
      else if x1 = x2 ∧ y1 = y2 ∧ y1.toNat = 0 then .ok .inf
      else if x1 ≠ x2 then
        match slope p (residue ((y2.toNat : Int) - y1.toNat) p) (residue ((x2.toNat : Int) - x1.toNat) p) with
        | .error e => .error e
        | .ok s => .ok (chord c1 p s x1.toNat y1.toNat x2.toNat)
      else
        match slope p (residue (3 * x1.toNat * x1.toNat + a : Nat) p) (residue (2 * y1.toNat : Nat) p) with
        | .error e => .error e
        | .ok s => .ok (chord c1 p s x1.toNat y1.toNat x1.toNat)

/-- The accumulators before the first iteration of PMUL(P, k) (spec 42_point R181). -/
def Mul.start (P : Point) (k : Nat) (earlier : Option Point) : Mul :=
  { k := k, iters := 0, earlier := earlier, result := .inf, current := P }

/-- Some iteration of the loop is still to come (spec 42_point R181: exactly bitlen(k) iterations). -/
def Mul.more (m : Mul) : Bool := m.iters < bitlen m.k

/-- One iteration of the loop of spec 42_point R181: the conditional addition, then the doubling, which is always done. -/
def Mul.iterate (curve : Slot → Curve) (m : Mul) : Except ErrCode Mul :=
  match (if m.k.testBit m.iters then pointAdd curve m.result m.current else .ok m.result) with
  | .error e => .error e
  | .ok result =>
    match pointAdd curve m.current m.current with
    | .error e => .error e
    | .ok current => .ok { m with iters := m.iters + 1, result := result, current := current }

/-- `n` iterations of the loop of spec 42_point R181. -/
def Mul.loop (curve : Slot → Curve) : Nat → Mul → Except ErrCode Mul
  | 0, m => .ok m
  | n + 1, m => do
    let m' ← m.iterate curve
    Mul.loop curve n m'

/-- PMUL(P, k) (spec 42_point R181) as one function. The machine runs the loop one iteration a step (log entry 5). -/
def pointMul (curve : Slot → Curve) (P : Point) (k : Nat) : Except ErrCode Point := do
  let m ← Mul.loop curve (bitlen k) (Mul.start P k none)
  return m.result

/-- The equality of PEQ (spec 42_point R184). -/
def pointEq (curve : Slot → Curve) : Point → Point → Bool
  | .inf, .inf => true
  | .inf, .aff _ _ _ => false
  | .aff _ _ _, .inf => false
  | .aff c1 x1 y1, .aff c2 x2 y2 => (curve c1).params = (curve c2).params ∧ x1 = x2 ∧ y1 = y2

/-- G = AFF(0, GX0, GY0) (spec 44_ecdsa R240). -/
def generator : Point := .aff .s0 Config.gx0 Config.gy0

end Sys2Proof.Machine
end

