-- ==== Sys2Proof/Machine/Operands.lean ====
section
/-! DEFINITION. How commands read their operands, with the checks the spec gives each form
(spec 41_field R132, R133; 42_point R171; 10_state R38). -/

namespace Sys2Proof.Machine

/-- The value of an operand register read by value, tag ignored (spec 42_point R170, 43_nonce R215, 44_ecdsa R240). -/
def State.valNat (s : State) (i : RegIx) : Nat := (s.reg i).val.toNat

/-- MOD[m] as an integer. -/
def State.modNat (s : State) (m : ModIx) : Nat := (s.modulus m).toNat

/-- ElemRead(i) (spec 41_field R132). -/
def elemRead (s : State) (i : RegIx) : Except ErrCode (Nat × ModIx) :=
  match (s.reg i).tag with
  | .raw => .error .undefinedOperand
  | .el m => .ok (s.valNat i, m)

/-- SameModulus(t1, t2) (spec 41_field R133). -/
def sameModulus (s : State) (t1 t2 : ModIx) : Except ErrCode Unit :=
  if s.modulus t1 = s.modulus t2 then .ok () else .error .orderMismatch

/-- The operand reads of a two-operand field command (spec 41_field R130): the two values and the tag of the first. -/
def elemRead2 (s : State) (rs1 rs2 : RegIx) : Except ErrCode (Nat × Nat × ModIx) := do
  let (a, t1) ← elemRead s rs1
  let (b, t2) ← elemRead s rs2
  sameModulus s t1 t2
  return (a, b, t1)

/-- PointRead(j) (spec 42_point R171). -/
def pointRead (s : State) (j : PointIx) : Except ErrCode Point :=
  match s.point j with
  | none => .error .undefinedOperand
  | some P => .ok P

/-- CurveCheck(c) (spec 10_state R38). -/
def curveCheck (s : State) : Slot → Except ErrCode Unit
  | .s0 => .ok ()
  | .s1 =>
    if s.mod2.toNat < 2 then .error .badModulus
    else if s.a1.toNat ≥ s.mod2.toNat ∨ s.b1.toNat ≥ s.mod2.toNat then .error .invalidElement
    else .ok ()

/-- The construction of an affine point on slot c (spec 42_point R174). -/
def newPoint (s : State) (c : Slot) (x y : Value) : Except ErrCode Point := do
  curveCheck s c
  let p := (s.curve c).p.toNat
  if x.toNat ≥ p ∨ y.toNat ≥ p then .error .invalidElement
  else if onCurve (s.curve c) x y then .ok (.aff c x y)
  else .error .notOnCurve

end Sys2Proof.Machine
end

