-- ==== Sys2Proof/Machine/Nonce.lean ====
section
/-! DEFINITION. The nonce command (spec 43_nonce R217) and the shared run of GEN_K (spec 43_nonce R216, R218, R219),
one MAC call a step (log entry 4). -/

namespace Sys2Proof.Machine

/-- One step of a command that runs GEN_K(z, e, q): the first step sends the first request; every later step takes the response that
has arrived, and goes on to the next request, counts a rejected candidate first, or ends with the accepted one
(spec 43_nonce R216, R218). While no response has arrived nothing happens (spec 20_memory R79). -/
def genStep (s : State) (z e q : Nat) (accepted : Nat → State) : State :=
  match s.work with
  | .gen g =>
    match g.tag with
    | none => s
    | some y =>
      match g.advance z e q y with
      | .goes g' => s.holdGen g'
      | .rejects g' => s.countRejection.holdGen g'
      | .accepts k => accepted k
  | .fresh => s.holdGen (Drbg.begin Config.kLen z e q)
  | .mul _ => s.holdGen (Drbg.begin Config.kLen z e q)

/-- NONCE rd, rz, re, m (spec 43_nonce R217). -/
def execNonce (rd rz re : RegIx) (m : ModIx) (s : State) : Host.Outcome State Fault Refusal :=
  .next (
    if s.modNat m < 2 then s.completeErr .badModulus
    else genStep s (s.valNat rz) (s.valNat re) (s.modNat m) fun k =>
      s.complete (.ok (s.setReg rd ⟨toValue k, .raw⟩)))

end Sys2Proof.Machine
end

