-- ==== Sys2Proof/Machine/Flags.lean ====
section
/-! DEFINITION. The two condition flags EQ and VRES: how FEQ, PEQ and VERIFY compute them
(spec 10_state R39; 41_field R142; 42_point R184; 44_ecdsa R245, R246, R247). -/

namespace Sys2Proof.Machine

/-- The tags agree, an element's by the value of its modulus (spec 41_field R142). -/
def sameTag (s : State) : Tag → Tag → Bool
  | .raw, .raw => true
  | .raw, .el _ => false
  | .el _, .raw => false
  | .el m1, .el m2 => s.modulus m1 = s.modulus m2

/-- The EQ that FEQ writes (spec 41_field R142). -/
def feqFlag (s : State) (rs1 rs2 : RegIx) : Bool :=
  (s.reg rs1).val = (s.reg rs2).val && sameTag s (s.reg rs1).tag (s.reg rs2).tag

/-- VERIFY's domain checks (spec 44_ecdsa R245, R246). -/
def verifyDomain (s : State) (r sg : Nat) (px py : Value) : Bool :=
  let n := Config.mod1.toNat
  let p := Config.mod0.toNat
  !(r = 0 || sg = 0 || r ≥ n || sg ≥ n) && !(px.toNat ≥ p || py.toNat ≥ p || !onCurve (s.curve .s0) px py)

/-- P = AFF(0, X, Y) with X mod n = r (spec 44_ecdsa R245); an error of the computation gives false (R247). -/
def matchesR (r : Nat) : Except ErrCode Point → Bool
  | .ok (.aff _ X _) => X.toNat % Config.mod1.toNat = r
  | .ok .inf => false
  | .error _ => false

end Sys2Proof.Machine
end

