-- ==== Sys2Proof/Machine/PointCmd.lean ====
section
/-! DEFINITION. The point commands (spec 42_point). -/

namespace Sys2Proof.Machine

/-- PINF pd (spec 42_point R173). -/
def execPinf (pd : PointIx) (s : State) : Host.Outcome State Fault Refusal :=
  .next (s.complete (.ok (s.setPoint pd .inf)))

/-- PNEW pd, rx, ry, c (spec 42_point R174). -/
def execPnew (pd : PointIx) (rx ry : RegIx) (c : Slot) (s : State) : Host.Outcome State Fault Refusal :=
  .next (s.complete do
    let P ← newPoint s c (s.reg rx).val (s.reg ry).val
    return s.setPoint pd P)

/-- The generator that PGEN loads (spec 42_point R175): the constant G for slot 0; for slot 1 the checked point. -/
def slotGenerator (s : State) : Slot → Except ErrCode Point
  | .s0 => .ok generator
  | .s1 => newPoint s .s1 s.gx1 s.gy1

/-- PGEN pd, c (spec 42_point R175). -/
def execPgen (pd : PointIx) (c : Slot) (s : State) : Host.Outcome State Fault Refusal :=
  .next (s.complete do
    let P ← slotGenerator s c
    return s.setPoint pd P)

/-- PADD pd, ps1, ps2 (spec 42_point R177). -/
def execPadd (pd ps1 ps2 : PointIx) (s : State) : Host.Outcome State Fault Refusal :=
  .next (s.complete do
    let P ← pointRead s ps1
    let Q ← pointRead s ps2
    let R ← pointAdd s.curve P Q
    return s.setPoint pd R)

/-- One step inside the loop of PMUL(P, k) (spec 42_point R181): one iteration, whose error goes to `failed`, or, when all
are done, `finish` with the product. -/
def mulStep (s : State) (m : Mul) (failed : ErrCode → State) (finish : Point → State) : State :=
  if m.more then
    match m.iterate s.curve with
    | .error e => failed e
    | .ok m' => s.holdMul m'
  else finish m.result

/-- One step of a command that runs PMUL(P, k) once and ends with its error (spec 42_point R181; log entry 5). -/
def multiply (s : State) (P : Point) (k : Nat) (finish : Point → State) : State :=
  match s.work with
  | .mul m => mulStep s m s.completeErr finish
  | .fresh => s.holdMul (Mul.start P k none)
  | .gen _ => s.holdMul (Mul.start P k none)

/-- PMUL pd, ps, rk (spec 42_point R182). -/
def execPmul (pd ps : PointIx) (rk : RegIx) (s : State) : Host.Outcome State Fault Refusal :=
  .next (match pointRead s ps with
    | .error e => s.completeErr e
    | .ok P => multiply s P (s.valNat rk) fun R => s.complete (.ok (s.setPoint pd R)))

/-- PEQ ps1, ps2 (spec 42_point R184). -/
def execPeq (ps1 ps2 : PointIx) (s : State) : Host.Outcome State Fault Refusal :=
  .next (s.complete do
    let P ← pointRead s ps1
    let Q ← pointRead s ps2
    return s.setEq (pointEq s.curve P Q))

/-- PUBKEY pd, re (spec 42_point R185). -/
def execPubkey (pd : PointIx) (re : RegIx) (s : State) : Host.Outcome State Fault Refusal :=
  .next (multiply s generator (s.valNat re) fun R => s.complete (.ok (s.setPoint pd R)))

/-- PGET rdx, rdy, ps (spec 42_point R186; the order of the two writes is that of 44_ecdsa R249). -/
def execPget (rdx rdy : RegIx) (ps : PointIx) (s : State) : Host.Outcome State Fault Refusal :=
  .next (s.complete do
    match ← pointRead s ps with
    | .inf => .error .undefinedOperand
    | .aff _ x y => return (s.setReg rdx ⟨x, .raw⟩).setReg rdy ⟨y, .raw⟩)

end Sys2Proof.Machine
end

