-- ==== Sys2Proof/Machine/Ecdsa.lean ====
section
/-! DEFINITION. The ECDSA commands (spec 44_ecdsa). -/

namespace Sys2Proof.Machine

/-- SIGN_CORE(z, e, k) from R = PMUL(G, k) on (spec 44_ecdsa R242): the pair (r, s). -/
def signCore (z e k : Nat) : Point → Except ErrCode (Nat × Nat)
  | .inf => .error .degenerateNonce
  | .aff _ Rx _ =>
    let n := Config.mod1.toNat
    let r := Rx.toNat % n
    if r = 0 then .error .degenerateNonce
    else
      let sg := fpowM n k (n - 2) * (z + r * e) % n
      if sg = 0 then .error .degenerateNonce
      else .ok (r, sg)

/-- The private key is not in [1, n − 1] (spec 44_ecdsa R241, R243; 60_exceptions R272). -/
def badKey (e : Nat) : Bool := e = 0 || e ≥ Config.mod1.toNat

/-- The commit of a signature: first r, then s (spec 44_ecdsa R249). -/
def State.setSignature (s : State) (rdr rds : RegIx) (sig : Nat × Nat) : State :=
  (s.setReg rdr ⟨toValue sig.1, .raw⟩).setReg rds ⟨toValue sig.2, .raw⟩

/-- The last part of both signing commands, from R = PMUL(G, k) on (spec 44_ecdsa R241, R242, R243). -/
def finishSign (s : State) (rdr rds : RegIx) (z e k : Nat) (R : Point) : State :=
  s.complete do
    let sig ← signCore z e k R
    return s.setSignature rdr rds sig

/-- SIGN rdr, rz, re, rk, rds (spec 44_ecdsa R241). -/
def execSign (rdr rz re rk rds : RegIx) (s : State) : Host.Outcome State Fault Refusal :=
  .next (
    if badKey (s.valNat re) then s.completeErr .invalidElement
    else if s.valNat rk ≥ Config.mod1.toNat then s.completeErr .invalidElement
    else multiply s generator (s.valNat rk) (finishSign s rdr rds (s.valNat rz) (s.valNat re) (s.valNat rk)))

/-- SIGND rdr, rz, re, rds (spec 44_ecdsa R243): GEN_K, then SIGN_CORE with the k it returned. -/
def execSignd (rdr rz re rds : RegIx) (s : State) : Host.Outcome State Fault Refusal :=
  .next (
    if badKey (s.valNat re) then s.completeErr .invalidElement
    else
      match s.work with
      | .mul m => mulStep s m s.completeErr (finishSign s rdr rds (s.valNat rz) (s.valNat re) m.k)
      | _ => genStep s (s.valNat rz) (s.valNat re) Config.mod1.toNat fun k => s.holdMul (Mul.start generator k none))

/-- VERIFY ends with this VRES (spec 44_ecdsa R245); an error of its computation ends it with 0 (R247). -/
def endVerify (s : State) (valid : Bool) : State := s.complete (.ok (s.setVres valid))

/-- VERIFY's w = s⁻¹ mod n (spec 44_ecdsa R245). -/
def verifyW (sg : Nat) : Nat := fpowM Config.mod1.toNat sg (Config.mod1.toNat - 2)

/-- VERIFY rr, rs, rz, rpx, rpy (spec 44_ecdsa R245, R246, R247): PMUL(G, u), then PMUL(Q, v), then their sum. -/
def execVerify (rr rs rz rpx rpy : RegIx) (s : State) : Host.Outcome State Fault Refusal :=
  .next (
    let px := (s.reg rpx).val
    let py := (s.reg rpy).val
    let w := verifyW (s.valNat rs)
    let u := s.valNat rz * w % Config.mod1.toNat
    let v := s.valNat rr * w % Config.mod1.toNat
    if verifyDomain s (s.valNat rr) (s.valNat rs) px py then
      match s.work with
      | .mul m =>
        mulStep s m (fun _ => endVerify s false) fun R =>
          match m.earlier with
          | none => s.holdMul (Mul.start (.aff .s0 px py) v (some R))
          | some P1 => endVerify s (matchesR (s.valNat rr) (pointAdd s.curve P1 R))
      | .fresh => s.holdMul (Mul.start generator u none)
      | .gen _ => s.holdMul (Mul.start generator u none)
    else endVerify s false)

end Sys2Proof.Machine
end

