-- ==== Sys2Proof/Machine/Field.lean ====
section
/-! DEFINITION. The field commands (spec 41_field). Each reads its operands, checks them in the order of its rule,
computes, and completes. -/

namespace Sys2Proof.Machine

/-- FNEW rd, rs, m (spec 41_field R131). -/
def execFnew (rd rs : RegIx) (m : ModIx) (s : State) : Host.Outcome State Fault Refusal :=
  .next (s.complete (
    if s.modNat m < 2 then .error .badModulus
    else if s.valNat rs ≥ s.modNat m then .error .invalidElement
    else .ok (s.setReg rd ⟨(s.reg rs).val, .el m⟩)))

/-- FADD rd, rs1, rs2 (spec 41_field R134). -/
def execFadd (rd rs1 rs2 : RegIx) (s : State) : Host.Outcome State Fault Refusal :=
  .next (s.complete do
    let (a, b, t) ← elemRead2 s rs1 rs2
    return s.setReg rd ⟨toValue ((a + b) % s.modNat t), .el t⟩)

/-- FSUB rd, rs1, rs2 (spec 41_field R135). -/
def execFsub (rd rs1 rs2 : RegIx) (s : State) : Host.Outcome State Fault Refusal :=
  .next (s.complete do
    let (a, b, t) ← elemRead2 s rs1 rs2
    return s.setReg rd ⟨toValue (if a ≥ b then a - b else a + s.modNat t - b), .el t⟩)

/-- FMUL rd, rs1, rs2 (spec 41_field R136). -/
def execFmul (rd rs1 rs2 : RegIx) (s : State) : Host.Outcome State Fault Refusal :=
  .next (s.complete do
    let (a, b, t) ← elemRead2 s rs1 rs2
    return s.setReg rd ⟨toValue (mulMod a b (s.modNat t)), .el t⟩)

/-- FDIV rd, rs1, rs2 (spec 41_field R138). -/
def execFdiv (rd rs1 rs2 : RegIx) (s : State) : Host.Outcome State Fault Refusal :=
  .next (s.complete do
    let (a, b, t) ← elemRead2 s rs1 rs2
    if b = 0 then .error .divisionByZero
    else return s.setReg rd ⟨toValue (fdivM (s.modNat t) a b), .el t⟩)

/-- FINV rd, rs (spec 41_field R139). -/
def execFinv (rd rs : RegIx) (s : State) : Host.Outcome State Fault Refusal :=
  .next (s.complete do
    let (a, t) ← elemRead s rs
    if a = 0 then .error .divisionByZero
    else return s.setReg rd ⟨toValue (fpowM (s.modNat t) a (s.modNat t - 2)), .el t⟩)

/-- The signed exponent of FPOW (spec 41_field R140). -/
def signedExponent (neg : Bool) (E : Nat) : Int := if neg then -(E : Int) else E

/-- FPOW rd, rs, re and FPOW.NEG (spec 41_field R140). -/
def execFpow (rd rs re : RegIx) (neg : Bool) (s : State) : Host.Outcome State Fault Refusal :=
  .next (s.complete do
    let (a, t) ← elemRead s rs
    if neg = true ∧ s.valNat re ≠ 0 ∧ a = 0 then .error .divisionByZero
    else return s.setReg rd ⟨toValue (fpowM (s.modNat t) a (signedExponent neg (s.valNat re))), .el t⟩)

/-- FSCALE rd, rs, #imm (spec 41_field R141, 30_encoding R93). -/
def execFscale (rd rs : RegIx) (imm8 : BitVec 8) (s : State) : Host.Outcome State Fault Refusal :=
  .next (s.complete do
    let (a, t) ← elemRead s rs
    return s.setReg rd ⟨toValue (mulMod a imm8.toNat (s.modNat t)), .el t⟩)

/-- FEQ rs1, rs2 (spec 41_field R142). -/
def execFeq (rs1 rs2 : RegIx) (s : State) : Host.Outcome State Fault Refusal :=
  .next (s.complete (.ok (s.setEq (feqFlag s rs1 rs2))))

end Sys2Proof.Machine
end

