-- ==== Sys2Proof/Machine/Dispatch.lean ====
section
/-! DEFINITION. The dispatch of commands to their meanings (spec 30_encoding R94). -/

namespace Sys2Proof.Machine

def exec (i : Instr) (s : State) : Host.Outcome State Fault Refusal :=
  match i with
  | .nop => Sys2Proof.Machine.execNop s
  | .fnew rd rs m => Sys2Proof.Machine.execFnew rd rs m s
  | .fadd rd rs1 rs2 => Sys2Proof.Machine.execFadd rd rs1 rs2 s
  | .fsub rd rs1 rs2 => Sys2Proof.Machine.execFsub rd rs1 rs2 s
  | .fmul rd rs1 rs2 => Sys2Proof.Machine.execFmul rd rs1 rs2 s
  | .fdiv rd rs1 rs2 => Sys2Proof.Machine.execFdiv rd rs1 rs2 s
  | .finv rd rs => Sys2Proof.Machine.execFinv rd rs s
  | .fpow rd rs re neg => Sys2Proof.Machine.execFpow rd rs re neg s
  | .fscale rd rs imm8 => Sys2Proof.Machine.execFscale rd rs imm8 s
  | .feq rs1 rs2 => Sys2Proof.Machine.execFeq rs1 rs2 s
  | .pinf pd => Sys2Proof.Machine.execPinf pd s
  | .pnew pd rx ry c => Sys2Proof.Machine.execPnew pd rx ry c s
  | .pgen pd c => Sys2Proof.Machine.execPgen pd c s
  | .padd pd ps1 ps2 => Sys2Proof.Machine.execPadd pd ps1 ps2 s
  | .pmul pd ps rk => Sys2Proof.Machine.execPmul pd ps rk s
  | .peq ps1 ps2 => Sys2Proof.Machine.execPeq ps1 ps2 s
  | .pubkey pd re => Sys2Proof.Machine.execPubkey pd re s
  | .pget rdx rdy ps => Sys2Proof.Machine.execPget rdx rdy ps s
  | .nonce rd rz re m => Sys2Proof.Machine.execNonce rd rz re m s
  | .sign rdr rz re rk rds => Sys2Proof.Machine.execSign rdr rz re rk rds s
  | .signd rdr rz re rds => Sys2Proof.Machine.execSignd rdr rz re rds s
  | .verify rr rs rz rpx rpy => Sys2Proof.Machine.execVerify rr rs rz rpx rpy s

end Sys2Proof.Machine
end

