-- ==== Sys2Proof/Machine/Step.lean ====
section
/-! DEFINITION. One step of the engine (spec 60_exceptions R270, R280; 70_reset_and_hazards R320), and how a command word
is placed so that the very next step runs it. -/

namespace Sys2Proof.Machine

/-- The latched command word (spec 10_state R40): CMD while a command executes. -/
def State.latched (s : State) : Word := s.cmd

/-- The engine executes the latched command: the decode checks first, then the command's meaning
(spec 30_encoding R96, 60_exceptions R282). -/
def runLatched (s : State) : Host.Outcome State Fault Refusal :=
  match decode s.latched with
  | .ok i => exec i s
  | .error _ => .next (s.completeErr .illegalCommand)

/-- One step. A level of RST that is next is served whatever the engine does (spec 70_reset_and_hazards R310, R313). Otherwise an
executing command whose drawn accesses are all served goes on, unless it waits for a MAC response; an idle engine, one with drawn
accesses left and one that waits serve the next event, which counts against the draw in the second case
(spec 70_reset_and_hazards R320, 20_memory R79; log entries 2 and 4). -/
def step (s : State) : Host.Outcome State Fault Refusal :=
  if s.resetPending then .next (serveHost s)
  else
    match s.phase with
    | .idle => .next (serveHost s)
    | .exec 0 _ => if s.waiting then .next (serveHost s) else runLatched s
    | .exec (n + 1) w => .next (serveHost (if s.countsBeat then { s with phase := .exec n w } else s))

/-- The state in which the host has just written this word to CMD and the draw of LAT was 0, with nothing else pending
(spec 60_exceptions R270, 70_reset_and_hazards R320; log entry 1): the very next step runs it. -/
def State.withFetchWord (s : State) (nbits w : Nat) : State :=
  { s with rst := false, host := [] }.accept 0 (tableWord nbits w)

end Sys2Proof.Machine
end

