-- ==== Sys2Proof/Safety.lean ====
section
/-! DEFINITION. What counts as a good state, in the terms claims use: the invariants of spec 10_state R22 and R25 and those
the lifecycle of spec 60_exceptions R270, R280 and 70_reset_and_hazards R310 gives. -/

namespace Sys2Proof.Machine

/-! ### Which commands write what -/

/-- The field commands with a destination register, and that register (spec 41_field R131 to R141). -/
def fieldDest : Instr → Option RegIx
  | .fnew rd _ _ => some rd
  | .fadd rd _ _ => some rd
  | .fsub rd _ _ => some rd
  | .fmul rd _ _ => some rd
  | .fdiv rd _ _ => some rd
  | .finv rd _ => some rd
  | .fpow rd _ _ _ => some rd
  | .fscale rd _ _ => some rd
  | _ => none

/-- The commands with a point destination, and that register (spec 42_point R173 to R185). -/
def pointDest : Instr → Option PointIx
  | .pinf pd => some pd
  | .pnew pd _ _ _ => some pd
  | .pgen pd _ => some pd
  | .padd pd _ _ => some pd
  | .pmul pd _ _ => some pd
  | .pubkey pd _ => some pd
  | _ => none

/-- The commands that write raw results into operand registers, and those registers
(spec 42_point R186, 43_nonce R217, 44_ecdsa R241, R243). -/
def rawDests : Instr → List RegIx
  | .pget rdx rdy _ => [rdx, rdy]
  | .nonce rd _ _ _ => [rd]
  | .sign rdr _ _ _ rds => [rdr, rds]
  | .signd rdr _ _ rds => [rdr, rds]
  | _ => []

/-- NONCE and SIGND, the commands that run GEN_K (spec 43_nonce, introduction). -/
def runsGenK : Instr → Bool
  | .nonce _ _ _ _ => true
  | .signd _ _ _ _ => true
  | _ => false

/-- The commands that run PMUL(P, k) (spec 42_point R182, R185; 44_ecdsa R242, R243, R245). -/
def multipliesPoint : Instr → Bool
  | .pmul _ _ _ => true
  | .pubkey _ _ => true
  | .sign _ _ _ _ _ => true
  | .signd _ _ _ _ => true
  | .verify _ _ _ _ _ => true
  | _ => false

/-- The commands that write EQ (spec 10_state R39). -/
def writesEq : Instr → Bool
  | .feq _ _ => true
  | .peq _ _ => true
  | _ => false

/-- The command that writes VRES (spec 10_state R39). -/
def writesVres : Instr → Bool
  | .verify _ _ _ _ _ => true
  | _ => false

/-! ### Good states -/

/-- An element is below its modulus, which is at least 2 (spec 10_state R22). -/
def State.ElementsReduced (s : State) : Prop :=
  ∀ (i : RegIx) (m : ModIx), (s.reg i).tag = .el m → 2 ≤ s.modNat m ∧ s.valNat i < s.modNat m

/-- A point value has a valid slot and coordinates below its prime (spec 10_state R25, without the curve equation). -/
def State.PointReduced (s : State) : Point → Prop
  | .inf => True
  | .aff c x y => curveCheck s c = .ok () ∧ x.toNat < (s.curve c).p.toNat ∧ y.toNat < (s.curve c).p.toNat

/-- Every point register that holds a point holds a reduced one (spec 10_state R25, without the curve equation). -/
def State.PointsReduced (s : State) : Prop :=
  ∀ (j : PointIx) (P : Point), s.point j = some P → s.PointReduced P

/-- A point value lies on its curve (spec 10_state R25), where the modulus of its slot is prime: a composite modulus breaks
the equation (spec 41_field R145, 42_point R178; log entry 15). -/
def State.PointOnCurve (s : State) : Point → Prop
  | .inf => True
  | .aff c x y => Nat.Prime (s.curve c).p.toNat → onCurve (s.curve c) x y = true

/-- Every point register that holds a point holds one on its curve (spec 10_state R25). -/
def State.PointsOnCurve (s : State) : Prop :=
  ∀ (j : PointIx) (P : Point), s.point j = some P → s.PointOnCurve P

/-- The status record: nothing of an earlier command stands while BUSY (spec 60_exceptions R270), ERRCODE is 0 exactly when
ERR is 0 (spec 10_state R34), and no flag stands beside an error (spec 60_exceptions R280). -/
def State.StatusConsistent (s : State) : Prop :=
  (s.busy = true → s.done = false ∧ s.err = false ∧ s.vres = false ∧ s.eqFlag = false) ∧
  (s.err = true ↔ s.errcode ≠ .ok) ∧
  (s.err = true → s.vres = false ∧ s.eqFlag = false)

/-- While RST is asserted every piece of the engine's state has its reset value (spec 70_reset_and_hazards R310). -/
def State.ResetHeld (s : State) : Prop := s.rst = true → s.toReset = s

/-- The executing command runs GEN_K(z, e, q) (spec 43_nonce R217, 44_ecdsa R243). -/
def State.generates (s : State) (z e q : Nat) : Prop :=
  match decode s.latched with
  | .ok (.nonce _ rz re m) => z = s.valNat rz ∧ e = s.valNat re ∧ q = s.modNat m
  | .ok (.signd _ rz re _) => z = s.valNat rz ∧ e = s.valNat re ∧ q = Config.mod1.toNat
  | _ => False

/-- GEN_K(z, e, q) after `n` responses, all from this provider, with no candidate accepted (spec 43_nonce R216). -/
def Drbg.after (mac : Bytes → Bytes → Bytes) (kLen z e q : Nat) : Nat → Option Drbg
  | 0 => some (Drbg.begin kLen z e q)
  | n + 1 =>
    match Drbg.after mac kLen z e q n with
    | none => none
    | some g =>
      match g.advance z e q (mac g.req.key g.req.msg) with
      | .goes g' => some g'
      | .rejects g' => some g'
      | .accepts _ => none

/-- The executing command multiplies P by k; `earlier` is the product of its first multiplication in VERIFY's second
(spec 42_point R182, R185; 44_ecdsa R242, R243, R245). -/
def State.multiplies (s : State) (P : Point) (k : Nat) (earlier : Option Point) : Prop :=
  match decode s.latched with
  | .ok (.pmul _ ps rk) => s.point ps = some P ∧ k = s.valNat rk ∧ earlier = none
  | .ok (.pubkey _ re) => P = generator ∧ k = s.valNat re ∧ earlier = none
  | .ok (.sign _ _ _ rk _) => P = generator ∧ k = s.valNat rk ∧ k < Config.mod1.toNat ∧ earlier = none
  | .ok (.signd _ _ _ _) => P = generator ∧ 0 < k ∧ k < Config.mod1.toNat ∧ earlier = none
  | .ok (.verify rr rs rz rpx rpy) =>
    let n := Config.mod1.toNat
    let w := verifyW (s.valNat rs)
    (P = generator ∧ k = s.valNat rz * w % n ∧ earlier = none) ∨
      (P = .aff .s0 (s.reg rpx).val (s.reg rpy).val ∧ k = s.valNat rr * w % n ∧
        ∃ P1 : Point, earlier = some P1 ∧ pointMul s.curve generator (s.valNat rz * w % n) = .ok P1)
  | _ => False

/-- The working values belong to the executing command. In GEN_K: the order is at least 2 and they are those that some number of
responses give, with the last response not yet arrived or arrived and not yet used (spec 43_nonce R214, R216). In the loop of PMUL: the
accumulators are those that the iterations done give (spec 42_point R181). -/
def State.LoopConsistent (s : State) : Prop :=
  (∀ (beats : Nat) (g : Drbg), s.phase = .exec beats (.gen g) →
    beats = 0 ∧ ∃ (z e q n : Nat) (g' : Drbg), s.generates z e q ∧ 2 ≤ q ∧ Drbg.after Config.mac Config.kLen z e q n = some g' ∧
      (g = g' ∨ g = g'.answered Config.mac)) ∧
  (∀ (beats : Nat) (m : Mul), s.phase = .exec beats (.mul m) →
    beats = 0 ∧ m.iters ≤ bitlen m.k ∧
      ∃ P : Point, s.multiplies P m.k m.earlier ∧ Mul.loop s.curve m.iters (Mul.start P m.k m.earlier) = .ok m)

/-- The invariant of the engine that holds for every modulus. -/
structure State.Inv (s : State) : Prop where
  elements : s.ElementsReduced
  points : s.PointsReduced
  status : s.StatusConsistent
  reset : s.ResetHeld
  loop : s.LoopConsistent

/-- The invariant of the engine with the curve equation of spec 10_state R25. -/
structure State.CurveInv (s : State) : Prop where
  base : s.Inv
  onCurve : s.PointsOnCurve

end Sys2Proof.Machine
end

