-- ==== Sys2Proof/WellFormed.lean ====
section
/-! DEFINITION. Which command words are well formed, read from the format table (spec 30_encoding R92, R94, R95),
apart from the decoder, which is written from the checks of spec 30_encoding R96. Operands of an `Instr` are
bounded by their types, so every `Instr` is well formed; what can be ill formed is a raw word. -/

namespace Sys2Proof

/-- The role a format gives a field (spec 30_encoding R92); `imm` is half of IMM8 (spec 30_encoding R93). -/
inductive Role where
  | reg
  | point
  | modIx
  | slot
  | neg
  | imm
  | zero
deriving DecidableEq, Repr

/-- The field values a role admits (spec 30_encoding R92). -/
def Role.admits : Role → Nibble → Bool
  | .reg, _ => true
  | .point, n => n.toNat < 8
  | .modIx, n => n.toNat < 4
  | .slot, n => n.toNat < 2
  | .neg, n => n.toNat < 2
  | .imm, _ => true
  | .zero, n => n.toNat == 0

/-- The roles of the fields A, B, C, D, E, X in one format (a row of spec 30_encoding R94). -/
structure Format where
  a : Role
  b : Role
  c : Role
  d : Role
  e : Role
  x : Role
deriving DecidableEq, Repr

/-- The format of each opcode (spec 30_encoding R94, R95); no format for an opcode outside the map. -/
def formatOf (op : BitVec 8) : Option Format :=
  match op.toNat with
  | 0x00 => some ⟨.zero, .zero, .zero, .zero, .zero, .zero⟩
  | 0x01 => some ⟨.reg, .reg, .zero, .zero, .zero, .modIx⟩
  | 0x02 | 0x03 | 0x04 | 0x05 => some ⟨.reg, .reg, .reg, .zero, .zero, .zero⟩
  | 0x06 => some ⟨.reg, .reg, .zero, .zero, .zero, .zero⟩
  | 0x07 => some ⟨.reg, .reg, .reg, .zero, .zero, .neg⟩
  | 0x08 => some ⟨.reg, .reg, .imm, .imm, .zero, .zero⟩
  | 0x09 => some ⟨.zero, .reg, .reg, .zero, .zero, .zero⟩
  | 0x10 => some ⟨.point, .zero, .zero, .zero, .zero, .zero⟩
  | 0x11 => some ⟨.point, .reg, .reg, .zero, .zero, .slot⟩
  | 0x12 => some ⟨.point, .zero, .zero, .zero, .zero, .slot⟩
  | 0x13 => some ⟨.point, .point, .point, .zero, .zero, .zero⟩
  | 0x14 => some ⟨.point, .point, .reg, .zero, .zero, .zero⟩
  | 0x15 => some ⟨.zero, .point, .point, .zero, .zero, .zero⟩
  | 0x16 => some ⟨.point, .reg, .zero, .zero, .zero, .zero⟩
  | 0x17 => some ⟨.reg, .reg, .point, .zero, .zero, .zero⟩
  | 0x20 => some ⟨.reg, .reg, .reg, .zero, .zero, .modIx⟩
  | 0x21 => some ⟨.reg, .reg, .reg, .reg, .reg, .zero⟩
  | 0x22 => some ⟨.reg, .reg, .reg, .zero, .reg, .zero⟩
  | 0x23 => some ⟨.reg, .reg, .reg, .reg, .reg, .zero⟩
  | _ => none

/-- A format admits a word when every field has a value its role admits. -/
def Format.admits (t : Format) (f : Fields) : Bool :=
  t.a.admits f.a && t.b.admits f.b && t.c.admits f.c && t.d.admits f.d && t.e.admits f.e && t.x.admits f.x

/-- A command word is well formed when its opcode is in the map and its format admits it
(spec 30_encoding R97: every other word is illegal). -/
def Fields.wellFormed (f : Fields) : Bool :=
  match formatOf f.op with
  | none => false
  | some t => t.admits f

end Sys2Proof
end

