-- ==== Sys2Proof/Certificates/Slice0/Obligations.lean ====
section
/-! DEFINITION. The statements for the provers. Each is a rule of the spec, or rests on the sections its entry in
OBLIGATIONS.json names. Helpers of the statements stand first, under Sys2Proof.Claims. -/

namespace Sys2Proof.Claims

open Sys2Proof.Machine

/-- The mnemonic of a command as spec/opcode_table.json spells it. -/
def mnemonic : Instr → String
  | .nop => "NOP"
  | .fnew _ _ _ => "FNEW"
  | .fadd _ _ _ => "FADD"
  | .fsub _ _ _ => "FSUB"
  | .fmul _ _ _ => "FMUL"
  | .fdiv _ _ _ => "FDIV"
  | .finv _ _ => "FINV"
  | .fpow _ _ _ _ => "FPOW"
  | .fscale _ _ _ => "FSCALE"
  | .feq _ _ => "FEQ"
  | .pinf _ => "PINF"
  | .pnew _ _ _ _ => "PNEW"
  | .pgen _ _ => "PGEN"
  | .padd _ _ _ => "PADD"
  | .pmul _ _ _ => "PMUL"
  | .peq _ _ => "PEQ"
  | .pubkey _ _ => "PUBKEY"
  | .pget _ _ _ => "PGET"
  | .nonce _ _ _ _ => "NONCE"
  | .sign _ _ _ _ _ => "SIGN"
  | .signd _ _ _ _ => "SIGND"
  | .verify _ _ _ _ _ => "VERIFY"

/-- The rows (mnemonic, match, mask) of spec/opcode_table.json. -/
def opcodeRows : List (String × Word × Word) :=
  [("NOP", 0x00000000, 0xFFFFFFFF), ("FNEW", 0x00000001, 0xCFFF00FF), ("FADD", 0x00000002, 0xFFF000FF),
   ("FSUB", 0x00000003, 0xFFF000FF), ("FMUL", 0x00000004, 0xFFF000FF), ("FDIV", 0x00000005, 0xFFF000FF),
   ("FINV", 0x00000006, 0xFFFF00FF), ("FPOW", 0x00000007, 0xEFF000FF), ("FSCALE", 0x00000008, 0xFF0000FF),
   ("FEQ", 0x00000009, 0xFFF00FFF), ("PINF", 0x00000010, 0xFFFFF8FF), ("PNEW", 0x00000011, 0xEFF008FF),
   ("PGEN", 0x00000012, 0xEFFFF8FF), ("PADD", 0x00000013, 0xFFF888FF), ("PMUL", 0x00000014, 0xFFF088FF),
   ("PEQ", 0x00000015, 0xFFF88FFF), ("PUBKEY", 0x00000016, 0xFFFF08FF), ("PGET", 0x00000017, 0xFFF800FF),
   ("NONCE", 0x00000020, 0xCFF000FF), ("SIGN", 0x00000021, 0xF00000FF), ("SIGND", 0x00000022, 0xF0F000FF),
   ("VERIFY", 0x00000023, 0xF00000FF)]

/-- The error codes a command may complete with once it is decoded, from the "raised by" column of spec 60_exceptions R271. -/
def errorsOf : Instr → List ErrCode
  | .nop => []
  | .fnew _ _ _ => [.badModulus, .invalidElement]
  | .fadd _ _ _ => [.undefinedOperand, .orderMismatch]
  | .fsub _ _ _ => [.undefinedOperand, .orderMismatch]
  | .fmul _ _ _ => [.undefinedOperand, .orderMismatch]
  | .fdiv _ _ _ => [.undefinedOperand, .orderMismatch, .divisionByZero]
  | .finv _ _ => [.undefinedOperand, .divisionByZero]
  | .fpow _ _ _ _ => [.undefinedOperand, .divisionByZero]
  | .fscale _ _ _ => [.undefinedOperand]
  | .feq _ _ => []
  | .pinf _ => []
  | .pnew _ _ _ .s0 => [.invalidElement, .notOnCurve]
  | .pnew _ _ _ .s1 => [.badModulus, .invalidElement, .notOnCurve]
  | .pgen _ .s0 => []
  | .pgen _ .s1 => [.badModulus, .invalidElement, .notOnCurve]
  | .padd _ _ _ => [.undefinedOperand, .curveMismatch, .divisionByZero]
  | .pmul _ _ _ => [.undefinedOperand, .divisionByZero]
  | .peq _ _ => [.undefinedOperand]
  | .pubkey _ _ => []
  | .pget _ _ _ => [.undefinedOperand]
  | .nonce _ _ _ _ => [.badModulus]
  | .sign _ _ _ _ _ => [.invalidElement, .degenerateNonce]
  | .signd _ _ _ _ => [.invalidElement, .degenerateNonce]
  | .verify _ _ _ _ _ => []

/-- The checks after which a command that multiplies goes on with the loop of PMUL (spec 42_point R182, R185;
44_ecdsa R241, R243, R245). -/
def mayMultiply (s : State) : Instr → Prop
  | .pmul _ ps _ => s.point ps ≠ none
  | .pubkey _ _ => True
  | .sign _ _ re rk _ => 1 ≤ s.valNat re ∧ s.valNat re < Config.mod1.toNat ∧ s.valNat rk < Config.mod1.toNat
  | .signd _ _ re _ => 1 ≤ s.valNat re ∧ s.valNat re < Config.mod1.toNat
  | .verify rr rs _ rpx rpy =>
    0 < s.valNat rr ∧ s.valNat rr < Config.mod1.toNat ∧ 0 < s.valNat rs ∧ s.valNat rs < Config.mod1.toNat ∧
      s.valNat rpx < Config.mod0.toNat ∧ s.valNat rpy < Config.mod0.toNat ∧
      s.valNat rpy ^ 2 ≡ s.valNat rpx ^ 3 + 7 [MOD Config.mod0.toNat]
  | _ => False

/-- An access at an offset of the register window, at its bus address (spec 20_memory R60). -/
def accessAt (width : Nat) (off : BitVec 12) (op : BusOp) : HostEvent := .access width (Config.base + off.toNat) op

/-- The executing command has a request on the MAC port that has no response yet (spec 20_memory R79). -/
def outstanding (s : State) : Prop := ∃ (beats : Nat) (g : Drbg), s.phase = .exec beats (.gen g) ∧ g.tag = none

/-- The executing command goes on in this step: its drawn accesses are served, no level of RST is next and no MAC response is
outstanding (spec 70_reset_and_hazards R313, R320; 20_memory R79). -/
def goesOn (s : State) : Prop :=
  (∃ work : Work, s.phase = .exec 0 work) ∧ (∀ (level : Bool) (rest : List HostEvent), s.host ≠ .rst level :: rest) ∧ ¬ outstanding s

/-- How many MAC responses are to be discarded after the executing command is ended (spec 20_memory R79, 70_reset_and_hazards R310). -/
def discards (s : State) (n : Nat) : Prop :=
  (outstanding s → n = s.abandoned + 1) ∧ (¬ outstanding s → n = s.abandoned)

/-- The machine steps from s to t. -/
def reaches (s t : State) : Prop := ∃ n : Nat, core.run n s = .next t

/-- The host leaves the engine alone while it executes this command, which has just begun. -/
def begun (s : State) (i : Instr) : Prop :=
  decode s.cmd = .ok i ∧ (∃ beats : Nat, s.phase = .exec beats .fresh) ∧ s.host = []

/-- Both parts of a signature from R = (Rx, ·) and k: r = Rx mod n and s = k^(n−2)·(z + r·e) mod n (spec 44_ecdsa R242). -/
def signatureOf (z e k : Nat) (Rx : Value) : Nat × Nat :=
  let n := Config.mod1.toNat
  let r := Rx.toNat % n
  (r, k ^ (n - 2) * (z + r * e) % n)

/-- r, then s, written RAW (spec 44_ecdsa R249). -/
def withSignature (s : State) (rdr rds : RegIx) (sig : Nat × Nat) : State :=
  (s.setReg rdr ⟨BitVec.ofNat 256 sig.1, .raw⟩).setReg rds ⟨BitVec.ofNat 256 sig.2, .raw⟩

/-- The commands of slot 0 alone (spec 42_point R185, 44_ecdsa R240). -/
def slot0Only : Instr → Bool
  | .pubkey _ _ => true
  | .sign _ _ _ _ _ => true
  | .signd _ _ _ _ => true
  | .verify _ _ _ _ _ => true
  | _ => false

/-- The state with other slot-1 registers. -/
def withSlot1 (s : State) (mod2 a1 b1 gx1 gy1 : Value) : State :=
  { s with mod2 := mod2, a1 := a1, b1 := b1, gx1 := gx1, gy1 := gy1 }

/-- The offset of word k of the 256-bit register whose base offset is `base` (spec 20_memory R62). -/
def wordOffset (base : Nat) (k : Fin 8) : BitVec 12 := BitVec.ofNat 12 (base + 4 * k.val)

/-- The base offset of Ri (spec 20_memory R70). -/
def regBase (i : RegIx) : Nat := 0x100 + 0x20 * i.val

/-- The base offset of each 256-bit register from 0x300 on (spec 20_memory R70). -/
def wideBase : Wide → Nat
  | .mod0 => 0x300
  | .mod1 => 0x320
  | .mod2 => 0x340
  | .mod3 => 0x360
  | .gx0 => 0x380
  | .gy0 => 0x3A0
  | .a1 => 0x3C0
  | .b1 => 0x3E0
  | .gx1 => 0x400
  | .gy1 => 0x420

/-- The reserved offsets divisible by 4 (spec 20_memory R70). -/
def reservedOffset (off : BitVec 12) : Prop :=
  off.toNat % 4 = 0 ∧
    ((0x024 ≤ off.toNat ∧ off.toNat < 0x100) ∨ (0x440 ≤ off.toNat ∧ off.toNat < 0x500) ∨ 0x700 ≤ off.toNat)

/-- The offsets of the read-only registers of spec 20_memory R65: ID, PARAM, ITER, TAGS0, TAGS1, PSTAT, MOD0, MOD1, GX0, GY0
and the point windows. -/
def readOnlyOffset (off : BitVec 12) : Prop :=
  off.toNat % 4 = 0 ∧
    (off.toNat < 0x008 ∨ (0x014 ≤ off.toNat ∧ off.toNat < 0x024) ∨ (0x300 ≤ off.toNat ∧ off.toNat < 0x340) ∨
      (0x380 ≤ off.toNat ∧ off.toNat < 0x3C0) ∨ (0x500 ≤ off.toNat ∧ off.toNat < 0x700))

/-- The offsets that spec 20_memory R66 locks while BUSY: CMD, R0..R15, MOD2, MOD3, A1, B1, GX1, GY1. -/
def lockedOffset (off : BitVec 12) : Prop :=
  off.toNat % 4 = 0 ∧
    (off.toNat = 0x010 ∨ (0x100 ≤ off.toNat ∧ off.toNat < 0x300) ∨ (0x340 ≤ off.toNat ∧ off.toNat < 0x380) ∨
      (0x3C0 ≤ off.toNat ∧ off.toNat < 0x440))

/-- An access after which an executing command is still executing: no CTRL write that aborts or resets (spec 60_exceptions R284,
70_reset_and_hazards R312, R313). -/
def harmless (width : Nat) (off : BitVec 12) : BusOp → Bool
  | .read => true
  | .write w => !(wellFormedAccess width off && off == 0x008#12 && (w.getLsbD 1 || w.getLsbD 2))

/-! The MAC calls of GEN_K(z, e, q), written out from spec 43_nonce R216 for any port `mac`, apart from the model's generator. -/

/-- c = ceil(N / K_LEN), the MAC calls of the T loop in one pass (spec 43_nonce R221). -/
def callsPerPass (kLen q : Nat) : Nat := (octetLen q + kLen - 1) / kLen

/-- The MAC calls up to the candidate of pass j + 1: 4 + (j + 1)·c + 2·j (spec 43_nonce R221). -/
def callsUpTo (kLen q j : Nat) : Nat := 4 + (j + 1) * callsPerPass kLen q + 2 * j

/-- X ‖ Hq (spec 43_nonce R216). -/
def keyAndDigest (z e q : Nat) : Bytes := int2octets e (octetLen q) ++ bits2octets (beBytes z 32) q

/-- K and V after steps 1 to 5. -/
def seedKV (mac : Bytes → Bytes → Bytes) (kLen z e q : Nat) : Bytes × Bytes :=
  let K1 := List.replicate kLen 0x00#8
  let V1 := List.replicate kLen 0x01#8
  let K2 := mac K1 (V1 ++ [0x00#8] ++ keyAndDigest z e q)
  let V3 := mac K2 V1
  let K4 := mac K2 (V3 ++ [0x01#8] ++ keyAndDigest z e q)
  (K4, mac K4 V3)

/-- The requests of steps 2 to 5, in order. -/
def seedRequests (mac : Bytes → Bytes → Bytes) (kLen z e q : Nat) : List MacReq :=
  let K1 := List.replicate kLen 0x00#8
  let V1 := List.replicate kLen 0x01#8
  let K2 := mac K1 (V1 ++ [0x00#8] ++ keyAndDigest z e q)
  let V3 := mac K2 V1
  let K4 := mac K2 (V3 ++ [0x01#8] ++ keyAndDigest z e q)
  [⟨K1, V1 ++ [0x00#8] ++ keyAndDigest z e q⟩, ⟨K2, V1⟩, ⟨K2, V3 ++ [0x01#8] ++ keyAndDigest z e q⟩, ⟨K4, V3⟩]

/-- K and V at the beginning of pass j + 1 of step 6, all candidates before it being rejected. -/
def passKV (mac : Bytes → Bytes → Bytes) (kLen z e q : Nat) : Nat → Bytes × Bytes
  | 0 => seedKV mac kLen z e q
  | j + 1 =>
    let K := (passKV mac kLen z e q j).1
    let V := (mac K)^[callsPerPass kLen q] (passKV mac kLen z e q j).2
    (mac K (V ++ [0x00#8]), mac (mac K (V ++ [0x00#8])) V)

/-- The candidate of pass j + 1: T is V after each of the c calls, cut to N bytes. -/
def passCandidate (mac : Bytes → Bytes → Bytes) (kLen z e q j : Nat) : Nat :=
  let K := (passKV mac kLen z e q j).1
  let V := (passKV mac kLen z e q j).2
  bits2int (((List.range (callsPerPass kLen q)).flatMap fun i => (mac K)^[i + 1] V).take (octetLen q)) (bitlen q)

/-- The requests of the T loop of pass j + 1. -/
def passRequests (mac : Bytes → Bytes → Bytes) (kLen z e q j : Nat) : List MacReq :=
  let K := (passKV mac kLen z e q j).1
  let V := (passKV mac kLen z e q j).2
  (List.range (callsPerPass kLen q)).map fun i => ⟨K, (mac K)^[i] V⟩

/-- The two requests after the rejected candidate of pass j + 1. -/
def retryRequests (mac : Bytes → Bytes → Bytes) (kLen z e q j : Nat) : List MacReq :=
  let K := (passKV mac kLen z e q j).1
  let V := (mac K)^[callsPerPass kLen q] (passKV mac kLen z e q j).2
  [⟨K, V ++ [0x00#8]⟩, ⟨mac K (V ++ [0x00#8]), V⟩]

/-- All requests up to the candidate of pass j + 1, in order. -/
def requestsUpTo (mac : Bytes → Bytes → Bytes) (kLen z e q : Nat) : Nat → List MacReq
  | 0 => seedRequests mac kLen z e q ++ passRequests mac kLen z e q 0
  | j + 1 => requestsUpTo mac kLen z e q j ++ retryRequests mac kLen z e q j ++ passRequests mac kLen z e q (j + 1)

/-- The candidate is not in [1, q − 1]. -/
def rejected (q candidate : Nat) : Prop := candidate = 0 ∨ q ≤ candidate

/-- The command i, which has just begun with this draw of LAT, gets this many MAC responses and nothing else: first a moment without an
event for each drawn access, then the responses. -/
def begunWithReplies (s : State) (i : Instr) (replies : Nat) : Prop :=
  decode s.cmd = .ok i ∧ ∃ beats : Nat, s.phase = .exec beats .fresh ∧
    s.host = List.replicate beats .quiet ++ List.replicate (s.abandoned + replies) .macReply

/-- Reduced points on the curve with the parameters (p, a, b), each INF or of a slot that holds that curve. -/
def onOneCurve (s : State) (params : Value × Value × Value) (points : List Point) : Prop :=
  ∀ P ∈ points, s.PointReduced P ∧ ∀ (c : Slot) (x y : Value), P = .aff c x y →
    (s.curve c).params = params ∧ onCurve (s.curve c) x y = true

/-- `min(a, 0xFFFF_FFFF)` as a register value (spec 10_state R36). -/
def saturated (a : Nat) : Word := BitVec.ofNat 32 (min a 0xFFFFFFFF)

end Sys2Proof.Claims

open Sys2Proof Sys2Proof.Machine Sys2Proof.Claims

/-! ## Encoding -/

/-- Words written out from spec 30_encoding R94, R95 and R98 decode to the commands they stand for. -/
def Obligations.SpecWordsDecode : Prop :=
  decode 0x00000000 = .ok .nop ∧
  decode 0x30000101 = .ok (.fnew 1 0 3) ∧
  decode 0x10010011 = .ok (.pnew 0 0 1 .s1) ∧
  decode 0x10010220 = .ok (.nonce 2 0 1 1) ∧
  decode 0x0CBA9823 = .ok (.verify 8 9 10 11 12)

/-- Decode of encode is the identity on every command, with every operand at every value the encoding admits
(spec 30_encoding R91 to R96). -/
def Obligations.DecodeOfEncodeIsIdentity : Prop :=
  ∀ i : Instr, decode (encode i) = .ok i

/-- A word that decodes is the encoding of what it decodes to: no bit of it is dropped (spec 30_encoding R97: "every reserved
bit is checked"); and match and mask of the opcode table decide the mnemonic of every word (spec 30_encoding R95). -/
def Obligations.EncodeOfDecodeIsIdentity : Prop :=
  (∀ (w : Word) (i : Instr), decode w = .ok i → encode i = w) ∧
  (∀ (w : Word) (row : String × Word × Word), row ∈ opcodeRows →
    ((∃ i : Instr, decode w = .ok i ∧ mnemonic i = row.1) ↔ w &&& row.2.2 = row.2.1))

/-- An accepted word that the format table does not admit completes with ERR = 1 and code 9, writes no destination and
leaves CMD holding the word (spec 30_encoding R96, R97). -/
def Obligations.IllegalWordsCompleteWithCodeNine : Prop :=
  ∀ s : State, goesOn s → (Fields.ofWord s.cmd).wellFormed = false →
    ErrCode.bits .illegalCommand = 9#4 ∧
    step s = .next { s with err := true, errcode := .illegalCommand, phase := .idle, done := true }

/-! ## The life of a command -/

/-- When the latched word decodes, all the drawn accesses are served, no level of RST is next and no MAC response is outstanding, the step
is the command's meaning (spec 30_encoding R96, 70_reset_and_hazards R320). -/
def Obligations.StepRunsTheDecodedCommand : Prop :=
  ∀ (s : State) (i : Instr), goesOn s → decode s.cmd = .ok i → step s = exec i s

/-- A write of w to CMD that the idle engine serves is an accept (spec 60_exceptions R270), with a fresh draw of LAT. That ITER is cleared
also for an illegal word with low byte 0x20 or 0x22 is the model's reading of R270's pseudocode against the words of 10_state R36 (log
entry 17), and the response kept in the state is the model's (log entry 6). -/
def Obligations.CmdWriteWhileIdleAccepts : Prop :=
  ∀ (s : State) (w : Word) (rest : List HostEvent),
    s.phase = .idle → s.rst = false → s.host = accessAt 32 0x010 (.write w) :: rest →
    ∃ beats : Nat, step s = .next { s with
      cmd := w
      done := false
      err := false
      errcode := .ok
      vres := false
      eqFlag := false
      iter := if w.extractLsb' 0 8 = 0x20#8 ∨ w.extractLsb' 0 8 = 0x22#8 then 0#32 else s.iter
      phase := .exec beats .fresh
      host := rest
      resp := some (.write false)
      draws := s.draws + 1 }

/-- While a drawn access is still to be served, or a MAC response is outstanding, a harmless access leaves the command executing, with
every register, CMD, ITER and its working values as they were; a drawn access counts down the draw (spec 20_memory R66, R67, R79;
70_reset_and_hazards R320; how the draw is counted is log entry 2). -/
def Obligations.AccessesWhileBusyKeepTheCommand : Prop :=
  ∀ (s : State) (n : Nat) (work : Work) (width : Nat) (off : BitVec 12) (op : BusOp) (rest : List HostEvent),
    s.phase = .exec (n + 1) work ∨ (n = 0 ∧ s.phase = .exec 0 work ∧ outstanding s) →
    s.rst = false → s.host = accessAt width off op :: rest → harmless width off op = true →
    ∃ t : State, step s = .next t ∧ t.phase = .exec n work ∧ t.host = rest ∧
      t = { s with phase := t.phase, host := t.host, resp := t.resp, ie := t.ie, done := t.done, wign := t.wign }

/-- The MAC port: a response is discarded for each request of a command that an abort or a reset ended; then it is the tag of the
request that the executing command waits for, of K_LEN bytes; with no request outstanding it changes nothing. Until it comes the
command waits, and sends nothing (spec 20_memory R79, 00_scope R12; that the responses come in the order of the requests is log
entry 19). -/
def Obligations.MacResponsesAreDeliveredOrDiscarded : Prop :=
  (∀ (s : State) (rest : List HostEvent), s.host = .macReply :: rest →
    s.phase = .idle ∨ (∃ (n : Nat) (work : Work), s.phase = .exec (n + 1) work) ∨ outstanding s →
    (0 < s.abandoned → step s = .next { s with host := rest, abandoned := s.abandoned - 1 }) ∧
    (∀ (beats : Nat) (g : Drbg) (tag : Bytes), s.abandoned = 0 → s.phase = .exec beats (.gen g) → g.tag = none →
      tag = Config.mac g.req.key g.req.msg →
      tag.length = Config.kLen ∧
      step s = .next { s with host := rest, phase := .exec beats (.gen { g with tag := some tag }) }) ∧
    (s.abandoned = 0 → ¬ outstanding s → step s = .next { s with host := rest })) ∧
  (∀ s : State, outstanding s → s.phase = .exec 0 s.work → s.host = [] → step s = .next s) ∧
  (∀ (i : Instr) (s : State), runsGenK i = true → outstanding s → s.err = false → ∃ t : State, exec i s = .next t ∧
    (t = s ∨ t.err = true))

/-- A command that does not run GEN_K completes: the machine steps from any point of its execution to BUSY = 0 and DONE = 1,
whatever LAT was drawn, when the host lets it (the premise on the working values is kept by every step). And no pending event waits forever: whatever the engine does, also in a GEN_K that never
ends, it comes to serve the oldest one, so that the host can read ITER and abort (spec 60_exceptions R280; 70_reset_and_hazards R320,
R326; 43_nonce R219; that a step without an access also counts against LAT is the model's, log entry 2). -/
def Obligations.CommandsWithoutGenKComplete : Prop :=
  (∀ (s : State) (beats : Nat) (work : Work),
    s.phase = .exec beats work → s.host = [] → s.LoopConsistent →
    (∀ i : Instr, decode s.cmd = .ok i → runsGenK i = false) →
    ∃ t : State, reaches s t ∧ t.phase = .idle ∧ t.done = true ∧ t.cmd = s.cmd) ∧
  (∀ (s : State) (ev : HostEvent) (rest : List HostEvent), s.host = ev :: rest →
    ∃ t u : State, reaches s t ∧ t.host = s.host ∧ step t = .next u ∧ u.host = rest)

/-- Every command either completes, or goes on executing: NONCE and SIGND with a request on the MAC port, PMUL, PUBKEY, SIGN, SIGND and
VERIFY inside the loop of PMUL. None stops the machine (spec 60_exceptions R280, R288; 43_nonce R219, 42_point R181; one MAC call
and one iteration a step are the model's granularity, log entries 4 and 5). -/
def Obligations.ExecCompletesOrGoesOn : Prop :=
  ∀ (i : Instr) (s : State), ∃ t : State, exec i s = .next t ∧
    ((t.phase = .idle ∧ t.done = true) ∨
      (t.done = s.done ∧ runsGenK i = true ∧ ∃ (beats : Nat) (g : Drbg), t.phase = .exec beats (.gen g) ∧ g.tag = none) ∨
      (t.done = s.done ∧ multipliesPoint i = true ∧ ∃ m : Mul, t.phase = .exec 0 (.mul m)))

/-- All or nothing: a command that completes with an error changes nothing but the status record
(spec 60_exceptions R280, R285). -/
def Obligations.ErrorCompletionsWriteNothing : Prop :=
  ∀ (i : Instr) (s t : State), s.err = false → exec i s = .next t → t.err = true →
    t.errcode ≠ .ok ∧ t = { s with err := true, errcode := t.errcode, phase := .idle, done := true }

/-- Which command completes with which code, once decoded: the "raised by" column of spec 60_exceptions R271. In particular
PMUL never raises CURVE_MISMATCH (R276), and PUBKEY and VERIFY raise nothing (42_point R185, 60_exceptions R287). The premise on
the working values is kept by every step (EveryStepKeepsTheInvariant). -/
def Obligations.ErrorCodesOfEachCommand : Prop :=
  ∀ (i : Instr) (s t : State), decode s.cmd = .ok i → s.LoopConsistent →
    s.err = false → exec i s = .next t → t.err = true → t.errcode ∈ errorsOf i

/-- EQ is written only by FEQ and PEQ, VRES only by VERIFY; both are cleared at accept of every command; no command reads
a flag (spec 10_state R39). -/
def Obligations.FlagsAreWrittenOnlyByTheirCommands : Prop :=
  (∀ (i : Instr) (s t : State), exec i s = .next t →
    (writesEq i = false → t.eqFlag = s.eqFlag) ∧ (writesVres i = false → t.vres = s.vres)) ∧
  (∀ (s : State) (beats : Nat) (w : Word), (s.accept beats w).eqFlag = false ∧ (s.accept beats w).vres = false) ∧
  (∀ (i : Instr) (s : State) (e v : Bool), ∃ t t' : State,
    exec i s = .next t ∧ exec i { s with eqFlag := e, vres := v } = .next t' ∧
      t = { t' with eqFlag := t.eqFlag, vres := t.vres } ∧
      (t'.eqFlag = t.eqFlag ∨ (t'.eqFlag = e ∧ t.eqFlag = s.eqFlag)) ∧
      (t'.vres = t.vres ∨ (t'.vres = v ∧ t.vres = s.vres)))

/-- ITER: cleared at accept of NONCE or SIGND, one more for each rejected candidate, saturating at 0xFFFF_FFFF, unchanged by
every other command, read-only, readable at any time, and 0 at reset (spec 10_state R36). -/
def Obligations.IterCountsRejectedCandidates : Prop :=
  (∀ (s : State) (beats : Nat) (i : Instr),
    (s.accept beats (encode i)).iter = if runsGenK i then 0#32 else s.iter) ∧
  (∀ (i : Instr) (s t : State), exec i s = .next t → runsGenK i = false → t.iter = s.iter) ∧
  (∀ (i : Instr) (s t : State) (g : Drbg) (y : Bytes) (q candidate : Nat), s.work = .gen g → g.tag = some y →
    ((∃ (rd rz re : RegIx) (m : ModIx), i = .nonce rd rz re m ∧ q = s.modNat m ∧ 2 ≤ q) ∨
      (∃ rdr rz re rds : RegIx, i = .signd rdr rz re rds ∧ q = Config.mod1.toNat ∧ 1 ≤ s.valNat re ∧ s.valNat re < q)) →
    candidate = bits2int ((g.t ++ y).take (octetLen q)) (bitlen q) → exec i s = .next t →
    (g.call = .fill ∧ octetLen q ≤ (g.t ++ y).length ∧ rejected q candidate → t.iter = saturated (s.iter.toNat + 1)) ∧
    (¬ (g.call = .fill ∧ octetLen q ≤ (g.t ++ y).length ∧ rejected q candidate) → t.iter = s.iter)) ∧
  (∀ (s : State) (w : Word), memRead s 0x014 = s.iter ∧ memWrite s 0x014 w = s) ∧ State.reset.iter = 0#32

/-! ## Frames -/

/-- FNEW, FADD, FSUB, FMUL, FDIV, FINV, FPOW and FSCALE change no state but their destination register and the status record,
and no word of the window but that register's, STATUS, and the map of its tag (spec 41_field R130). -/
def Obligations.FieldCommandsWriteOnlyTheirDestination : Prop :=
  ∀ (i : Instr) (rd : RegIx) (s t : State), fieldDest i = some rd → exec i s = .next t →
    (t = { s with regs := t.regs, err := t.err, errcode := t.errcode, phase := .idle, done := true }) ∧
    (∀ j : RegIx, j ≠ rd → t.reg j = s.reg j) ∧
    (∀ off : BitVec 12, locate off ≠ .status → locate off ≠ .tags0 → locate off ≠ .tags1 →
      (∀ k : Fin 8, locate off ≠ .reg rd k) → memRead t off = memRead s off)

/-- PINF, PNEW, PGEN, PADD, PMUL and PUBKEY change no state but their point register, the status record and, for PMUL and PUBKEY, the
accumulators; no word of the window but that register's, STATUS and PSTAT; they never write NONE (spec 42_point R170). -/
def Obligations.PointCommandsWriteOnlyTheirDestination : Prop :=
  ∀ (i : Instr) (pd : PointIx) (s t : State), pointDest i = some pd → exec i s = .next t →
    (t = { s with points := t.points, err := t.err, errcode := t.errcode, phase := t.phase, done := t.done }) ∧
    (multipliesPoint i = false → t.phase = .idle ∧ t.done = true) ∧
    (t.phase ≠ .idle → t.points = s.points) ∧
    (∀ j : PointIx, j ≠ pd → t.point j = s.point j) ∧
    (t.point pd = none → t.point pd = s.point pd) ∧
    (∀ off : BitVec 12, locate off ≠ .status → locate off ≠ .pstat →
      (∀ k : Fin 8, locate off ≠ .pointX pd k ∧ locate off ≠ .pointY pd k) → memRead t off = memRead s off)

/-- NOP, FEQ, PEQ and VERIFY change no state but the status record and, for VERIFY, the accumulators: EQ for FEQ and PEQ, VRES for
VERIFY, neither for NOP, which completes in every state; no word of the window but STATUS changes
(spec 40_control R120, 41_field R142, 42_point R184, 44_ecdsa R245). -/
def Obligations.ComparingCommandsWriteOnlyTheStatus : Prop :=
  (∀ s : State, exec .nop s = .next { s with phase := .idle, done := true }) ∧
  (∀ (i : Instr) (s t : State), (i = .nop ∨ writesEq i = true ∨ writesVres i = true) → exec i s = .next t →
    (t = { s with eqFlag := t.eqFlag, vres := t.vres, err := t.err, errcode := t.errcode, phase := t.phase, done := t.done }) ∧
    (writesVres i = false → t.phase = .idle ∧ t.done = true) ∧
    (writesEq i = false → t.eqFlag = s.eqFlag) ∧ (writesVres i = false → t.vres = s.vres) ∧
    (∀ off : BitVec 12, locate off ≠ .status → memRead t off = memRead s off))

/-- PGET, NONCE, SIGN and SIGND change no state but their destination registers, written RAW, the status record, the working values
of all but PGET, and ITER for NONCE and SIGND; no word of the window but those registers', STATUS, the tag maps
and, for NONCE and SIGND, ITER changes (spec 42_point R186, 43_nonce R217, R218, 44_ecdsa R240, R241, R243). -/
def Obligations.RawResultCommandsWriteOnlyTheirDestinations : Prop :=
  ∀ (i : Instr) (s t : State), rawDests i ≠ [] → exec i s = .next t →
    (t = { s with regs := t.regs, err := t.err, errcode := t.errcode, done := t.done, phase := t.phase,
                  iter := t.iter }) ∧
    (runsGenK i = false → t.iter = s.iter) ∧
    (t.phase ≠ .idle → t.regs = s.regs ∧ (runsGenK i = true ∨ multipliesPoint i = true)) ∧
    (∀ j : RegIx, j ∉ rawDests i → t.reg j = s.reg j) ∧
    (∀ j : RegIx, t.reg j ≠ s.reg j → (t.reg j).tag = .raw) ∧
    (∀ off : BitVec 12, locate off ≠ .status → locate off ≠ .tags0 → locate off ≠ .tags1 →
      (runsGenK i = true → locate off ≠ .iter) → (∀ j ∈ rawDests i, ∀ k : Fin 8, locate off ≠ .reg j k) →
      memRead t off = memRead s off)

/-- PUBKEY, SIGN, SIGND and VERIFY read no slot-1 state: with other slot-1 registers they give the same next state but for those
registers (spec 44_ecdsa R240, 42_point R185). The premise on the working values is kept by every step. -/
def Obligations.Slot0CommandsReadNoSlot1State : Prop :=
  ∀ (i : Instr) (s : State) (mod2 a1 b1 gx1 gy1 : Value), slot0Only i = true → decode s.cmd = .ok i → s.LoopConsistent →
    ∃ t : State, exec i s = .next t ∧
      exec i (withSlot1 s mod2 a1 b1 gx1 gy1) = .next (withSlot1 t mod2 a1 b1 gx1 gy1)

/-! ## Field commands -/

/-- FNEW: a modulus below 2 raises BAD_MODULUS, a value not below the modulus INVALID_ELEMENT, and otherwise the value is bound
to the modulus (spec 41_field R131). -/
def Obligations.FnewBindsAValueBelowItsModulus : Prop :=
  ∀ (s : State) (rd rs : RegIx) (m : ModIx),
    (s.modNat m < 2 → exec (.fnew rd rs m) s = .next (s.completeErr .badModulus)) ∧
    (2 ≤ s.modNat m → s.modNat m ≤ s.valNat rs → exec (.fnew rd rs m) s = .next (s.completeErr .invalidElement)) ∧
    (2 ≤ s.modNat m → s.valNat rs < s.modNat m →
      exec (.fnew rd rs m) s = .next (s.setReg rd ⟨(s.reg rs).val, .el m⟩).finish)

/-- FADD, FSUB, FMUL and FSCALE are the ring operations of the integers mod M on reduced elements, with a canonical result bound
to the first operand's modulus (spec 41_field R134, R135, R136, R141; 00_scope R13). -/
def Obligations.RingCommandsComputeInTheIntegersModM : Prop :=
  ∀ (s : State) (rd rs1 rs2 : RegIx) (t1 t2 : ModIx) (imm8 : BitVec 8), s.ElementsReduced →
    (s.reg rs1).tag = .el t1 → (s.reg rs2).tag = .el t2 → s.modulus t1 = s.modulus t2 →
    ∃ sum difference product multiple : Value,
      (exec (.fadd rd rs1 rs2) s = .next (s.setReg rd ⟨sum, .el t1⟩).finish ∧
        sum.toNat < s.modNat t1 ∧ (sum.toNat : ZMod (s.modNat t1)) = s.valNat rs1 + s.valNat rs2) ∧
      (exec (.fsub rd rs1 rs2) s = .next (s.setReg rd ⟨difference, .el t1⟩).finish ∧
        difference.toNat < s.modNat t1 ∧ (difference.toNat : ZMod (s.modNat t1)) = s.valNat rs1 - s.valNat rs2) ∧
      (exec (.fmul rd rs1 rs2) s = .next (s.setReg rd ⟨product, .el t1⟩).finish ∧
        product.toNat < s.modNat t1 ∧ (product.toNat : ZMod (s.modNat t1)) = s.valNat rs1 * s.valNat rs2) ∧
      (exec (.fscale rd rs1 imm8) s = .next (s.setReg rd ⟨multiple, .el t1⟩).finish ∧
        multiple.toNat < s.modNat t1 ∧ (multiple.toNat : ZMod (s.modNat t1)) = s.valNat rs1 * imm8.toNat)

/-- FPOW and FPOW.NEG: a negative nonzero exponent on a zero base raises DIVISION_BY_ZERO; otherwise the result is the power of
the reduced signed exponent (spec 41_field R140, R137). -/
def Obligations.FpowRaisesToTheSignedExponent : Prop :=
  ∀ (s : State) (rd rs re : RegIx) (neg : Bool) (t : ModIx), (s.reg rs).tag = .el t → 2 ≤ s.modNat t →
    (neg = true → s.valNat re ≠ 0 → s.valNat rs = 0 →
      exec (.fpow rd rs re neg) s = .next (s.completeErr .divisionByZero)) ∧
    (¬ (neg = true ∧ s.valNat re ≠ 0 ∧ s.valNat rs = 0) →
      exec (.fpow rd rs re neg) s = .next (s.setReg rd
        ⟨BitVec.ofNat 256 (s.valNat rs ^
          ((if neg then -(s.valNat re : Int) else (s.valNat re : Int)) % ((s.modNat t : Int) - 1)).toNat
            % s.modNat t), .el t⟩).finish)

/-- FDIV and FINV: a zero divisor raises DIVISION_BY_ZERO; otherwise the quotient is a · b^(M−2) mod M and the inverse a^(M−2) mod M,
for every M ≥ 2, prime or not; for a prime M they are the quotient and the inverse: (a / b) · b = a and a⁻¹ · a = 1
(spec 41_field R138, R139, R145). -/
def Obligations.FdivAndFinvComputeTheFermatFormula : Prop :=
  ∀ (s : State) (rd rs1 rs2 : RegIx) (t1 t2 : ModIx) (M q inv : Nat), s.ElementsReduced →
    (s.reg rs1).tag = .el t1 → (s.reg rs2).tag = .el t2 → s.modulus t1 = s.modulus t2 → M = s.modNat t1 →
    q = s.valNat rs1 * s.valNat rs2 ^ (M - 2) % M → inv = s.valNat rs2 ^ (M - 2) % M →
    (s.valNat rs2 = 0 →
      exec (.fdiv rd rs1 rs2) s = .next (s.completeErr .divisionByZero) ∧
      exec (.finv rd rs2) s = .next (s.completeErr .divisionByZero)) ∧
    (s.valNat rs2 ≠ 0 →
      exec (.fdiv rd rs1 rs2) s = .next (s.setReg rd ⟨BitVec.ofNat 256 q, .el t1⟩).finish ∧
      exec (.finv rd rs2) s = .next (s.setReg rd ⟨BitVec.ofNat 256 inv, .el t2⟩).finish ∧
      q < M ∧ inv < M ∧
      (Nat.Prime M → q * s.valNat rs2 % M = s.valNat rs1 ∧ inv * s.valNat rs2 % M = 1))

/-- A RAW element operand raises UNDEFINED_OPERAND before anything else, and two elements of moduli with different values raise
ORDER_MISMATCH before a zero divisor is seen (spec 41_field R130, R132, R133). -/
def Obligations.ElementChecksComeFirst : Prop :=
  ∀ (s : State) (rd rs1 rs2 : RegIx) (neg : Bool) (imm8 : BitVec 8),
    ((s.reg rs1).tag = .raw →
      exec (.finv rd rs1) s = .next (s.completeErr .undefinedOperand) ∧
      exec (.fpow rd rs1 rs2 neg) s = .next (s.completeErr .undefinedOperand) ∧
      exec (.fscale rd rs1 imm8) s = .next (s.completeErr .undefinedOperand)) ∧
    (∀ i ∈ [Instr.fadd rd rs1 rs2, Instr.fsub rd rs1 rs2, Instr.fmul rd rs1 rs2, Instr.fdiv rd rs1 rs2],
      ((s.reg rs1).tag = .raw ∨ (s.reg rs2).tag = .raw →
        exec i s = .next (s.completeErr .undefinedOperand)) ∧
      (∀ t1 t2 : ModIx, (s.reg rs1).tag = .el t1 → (s.reg rs2).tag = .el t2 → s.modulus t1 ≠ s.modulus t2 →
        exec i s = .next (s.completeErr .orderMismatch)))

/-- FEQ completes with EQ = 1 exactly when the values are equal and both registers are RAW, or both are elements of moduli of
equal value (spec 41_field R142). -/
def Obligations.FeqComparesValueAndModulus : Prop :=
  ∀ (s : State) (rs1 rs2 : RegIx), ∃ b : Bool,
    exec (.feq rs1 rs2) s = .next { s with eqFlag := b, phase := .idle, done := true } ∧
    (b = true ↔ (s.reg rs1).val = (s.reg rs2).val ∧
      (((s.reg rs1).tag = .raw ∧ (s.reg rs2).tag = .raw) ∨
        ∃ m1 m2 : ModIx, (s.reg rs1).tag = .el m1 ∧ (s.reg rs2).tag = .el m2 ∧ s.modulus m1 = s.modulus m2))

/-! ## Point commands -/

/-- PINF loads INF; PNEW and PGEN c1 run CurveCheck, the range check and the curve equation in this order and load the point;
PGEN c0 loads G (spec 42_point R173, R174, R175; 10_state R38). -/
def Obligations.PointConstructionChecksInOrder : Prop :=
  ∀ (s : State) (pd : PointIx) (rx ry : RegIx) (c : Slot),
    exec (.pinf pd) s = .next (s.setPoint pd .inf).finish ∧
    exec (.pgen pd .s0) s = .next (s.setPoint pd (.aff .s0 Config.gx0 Config.gy0)).finish ∧
    (∀ (i : Instr) (x y : Value),
      ((i = .pnew pd rx ry c ∧ x = (s.reg rx).val ∧ y = (s.reg ry).val) ∨
        (i = .pgen pd .s1 ∧ c = .s1 ∧ x = s.gx1 ∧ y = s.gy1)) →
      (c = .s1 → s.mod2.toNat < 2 → exec i s = .next (s.completeErr .badModulus)) ∧
      (c = .s1 → 2 ≤ s.mod2.toNat → (s.mod2.toNat ≤ s.a1.toNat ∨ s.mod2.toNat ≤ s.b1.toNat) →
        exec i s = .next (s.completeErr .invalidElement)) ∧
      ((c = .s1 → 2 ≤ s.mod2.toNat ∧ s.a1.toNat < s.mod2.toNat ∧ s.b1.toNat < s.mod2.toNat) →
        ((s.curve c).p.toNat ≤ x.toNat ∨ (s.curve c).p.toNat ≤ y.toNat →
          exec i s = .next (s.completeErr .invalidElement)) ∧
        (x.toNat < (s.curve c).p.toNat → y.toNat < (s.curve c).p.toNat →
          (¬ (y.toNat ^ 2 ≡ x.toNat ^ 3 + (s.curve c).a.toNat * x.toNat + (s.curve c).b.toNat [MOD (s.curve c).p.toNat]) →
            exec i s = .next (s.completeErr .notOnCurve)) ∧
          (y.toNat ^ 2 ≡ x.toNat ^ 3 + (s.curve c).a.toNat * x.toNat + (s.curve c).b.toNat [MOD (s.curve c).p.toNat] →
            exec i s = .next (s.setPoint pd (.aff c x y)).finish))))

/-- PADD raises UNDEFINED_OPERAND for NONE, CURVE_MISMATCH for different (p, a, b), and DIVISION_BY_ZERO exactly when a doubling meets
2·y = p, so never for an odd p; in every other case it completes, with the first operand's slot, or with the other operand in case 1
(spec 42_point R171, R176 to R179). -/
def Obligations.PaddCompletesOrErrsAsRuled : Prop :=
  ∀ (s : State) (pd ps1 ps2 : PointIx), s.PointsReduced →
    (s.point ps1 = none ∨ s.point ps2 = none → exec (.padd pd ps1 ps2) s = .next (s.completeErr .undefinedOperand)) ∧
    (∀ Q : Point, s.point ps1 = some .inf → s.point ps2 = some Q →
      exec (.padd pd ps1 ps2) s = .next (s.setPoint pd Q).finish) ∧
    (∀ P : Point, s.point ps1 = some P → s.point ps2 = some .inf →
      exec (.padd pd ps1 ps2) s = .next (s.setPoint pd P).finish) ∧
    (∀ (c1 c2 : Slot) (x1 y1 x2 y2 : Value), s.point ps1 = some (.aff c1 x1 y1) → s.point ps2 = some (.aff c2 x2 y2) →
      ((s.curve c1).params ≠ (s.curve c2).params →
        exec (.padd pd ps1 ps2) s = .next (s.completeErr .curveMismatch)) ∧
      ((s.curve c1).params = (s.curve c2).params →
        (x1 = x2 ∧ y1 = y2 ∧ y1.toNat ≠ 0 ∧ 2 * y1.toNat = (s.curve c1).p.toNat →
          exec (.padd pd ps1 ps2) s = .next (s.completeErr .divisionByZero)) ∧
        (¬ (x1 = x2 ∧ y1 = y2 ∧ y1.toNat ≠ 0 ∧ 2 * y1.toNat = (s.curve c1).p.toNat) → ∃ R : Point,
          pointAdd s.curve (.aff c1 x1 y1) (.aff c2 x2 y2) = .ok R ∧
          exec (.padd pd ps1 ps2) s = .next (s.setPoint pd R).finish ∧
          (R = .inf ∨ ∃ x y : Value, R = .aff c1 x y))))

/-- Inside the loop of PMUL every command that multiplies does one iteration a step: with bit i of the scalar set the result takes the
sum, the doubling is always done, and the iteration count goes up by one (spec 42_point R181; one iteration a step is log entry 5). -/
def Obligations.ScalarMultiplicationTakesOneIterationAStep : Prop :=
  ∀ (i : Instr) (s : State) (m : Mul) (R C : Point), multipliesPoint i = true → mayMultiply s i →
    s.work = .mul m → m.iters < bitlen m.k →
    (if m.k / 2 ^ m.iters % 2 = 1 then pointAdd s.curve m.result m.current = .ok R else R = m.result) →
    pointAdd s.curve m.current m.current = .ok C →
    exec i s = .next { s with
      phase := .exec 0 (.mul { k := m.k, iters := m.iters + 1, earlier := m.earlier, result := R, current := C }) }

/-- The whole PMUL command: NONE raises UNDEFINED_OPERAND; otherwise the machine, left alone by the host, commits PMUL(P, k), or completes
with the error of a PADD inside the loop; with every iteration done the step commits the accumulator (spec 42_point R181, R182; the
steps of the loop are log entry 5, and that LAT passes with a silent host is log entry 2). -/
def Obligations.PmulRefinesTheScalarMultiple : Prop :=
  ∀ (s : State) (pd ps : PointIx) (rk : RegIx),
    (s.point ps = none → exec (.pmul pd ps rk) s = .next (s.completeErr .undefinedOperand)) ∧
    (∀ (P : Point) (m : Mul), s.point ps = some P → s.work = .mul m → bitlen m.k ≤ m.iters →
      exec (.pmul pd ps rk) s = .next (s.setPoint pd m.result).finish) ∧
    (∀ P : Point, s.point ps = some P → begun s (.pmul pd ps rk) →
      (∀ R : Point, pointMul s.curve P (s.valNat rk) = .ok R → reaches s (s.setPoint pd R).finish) ∧
      (∀ e : ErrCode, pointMul s.curve P (s.valNat rk) = .error e → reaches s (s.completeErr e)))

/-- PMUL(P, k) for an odd modulus: it never fails, 0·P = INF, 1·P = P, k·INF = INF, and 2·P = P + P; for every modulus, k = 0 gives INF
(spec 42_point R181, R183). -/
def Obligations.SmallScalarMultiples : Prop :=
  (∀ (curve : Slot → Curve) (P : Point), pointMul curve P 0 = .ok .inf) ∧
  (∀ (curve : Slot → Curve) (k : Nat), pointMul curve .inf k = .ok .inf) ∧
  (∀ (s : State) (P : Point) (k : Nat), s.PointReduced P →
    (∀ (c : Slot) (x y : Value), P = .aff c x y → (s.curve c).p.toNat % 2 = 1) →
    (∃ R : Point, pointMul s.curve P k = .ok R ∧ s.PointReduced R) ∧
    pointMul s.curve P 1 = .ok P ∧ pointMul s.curve P 2 = pointAdd s.curve P P)

/-- For a prime p > 2 the sum of two points of one curve is the chord-and-tangent sum: with s the slope in the field of integers
mod p, x3 = s² − x1 − x2 and y3 = s·(x1 − x3) − y1; opposite points and a doubling with y = 0 give INF (spec 42_point R176). -/
def Obligations.PointAddIsChordAndTangent : Prop :=
  ∀ (curve : Slot → Curve) (c1 c2 : Slot) (x1 y1 x2 y2 : Value) (p : Nat),
    (curve c1).params = (curve c2).params → (curve c1).p.toNat = p → Nat.Prime p → 2 < p →
    x1.toNat < p → y1.toNat < p → x2.toNat < p → y2.toNat < p →
    (x1 = x2 ∧ (y1 ≠ y2 ∨ y1.toNat = 0) → pointAdd curve (.aff c1 x1 y1) (.aff c2 x2 y2) = .ok .inf) ∧
    (¬ (x1 = x2 ∧ (y1 ≠ y2 ∨ y1.toNat = 0)) →
      ∃ (x3 y3 : Value) (s : ZMod p),
        pointAdd curve (.aff c1 x1 y1) (.aff c2 x2 y2) = .ok (.aff c1 x3 y3) ∧ x3.toNat < p ∧ y3.toNat < p ∧
        (x1 ≠ x2 → s * ((x2.toNat : ZMod p) - x1.toNat) = (y2.toNat : ZMod p) - y1.toNat) ∧
        (x1 = x2 → s * (2 * (y1.toNat : ZMod p)) = 3 * (x1.toNat : ZMod p) ^ 2 + (curve c1).a.toNat) ∧
        (x3.toNat : ZMod p) = s ^ 2 - x1.toNat - x2.toNat ∧
        (y3.toNat : ZMod p) = s * ((x1.toNat : ZMod p) - x3.toNat) - y1.toNat)

/-- The group laws of the adder: INF is neutral for every point; P + Q and Q + P are equal as PEQ decides for points of one curve with
a prime p > 2; and where moreover 4·a³ + 27·b² is not 0 mod p, (P + Q) + R and P + (Q + R) are equal as PEQ decides and every point has
an inverse (spec 42_point R180; for a composite p the formula need not commute, log entry 15). -/
def Obligations.PointAddObeysTheGroupLaws : Prop :=
  (∀ (curve : Slot → Curve) (P : Point), pointAdd curve .inf P = .ok P ∧ pointAdd curve P .inf = .ok P) ∧
  (∀ (s : State) (P Q : Point) (p : Nat), s.PointReduced P → s.PointReduced Q → Nat.Prime p → 2 < p →
    (∀ (c : Slot) (x y : Value), P = .aff c x y ∨ Q = .aff c x y → (s.curve c).p.toNat = p) →
    (∀ (c1 c2 : Slot) (x1 y1 x2 y2 : Value), P = .aff c1 x1 y1 → Q = .aff c2 x2 y2 →
      (s.curve c1).params = (s.curve c2).params) →
    ∃ R R' : Point, pointAdd s.curve P Q = .ok R ∧ pointAdd s.curve Q P = .ok R' ∧ pointEq s.curve R R' = true) ∧
  (∀ (s : State) (p a b : Value), Nat.Prime p.toNat → 2 < p.toNat →
    (4 * a.toNat ^ 3 + 27 * b.toNat ^ 2) % p.toNat ≠ 0 →
    (∀ P Q R : Point, onOneCurve s (p, a, b) [P, Q, R] → ∃ PQ QR left right : Point,
      pointAdd s.curve P Q = .ok PQ ∧ pointAdd s.curve PQ R = .ok left ∧ pointAdd s.curve Q R = .ok QR ∧
        pointAdd s.curve P QR = .ok right ∧ pointEq s.curve left right = true) ∧
    (∀ P : Point, onOneCurve s (p, a, b) [P] → ∃ Q : Point, onOneCurve s (p, a, b) [Q] ∧
      pointAdd s.curve P Q = .ok .inf))

/-- PEQ raises UNDEFINED_OPERAND for NONE and otherwise completes with EQ = 1 exactly when both points are INF, or both are affine
with equal (p, a, b) and equal coordinates (spec 42_point R184). -/
def Obligations.PeqComparesCurveAndCoordinates : Prop :=
  ∀ (s : State) (ps1 ps2 : PointIx),
    (s.point ps1 = none ∨ s.point ps2 = none → exec (.peq ps1 ps2) s = .next (s.completeErr .undefinedOperand)) ∧
    (∀ P Q : Point, s.point ps1 = some P → s.point ps2 = some Q → ∃ b : Bool,
      exec (.peq ps1 ps2) s = .next { s with eqFlag := b, phase := .idle, done := true } ∧
      (b = true ↔ (P = .inf ∧ Q = .inf) ∨
        ∃ (c1 c2 : Slot) (x y : Value), P = .aff c1 x y ∧ Q = .aff c2 x y ∧
          (s.curve c1).p = (s.curve c2).p ∧ (s.curve c1).a = (s.curve c2).a ∧ (s.curve c1).b = (s.curve c2).b))

/-- PUBKEY completes for every key, also e = 0 and e ≥ n, with PMUL(G, e), which is INF or a point of slot 0; with every iteration done
the step commits the accumulator (spec 42_point R185; the steps of the loop are log entry 5, and that LAT passes with a silent host is
log entry 2). -/
def Obligations.PubkeyAlwaysCompletes : Prop :=
  ∀ (s : State) (pd : PointIx) (re : RegIx),
    (∀ m : Mul, s.work = .mul m → bitlen m.k ≤ m.iters → exec (.pubkey pd re) s = .next (s.setPoint pd m.result).finish) ∧
    (begun s (.pubkey pd re) → ∃ R : Point,
      pointMul s.curve (.aff .s0 Config.gx0 Config.gy0) (s.valNat re) = .ok R ∧ reaches s (s.setPoint pd R).finish ∧
      (R = .inf ∨ ∃ x y : Value, R = .aff .s0 x y ∧ x.toNat < Config.mod0.toNat ∧ y.toNat < Config.mod0.toNat) ∧
      (s.valNat re = 0 → R = .inf) ∧ (s.valNat re = 1 → R = .aff .s0 Config.gx0 Config.gy0))

/-- G is on the curve of slot 0 and n·G = INF; so a scalar counts modulo n: PMUL(G, k) = PMUL(G, k mod n) for every k
(spec 10_state R28, 42_point R183, R185). -/
def Obligations.GeneratorHasOrderN : Prop :=
  onCurve (State.reset.curve .s0) Config.gx0 Config.gy0 = true ∧
  pointMul State.reset.curve (.aff .s0 Config.gx0 Config.gy0) Config.mod1.toNat = .ok .inf ∧
  (∀ (s : State) (k : Nat), pointMul s.curve (.aff .s0 Config.gx0 Config.gy0) k =
    pointMul s.curve (.aff .s0 Config.gx0 Config.gy0) (k % Config.mod1.toNat))

/-- PGET writes x, then y, as raw values, so that one register named twice holds y; NONE and INF raise UNDEFINED_OPERAND
(spec 42_point R186, 44_ecdsa R249). -/
def Obligations.PgetWritesRawCoordinates : Prop :=
  ∀ (s : State) (rdx rdy : RegIx) (ps : PointIx),
    (s.point ps = none ∨ s.point ps = some .inf →
      exec (.pget rdx rdy ps) s = .next (s.completeErr .undefinedOperand)) ∧
    (∀ (c : Slot) (x y : Value), s.point ps = some (.aff c x y) → ∃ t : State,
      exec (.pget rdx rdy ps) s = .next t ∧ t.phase = .idle ∧ t.done = true ∧ t.err = s.err ∧
      t.reg rdy = ⟨y, .raw⟩ ∧ (rdx ≠ rdy → t.reg rdx = ⟨x, .raw⟩))

/-! ## The nonce generator -/

/-- int2octets(v, N) has N bytes and its integer is v mod 2^(8N), so the most significant excess bytes are dropped and a private key e
gives the same octets as e + 2^(8N); bits2int keeps the most significant qlen bits of the string, and is below 2^qlen; bits2octets
subtracts q at most once, has N bytes and its integer is below q (spec 43_nonce R211, R212, R213, R220). -/
def Obligations.OctetConversionsTruncateAndReduceOnce : Prop :=
  (∀ v N : Nat, (int2octets v N).length = N ∧ intOfBytes (int2octets v N) = v % 2 ^ (8 * N) ∧
    int2octets (v + 2 ^ (8 * N)) N = int2octets v N) ∧
  (∀ (bs : Bytes) (qlen : Nat),
    bits2int bs qlen = intOfBytes bs / 2 ^ (8 * bs.length - qlen) ∧ bits2int bs qlen < 2 ^ qlen) ∧
  (∀ (bs : Bytes) (q : Nat), 2 ≤ q →
    (bits2octets bs q).length = octetLen q ∧
    intOfBytes (bits2octets bs q) =
      (if q ≤ bits2int bs (bitlen q) then bits2int bs (bitlen q) - q else bits2int bs (bitlen q)) ∧
    intOfBytes (bits2octets bs q) < q)

/-- The MAC requests of GEN_K: with the first j candidates rejected, after the responses to all requests but the last one of pass j + 1
the requests sent are exactly those of the pseudocode, key by key, message by message and in order; there are 4 + (j + 1)·c + 2·j of
them, c = ceil(N / K_LEN), 5 for secp256k1, K_LEN = 32 and a first-pass accept; the last response ends GEN_K with the candidate of
pass j + 1, if that is in range, and otherwise rejects it (spec 43_nonce R221; R216, R214; 20_memory R79). -/
def Obligations.MacCallCount : Prop :=
  ∀ (mac : Bytes → Bytes → Bytes) (kLen z e q j : Nat), 2 ≤ q → 1 ≤ kLen → (∀ k m : Bytes, (mac k m).length = kLen) →
    (∀ i : Nat, i < j → rejected q (passCandidate mac kLen z e q i)) →
    ∃ g : Drbg, Drbg.after mac kLen z e q (callsUpTo kLen q j - 1) = some g ∧
      g.sent = requestsUpTo mac kLen z e q j ∧ g.sent.getLast? = some g.req ∧ g.tag = none ∧
      g.sent.length = 4 + (j + 1) * ((octetLen q + kLen - 1) / kLen) + 2 * j ∧
      (q = Config.mod1.toNat → kLen = 32 → j = 0 → g.sent.length = 5) ∧
      (¬ rejected q (passCandidate mac kLen z e q j) →
        g.advance z e q (mac g.req.key g.req.msg) = .accepts (passCandidate mac kLen z e q j)) ∧
      (rejected q (passCandidate mac kLen z e q j) →
        ∃ g' : Drbg, g.advance z e q (mac g.req.key g.req.msg) = .rejects g' ∧ g'.candidate = passCandidate mac kLen z e q j)

/-- One step of NONCE: a modulus below 2 raises BAD_MODULUS; a command just begun sends the request of step 2 of GEN_K(z, e, q) and stays
BUSY; without a response it waits; a response that ends a pass with a candidate in range commits it RAW; one that ends a pass with any other
counts it and sends mac(K, V ‖ 0x00); every other response goes on in GEN_K with the next request
(spec 43_nonce R216, R217, R218; 20_memory R79; one MAC call a step is log entry 4). -/
def Obligations.NonceTestsOneCandidateAtATime : Prop :=
  ∀ (s : State) (rd rz re : RegIx) (m : ModIx) (q : Nat), q = s.modNat m →
    (q < 2 → exec (.nonce rd rz re m) s = .next (s.completeErr .badModulus)) ∧
    (2 ≤ q → s.work = .fresh → ∃ g : Drbg,
      exec (.nonce rd rz re m) s = .next { s with phase := .exec 0 (.gen g) } ∧
      g.tag = none ∧ g.sent = [g.req] ∧ g.req.key = List.replicate Config.kLen 0x00#8 ∧
      g.req.msg = List.replicate Config.kLen 0x01#8 ++ [0x00#8] ++ keyAndDigest (s.valNat rz) (s.valNat re) q) ∧
    (∀ g : Drbg, 2 ≤ q → s.work = .gen g → g.tag = none → exec (.nonce rd rz re m) s = .next s) ∧
    (∀ (g : Drbg) (y : Bytes) (candidate : Nat), 2 ≤ q → s.work = .gen g → g.tag = some y →
      candidate = bits2int ((g.t ++ y).take (octetLen q)) (bitlen q) →
      (g.call = .fill ∧ octetLen q ≤ (g.t ++ y).length →
        (¬ rejected q candidate →
          exec (.nonce rd rz re m) s = .next (s.setReg rd ⟨BitVec.ofNat 256 candidate, .raw⟩).finish) ∧
        (rejected q candidate → ∃ g' : Drbg,
          exec (.nonce rd rz re m) s =
            .next { s with iter := saturated (s.iter.toNat + 1), phase := .exec 0 (.gen g') } ∧
          g'.req = ⟨g.k, y ++ [0x00#8]⟩ ∧ g'.tag = none ∧ g'.sent = g.sent ++ [g'.req] ∧ g'.k = g.k ∧ g'.v = y)) ∧
      (¬ (g.call = .fill ∧ octetLen q ≤ (g.t ++ y).length) → ∃ g' : Drbg,
        exec (.nonce rd rz re m) s = .next { s with phase := .exec 0 (.gen g') } ∧
        g.advance (s.valNat rz) (s.valNat re) q y = .goes g' ∧ g'.tag = none ∧ g'.sent = g.sent ++ [g'.req]))

/-- The whole NONCE command computes GEN_K: if the candidates of the first j passes are out of range, then with all responses but the last
of pass j + 1 it waits, having sent exactly the requests of GEN_K, with ITER = min(j, 0xFFFF_FFFF); and if the candidate of pass j + 1 is in
range, then with that response too it commits exactly that candidate, RAW, and nothing else changes. Responses to abandoned requests
come first (spec 43_nonce R216, R217, R218; 10_state R36; 20_memory R79). That the drawn accesses may be moments without an event is
log entry 2, one MAC call a step is log entry 4, the order of the responses is log entry 19. The MAC is the free value of log entry 3:
acceptance is witnessed with the nominal MAC. -/
def Obligations.NonceRefinesGenK : Prop :=
  ∀ (s : State) (j : Nat) (rd rz re : RegIx) (m : ModIx) (q : Nat) (candidate : Nat → Nat),
    q = s.modNat m → 2 ≤ q → s.iter = 0#32 →
    candidate = passCandidate Config.mac Config.kLen (s.valNat rz) (s.valNat re) q →
    (∀ i : Nat, i < j → rejected q (candidate i)) →
    (begunWithReplies s (.nonce rd rz re m) (callsUpTo Config.kLen q j - 1) → ∃ g : Drbg,
      reaches s { s with iter := saturated j, phase := .exec 0 (.gen g), abandoned := 0, host := [] } ∧
      g.tag = none ∧ g.sent = requestsUpTo Config.mac Config.kLen (s.valNat rz) (s.valNat re) q j) ∧
    (begunWithReplies s (.nonce rd rz re m) (callsUpTo Config.kLen q j) → ¬ rejected q (candidate j) →
      reaches s { s with
        regs := s.regs.set rd.val ⟨BitVec.ofNat 256 (candidate j), .raw⟩
        iter := saturated j
        phase := .idle
        done := true
        abandoned := 0
        host := [] })

/-! ## Signing and verifying -/

/-- SIGN and SIGND from R = k·G on: with the product in the accumulator, R = INF, r = 0 or s = 0 raises DEGENERATE_NONCE, and otherwise
r = Rx mod n, then s = k^(n−2)·(z + r·e) mod n, are committed RAW (spec 44_ecdsa R242, R244, R249, R251; the steps of the loop are log
entry 5). -/
def Obligations.SigningCommitsTheSignature : Prop :=
  ∀ (s : State) (i : Instr) (rdr rz re rk rds : RegIx) (m : Mul),
    ((i = .sign rdr rz re rk rds ∧ s.valNat rk = m.k ∧ m.k < Config.mod1.toNat) ∨ i = .signd rdr rz re rds) →
    1 ≤ s.valNat re → s.valNat re < Config.mod1.toNat → s.work = .mul m → bitlen m.k ≤ m.iters →
    (m.result = .inf → exec i s = .next (s.completeErr .degenerateNonce)) ∧
    (∀ (c : Slot) (Rx Ry : Value) (sig : Nat × Nat), m.result = .aff c Rx Ry →
      sig = signatureOf (s.valNat rz) (s.valNat re) m.k Rx →
      (sig.1 = 0 ∨ sig.2 = 0 → exec i s = .next (s.completeErr .degenerateNonce)) ∧
      (sig.1 ≠ 0 → sig.2 ≠ 0 → exec i s = .next (withSignature s rdr rds sig).finish))

/-- The whole SIGN command: a key outside [1, n − 1] raises INVALID_ELEMENT, then a nonce k ≥ n; k = 0 raises DEGENERATE_NONCE; otherwise
the machine, left alone by the host, commits the signature from R = PMUL(G, k) (spec 44_ecdsa R241, R242; that LAT passes with a
silent host is log entry 2, the steps of the loop are log entry 5). -/
def Obligations.SignRefinesSignCore : Prop :=
  ∀ (s : State) (rdr rz re rk rds : RegIx) (n : Nat), n = Config.mod1.toNat →
    (s.valNat re = 0 ∨ n ≤ s.valNat re → exec (.sign rdr rz re rk rds) s = .next (s.completeErr .invalidElement)) ∧
    (1 ≤ s.valNat re → s.valNat re < n → n ≤ s.valNat rk →
      exec (.sign rdr rz re rk rds) s = .next (s.completeErr .invalidElement)) ∧
    (begun s (.sign rdr rz re rk rds) → 1 ≤ s.valNat re → s.valNat re < n → s.valNat rk < n →
      (s.valNat rk = 0 → reaches s (s.completeErr .degenerateNonce)) ∧
      (∀ (Rx Ry : Value) (sig : Nat × Nat),
        pointMul s.curve (.aff .s0 Config.gx0 Config.gy0) (s.valNat rk) = .ok (.aff .s0 Rx Ry) →
        sig = signatureOf (s.valNat rz) (s.valNat re) (s.valNat rk) Rx →
        (sig.1 = 0 ∨ sig.2 = 0 → reaches s (s.completeErr .degenerateNonce)) ∧
        (sig.1 ≠ 0 → sig.2 ≠ 0 → reaches s (withSignature s rdr rds sig).finish)))

/-- SIGND is SIGN with the nonce of GEN_K(z, e, n): its accepted candidate k takes it to the state to which SIGN with that k in a register
goes from its beginning, and from there on the two do the same; NONCE m1 returns the same k, and the generators of SIGND and NONCE m1
begin and go on alike (spec 44_ecdsa R243, R250; the steps are those of log entries 4 and 5). -/
def Obligations.SigndIsSignWithTheGeneratedNonce : Prop :=
  ∀ (s : State) (rdr rz re rk rds rd : RegIx), 1 ≤ s.valNat re → s.valNat re < Config.mod1.toNat →
    (∀ (g : Drbg) (y : Bytes) (k : Nat), s.work = .gen g → g.tag = some y →
      g.advance (s.valNat rz) (s.valNat re) Config.mod1.toNat y = .accepts k →
      (s.valNat rk = k →
        exec (.signd rdr rz re rds) s = exec (.sign rdr rz re rk rds) { s with phase := .exec 0 .fresh }) ∧
      exec (.nonce rd rz re 1) s = .next (s.setReg rd ⟨BitVec.ofNat 256 k, .raw⟩).finish) ∧
    (∀ m : Mul, s.work = .mul m → s.valNat rk = m.k → m.k < Config.mod1.toNat →
      exec (.signd rdr rz re rds) s = exec (.sign rdr rz re rk rds) s) ∧
    ((∀ m : Mul, s.work ≠ .mul m) →
      (∀ (g : Drbg) (y : Bytes) (k : Nat), s.work = .gen g → g.tag = some y →
        g.advance (s.valNat rz) (s.valNat re) Config.mod1.toNat y ≠ .accepts k) →
      exec (.signd rdr rz re rds) s = exec (.nonce rd rz re 1) s)

/-- The whole SIGND command: a key outside [1, n − 1] raises INVALID_ELEMENT; otherwise, if GEN_K(z, e, n) accepts on pass j + 1 the
candidate k, and the MAC provider answers its requests, the machine ends with ITER = min(j, 0xFFFF_FFFF): with R = PMUL(G, k), r = 0 or
s = 0 raises DEGENERATE_NONCE, and otherwise the signature is committed (spec 44_ecdsa R242, R243; 43_nonce R216, R218; 20_memory R79).
That the drawn accesses may be moments without an event is log entry 2, one MAC call a step is log entry 4, the steps of the loop are log
entry 5, the order of the responses is log entry 19. The MAC is the free value of log entry 3: acceptance is witnessed with the nominal
MAC. -/
def Obligations.SigndRefinesGenKAndSignCore : Prop :=
  ∀ (s : State) (rdr rz re rds : RegIx) (n : Nat), n = Config.mod1.toNat →
    (s.valNat re = 0 ∨ n ≤ s.valNat re → exec (.signd rdr rz re rds) s = .next (s.completeErr .invalidElement)) ∧
    (∀ (j : Nat) (candidate : Nat → Nat) (Rx Ry : Value) (sig : Nat × Nat),
      begunWithReplies s (.signd rdr rz re rds) (callsUpTo Config.kLen n j) → s.iter = 0#32 → 1 ≤ s.valNat re → s.valNat re < n →
      candidate = passCandidate Config.mac Config.kLen (s.valNat rz) (s.valNat re) n →
      (∀ i : Nat, i < j → rejected n (candidate i)) → ¬ rejected n (candidate j) →
      pointMul s.curve (.aff .s0 Config.gx0 Config.gy0) (candidate j) = .ok (.aff .s0 Rx Ry) →
      sig = signatureOf (s.valNat rz) (s.valNat re) (candidate j) Rx →
      (sig.1 = 0 ∨ sig.2 = 0 →
        reaches s { s.completeErr .degenerateNonce with iter := saturated j, abandoned := 0, host := [] }) ∧
      (sig.1 ≠ 0 → sig.2 ≠ 0 →
        reaches s { (withSignature s rdr rds sig).finish with iter := saturated j, abandoned := 0, host := [] }))

/-- VERIFY: failed domain checks (r or s is 0 or not below n, or the key is out of range or off the curve) end it in one step with VRES = 0
and no error; with both products computed the step writes VRES = 1 exactly when their sum is affine with X mod n = r; and the whole
command, left alone by the host, always completes without an error and writes VRES alone: the verdict on u·G + v·Q, where
w = s^(n−2) mod n, u = z·w mod n and v = r·w mod n (spec 44_ecdsa R245, R246, R247; 60_exceptions R287; the steps of the loop are log
entry 5, and that LAT passes with a silent host is log entry 2). -/
def Obligations.VerifyWritesTheVerdict : Prop :=
  ∀ (s : State) (rr rs rz rpx rpy : RegIx) (n w : Nat), n = Config.mod1.toNat → w = s.valNat rs ^ (n - 2) % n →
    (¬ mayMultiply s (.verify rr rs rz rpx rpy) →
      exec (.verify rr rs rz rpx rpy) s = .next { s with vres := false, phase := .idle, done := true }) ∧
    (∀ (m : Mul) (P1 : Point), mayMultiply s (.verify rr rs rz rpx rpy) →
      s.work = .mul m → bitlen m.k ≤ m.iters → m.earlier = some P1 → ∃ b : Bool,
      exec (.verify rr rs rz rpx rpy) s = .next { s with vres := b, phase := .idle, done := true } ∧
      (b = true ↔ ∃ (c : Slot) (X Y : Value), pointAdd s.curve P1 m.result = .ok (.aff c X Y) ∧ X.toNat % n = s.valNat rr)) ∧
    (begun s (.verify rr rs rz rpx rpy) → mayMultiply s (.verify rr rs rz rpx rpy) →
      ∃ (b : Bool) (P1 P2 P3 : Point),
        reaches s { s with vres := b, phase := .idle, done := true } ∧
        pointMul s.curve (.aff .s0 Config.gx0 Config.gy0) (s.valNat rz * w % n) = .ok P1 ∧
        pointMul s.curve (.aff .s0 (s.reg rpx).val (s.reg rpy).val) (s.valNat rr * w % n) = .ok P2 ∧
        pointAdd s.curve P1 P2 = .ok P3 ∧
        (b = true ↔ ∃ (c : Slot) (X Y : Value), P3 = .aff c X Y ∧ X.toNat % n = s.valNat rr))

/-- What signing returns verifies: with the key Q = e·G and a signature (r, s) of z by e with the nonce k, r and s not 0, VERIFY left
alone by the host completes with VRES = 1, for (r, s) and for (r, n − s) (spec 44_ecdsa R252, R248; that LAT passes with a silent host is
log entry 2, the steps of the loop are log entry 5). -/
def Obligations.SignaturesVerify : Prop :=
  ∀ (s : State) (rr rs rz rpx rpy : RegIx) (n e k : Nat) (Rx Ry : Value) (sig : Nat × Nat), n = Config.mod1.toNat →
    begun s (.verify rr rs rz rpx rpy) →
    pointMul s.curve (.aff .s0 Config.gx0 Config.gy0) e = .ok (.aff .s0 (s.reg rpx).val (s.reg rpy).val) →
    pointMul s.curve (.aff .s0 Config.gx0 Config.gy0) k = .ok (.aff .s0 Rx Ry) →
    sig = signatureOf (s.valNat rz) e k Rx → sig.1 ≠ 0 → sig.2 ≠ 0 →
    s.valNat rr = sig.1 → (s.valNat rs = sig.2 ∨ s.valNat rs = n - sig.2) →
    reaches s { s with vres := true, phase := .idle, done := true }

/-- The digest counts modulo n: SIGN and VERIFY do the same at every step on states that differ only in a digest register that is no other
operand and no destination, when the two digests are equal mod n (spec 44_ecdsa R251, for SIGN and VERIFY; nothing is said here of SIGND, where
43_nonce R213 and R215 rule what a z not below n does and the last sentence of R251 says otherwise, log entry 21). -/
def Obligations.DigestCountsModuloN : Prop :=
  ∀ (s t : State) (i : Instr) (rz : RegIx) (other : Reg),
    ((∃ rdr re rk rds : RegIx, i = .sign rdr rz re rk rds ∧ rz ≠ rdr ∧ rz ≠ re ∧ rz ≠ rk ∧ rz ≠ rds) ∨
      (∃ rr rs rpx rpy : RegIx, i = .verify rr rs rz rpx rpy ∧ rz ≠ rr ∧ rz ≠ rs ∧ rz ≠ rpx ∧ rz ≠ rpy)) →
    other.val.toNat ≡ s.valNat rz [MOD Config.mod1.toNat] →
    exec i s = .next t → exec i (s.setReg rz other) = .next (t.setReg rz other)

/-! ## The register window -/

/-- How the engine, idle, BUSY with drawn accesses left or waiting for a MAC response, serves the oldest access. While RST is not asserted,
one that is not 32 bits wide at an offset divisible by 4 gets the error response, reads 0 and changes no state; a well-formed read
returns the word at its offset and changes no state; a well-formed write gets no error and is MemWrite. A drawn access counts against
LAT. An access outside the window is none of the engine's (log entry 20). An idle engine with no pending event keeps all its state
(spec 20_memory R61; R60, R69; 60_exceptions R295; 70_reset_and_hazards R320; the response kept in the state is log entry 6, the count of
the draw log entry 2). -/
def Obligations.BusAccessesAreServed : Prop :=
  (∀ (s base : State) (width : Nat) (off : BitVec 12) (op : BusOp) (rest : List HostEvent),
    ((s.phase = .idle ∨ s.phase = .exec 0 s.work ∧ outstanding s) ∧ base = { s with host := rest } ∨
      ∃ (n : Nat) (work : Work), s.phase = .exec (n + 1) work ∧ base = { s with phase := .exec n work, host := rest }) →
    s.host = accessAt width off op :: rest → s.rst = false →
    ((width ≠ 32 ∨ off.toNat % 4 ≠ 0) →
      (op = .read → step s = .next { base with resp := some (.read true 0#32) }) ∧
      (∀ w : Word, op = .write w → step s = .next { base with resp := some (.write true) })) ∧
    (width = 32 → off.toNat % 4 = 0 →
      (op = .read → step s = .next { base with resp := some (.read false (memRead base off)) }) ∧
      (∀ w : Word, op = .write w → step s = .next { memWrite base off w with resp := some (.write false) }))) ∧
  (∀ (s : State) (width addr : Nat) (op : BusOp) (rest : List HostEvent),
    s.phase = .idle ∨ (∃ (n : Nat) (work : Work), s.phase = .exec (n + 1) work) ∨ s.phase = .exec 0 s.work ∧ outstanding s →
    s.host = .access width addr op :: rest → addr < Config.base ∨ Config.base + 4096 ≤ addr →
    step s = .next { s with host := rest }) ∧
  (∀ s : State, s.phase = .idle → s.host = [] → step s = .next s)

/-- The layout of the 256-bit registers: word k of a register at base o is V[255−32k : 224−32k] at offset o + 4k; a write replaces
just that word; and V is the sum of its words, the most significant at the lowest offset (spec 20_memory R62, R70). -/
def Obligations.WideRegistersAreEightWords : Prop :=
  (∀ (s : State) (i : RegIx) (k : Fin 8),
    memRead s (wordOffset (regBase i) k) = (s.reg i).val.extractLsb' (224 - 32 * k.val) 32) ∧
  (∀ (s : State) (r : Wide) (k : Fin 8),
    memRead s (wordOffset (wideBase r) k) = (wideVal s r).extractLsb' (224 - 32 * k.val) 32) ∧
  (∀ (s : State) (j : PointIx) (k : Fin 8),
    memRead s (wordOffset (0x500 + 0x40 * j.val) k) = (pointXVal (s.point j)).extractLsb' (224 - 32 * k.val) 32 ∧
    memRead s (wordOffset (0x520 + 0x40 * j.val) k) = (pointYVal (s.point j)).extractLsb' (224 - 32 * k.val) 32) ∧
  (∀ (s : State) (i : RegIx) (k k' : Fin 8) (w : Word), s.phase = .idle →
    memRead (memWrite s (wordOffset (regBase i) k) w) (wordOffset (regBase i) k') =
      if k' = k then w else memRead s (wordOffset (regBase i) k')) ∧
  (∀ (s : State) (r : Wide) (k k' : Fin 8) (w : Word), s.phase = .idle →
    r ∈ [Wide.mod2, Wide.mod3, Wide.a1, Wide.b1, Wide.gx1, Wide.gy1] →
    memRead (memWrite s (wordOffset (wideBase r) k) w) (wordOffset (wideBase r) k') =
      if k' = k then w else memRead s (wordOffset (wideBase r) k')) ∧
  (∀ v : Value, v.toNat = ∑ k : Fin 8, (wordOf v k).toNat * 2 ^ (32 * (7 - k.val)))

/-- Reserved offsets read 0 and ignore writes; read-only registers ignore writes without WIGN; a STATUS write changes none of the
read-only fields (spec 20_memory R64, R65). -/
def Obligations.ReservedAndReadOnlyWritesAreIgnored : Prop :=
  (∀ (s : State) (off : BitVec 12) (w : Word), reservedOffset off → memRead s off = 0#32 ∧ memWrite s off w = s) ∧
  (∀ (s : State) (off : BitVec 12) (w : Word), readOnlyOffset off → memWrite s off w = s) ∧
  (∀ (s : State) (w : Word), (memWrite s 0x00C w).busy = s.busy ∧ (memWrite s 0x00C w).err = s.err ∧
    (memWrite s 0x00C w).vres = s.vres ∧ (memWrite s 0x00C w).eqFlag = s.eqFlag ∧
    (memWrite s 0x00C w).errcode = s.errcode)

/-- While BUSY a write to CMD or to any word of R0..R15, MOD2, MOD3, A1, B1, GX1 or GY1 changes nothing but sets WIGN; writes to CTRL
and STATUS take effect as when idle, that of CTRL stated here for a write that does not abort or reset (spec 20_memory R66). -/
def Obligations.LockedWritesWhileBusySetWign : Prop :=
  ∀ (s : State), s.busy = true →
    (∀ (off : BitVec 12) (w : Word), lockedOffset off → memWrite s off w = { s with wign := true }) ∧
    (∀ w : Word, (w.getLsbD 1 = false → w.getLsbD 2 = false → memWrite s 0x008 w = { s with ie := w.getLsbD 0 }) ∧
      ((memWrite s 0x00C w).done = (s.done && !w.getLsbD 1)) ∧ ((memWrite s 0x00C w).wign = (s.wign && !w.getLsbD 5)))

/-- An accepted write to MOD2 or MOD3 turns the elements of that modulus RAW, keeping their values; one to MOD2, A1 or B1 turns the
slot-1 points into NONE; one to Ri turns Ri alone RAW; one to GX1, GY1, STATUS, CMD or CTRL (without a soft reset) invalidates nothing;
whatever the word written. Such a write to a data register changes, beside the register written, only the tags and points just named:
every other piece of state, the status bits, ITER and the other registers among them, is as before (spec 10_state R30, R23;
20_memory R62, R69). -/
def Obligations.WritesInvalidateBindings : Prop :=
  ∀ (s : State) (k : Fin 8) (w : Word), s.phase = .idle →
    (∀ (i j : RegIx), ((memWrite s (wordOffset (regBase i) k) w).reg i).tag = .raw ∧
      (j ≠ i → (memWrite s (wordOffset (regBase i) k) w).reg j = s.reg j) ∧
      (memWrite s (wordOffset (regBase i) k) w).points = s.points) ∧
    (∀ t : State, (t = memWrite s 0x00C w ∨ t = memWrite s 0x010 w ∨ (t = memWrite s 0x008 w ∧ w.getLsbD 2 = false)) →
      t.regs = s.regs ∧ t.points = s.points) ∧
    (∀ r : Wide, r ∈ [Wide.mod2, Wide.mod3, Wide.a1, Wide.b1, Wide.gx1, Wide.gy1] →
      ∀ t : State, t = memWrite s (wordOffset (wideBase r) k) w →
      (∀ i : RegIx, (t.reg i).val = (s.reg i).val ∧
        ((r = .mod2 ∧ (s.reg i).tag = .el 2) ∨ (r = .mod3 ∧ (s.reg i).tag = .el 3) → (t.reg i).tag = .raw) ∧
        (¬ ((r = .mod2 ∧ (s.reg i).tag = .el 2) ∨ (r = .mod3 ∧ (s.reg i).tag = .el 3)) → (t.reg i).tag = (s.reg i).tag)) ∧
      (∀ j : PointIx,
        ((r = .mod2 ∨ r = .a1 ∨ r = .b1) → (∃ x y : Value, s.point j = some (.aff .s1 x y)) → t.point j = none) ∧
        (¬ ((r = .mod2 ∨ r = .a1 ∨ r = .b1) ∧ ∃ x y : Value, s.point j = some (.aff .s1 x y)) → t.point j = s.point j))) ∧
    (∀ (i : RegIx) (t : State), t = memWrite s (wordOffset (regBase i) k) w → t = { s with regs := t.regs }) ∧
    (∀ (r : Wide) (t : State), t = memWrite s (wordOffset (wideBase r) k) w →
      (r = .mod2 → t = { s with mod2 := t.mod2, regs := t.regs, points := t.points }) ∧
      (r = .mod3 → t = { s with mod3 := t.mod3, regs := t.regs }) ∧
      (r = .a1 → t = { s with a1 := t.a1, points := t.points }) ∧
      (r = .b1 → t = { s with b1 := t.b1, points := t.points }) ∧
      (r = .gx1 → t = { s with gx1 := t.gx1 }) ∧
      (r = .gy1 → t = { s with gy1 := t.gy1 }))

/-- The 32-bit registers, for every state: ID is 0x4543_0001, PARAM holds K_LEN, NR and NP, CTRL holds IE in bit 0 and reads 0 elsewhere, CMD
holds the latched word. The status maps and STATUS bit by bit: nibble k of TAGS0 and TAGS1 holds the tag of R(k) and R(8 + k), nibble j
of PSTAT the state of Pj, all three read-only; STATUS has its fields at their places and two W1C bits; a CTRL write with ABORT and SRST
clear stores its bit 0 in IE and changes nothing else, whether or not the engine is BUSY and whatever DONE is
(spec 10_state R34, R37; R31, R32, R33, R35). -/
def Obligations.StatusWordsShowTheirFields : Prop :=
  ∀ s : State,
    (∀ (k : Fin 8) (w : Fin 2) (v : Word), v = memRead s (if w = 0 then 0x018 else 0x01C) →
      let r := s.reg ⟨8 * w.val + k.val, by omega⟩
      (r.tag = .raw → v.extractLsb' (4 * k.val) 4 = 0#4) ∧
      (∀ m : ModIx, r.tag = .el m → v.extractLsb' (4 * k.val) 2 = BitVec.ofNat 2 m.val ∧
        v.getLsbD (4 * k.val + 2) = true ∧ v.getLsbD (4 * k.val + 3) = false)) ∧
    (∀ (k : Fin 8) (v : Word), v = memRead s 0x020 →
      (s.point k = none → v.extractLsb' (4 * k.val) 4 = 0#4) ∧
      (s.point k = some .inf → v.extractLsb' (4 * k.val) 4 = 1#4) ∧
      (∀ (c : Slot) (x y : Value), s.point k = some (.aff c x y) → v.extractLsb' (4 * k.val) 2 = 2#2 ∧
        v.getLsbD (4 * k.val + 2) = (c == .s1) ∧ v.getLsbD (4 * k.val + 3) = false)) ∧
    (∀ v : Word, v = memRead s 0x00C →
      v.getLsbD 0 = s.busy ∧ v.getLsbD 1 = s.done ∧ v.getLsbD 2 = s.err ∧ v.getLsbD 3 = s.vres ∧ v.getLsbD 4 = s.eqFlag ∧
      v.getLsbD 5 = s.wign ∧ v.extractLsb' 6 2 = 0#2 ∧ v.extractLsb' 8 4 = s.errcode.bits ∧ v.extractLsb' 12 20 = 0#20) ∧
    (memRead s 0x000 = 0x45430001#32 ∧ memRead s 0x010 = s.cmd) ∧
    (∀ v : Word, v = memRead s 0x004 →
      v.extractLsb' 0 8 = BitVec.ofNat 8 Config.kLen ∧ v.extractLsb' 8 8 = 16#8 ∧ v.extractLsb' 16 8 = 8#8 ∧ v.extractLsb' 24 8 = 0#8) ∧
    (∀ v : Word, v = memRead s 0x008 → v.getLsbD 0 = s.ie ∧ v.extractLsb' 1 31 = 0#31) ∧
    (∀ w : Word, memWrite s 0x018 w = s ∧ memWrite s 0x01C w = s ∧ memWrite s 0x020 w = s ∧
      memWrite s 0x00C w = { s with done := s.done && !w.getLsbD 1, wign := s.wign && !w.getLsbD 5 } ∧
      (w.getLsbD 1 = false → w.getLsbD 2 = false → memWrite s 0x008 w = { s with ie := w.getLsbD 0 }))

/-- IRQ = IE ∧ DONE: it stands after a completion with IE = 1 and when IE is set while DONE = 1; it falls when DONE is cleared by W1C or
by an accept, and when IE is cleared (spec 10_state R42). -/
def Obligations.IrqIsEnableAndDone : Prop :=
  ∀ s : State, s.irq = (s.ie && s.done) ∧
    (∀ (i : Instr) (t : State), exec i s = .next t → t.phase = .idle → t.irq = s.ie) ∧
    (∀ w : Word, w.getLsbD 1 = false → w.getLsbD 2 = false → (memWrite s 0x008 w).irq = (w.getLsbD 0 && s.done)) ∧
    (∀ w : Word, w.getLsbD 1 = true → (memWrite s 0x00C w).irq = false) ∧
    (∀ w : Word, s.phase = .idle → (memWrite s 0x010 w).irq = false)

/-! ## Abort and reset -/

/-- CTRL.ABORT while BUSY completes the command with code 10 and writes no destination, and the response to an outstanding MAC request
is to be discarded; while idle it has no effect; with SRST in the same write the reset governs (spec 60_exceptions R284, 10_state R33,
20_memory R79). That the aborting write also stores its bit 0 in IE is the model's, log entry 16, and so is the count of the responses to
discard, log entry 19. -/
def Obligations.AbortEndsTheCommand : Prop :=
  ∀ (s : State) (w : Word), w.getLsbD 1 = true →
    (w.getLsbD 2 = false → s.busy = true → ErrCode.bits .aborted = 10#4 ∧ ∃ n : Nat, discards s n ∧
      memWrite s 0x008 w =
        { s with ie := w.getLsbD 0, phase := .idle, done := true, err := true, errcode := .aborted, abandoned := n }) ∧
    (w.getLsbD 2 = false → s.busy = false → memWrite s 0x008 w = { s with ie := w.getLsbD 0 }) ∧
    (w.getLsbD 2 = true → memWrite s 0x008 w = s.toReset)

/-- A soft reset, BUSY or not, gives every piece of the engine's state its reset value: no completion is reported, DONE = 0, ERR = 0 and
IRQ = 0 afterwards, the executing command is discarded and its outstanding MAC request abandoned
(spec 70_reset_and_hazards R312, R313; the count of the responses to discard is log entry 19, and what no reset touches is log entry 8). -/
def Obligations.SoftResetGivesTheResetValues : Prop :=
  ∀ (s : State) (w : Word), w.getLsbD 2 = true → ∀ t : State, t = memWrite s 0x008 w →
    (∃ n : Nat, discards s n ∧
      t = { State.reset with rst := s.rst, abandoned := n, host := s.host, resp := s.resp, draws := s.draws }) ∧
    t.irq = false ∧ t.busy = false ∧ memRead t 0x008 = 0#32 ∧ memRead t 0x00C = 0#32

/-- A hard reset: when RST is asserted the engine, whatever it does, has its reset values, and an outstanding MAC request is abandoned; while
RST is asserted reads return 0, writes are ignored and IRQ is 0; when it is released every piece of state has its reset value
(spec 70_reset_and_hazards R310, R313; that the values appear already at the assertion is log entry 8, the count of the responses to
discard is log entry 19). -/
def Obligations.HardResetHoldsTheResetValues : Prop :=
  (∀ (s : State) (rest : List HostEvent), s.host = .rst true :: rest → ∃ n : Nat, discards s n ∧
    step s = .next { State.reset with rst := true, abandoned := n, host := rest, resp := s.resp, draws := s.draws }) ∧
  (∀ (s : State) (rest : List HostEvent), s.phase = .idle → s.rst = true → s.host = .rst false :: rest →
    step s = .next { State.reset with
      rst := false, abandoned := s.abandoned, host := rest, resp := s.resp, draws := s.draws }) ∧
  (∀ (s : State) (off : BitVec 12) (op : BusOp) (rest : List HostEvent), s.phase = .idle → s.rst = true →
    s.host = accessAt 32 off op :: rest → off.toNat % 4 = 0 →
    ∃ r : BusResp, step s = .next { s with host := rest, resp := some r } ∧ (op = .read → r = .read false 0#32)) ∧
  (∀ s : State, s.ResetHeld → s.rst = true → s.irq = false)

/-! ## Invariants -/

/-- The reset values of spec 10_state R41, and the invariants at reset. -/
def Obligations.ResetMeetsTheInvariants : Prop :=
  State.reset.CurveInv ∧
  (∀ i : RegIx, State.reset.reg i = ⟨0#256, .raw⟩) ∧ (∀ j : PointIx, State.reset.point j = none) ∧
  State.reset.mod2 = 0#256 ∧ State.reset.mod3 = 0#256 ∧ State.reset.a1 = 0#256 ∧ State.reset.b1 = 0#256 ∧
  State.reset.gx1 = 0#256 ∧ State.reset.gy1 = 0#256 ∧
  memRead State.reset 0x008 = 0#32 ∧ memRead State.reset 0x00C = 0#32 ∧ memRead State.reset 0x010 = 0#32 ∧
  memRead State.reset 0x014 = 0#32 ∧ memRead State.reset 0x018 = 0#32 ∧ memRead State.reset 0x01C = 0#32 ∧
  memRead State.reset 0x020 = 0#32 ∧ State.reset.irq = false ∧ State.reset.phase = .idle

/-- Every step keeps the engine's invariant: elements and points reduced, the status record consistent, reset values held under RST,
and the working values those of the executing command (spec 10_state R22, R25, R34, R40; 60_exceptions R270, R280;
70_reset_and_hazards R310, with log entry 8 for the values under RST and log entries 4 and 5 for the steps of the two loops). -/
def Obligations.EveryStepKeepsTheInvariant : Prop :=
  ∀ s t : State, s.Inv → step s = .next t → t.Inv

/-- Every step keeps every point on its curve where the modulus of its slot is prime (spec 10_state R25, R26; 42_point R176). -/
def Obligations.EveryStepKeepsPointsOnTheirCurve : Prop :=
  ∀ s t : State, s.CurveInv → step s = .next t → t.CurveInv
end

