-- ==== Sys2Proof/Laws/Arith.lean ====
section
/-! SUPPORT. The modular arithmetic unit: what its loops compute (spec 00_scope R14, 41_field R137). -/

namespace Sys2Proof.Machine

theorem bitlen_eq_size (v : Nat) : bitlen v = v.size := by
  unfold bitlen
  split
  · rename_i h; subst h; rfl
  · rename_i h
    have h1 : v.size ≤ Nat.log2 v + 1 := Nat.size_le.2 Nat.lt_log2_self
    have h2 : Nat.log2 v < v.size := Nat.lt_size.2 (Nat.log2_self_le h)
    omega

/-- v has no bit from bitlen(v) on. -/
theorem lt_two_pow_bitlen (v : Nat) : v < 2 ^ bitlen v := by
  rw [bitlen_eq_size]; exact Nat.lt_size_self v

theorem bitlen_le_iff {v n : Nat} : bitlen v ≤ n ↔ v < 2 ^ n := by
  rw [bitlen_eq_size]; exact Nat.size_le

theorem two_pow_pred_bitlen_le {v : Nat} (h : v ≠ 0) : 2 ^ (bitlen v - 1) ≤ v := by
  rw [bitlen, if_neg h, Nat.add_sub_cancel]
  exact Nat.log2_self_le h

theorem residue_lt (a : Int) {m : Nat} (h : 0 < m) : residue a m < m := by
  have h1 := Int.emod_lt_of_pos a (show (0 : Int) < m by omega)
  have h2 := Int.emod_nonneg a (show (m : Int) ≠ 0 by omega)
  unfold residue
  omega

/-- The residue as an integer. -/
theorem residue_cast (a : Int) {m : Nat} (h : 0 < m) : (residue a m : Int) = a % m := by
  have h2 := Int.emod_nonneg a (show (m : Int) ≠ 0 by omega)
  unfold residue
  omega

theorem residue_natCast (a m : Nat) : residue (a : Int) m = a % m := by
  unfold residue
  rw [← Int.natCast_mod, Int.toNat_natCast]

/-- The residue in the ring of integers mod m. -/
theorem residue_zmod (a : Int) {m : Nat} (h : 0 < m) : ((residue a m : Nat) : ZMod m) = (a : ZMod m) := by
  have h1 : (((residue a m : Nat) : Int) : ZMod m) = (a : ZMod m) := by
    rw [residue_cast a h, ZMod.intCast_mod]
  rw [← h1, Int.cast_natCast]

theorem toNat_toValue {v : Nat} (h : v < 2 ^ 256) : (toValue v).toNat = v := by
  rw [toValue, BitVec.toNat_ofNat, Nat.mod_eq_of_lt h]

/-- The result is the same whichever method REDUCER names (spec 00_scope R11, R13). -/
@[simp] theorem reduce_eq (method : Reducer) (v M : Nat) : reduce method v M = v % M := rfl

@[simp] theorem mulMod_eq (a b M : Nat) : mulMod a b M = a * b % M := rfl

/-- The square-and-multiply loop goes from r = b^(the high part of e) to b^e (spec 41_field R137). -/
theorem powLoop_eq (M b e n r : Nat) (hr : r = b ^ (e >>> n) % M) : powLoop M b e n r = b ^ e % M := by
  induction n generalizing r with
  | zero => simpa [powLoop] using hr
  | succ n ih =>
    rw [powLoop]
    simp only [mulMod_eq]
    apply ih
    have hs : e >>> n = 2 * (e >>> (n + 1)) + (e.testBit n).toNat := by
      rw [Nat.shiftRight_succ, Nat.testBit_eq_decide_div_mod_eq, Nat.shiftRight_eq_div_pow]
      have := Nat.div_add_mod (e / 2 ^ n) 2
      by_cases h1 : e / 2 ^ n % 2 = 1 <;> simp [h1] <;> omega
    rw [hs, hr]
    cases e.testBit n
    · simp [pow_mul', sq]
    · simp [pow_add, pow_mul', sq, Nat.mul_mod]

/-- FPOW_M(b, s) = b^(s mod (M − 1)) mod M (spec 41_field R137). -/
theorem fpowM_eq (M b : Nat) (s : Int) : fpowM M b s = b ^ residue s (M - 1) % M := by
  unfold fpowM
  apply powLoop_eq
  rw [Nat.shiftRight_eq_div_pow, Nat.div_eq_of_lt (lt_two_pow_bitlen _), pow_zero]

/-- The Fermat exponent M − 2 is not reduced further (spec 41_field R138, R139). -/
theorem fpowM_fermat (M b : Nat) (h : 2 ≤ M) : fpowM M b (M - 2) = b ^ (M - 2) % M := by
  rw [fpowM_eq, show ((M : Int) - 2) = ((M - 2 : Nat) : Int) by omega, residue_natCast]
  by_cases h2 : M = 2
  · subst h2; simp
  · rw [Nat.mod_eq_of_lt (show M - 2 < M - 1 by omega)]

/-- A quotient u / v mod M (spec 41_field R138). -/
theorem fdivM_eq (M u v : Nat) (h : 2 ≤ M) : fdivM M u v = u * v ^ (M - 2) % M := by
  rw [fdivM, mulMod_eq, fpowM_fermat M v h, Nat.mul_mod, Nat.mod_mod, ← Nat.mul_mod]

/-- For a prime modulus the quotient is the quotient in the field of integers mod M (spec 41_field R138). -/
theorem fdivM_zmod (M u v : Nat) [Fact M.Prime] (hv : (v : ZMod M) ≠ 0) : ((fdivM M u v : Nat) : ZMod M) = u / v := by
  have h2 : 2 ≤ M := (Fact.out : M.Prime).two_le
  rw [fdivM_eq M u v h2, ZMod.natCast_mod, Nat.cast_mul, Nat.cast_pow, eq_div_iff hv, mul_assoc, ← pow_succ,
    show M - 2 + 1 = M - 1 by omega, ZMod.pow_card_sub_one_eq_one hv, mul_one]

theorem fdivM_lt (M u v : Nat) (h : 0 < M) : fdivM M u v < M := Nat.mod_lt _ h

end Sys2Proof.Machine
end

