-- ==== Sys2Proof/Laws/State.lean ====
section
/-! SUPPORT. What each named update of State does to each field, and what the readers of State see after it: one lemma per
field per update, true by rfl, so that no later proof unfolds a record update. -/

namespace Sys2Proof.Machine

variable (s : State)

/-! ### setReg -/

@[simp] theorem State.setReg_regs (i : RegIx) (r : Reg) : (s.setReg i r).regs = s.regs.set i.val r := rfl
@[simp] theorem State.setReg_points (i : RegIx) (r : Reg) : (s.setReg i r).points = s.points := rfl
@[simp] theorem State.setReg_mod2 (i : RegIx) (r : Reg) : (s.setReg i r).mod2 = s.mod2 := rfl
@[simp] theorem State.setReg_mod3 (i : RegIx) (r : Reg) : (s.setReg i r).mod3 = s.mod3 := rfl
@[simp] theorem State.setReg_a1 (i : RegIx) (r : Reg) : (s.setReg i r).a1 = s.a1 := rfl
@[simp] theorem State.setReg_b1 (i : RegIx) (r : Reg) : (s.setReg i r).b1 = s.b1 := rfl
@[simp] theorem State.setReg_gx1 (i : RegIx) (r : Reg) : (s.setReg i r).gx1 = s.gx1 := rfl
@[simp] theorem State.setReg_gy1 (i : RegIx) (r : Reg) : (s.setReg i r).gy1 = s.gy1 := rfl
@[simp] theorem State.setReg_ie (i : RegIx) (r : Reg) : (s.setReg i r).ie = s.ie := rfl
@[simp] theorem State.setReg_done (i : RegIx) (r : Reg) : (s.setReg i r).done = s.done := rfl
@[simp] theorem State.setReg_err (i : RegIx) (r : Reg) : (s.setReg i r).err = s.err := rfl
@[simp] theorem State.setReg_vres (i : RegIx) (r : Reg) : (s.setReg i r).vres = s.vres := rfl
@[simp] theorem State.setReg_eqFlag (i : RegIx) (r : Reg) : (s.setReg i r).eqFlag = s.eqFlag := rfl
@[simp] theorem State.setReg_wign (i : RegIx) (r : Reg) : (s.setReg i r).wign = s.wign := rfl
@[simp] theorem State.setReg_errcode (i : RegIx) (r : Reg) : (s.setReg i r).errcode = s.errcode := rfl
@[simp] theorem State.setReg_cmd (i : RegIx) (r : Reg) : (s.setReg i r).cmd = s.cmd := rfl
@[simp] theorem State.setReg_iter (i : RegIx) (r : Reg) : (s.setReg i r).iter = s.iter := rfl
@[simp] theorem State.setReg_phase (i : RegIx) (r : Reg) : (s.setReg i r).phase = s.phase := rfl
@[simp] theorem State.setReg_rst (i : RegIx) (r : Reg) : (s.setReg i r).rst = s.rst := rfl
@[simp] theorem State.setReg_abandoned (i : RegIx) (r : Reg) : (s.setReg i r).abandoned = s.abandoned := rfl
@[simp] theorem State.setReg_host (i : RegIx) (r : Reg) : (s.setReg i r).host = s.host := rfl
@[simp] theorem State.setReg_resp (i : RegIx) (r : Reg) : (s.setReg i r).resp = s.resp := rfl
@[simp] theorem State.setReg_draws (i : RegIx) (r : Reg) : (s.setReg i r).draws = s.draws := rfl
@[simp] theorem State.setReg_point (i : RegIx) (r : Reg) (k : PointIx) : (s.setReg i r).point k = s.point k := rfl
@[simp] theorem State.setReg_modulus (i : RegIx) (r : Reg) (k : ModIx) : (s.setReg i r).modulus k = s.modulus k := by
  match k with
  | 0 | 1 | 2 | 3 => rfl
@[simp] theorem State.setReg_modNat (i : RegIx) (r : Reg) (k : ModIx) : (s.setReg i r).modNat k = s.modNat k := by
  simp [State.modNat]
@[simp] theorem State.setReg_curve (i : RegIx) (r : Reg) : (s.setReg i r).curve = s.curve := by
  funext c; cases c <;> rfl
@[simp] theorem State.setReg_work (i : RegIx) (r : Reg) : (s.setReg i r).work = s.work := rfl
@[simp] theorem State.setReg_busy (i : RegIx) (r : Reg) : (s.setReg i r).busy = s.busy := rfl
@[simp] theorem State.setReg_irq (i : RegIx) (r : Reg) : (s.setReg i r).irq = s.irq := rfl
@[simp] theorem State.setReg_latched (i : RegIx) (r : Reg) : (s.setReg i r).latched = s.latched := rfl
@[simp] theorem State.setReg_waiting (i : RegIx) (r : Reg) : (s.setReg i r).waiting = s.waiting := rfl
@[simp] theorem State.setReg_resetPending (i : RegIx) (r : Reg) : (s.setReg i r).resetPending = s.resetPending := rfl

/-! ### setPoint -/

@[simp] theorem State.setPoint_regs (j : PointIx) (v : Point) : (s.setPoint j v).regs = s.regs := rfl
@[simp] theorem State.setPoint_points (j : PointIx) (v : Point) : (s.setPoint j v).points = s.points.set j.val (some v) := rfl
@[simp] theorem State.setPoint_mod2 (j : PointIx) (v : Point) : (s.setPoint j v).mod2 = s.mod2 := rfl
@[simp] theorem State.setPoint_mod3 (j : PointIx) (v : Point) : (s.setPoint j v).mod3 = s.mod3 := rfl
@[simp] theorem State.setPoint_a1 (j : PointIx) (v : Point) : (s.setPoint j v).a1 = s.a1 := rfl
@[simp] theorem State.setPoint_b1 (j : PointIx) (v : Point) : (s.setPoint j v).b1 = s.b1 := rfl
@[simp] theorem State.setPoint_gx1 (j : PointIx) (v : Point) : (s.setPoint j v).gx1 = s.gx1 := rfl
@[simp] theorem State.setPoint_gy1 (j : PointIx) (v : Point) : (s.setPoint j v).gy1 = s.gy1 := rfl
@[simp] theorem State.setPoint_ie (j : PointIx) (v : Point) : (s.setPoint j v).ie = s.ie := rfl
@[simp] theorem State.setPoint_done (j : PointIx) (v : Point) : (s.setPoint j v).done = s.done := rfl
@[simp] theorem State.setPoint_err (j : PointIx) (v : Point) : (s.setPoint j v).err = s.err := rfl
@[simp] theorem State.setPoint_vres (j : PointIx) (v : Point) : (s.setPoint j v).vres = s.vres := rfl
@[simp] theorem State.setPoint_eqFlag (j : PointIx) (v : Point) : (s.setPoint j v).eqFlag = s.eqFlag := rfl
@[simp] theorem State.setPoint_wign (j : PointIx) (v : Point) : (s.setPoint j v).wign = s.wign := rfl
@[simp] theorem State.setPoint_errcode (j : PointIx) (v : Point) : (s.setPoint j v).errcode = s.errcode := rfl
@[simp] theorem State.setPoint_cmd (j : PointIx) (v : Point) : (s.setPoint j v).cmd = s.cmd := rfl
@[simp] theorem State.setPoint_iter (j : PointIx) (v : Point) : (s.setPoint j v).iter = s.iter := rfl
@[simp] theorem State.setPoint_phase (j : PointIx) (v : Point) : (s.setPoint j v).phase = s.phase := rfl
@[simp] theorem State.setPoint_rst (j : PointIx) (v : Point) : (s.setPoint j v).rst = s.rst := rfl
@[simp] theorem State.setPoint_abandoned (j : PointIx) (v : Point) : (s.setPoint j v).abandoned = s.abandoned := rfl
@[simp] theorem State.setPoint_host (j : PointIx) (v : Point) : (s.setPoint j v).host = s.host := rfl
@[simp] theorem State.setPoint_resp (j : PointIx) (v : Point) : (s.setPoint j v).resp = s.resp := rfl
@[simp] theorem State.setPoint_draws (j : PointIx) (v : Point) : (s.setPoint j v).draws = s.draws := rfl
@[simp] theorem State.setPoint_reg (j : PointIx) (v : Point) (k : RegIx) : (s.setPoint j v).reg k = s.reg k := rfl
@[simp] theorem State.setPoint_modulus (j : PointIx) (v : Point) (k : ModIx) : (s.setPoint j v).modulus k = s.modulus k := by
  match k with
  | 0 | 1 | 2 | 3 => rfl
@[simp] theorem State.setPoint_modNat (j : PointIx) (v : Point) (k : ModIx) : (s.setPoint j v).modNat k = s.modNat k := by
  simp [State.modNat]
@[simp] theorem State.setPoint_valNat (j : PointIx) (v : Point) (k : RegIx) : (s.setPoint j v).valNat k = s.valNat k := rfl
@[simp] theorem State.setPoint_curve (j : PointIx) (v : Point) : (s.setPoint j v).curve = s.curve := by
  funext c; cases c <;> rfl
@[simp] theorem State.setPoint_work (j : PointIx) (v : Point) : (s.setPoint j v).work = s.work := rfl
@[simp] theorem State.setPoint_busy (j : PointIx) (v : Point) : (s.setPoint j v).busy = s.busy := rfl
@[simp] theorem State.setPoint_irq (j : PointIx) (v : Point) : (s.setPoint j v).irq = s.irq := rfl
@[simp] theorem State.setPoint_latched (j : PointIx) (v : Point) : (s.setPoint j v).latched = s.latched := rfl
@[simp] theorem State.setPoint_waiting (j : PointIx) (v : Point) : (s.setPoint j v).waiting = s.waiting := rfl
@[simp] theorem State.setPoint_resetPending (j : PointIx) (v : Point) : (s.setPoint j v).resetPending = s.resetPending := rfl

/-! ### setEq -/

@[simp] theorem State.setEq_regs (b : Bool) : (s.setEq b).regs = s.regs := rfl
@[simp] theorem State.setEq_points (b : Bool) : (s.setEq b).points = s.points := rfl
@[simp] theorem State.setEq_mod2 (b : Bool) : (s.setEq b).mod2 = s.mod2 := rfl
@[simp] theorem State.setEq_mod3 (b : Bool) : (s.setEq b).mod3 = s.mod3 := rfl
@[simp] theorem State.setEq_a1 (b : Bool) : (s.setEq b).a1 = s.a1 := rfl
@[simp] theorem State.setEq_b1 (b : Bool) : (s.setEq b).b1 = s.b1 := rfl
@[simp] theorem State.setEq_gx1 (b : Bool) : (s.setEq b).gx1 = s.gx1 := rfl
@[simp] theorem State.setEq_gy1 (b : Bool) : (s.setEq b).gy1 = s.gy1 := rfl
@[simp] theorem State.setEq_ie (b : Bool) : (s.setEq b).ie = s.ie := rfl
@[simp] theorem State.setEq_done (b : Bool) : (s.setEq b).done = s.done := rfl
@[simp] theorem State.setEq_err (b : Bool) : (s.setEq b).err = s.err := rfl
@[simp] theorem State.setEq_vres (b : Bool) : (s.setEq b).vres = s.vres := rfl
@[simp] theorem State.setEq_eqFlag (b : Bool) : (s.setEq b).eqFlag = b := rfl
@[simp] theorem State.setEq_wign (b : Bool) : (s.setEq b).wign = s.wign := rfl
@[simp] theorem State.setEq_errcode (b : Bool) : (s.setEq b).errcode = s.errcode := rfl
@[simp] theorem State.setEq_cmd (b : Bool) : (s.setEq b).cmd = s.cmd := rfl
@[simp] theorem State.setEq_iter (b : Bool) : (s.setEq b).iter = s.iter := rfl
@[simp] theorem State.setEq_phase (b : Bool) : (s.setEq b).phase = s.phase := rfl
@[simp] theorem State.setEq_rst (b : Bool) : (s.setEq b).rst = s.rst := rfl
@[simp] theorem State.setEq_abandoned (b : Bool) : (s.setEq b).abandoned = s.abandoned := rfl
@[simp] theorem State.setEq_host (b : Bool) : (s.setEq b).host = s.host := rfl
@[simp] theorem State.setEq_resp (b : Bool) : (s.setEq b).resp = s.resp := rfl
@[simp] theorem State.setEq_draws (b : Bool) : (s.setEq b).draws = s.draws := rfl
@[simp] theorem State.setEq_reg (b : Bool) (k : RegIx) : (s.setEq b).reg k = s.reg k := rfl
@[simp] theorem State.setEq_point (b : Bool) (k : PointIx) : (s.setEq b).point k = s.point k := rfl
@[simp] theorem State.setEq_modulus (b : Bool) (k : ModIx) : (s.setEq b).modulus k = s.modulus k := by
  match k with
  | 0 | 1 | 2 | 3 => rfl
@[simp] theorem State.setEq_modNat (b : Bool) (k : ModIx) : (s.setEq b).modNat k = s.modNat k := by
  simp [State.modNat]
@[simp] theorem State.setEq_valNat (b : Bool) (k : RegIx) : (s.setEq b).valNat k = s.valNat k := rfl
@[simp] theorem State.setEq_curve (b : Bool) : (s.setEq b).curve = s.curve := by
  funext c; cases c <;> rfl
@[simp] theorem State.setEq_work (b : Bool) : (s.setEq b).work = s.work := rfl
@[simp] theorem State.setEq_busy (b : Bool) : (s.setEq b).busy = s.busy := rfl
@[simp] theorem State.setEq_irq (b : Bool) : (s.setEq b).irq = s.irq := rfl
@[simp] theorem State.setEq_latched (b : Bool) : (s.setEq b).latched = s.latched := rfl
@[simp] theorem State.setEq_waiting (b : Bool) : (s.setEq b).waiting = s.waiting := rfl
@[simp] theorem State.setEq_resetPending (b : Bool) : (s.setEq b).resetPending = s.resetPending := rfl

/-! ### setVres -/

@[simp] theorem State.setVres_regs (b : Bool) : (s.setVres b).regs = s.regs := rfl
@[simp] theorem State.setVres_points (b : Bool) : (s.setVres b).points = s.points := rfl
@[simp] theorem State.setVres_mod2 (b : Bool) : (s.setVres b).mod2 = s.mod2 := rfl
@[simp] theorem State.setVres_mod3 (b : Bool) : (s.setVres b).mod3 = s.mod3 := rfl
@[simp] theorem State.setVres_a1 (b : Bool) : (s.setVres b).a1 = s.a1 := rfl
@[simp] theorem State.setVres_b1 (b : Bool) : (s.setVres b).b1 = s.b1 := rfl
@[simp] theorem State.setVres_gx1 (b : Bool) : (s.setVres b).gx1 = s.gx1 := rfl
@[simp] theorem State.setVres_gy1 (b : Bool) : (s.setVres b).gy1 = s.gy1 := rfl
@[simp] theorem State.setVres_ie (b : Bool) : (s.setVres b).ie = s.ie := rfl
@[simp] theorem State.setVres_done (b : Bool) : (s.setVres b).done = s.done := rfl
@[simp] theorem State.setVres_err (b : Bool) : (s.setVres b).err = s.err := rfl
@[simp] theorem State.setVres_vres (b : Bool) : (s.setVres b).vres = b := rfl
@[simp] theorem State.setVres_eqFlag (b : Bool) : (s.setVres b).eqFlag = s.eqFlag := rfl
@[simp] theorem State.setVres_wign (b : Bool) : (s.setVres b).wign = s.wign := rfl
@[simp] theorem State.setVres_errcode (b : Bool) : (s.setVres b).errcode = s.errcode := rfl
@[simp] theorem State.setVres_cmd (b : Bool) : (s.setVres b).cmd = s.cmd := rfl
@[simp] theorem State.setVres_iter (b : Bool) : (s.setVres b).iter = s.iter := rfl
@[simp] theorem State.setVres_phase (b : Bool) : (s.setVres b).phase = s.phase := rfl
@[simp] theorem State.setVres_rst (b : Bool) : (s.setVres b).rst = s.rst := rfl
@[simp] theorem State.setVres_abandoned (b : Bool) : (s.setVres b).abandoned = s.abandoned := rfl
@[simp] theorem State.setVres_host (b : Bool) : (s.setVres b).host = s.host := rfl
@[simp] theorem State.setVres_resp (b : Bool) : (s.setVres b).resp = s.resp := rfl
@[simp] theorem State.setVres_draws (b : Bool) : (s.setVres b).draws = s.draws := rfl
@[simp] theorem State.setVres_reg (b : Bool) (k : RegIx) : (s.setVres b).reg k = s.reg k := rfl
@[simp] theorem State.setVres_point (b : Bool) (k : PointIx) : (s.setVres b).point k = s.point k := rfl
@[simp] theorem State.setVres_modulus (b : Bool) (k : ModIx) : (s.setVres b).modulus k = s.modulus k := by
  match k with
  | 0 | 1 | 2 | 3 => rfl
@[simp] theorem State.setVres_modNat (b : Bool) (k : ModIx) : (s.setVres b).modNat k = s.modNat k := by
  simp [State.modNat]
@[simp] theorem State.setVres_valNat (b : Bool) (k : RegIx) : (s.setVres b).valNat k = s.valNat k := rfl
@[simp] theorem State.setVres_curve (b : Bool) : (s.setVres b).curve = s.curve := by
  funext c; cases c <;> rfl
@[simp] theorem State.setVres_work (b : Bool) : (s.setVres b).work = s.work := rfl
@[simp] theorem State.setVres_busy (b : Bool) : (s.setVres b).busy = s.busy := rfl
@[simp] theorem State.setVres_irq (b : Bool) : (s.setVres b).irq = s.irq := rfl
@[simp] theorem State.setVres_latched (b : Bool) : (s.setVres b).latched = s.latched := rfl
@[simp] theorem State.setVres_waiting (b : Bool) : (s.setVres b).waiting = s.waiting := rfl
@[simp] theorem State.setVres_resetPending (b : Bool) : (s.setVres b).resetPending = s.resetPending := rfl

/-! ### finish -/

@[simp] theorem State.finish_regs : (s.finish).regs = s.regs := rfl
@[simp] theorem State.finish_points : (s.finish).points = s.points := rfl
@[simp] theorem State.finish_mod2 : (s.finish).mod2 = s.mod2 := rfl
@[simp] theorem State.finish_mod3 : (s.finish).mod3 = s.mod3 := rfl
@[simp] theorem State.finish_a1 : (s.finish).a1 = s.a1 := rfl
@[simp] theorem State.finish_b1 : (s.finish).b1 = s.b1 := rfl
@[simp] theorem State.finish_gx1 : (s.finish).gx1 = s.gx1 := rfl
@[simp] theorem State.finish_gy1 : (s.finish).gy1 = s.gy1 := rfl
@[simp] theorem State.finish_ie : (s.finish).ie = s.ie := rfl
@[simp] theorem State.finish_done : (s.finish).done = true := rfl
@[simp] theorem State.finish_err : (s.finish).err = s.err := rfl
@[simp] theorem State.finish_vres : (s.finish).vres = s.vres := rfl
@[simp] theorem State.finish_eqFlag : (s.finish).eqFlag = s.eqFlag := rfl
@[simp] theorem State.finish_wign : (s.finish).wign = s.wign := rfl
@[simp] theorem State.finish_errcode : (s.finish).errcode = s.errcode := rfl
@[simp] theorem State.finish_cmd : (s.finish).cmd = s.cmd := rfl
@[simp] theorem State.finish_iter : (s.finish).iter = s.iter := rfl
@[simp] theorem State.finish_phase : (s.finish).phase = .idle := rfl
@[simp] theorem State.finish_rst : (s.finish).rst = s.rst := rfl
@[simp] theorem State.finish_abandoned : (s.finish).abandoned = s.abandoned := rfl
@[simp] theorem State.finish_host : (s.finish).host = s.host := rfl
@[simp] theorem State.finish_resp : (s.finish).resp = s.resp := rfl
@[simp] theorem State.finish_draws : (s.finish).draws = s.draws := rfl
@[simp] theorem State.finish_reg (k : RegIx) : (s.finish).reg k = s.reg k := rfl
@[simp] theorem State.finish_point (k : PointIx) : (s.finish).point k = s.point k := rfl
@[simp] theorem State.finish_modulus (k : ModIx) : (s.finish).modulus k = s.modulus k := by
  match k with
  | 0 | 1 | 2 | 3 => rfl
@[simp] theorem State.finish_modNat (k : ModIx) : (s.finish).modNat k = s.modNat k := by
  simp [State.modNat]
@[simp] theorem State.finish_valNat (k : RegIx) : (s.finish).valNat k = s.valNat k := rfl
@[simp] theorem State.finish_curve : (s.finish).curve = s.curve := by
  funext c; cases c <;> rfl
@[simp] theorem State.finish_latched : (s.finish).latched = s.latched := rfl
@[simp] theorem State.finish_resetPending : (s.finish).resetPending = s.resetPending := rfl

/-! ### completeErr -/

@[simp] theorem State.completeErr_regs (e : ErrCode) : (s.completeErr e).regs = s.regs := rfl
@[simp] theorem State.completeErr_points (e : ErrCode) : (s.completeErr e).points = s.points := rfl
@[simp] theorem State.completeErr_mod2 (e : ErrCode) : (s.completeErr e).mod2 = s.mod2 := rfl
@[simp] theorem State.completeErr_mod3 (e : ErrCode) : (s.completeErr e).mod3 = s.mod3 := rfl
@[simp] theorem State.completeErr_a1 (e : ErrCode) : (s.completeErr e).a1 = s.a1 := rfl
@[simp] theorem State.completeErr_b1 (e : ErrCode) : (s.completeErr e).b1 = s.b1 := rfl
@[simp] theorem State.completeErr_gx1 (e : ErrCode) : (s.completeErr e).gx1 = s.gx1 := rfl
@[simp] theorem State.completeErr_gy1 (e : ErrCode) : (s.completeErr e).gy1 = s.gy1 := rfl
@[simp] theorem State.completeErr_ie (e : ErrCode) : (s.completeErr e).ie = s.ie := rfl
@[simp] theorem State.completeErr_done (e : ErrCode) : (s.completeErr e).done = true := rfl
@[simp] theorem State.completeErr_err (e : ErrCode) : (s.completeErr e).err = true := rfl
@[simp] theorem State.completeErr_vres (e : ErrCode) : (s.completeErr e).vres = s.vres := rfl
@[simp] theorem State.completeErr_eqFlag (e : ErrCode) : (s.completeErr e).eqFlag = s.eqFlag := rfl
@[simp] theorem State.completeErr_wign (e : ErrCode) : (s.completeErr e).wign = s.wign := rfl
@[simp] theorem State.completeErr_errcode (e : ErrCode) : (s.completeErr e).errcode = e := rfl
@[simp] theorem State.completeErr_cmd (e : ErrCode) : (s.completeErr e).cmd = s.cmd := rfl
@[simp] theorem State.completeErr_iter (e : ErrCode) : (s.completeErr e).iter = s.iter := rfl
@[simp] theorem State.completeErr_phase (e : ErrCode) : (s.completeErr e).phase = .idle := rfl
@[simp] theorem State.completeErr_rst (e : ErrCode) : (s.completeErr e).rst = s.rst := rfl
@[simp] theorem State.completeErr_abandoned (e : ErrCode) : (s.completeErr e).abandoned = s.abandoned := rfl
@[simp] theorem State.completeErr_host (e : ErrCode) : (s.completeErr e).host = s.host := rfl
@[simp] theorem State.completeErr_resp (e : ErrCode) : (s.completeErr e).resp = s.resp := rfl
@[simp] theorem State.completeErr_draws (e : ErrCode) : (s.completeErr e).draws = s.draws := rfl
@[simp] theorem State.completeErr_reg (e : ErrCode) (k : RegIx) : (s.completeErr e).reg k = s.reg k := rfl
@[simp] theorem State.completeErr_point (e : ErrCode) (k : PointIx) : (s.completeErr e).point k = s.point k := rfl
@[simp] theorem State.completeErr_modulus (e : ErrCode) (k : ModIx) : (s.completeErr e).modulus k = s.modulus k := by
  match k with
  | 0 | 1 | 2 | 3 => rfl
@[simp] theorem State.completeErr_modNat (e : ErrCode) (k : ModIx) : (s.completeErr e).modNat k = s.modNat k := by
  simp [State.modNat]
@[simp] theorem State.completeErr_valNat (e : ErrCode) (k : RegIx) : (s.completeErr e).valNat k = s.valNat k := rfl
@[simp] theorem State.completeErr_curve (e : ErrCode) : (s.completeErr e).curve = s.curve := by
  funext c; cases c <;> rfl
@[simp] theorem State.completeErr_latched (e : ErrCode) : (s.completeErr e).latched = s.latched := rfl
@[simp] theorem State.completeErr_resetPending (e : ErrCode) : (s.completeErr e).resetPending = s.resetPending := rfl

/-! ### acknowledge -/

@[simp] theorem State.acknowledge_regs : (s.acknowledge).regs = s.regs := rfl
@[simp] theorem State.acknowledge_points : (s.acknowledge).points = s.points := rfl
@[simp] theorem State.acknowledge_mod2 : (s.acknowledge).mod2 = s.mod2 := rfl
@[simp] theorem State.acknowledge_mod3 : (s.acknowledge).mod3 = s.mod3 := rfl
@[simp] theorem State.acknowledge_a1 : (s.acknowledge).a1 = s.a1 := rfl
@[simp] theorem State.acknowledge_b1 : (s.acknowledge).b1 = s.b1 := rfl
@[simp] theorem State.acknowledge_gx1 : (s.acknowledge).gx1 = s.gx1 := rfl
@[simp] theorem State.acknowledge_gy1 : (s.acknowledge).gy1 = s.gy1 := rfl
@[simp] theorem State.acknowledge_ie : (s.acknowledge).ie = s.ie := rfl
@[simp] theorem State.acknowledge_done : (s.acknowledge).done = false := rfl
@[simp] theorem State.acknowledge_err : (s.acknowledge).err = s.err := rfl
@[simp] theorem State.acknowledge_vres : (s.acknowledge).vres = s.vres := rfl
@[simp] theorem State.acknowledge_eqFlag : (s.acknowledge).eqFlag = s.eqFlag := rfl
@[simp] theorem State.acknowledge_wign : (s.acknowledge).wign = s.wign := rfl
@[simp] theorem State.acknowledge_errcode : (s.acknowledge).errcode = s.errcode := rfl
@[simp] theorem State.acknowledge_cmd : (s.acknowledge).cmd = s.cmd := rfl
@[simp] theorem State.acknowledge_iter : (s.acknowledge).iter = s.iter := rfl
@[simp] theorem State.acknowledge_phase : (s.acknowledge).phase = s.phase := rfl
@[simp] theorem State.acknowledge_rst : (s.acknowledge).rst = s.rst := rfl
@[simp] theorem State.acknowledge_abandoned : (s.acknowledge).abandoned = s.abandoned := rfl
@[simp] theorem State.acknowledge_host : (s.acknowledge).host = s.host := rfl
@[simp] theorem State.acknowledge_resp : (s.acknowledge).resp = s.resp := rfl
@[simp] theorem State.acknowledge_draws : (s.acknowledge).draws = s.draws := rfl
@[simp] theorem State.acknowledge_reg (k : RegIx) : (s.acknowledge).reg k = s.reg k := rfl
@[simp] theorem State.acknowledge_point (k : PointIx) : (s.acknowledge).point k = s.point k := rfl
@[simp] theorem State.acknowledge_modulus (k : ModIx) : (s.acknowledge).modulus k = s.modulus k := by
  match k with
  | 0 | 1 | 2 | 3 => rfl
@[simp] theorem State.acknowledge_modNat (k : ModIx) : (s.acknowledge).modNat k = s.modNat k := by
  simp [State.modNat]
@[simp] theorem State.acknowledge_valNat (k : RegIx) : (s.acknowledge).valNat k = s.valNat k := rfl
@[simp] theorem State.acknowledge_curve : (s.acknowledge).curve = s.curve := by
  funext c; cases c <;> rfl
@[simp] theorem State.acknowledge_work : (s.acknowledge).work = s.work := rfl
@[simp] theorem State.acknowledge_busy : (s.acknowledge).busy = s.busy := rfl
@[simp] theorem State.acknowledge_latched : (s.acknowledge).latched = s.latched := rfl
@[simp] theorem State.acknowledge_waiting : (s.acknowledge).waiting = s.waiting := rfl
@[simp] theorem State.acknowledge_resetPending : (s.acknowledge).resetPending = s.resetPending := rfl

/-! ### abort -/

@[simp] theorem State.abort_regs : (s.abort).regs = s.regs := rfl
@[simp] theorem State.abort_points : (s.abort).points = s.points := rfl
@[simp] theorem State.abort_mod2 : (s.abort).mod2 = s.mod2 := rfl
@[simp] theorem State.abort_mod3 : (s.abort).mod3 = s.mod3 := rfl
@[simp] theorem State.abort_a1 : (s.abort).a1 = s.a1 := rfl
@[simp] theorem State.abort_b1 : (s.abort).b1 = s.b1 := rfl
@[simp] theorem State.abort_gx1 : (s.abort).gx1 = s.gx1 := rfl
@[simp] theorem State.abort_gy1 : (s.abort).gy1 = s.gy1 := rfl
@[simp] theorem State.abort_ie : (s.abort).ie = s.ie := rfl
@[simp] theorem State.abort_done : (s.abort).done = true := rfl
@[simp] theorem State.abort_err : (s.abort).err = true := rfl
@[simp] theorem State.abort_vres : (s.abort).vres = s.vres := rfl
@[simp] theorem State.abort_eqFlag : (s.abort).eqFlag = s.eqFlag := rfl
@[simp] theorem State.abort_wign : (s.abort).wign = s.wign := rfl
@[simp] theorem State.abort_errcode : (s.abort).errcode = .aborted := rfl
@[simp] theorem State.abort_cmd : (s.abort).cmd = s.cmd := rfl
@[simp] theorem State.abort_iter : (s.abort).iter = s.iter := rfl
@[simp] theorem State.abort_phase : (s.abort).phase = .idle := rfl
@[simp] theorem State.abort_rst : (s.abort).rst = s.rst := rfl
@[simp] theorem State.abort_abandoned : (s.abort).abandoned = s.abandons := rfl
@[simp] theorem State.abort_host : (s.abort).host = s.host := rfl
@[simp] theorem State.abort_resp : (s.abort).resp = s.resp := rfl
@[simp] theorem State.abort_draws : (s.abort).draws = s.draws := rfl
@[simp] theorem State.abort_reg (k : RegIx) : (s.abort).reg k = s.reg k := rfl
@[simp] theorem State.abort_point (k : PointIx) : (s.abort).point k = s.point k := rfl
@[simp] theorem State.abort_modulus (k : ModIx) : (s.abort).modulus k = s.modulus k := by
  match k with
  | 0 | 1 | 2 | 3 => rfl
@[simp] theorem State.abort_modNat (k : ModIx) : (s.abort).modNat k = s.modNat k := by
  simp [State.modNat]
@[simp] theorem State.abort_valNat (k : RegIx) : (s.abort).valNat k = s.valNat k := rfl
@[simp] theorem State.abort_curve : (s.abort).curve = s.curve := by
  funext c; cases c <;> rfl
@[simp] theorem State.abort_latched : (s.abort).latched = s.latched := rfl
@[simp] theorem State.abort_resetPending : (s.abort).resetPending = s.resetPending := rfl

/-! ### holdGen -/

@[simp] theorem State.holdGen_regs (g : Drbg) : (s.holdGen g).regs = s.regs := rfl
@[simp] theorem State.holdGen_points (g : Drbg) : (s.holdGen g).points = s.points := rfl
@[simp] theorem State.holdGen_mod2 (g : Drbg) : (s.holdGen g).mod2 = s.mod2 := rfl
@[simp] theorem State.holdGen_mod3 (g : Drbg) : (s.holdGen g).mod3 = s.mod3 := rfl
@[simp] theorem State.holdGen_a1 (g : Drbg) : (s.holdGen g).a1 = s.a1 := rfl
@[simp] theorem State.holdGen_b1 (g : Drbg) : (s.holdGen g).b1 = s.b1 := rfl
@[simp] theorem State.holdGen_gx1 (g : Drbg) : (s.holdGen g).gx1 = s.gx1 := rfl
@[simp] theorem State.holdGen_gy1 (g : Drbg) : (s.holdGen g).gy1 = s.gy1 := rfl
@[simp] theorem State.holdGen_ie (g : Drbg) : (s.holdGen g).ie = s.ie := rfl
@[simp] theorem State.holdGen_done (g : Drbg) : (s.holdGen g).done = s.done := rfl
@[simp] theorem State.holdGen_err (g : Drbg) : (s.holdGen g).err = s.err := rfl
@[simp] theorem State.holdGen_vres (g : Drbg) : (s.holdGen g).vres = s.vres := rfl
@[simp] theorem State.holdGen_eqFlag (g : Drbg) : (s.holdGen g).eqFlag = s.eqFlag := rfl
@[simp] theorem State.holdGen_wign (g : Drbg) : (s.holdGen g).wign = s.wign := rfl
@[simp] theorem State.holdGen_errcode (g : Drbg) : (s.holdGen g).errcode = s.errcode := rfl
@[simp] theorem State.holdGen_cmd (g : Drbg) : (s.holdGen g).cmd = s.cmd := rfl
@[simp] theorem State.holdGen_iter (g : Drbg) : (s.holdGen g).iter = s.iter := rfl
@[simp] theorem State.holdGen_phase (g : Drbg) : (s.holdGen g).phase = .exec 0 (.gen g) := rfl
@[simp] theorem State.holdGen_rst (g : Drbg) : (s.holdGen g).rst = s.rst := rfl
@[simp] theorem State.holdGen_abandoned (g : Drbg) : (s.holdGen g).abandoned = s.abandoned := rfl
@[simp] theorem State.holdGen_host (g : Drbg) : (s.holdGen g).host = s.host := rfl
@[simp] theorem State.holdGen_resp (g : Drbg) : (s.holdGen g).resp = s.resp := rfl
@[simp] theorem State.holdGen_draws (g : Drbg) : (s.holdGen g).draws = s.draws := rfl
@[simp] theorem State.holdGen_reg (g : Drbg) (k : RegIx) : (s.holdGen g).reg k = s.reg k := rfl
@[simp] theorem State.holdGen_point (g : Drbg) (k : PointIx) : (s.holdGen g).point k = s.point k := rfl
@[simp] theorem State.holdGen_modulus (g : Drbg) (k : ModIx) : (s.holdGen g).modulus k = s.modulus k := by
  match k with
  | 0 | 1 | 2 | 3 => rfl
@[simp] theorem State.holdGen_modNat (g : Drbg) (k : ModIx) : (s.holdGen g).modNat k = s.modNat k := by
  simp [State.modNat]
@[simp] theorem State.holdGen_valNat (g : Drbg) (k : RegIx) : (s.holdGen g).valNat k = s.valNat k := rfl
@[simp] theorem State.holdGen_curve (g : Drbg) : (s.holdGen g).curve = s.curve := by
  funext c; cases c <;> rfl
@[simp] theorem State.holdGen_irq (g : Drbg) : (s.holdGen g).irq = s.irq := rfl
@[simp] theorem State.holdGen_latched (g : Drbg) : (s.holdGen g).latched = s.latched := rfl
@[simp] theorem State.holdGen_resetPending (g : Drbg) : (s.holdGen g).resetPending = s.resetPending := rfl

/-! ### holdMul -/

@[simp] theorem State.holdMul_regs (m : Mul) : (s.holdMul m).regs = s.regs := rfl
@[simp] theorem State.holdMul_points (m : Mul) : (s.holdMul m).points = s.points := rfl
@[simp] theorem State.holdMul_mod2 (m : Mul) : (s.holdMul m).mod2 = s.mod2 := rfl
@[simp] theorem State.holdMul_mod3 (m : Mul) : (s.holdMul m).mod3 = s.mod3 := rfl
@[simp] theorem State.holdMul_a1 (m : Mul) : (s.holdMul m).a1 = s.a1 := rfl
@[simp] theorem State.holdMul_b1 (m : Mul) : (s.holdMul m).b1 = s.b1 := rfl
@[simp] theorem State.holdMul_gx1 (m : Mul) : (s.holdMul m).gx1 = s.gx1 := rfl
@[simp] theorem State.holdMul_gy1 (m : Mul) : (s.holdMul m).gy1 = s.gy1 := rfl
@[simp] theorem State.holdMul_ie (m : Mul) : (s.holdMul m).ie = s.ie := rfl
@[simp] theorem State.holdMul_done (m : Mul) : (s.holdMul m).done = s.done := rfl
@[simp] theorem State.holdMul_err (m : Mul) : (s.holdMul m).err = s.err := rfl
@[simp] theorem State.holdMul_vres (m : Mul) : (s.holdMul m).vres = s.vres := rfl
@[simp] theorem State.holdMul_eqFlag (m : Mul) : (s.holdMul m).eqFlag = s.eqFlag := rfl
@[simp] theorem State.holdMul_wign (m : Mul) : (s.holdMul m).wign = s.wign := rfl
@[simp] theorem State.holdMul_errcode (m : Mul) : (s.holdMul m).errcode = s.errcode := rfl
@[simp] theorem State.holdMul_cmd (m : Mul) : (s.holdMul m).cmd = s.cmd := rfl
@[simp] theorem State.holdMul_iter (m : Mul) : (s.holdMul m).iter = s.iter := rfl
@[simp] theorem State.holdMul_phase (m : Mul) : (s.holdMul m).phase = .exec 0 (.mul m) := rfl
@[simp] theorem State.holdMul_rst (m : Mul) : (s.holdMul m).rst = s.rst := rfl
@[simp] theorem State.holdMul_abandoned (m : Mul) : (s.holdMul m).abandoned = s.abandoned := rfl
@[simp] theorem State.holdMul_host (m : Mul) : (s.holdMul m).host = s.host := rfl
@[simp] theorem State.holdMul_resp (m : Mul) : (s.holdMul m).resp = s.resp := rfl
@[simp] theorem State.holdMul_draws (m : Mul) : (s.holdMul m).draws = s.draws := rfl
@[simp] theorem State.holdMul_reg (m : Mul) (k : RegIx) : (s.holdMul m).reg k = s.reg k := rfl
@[simp] theorem State.holdMul_point (m : Mul) (k : PointIx) : (s.holdMul m).point k = s.point k := rfl
@[simp] theorem State.holdMul_modulus (m : Mul) (k : ModIx) : (s.holdMul m).modulus k = s.modulus k := by
  match k with
  | 0 | 1 | 2 | 3 => rfl
@[simp] theorem State.holdMul_modNat (m : Mul) (k : ModIx) : (s.holdMul m).modNat k = s.modNat k := by
  simp [State.modNat]
@[simp] theorem State.holdMul_valNat (m : Mul) (k : RegIx) : (s.holdMul m).valNat k = s.valNat k := rfl
@[simp] theorem State.holdMul_curve (m : Mul) : (s.holdMul m).curve = s.curve := by
  funext c; cases c <;> rfl
@[simp] theorem State.holdMul_irq (m : Mul) : (s.holdMul m).irq = s.irq := rfl
@[simp] theorem State.holdMul_latched (m : Mul) : (s.holdMul m).latched = s.latched := rfl
@[simp] theorem State.holdMul_resetPending (m : Mul) : (s.holdMul m).resetPending = s.resetPending := rfl

/-! ### countRejection -/

@[simp] theorem State.countRejection_regs : (s.countRejection).regs = s.regs := rfl
@[simp] theorem State.countRejection_points : (s.countRejection).points = s.points := rfl
@[simp] theorem State.countRejection_mod2 : (s.countRejection).mod2 = s.mod2 := rfl
@[simp] theorem State.countRejection_mod3 : (s.countRejection).mod3 = s.mod3 := rfl
@[simp] theorem State.countRejection_a1 : (s.countRejection).a1 = s.a1 := rfl
@[simp] theorem State.countRejection_b1 : (s.countRejection).b1 = s.b1 := rfl
@[simp] theorem State.countRejection_gx1 : (s.countRejection).gx1 = s.gx1 := rfl
@[simp] theorem State.countRejection_gy1 : (s.countRejection).gy1 = s.gy1 := rfl
@[simp] theorem State.countRejection_ie : (s.countRejection).ie = s.ie := rfl
@[simp] theorem State.countRejection_done : (s.countRejection).done = s.done := rfl
@[simp] theorem State.countRejection_err : (s.countRejection).err = s.err := rfl
@[simp] theorem State.countRejection_vres : (s.countRejection).vres = s.vres := rfl
@[simp] theorem State.countRejection_eqFlag : (s.countRejection).eqFlag = s.eqFlag := rfl
@[simp] theorem State.countRejection_wign : (s.countRejection).wign = s.wign := rfl
@[simp] theorem State.countRejection_errcode : (s.countRejection).errcode = s.errcode := rfl
@[simp] theorem State.countRejection_cmd : (s.countRejection).cmd = s.cmd := rfl
@[simp] theorem State.countRejection_iter : (s.countRejection).iter = if s.iter = 0xFFFFFFFF#32 then 0xFFFFFFFF#32 else s.iter + 1#32 := rfl
@[simp] theorem State.countRejection_phase : (s.countRejection).phase = s.phase := rfl
@[simp] theorem State.countRejection_rst : (s.countRejection).rst = s.rst := rfl
@[simp] theorem State.countRejection_abandoned : (s.countRejection).abandoned = s.abandoned := rfl
@[simp] theorem State.countRejection_host : (s.countRejection).host = s.host := rfl
@[simp] theorem State.countRejection_resp : (s.countRejection).resp = s.resp := rfl
@[simp] theorem State.countRejection_draws : (s.countRejection).draws = s.draws := rfl
@[simp] theorem State.countRejection_reg (k : RegIx) : (s.countRejection).reg k = s.reg k := rfl
@[simp] theorem State.countRejection_point (k : PointIx) : (s.countRejection).point k = s.point k := rfl
@[simp] theorem State.countRejection_modulus (k : ModIx) : (s.countRejection).modulus k = s.modulus k := by
  match k with
  | 0 | 1 | 2 | 3 => rfl
@[simp] theorem State.countRejection_modNat (k : ModIx) : (s.countRejection).modNat k = s.modNat k := by
  simp [State.modNat]
@[simp] theorem State.countRejection_valNat (k : RegIx) : (s.countRejection).valNat k = s.valNat k := rfl
@[simp] theorem State.countRejection_curve : (s.countRejection).curve = s.curve := by
  funext c; cases c <;> rfl
@[simp] theorem State.countRejection_work : (s.countRejection).work = s.work := rfl
@[simp] theorem State.countRejection_busy : (s.countRejection).busy = s.busy := rfl
@[simp] theorem State.countRejection_irq : (s.countRejection).irq = s.irq := rfl
@[simp] theorem State.countRejection_latched : (s.countRejection).latched = s.latched := rfl
@[simp] theorem State.countRejection_waiting : (s.countRejection).waiting = s.waiting := rfl
@[simp] theorem State.countRejection_resetPending : (s.countRejection).resetPending = s.resetPending := rfl

/-! ### accept -/

@[simp] theorem State.accept_regs (n : Nat) (w : Word) : (s.accept n w).regs = s.regs := rfl
@[simp] theorem State.accept_points (n : Nat) (w : Word) : (s.accept n w).points = s.points := rfl
@[simp] theorem State.accept_mod2 (n : Nat) (w : Word) : (s.accept n w).mod2 = s.mod2 := rfl
@[simp] theorem State.accept_mod3 (n : Nat) (w : Word) : (s.accept n w).mod3 = s.mod3 := rfl
@[simp] theorem State.accept_a1 (n : Nat) (w : Word) : (s.accept n w).a1 = s.a1 := rfl
@[simp] theorem State.accept_b1 (n : Nat) (w : Word) : (s.accept n w).b1 = s.b1 := rfl
@[simp] theorem State.accept_gx1 (n : Nat) (w : Word) : (s.accept n w).gx1 = s.gx1 := rfl
@[simp] theorem State.accept_gy1 (n : Nat) (w : Word) : (s.accept n w).gy1 = s.gy1 := rfl
@[simp] theorem State.accept_ie (n : Nat) (w : Word) : (s.accept n w).ie = s.ie := rfl
@[simp] theorem State.accept_done (n : Nat) (w : Word) : (s.accept n w).done = false := rfl
@[simp] theorem State.accept_err (n : Nat) (w : Word) : (s.accept n w).err = false := rfl
@[simp] theorem State.accept_vres (n : Nat) (w : Word) : (s.accept n w).vres = false := rfl
@[simp] theorem State.accept_eqFlag (n : Nat) (w : Word) : (s.accept n w).eqFlag = false := rfl
@[simp] theorem State.accept_wign (n : Nat) (w : Word) : (s.accept n w).wign = s.wign := rfl
@[simp] theorem State.accept_errcode (n : Nat) (w : Word) : (s.accept n w).errcode = .ok := rfl
@[simp] theorem State.accept_cmd (n : Nat) (w : Word) : (s.accept n w).cmd = w := rfl
@[simp] theorem State.accept_iter (n : Nat) (w : Word) : (s.accept n w).iter = if clearsIter w then 0#32 else s.iter := rfl
@[simp] theorem State.accept_phase (n : Nat) (w : Word) : (s.accept n w).phase = .exec n .fresh := rfl
@[simp] theorem State.accept_rst (n : Nat) (w : Word) : (s.accept n w).rst = s.rst := rfl
@[simp] theorem State.accept_abandoned (n : Nat) (w : Word) : (s.accept n w).abandoned = s.abandoned := rfl
@[simp] theorem State.accept_host (n : Nat) (w : Word) : (s.accept n w).host = s.host := rfl
@[simp] theorem State.accept_resp (n : Nat) (w : Word) : (s.accept n w).resp = s.resp := rfl
@[simp] theorem State.accept_draws (n : Nat) (w : Word) : (s.accept n w).draws = s.draws := rfl
@[simp] theorem State.accept_reg (n : Nat) (w : Word) (k : RegIx) : (s.accept n w).reg k = s.reg k := rfl
@[simp] theorem State.accept_point (n : Nat) (w : Word) (k : PointIx) : (s.accept n w).point k = s.point k := rfl
@[simp] theorem State.accept_modulus (n : Nat) (w : Word) (k : ModIx) : (s.accept n w).modulus k = s.modulus k := by
  match k with
  | 0 | 1 | 2 | 3 => rfl
@[simp] theorem State.accept_modNat (n : Nat) (w : Word) (k : ModIx) : (s.accept n w).modNat k = s.modNat k := by
  simp [State.modNat]
@[simp] theorem State.accept_valNat (n : Nat) (w : Word) (k : RegIx) : (s.accept n w).valNat k = s.valNat k := rfl
@[simp] theorem State.accept_curve (n : Nat) (w : Word) : (s.accept n w).curve = s.curve := by
  funext c; cases c <;> rfl
@[simp] theorem State.accept_resetPending (n : Nat) (w : Word) : (s.accept n w).resetPending = s.resetPending := rfl

/-! ### dropElements -/

@[simp] theorem State.dropElements_regs (m : ModIx) : (s.dropElements m).regs = s.regs.map fun r => if r.tag = .el m then ⟨r.val, .raw⟩ else r := rfl
@[simp] theorem State.dropElements_points (m : ModIx) : (s.dropElements m).points = s.points := rfl
@[simp] theorem State.dropElements_mod2 (m : ModIx) : (s.dropElements m).mod2 = s.mod2 := rfl
@[simp] theorem State.dropElements_mod3 (m : ModIx) : (s.dropElements m).mod3 = s.mod3 := rfl
@[simp] theorem State.dropElements_a1 (m : ModIx) : (s.dropElements m).a1 = s.a1 := rfl
@[simp] theorem State.dropElements_b1 (m : ModIx) : (s.dropElements m).b1 = s.b1 := rfl
@[simp] theorem State.dropElements_gx1 (m : ModIx) : (s.dropElements m).gx1 = s.gx1 := rfl
@[simp] theorem State.dropElements_gy1 (m : ModIx) : (s.dropElements m).gy1 = s.gy1 := rfl
@[simp] theorem State.dropElements_ie (m : ModIx) : (s.dropElements m).ie = s.ie := rfl
@[simp] theorem State.dropElements_done (m : ModIx) : (s.dropElements m).done = s.done := rfl
@[simp] theorem State.dropElements_err (m : ModIx) : (s.dropElements m).err = s.err := rfl
@[simp] theorem State.dropElements_vres (m : ModIx) : (s.dropElements m).vres = s.vres := rfl
@[simp] theorem State.dropElements_eqFlag (m : ModIx) : (s.dropElements m).eqFlag = s.eqFlag := rfl
@[simp] theorem State.dropElements_wign (m : ModIx) : (s.dropElements m).wign = s.wign := rfl
@[simp] theorem State.dropElements_errcode (m : ModIx) : (s.dropElements m).errcode = s.errcode := rfl
@[simp] theorem State.dropElements_cmd (m : ModIx) : (s.dropElements m).cmd = s.cmd := rfl
@[simp] theorem State.dropElements_iter (m : ModIx) : (s.dropElements m).iter = s.iter := rfl
@[simp] theorem State.dropElements_phase (m : ModIx) : (s.dropElements m).phase = s.phase := rfl
@[simp] theorem State.dropElements_rst (m : ModIx) : (s.dropElements m).rst = s.rst := rfl
@[simp] theorem State.dropElements_abandoned (m : ModIx) : (s.dropElements m).abandoned = s.abandoned := rfl
@[simp] theorem State.dropElements_host (m : ModIx) : (s.dropElements m).host = s.host := rfl
@[simp] theorem State.dropElements_resp (m : ModIx) : (s.dropElements m).resp = s.resp := rfl
@[simp] theorem State.dropElements_draws (m : ModIx) : (s.dropElements m).draws = s.draws := rfl
@[simp] theorem State.dropElements_point (m : ModIx) (k : PointIx) : (s.dropElements m).point k = s.point k := rfl
@[simp] theorem State.dropElements_modulus (m : ModIx) (k : ModIx) : (s.dropElements m).modulus k = s.modulus k := by
  match k with
  | 0 | 1 | 2 | 3 => rfl
@[simp] theorem State.dropElements_modNat (m : ModIx) (k : ModIx) : (s.dropElements m).modNat k = s.modNat k := by
  simp [State.modNat]
@[simp] theorem State.dropElements_curve (m : ModIx) : (s.dropElements m).curve = s.curve := by
  funext c; cases c <;> rfl
@[simp] theorem State.dropElements_work (m : ModIx) : (s.dropElements m).work = s.work := rfl
@[simp] theorem State.dropElements_busy (m : ModIx) : (s.dropElements m).busy = s.busy := rfl
@[simp] theorem State.dropElements_irq (m : ModIx) : (s.dropElements m).irq = s.irq := rfl
@[simp] theorem State.dropElements_latched (m : ModIx) : (s.dropElements m).latched = s.latched := rfl
@[simp] theorem State.dropElements_waiting (m : ModIx) : (s.dropElements m).waiting = s.waiting := rfl
@[simp] theorem State.dropElements_resetPending (m : ModIx) : (s.dropElements m).resetPending = s.resetPending := rfl

/-! ### dropPoints -/

@[simp] theorem State.dropPoints_regs : (s.dropPoints).regs = s.regs := rfl
@[simp] theorem State.dropPoints_points : (s.dropPoints).points = s.points.map dropSlot1 := rfl
@[simp] theorem State.dropPoints_mod2 : (s.dropPoints).mod2 = s.mod2 := rfl
@[simp] theorem State.dropPoints_mod3 : (s.dropPoints).mod3 = s.mod3 := rfl
@[simp] theorem State.dropPoints_a1 : (s.dropPoints).a1 = s.a1 := rfl
@[simp] theorem State.dropPoints_b1 : (s.dropPoints).b1 = s.b1 := rfl
@[simp] theorem State.dropPoints_gx1 : (s.dropPoints).gx1 = s.gx1 := rfl
@[simp] theorem State.dropPoints_gy1 : (s.dropPoints).gy1 = s.gy1 := rfl
@[simp] theorem State.dropPoints_ie : (s.dropPoints).ie = s.ie := rfl
@[simp] theorem State.dropPoints_done : (s.dropPoints).done = s.done := rfl
@[simp] theorem State.dropPoints_err : (s.dropPoints).err = s.err := rfl
@[simp] theorem State.dropPoints_vres : (s.dropPoints).vres = s.vres := rfl
@[simp] theorem State.dropPoints_eqFlag : (s.dropPoints).eqFlag = s.eqFlag := rfl
@[simp] theorem State.dropPoints_wign : (s.dropPoints).wign = s.wign := rfl
@[simp] theorem State.dropPoints_errcode : (s.dropPoints).errcode = s.errcode := rfl
@[simp] theorem State.dropPoints_cmd : (s.dropPoints).cmd = s.cmd := rfl
@[simp] theorem State.dropPoints_iter : (s.dropPoints).iter = s.iter := rfl
@[simp] theorem State.dropPoints_phase : (s.dropPoints).phase = s.phase := rfl
@[simp] theorem State.dropPoints_rst : (s.dropPoints).rst = s.rst := rfl
@[simp] theorem State.dropPoints_abandoned : (s.dropPoints).abandoned = s.abandoned := rfl
@[simp] theorem State.dropPoints_host : (s.dropPoints).host = s.host := rfl
@[simp] theorem State.dropPoints_resp : (s.dropPoints).resp = s.resp := rfl
@[simp] theorem State.dropPoints_draws : (s.dropPoints).draws = s.draws := rfl
@[simp] theorem State.dropPoints_reg (k : RegIx) : (s.dropPoints).reg k = s.reg k := rfl
@[simp] theorem State.dropPoints_modulus (k : ModIx) : (s.dropPoints).modulus k = s.modulus k := by
  match k with
  | 0 | 1 | 2 | 3 => rfl
@[simp] theorem State.dropPoints_modNat (k : ModIx) : (s.dropPoints).modNat k = s.modNat k := by
  simp [State.modNat]
@[simp] theorem State.dropPoints_valNat (k : RegIx) : (s.dropPoints).valNat k = s.valNat k := rfl
@[simp] theorem State.dropPoints_curve : (s.dropPoints).curve = s.curve := by
  funext c; cases c <;> rfl
@[simp] theorem State.dropPoints_work : (s.dropPoints).work = s.work := rfl
@[simp] theorem State.dropPoints_busy : (s.dropPoints).busy = s.busy := rfl
@[simp] theorem State.dropPoints_irq : (s.dropPoints).irq = s.irq := rfl
@[simp] theorem State.dropPoints_latched : (s.dropPoints).latched = s.latched := rfl
@[simp] theorem State.dropPoints_waiting : (s.dropPoints).waiting = s.waiting := rfl
@[simp] theorem State.dropPoints_resetPending : (s.dropPoints).resetPending = s.resetPending := rfl

/-! ### respond -/

@[simp] theorem State.respond_regs (r : BusResp) : (s.respond r).regs = s.regs := rfl
@[simp] theorem State.respond_points (r : BusResp) : (s.respond r).points = s.points := rfl
@[simp] theorem State.respond_mod2 (r : BusResp) : (s.respond r).mod2 = s.mod2 := rfl
@[simp] theorem State.respond_mod3 (r : BusResp) : (s.respond r).mod3 = s.mod3 := rfl
@[simp] theorem State.respond_a1 (r : BusResp) : (s.respond r).a1 = s.a1 := rfl
@[simp] theorem State.respond_b1 (r : BusResp) : (s.respond r).b1 = s.b1 := rfl
@[simp] theorem State.respond_gx1 (r : BusResp) : (s.respond r).gx1 = s.gx1 := rfl
@[simp] theorem State.respond_gy1 (r : BusResp) : (s.respond r).gy1 = s.gy1 := rfl
@[simp] theorem State.respond_ie (r : BusResp) : (s.respond r).ie = s.ie := rfl
@[simp] theorem State.respond_done (r : BusResp) : (s.respond r).done = s.done := rfl
@[simp] theorem State.respond_err (r : BusResp) : (s.respond r).err = s.err := rfl
@[simp] theorem State.respond_vres (r : BusResp) : (s.respond r).vres = s.vres := rfl
@[simp] theorem State.respond_eqFlag (r : BusResp) : (s.respond r).eqFlag = s.eqFlag := rfl
@[simp] theorem State.respond_wign (r : BusResp) : (s.respond r).wign = s.wign := rfl
@[simp] theorem State.respond_errcode (r : BusResp) : (s.respond r).errcode = s.errcode := rfl
@[simp] theorem State.respond_cmd (r : BusResp) : (s.respond r).cmd = s.cmd := rfl
@[simp] theorem State.respond_iter (r : BusResp) : (s.respond r).iter = s.iter := rfl
@[simp] theorem State.respond_phase (r : BusResp) : (s.respond r).phase = s.phase := rfl
@[simp] theorem State.respond_rst (r : BusResp) : (s.respond r).rst = s.rst := rfl
@[simp] theorem State.respond_abandoned (r : BusResp) : (s.respond r).abandoned = s.abandoned := rfl
@[simp] theorem State.respond_host (r : BusResp) : (s.respond r).host = s.host := rfl
@[simp] theorem State.respond_resp (r : BusResp) : (s.respond r).resp = some r := rfl
@[simp] theorem State.respond_draws (r : BusResp) : (s.respond r).draws = s.draws := rfl
@[simp] theorem State.respond_reg (r : BusResp) (k : RegIx) : (s.respond r).reg k = s.reg k := rfl
@[simp] theorem State.respond_point (r : BusResp) (k : PointIx) : (s.respond r).point k = s.point k := rfl
@[simp] theorem State.respond_modulus (r : BusResp) (k : ModIx) : (s.respond r).modulus k = s.modulus k := by
  match k with
  | 0 | 1 | 2 | 3 => rfl
@[simp] theorem State.respond_modNat (r : BusResp) (k : ModIx) : (s.respond r).modNat k = s.modNat k := by
  simp [State.modNat]
@[simp] theorem State.respond_valNat (r : BusResp) (k : RegIx) : (s.respond r).valNat k = s.valNat k := rfl
@[simp] theorem State.respond_curve (r : BusResp) : (s.respond r).curve = s.curve := by
  funext c; cases c <;> rfl
@[simp] theorem State.respond_work (r : BusResp) : (s.respond r).work = s.work := rfl
@[simp] theorem State.respond_busy (r : BusResp) : (s.respond r).busy = s.busy := rfl
@[simp] theorem State.respond_irq (r : BusResp) : (s.respond r).irq = s.irq := rfl
@[simp] theorem State.respond_latched (r : BusResp) : (s.respond r).latched = s.latched := rfl
@[simp] theorem State.respond_waiting (r : BusResp) : (s.respond r).waiting = s.waiting := rfl
@[simp] theorem State.respond_resetPending (r : BusResp) : (s.respond r).resetPending = s.resetPending := rfl

/-! ### The readers a changed field gives -/

@[simp] theorem State.reg_setReg_same (i : RegIx) (r : Reg) : (s.setReg i r).reg i = r := by
  simp [State.reg, State.setReg]

theorem State.reg_setReg_ne {i j : RegIx} (r : Reg) (h : j ≠ i) : (s.setReg i r).reg j = s.reg j := by
  have h' : i.val ≠ j.val := fun e => h (Fin.ext e.symm)
  simp [State.reg, State.setReg, Vector.getElem_set_ne, h']

theorem State.reg_setReg (i j : RegIx) (r : Reg) : (s.setReg i r).reg j = if j = i then r else s.reg j := by
  by_cases h : j = i
  · subst h; simp
  · simp [h, State.reg_setReg_ne s r h]

@[simp] theorem State.point_setPoint_same (j : PointIx) (v : Point) : (s.setPoint j v).point j = some v := by
  simp [State.point, State.setPoint]

theorem State.point_setPoint_ne {i j : PointIx} (v : Point) (h : j ≠ i) : (s.setPoint i v).point j = s.point j := by
  have h' : i.val ≠ j.val := fun e => h (Fin.ext e.symm)
  simp [State.point, State.setPoint, Vector.getElem_set_ne, h']

theorem State.point_setPoint (i j : PointIx) (v : Point) :
    (s.setPoint i v).point j = if j = i then some v else s.point j := by
  by_cases h : j = i
  · subst h; simp
  · simp [h, State.point_setPoint_ne s v h]

@[simp] theorem State.reg_dropElements (m : ModIx) (i : RegIx) :
    (s.dropElements m).reg i = if (s.reg i).tag = .el m then ⟨(s.reg i).val, .raw⟩ else s.reg i := by
  unfold State.reg State.dropElements
  simp only [Vector.getElem_map]

@[simp] theorem State.point_dropPoints (j : PointIx) : s.dropPoints.point j = dropSlot1 (s.point j) := by
  simp [State.point, State.dropPoints]

@[simp] theorem State.work_holdMul (m : Mul) : (s.holdMul m).work = .mul m := rfl
@[simp] theorem State.work_holdGen (g : Drbg) : (s.holdGen g).work = .gen g := rfl
@[simp] theorem State.waiting_holdGen (g : Drbg) : (s.holdGen g).waiting = g.tag.isNone := rfl
@[simp] theorem State.waiting_holdMul (m : Mul) : (s.holdMul m).waiting = false := rfl
@[simp] theorem State.work_finish : s.finish.work = .fresh := rfl
@[simp] theorem State.work_completeErr (e : ErrCode) : (s.completeErr e).work = .fresh := rfl
@[simp] theorem State.busy_finish : s.finish.busy = false := rfl
@[simp] theorem State.busy_completeErr (e : ErrCode) : (s.completeErr e).busy = false := rfl
@[simp] theorem State.complete_ok (t : State) : s.complete (.ok t) = t.finish := rfl
@[simp] theorem State.complete_error (e : ErrCode) : s.complete (.error e) = s.completeErr e := rfl

/-- Two states with the same registers, point by point and register by register, have the same files. -/
theorem State.regs_ext {s t : State} (h : ∀ i : RegIx, s.reg i = t.reg i) : s.regs = t.regs := by
  apply Vector.ext
  intro i hi
  exact h ⟨i, hi⟩

theorem State.points_ext {s t : State} (h : ∀ j : PointIx, s.point j = t.point j) : s.points = t.points := by
  apply Vector.ext
  intro i hi
  exact h ⟨i, hi⟩

/-- A reset keeps what the host drives, the response latch and the draws; a request in flight is abandoned. -/
@[simp] theorem State.toReset_rst : s.toReset.rst = s.rst := rfl
@[simp] theorem State.toReset_abandoned : s.toReset.abandoned = s.abandons := rfl
@[simp] theorem State.toReset_host : s.toReset.host = s.host := rfl
@[simp] theorem State.toReset_resp : s.toReset.resp = s.resp := rfl
@[simp] theorem State.toReset_draws : s.toReset.draws = s.draws := rfl
@[simp] theorem State.toReset_phase : s.toReset.phase = .idle := rfl

/-- The tests of the phase. -/
theorem State.busy_eq_false_iff : s.busy = false ↔ s.phase = .idle := by
  unfold State.busy; split <;> simp_all

theorem State.work_of_phase {s : State} {n : Nat} {w : Work} (h : s.phase = .exec n w) : s.work = w := by
  simp [State.work, h]

theorem State.waiting_idle {s : State} (h : s.phase = .idle) : s.waiting = false := by
  simp [State.waiting, h]

theorem State.waiting_gen {s : State} {n : Nat} {g : Drbg} (h : s.phase = .exec n (.gen g)) : s.waiting = g.tag.isNone := by
  simp [State.waiting, h]

/-- Only a command inside GEN_K waits. -/
theorem State.waiting_eq_false {s : State} (h : ∀ g : Drbg, s.work = .gen g → g.tag ≠ none) : s.waiting = false := by
  unfold State.waiting
  split
  · rename_i g hp
    have := h g (State.work_of_phase hp)
    cases hg : g.tag <;> simp_all
  all_goals rfl

theorem State.waiting_eq_true {s : State} (h : s.waiting = true) : ∃ (n : Nat) (g : Drbg), s.phase = .exec n (.gen g) ∧ g.tag = none := by
  unfold State.waiting at h
  split at h
  · rename_i n g hp
    exact ⟨n, g, hp, by simpa using h⟩
  all_goals cases h

theorem State.abandons_of_not_waiting {s : State} (h : s.waiting = false) : s.abandons = s.abandoned := by
  simp [State.abandons, h]

theorem State.abandons_of_waiting {s : State} (h : s.waiting = true) : s.abandons = s.abandoned + 1 := by
  simp [State.abandons, h]

theorem State.unlessBusy_idle {s t : State} (h : s.phase = .idle) : s.unlessBusy t = t := by
  simp [State.unlessBusy, State.busy, h]

theorem State.unlessBusy_exec {s t : State} {n : Nat} {w : Work} (h : s.phase = .exec n w) :
    s.unlessBusy t = { s with wign := true } := by
  simp [State.unlessBusy, State.busy, h]

end Sys2Proof.Machine
end

