-- ==== Sys2Proof/Laws/Step.lean ====
section
/-! SUPPORT. What one step is in each phase, and how runs compose (spec 70_reset_and_hazards R320). -/

namespace Sys2Proof.Machine

theorem step_of_idle {s : State} (h : s.phase = .idle) : step s = .next (serveHost s) := by
  simp [step, h]

/-- A level of RST that is next is served in every phase (spec 70_reset_and_hazards R313). -/
theorem step_of_resetPending {s : State} (h : s.resetPending = true) : step s = .next (serveHost s) := by
  simp [step, h]

theorem step_of_exec_zero {s : State} {work : Work} (h : s.phase = .exec 0 work) (hr : s.resetPending = false)
    (hw : s.waiting = false) : step s = runLatched s := by
  simp [step, h, hr, hw]

/-- A command that waits for a MAC response serves the next event (spec 20_memory R79). -/
theorem step_of_waiting {s : State} {work : Work} (h : s.phase = .exec 0 work) (hw : s.waiting = true) :
    step s = .next (serveHost s) := by
  simp [step, h, hw]

theorem step_of_exec_succ {s : State} {n : Nat} {work : Work} (h : s.phase = .exec (n + 1) work) (hr : s.resetPending = false) :
    step s = .next (serveHost (if s.countsBeat then { s with phase := .exec n work } else s)) := by
  simp [step, h, hr]

theorem runLatched_of_ok {s : State} {i : Instr} (h : decode s.cmd = .ok i) : runLatched s = exec i s := by
  simp [runLatched, State.latched, h]

theorem runLatched_of_error {s : State} {e : DecodeError} (h : decode s.cmd = .error e) :
    runLatched s = .next (s.completeErr .illegalCommand) := by
  simp [runLatched, State.latched, h]

/-- Without a pending event nothing is served (spec 60_exceptions R295). -/
theorem serveHost_nil {s : State} (h : s.host = []) : serveHost s = s := by
  simp [serveHost, h]

theorem serveHost_cons {s : State} {ev : HostEvent} {rest : List HostEvent} (h : s.host = ev :: rest) :
    serveHost s = handleEvent { s with host := rest } ev := by
  simp [serveHost, h]

/-- One more step, then the rest of the run. -/
theorem run_succ_of_next {s t : State} {n : Nat} (h : step s = .next t) : core.run (n + 1) s = core.run n t := by
  have unfold_run : ∀ (M : Host.Core) (k : Nat) (u v : M.State), M.step u = .next v → M.run (k + 1) u = M.run k v := by
    intro M k u v huv
    simp only [Host.Core.run, huv]
  exact unfold_run core n s t h

theorem run_one {s t : State} (h : step s = .next t) : core.run 1 s = .next t := run_succ_of_next h

/-- A step always gives a next state: no command and no host event stops the engine (spec 60_exceptions R285, R288). -/
theorem step_next (s : State) : ∃ t : State, step s = .next t := by
  cases h : step s with
  | next t => exact ⟨t, rfl⟩
  | fault r => nomatch r
  | refused r =>
    exfalso
    unfold step at h
    split at h
    · cases h
    · split at h
      · cases h
      · split at h
        · cases h
        · unfold runLatched at h
          split at h
          · rename_i i _
            cases i <;> cases h
          · cases h
      · cases h

/-- Runs compose. -/
theorem run_add {s t : State} {m n : Nat} (h : core.run m s = .next t) : core.run (m + n) s = core.run n t := by
  induction m generalizing s with
  | zero =>
    cases h
    rw [Nat.zero_add]
  | succ m ih =>
    obtain ⟨u, hs⟩ := step_next s
    rw [run_succ_of_next hs] at h
    rw [show m + 1 + n = (m + n) + 1 by omega, run_succ_of_next hs, ih h]

/-- A command that answers a next state does so in one step of the machine. -/
theorem step_runs {s t : State} {i : Instr} {work : Work} (h : s.phase = .exec 0 work) (hr : s.resetPending = false)
    (hw : s.waiting = false) (hd : decode s.cmd = .ok i) (hx : exec i s = .next t) : step s = .next t :=
  (step_of_exec_zero h hr hw).trans ((runLatched_of_ok hd).trans hx)

/-- With no pending event the beats of LAT pass without a change (spec 70_reset_and_hazards R320; log entry 2). -/
theorem run_beats {s : State} {n : Nat} {work : Work} (h : s.phase = .exec n work) (hh : s.host = []) :
    core.run n s = .next { s with phase := .exec 0 work } := by
  induction n generalizing s with
  | zero => rw [← h]; rfl
  | succ n ih =>
    have hs := step_of_exec_succ h (by simp [State.resetPending, hh])
    rw [if_pos (by simp [State.countsBeat, hh]), serveHost_nil (by simpa using hh)] at hs
    rw [run_succ_of_next hs]
    exact ih rfl hh

/-- So they do with a moment without an event for each. -/
theorem run_quiet_beats {s : State} {n : Nat} {work : Work} {rest : List HostEvent} (h : s.phase = .exec n work)
    (hh : s.host = List.replicate n .quiet ++ rest) : core.run n s = .next { s with phase := .exec 0 work, host := rest } := by
  induction n generalizing s with
  | zero =>
    simp only [List.replicate_zero, List.nil_append] at hh
    rw [← h, ← hh]
    rfl
  | succ n ih =>
    rw [List.replicate_succ, List.cons_append] at hh
    have hs := step_of_exec_succ h (by simp [State.resetPending, hh])
    rw [if_pos (by simp [State.countsBeat, hh]), serveHost_cons (by simpa using hh)] at hs
    rw [run_succ_of_next hs]
    exact ih rfl rfl

end Sys2Proof.Machine
end

