-- ==== Sys2Proof/Laws/Bus.lean ====
section
/-! SUPPORT. The register window: where each offset of spec 20_memory R70 leads, what a well-formed access is, and what reads and
writes of words of 256-bit registers do (spec 20_memory R62). -/

namespace Sys2Proof.Machine

/-! ### The address map -/

theorem locate_id : locate 0x000#12 = .id := by decide
theorem locate_param : locate 0x004#12 = .param := by decide
theorem locate_ctrl : locate 0x008#12 = .ctrl := by decide
theorem locate_status : locate 0x00C#12 = .status := by decide
theorem locate_cmd : locate 0x010#12 = .cmd := by decide
theorem locate_iter : locate 0x014#12 = .iter := by decide
theorem locate_tags0 : locate 0x018#12 = .tags0 := by decide
theorem locate_tags1 : locate 0x01C#12 = .tags1 := by decide
theorem locate_pstat : locate 0x020#12 = .pstat := by decide

/-- CTRL stands at one offset alone. -/
theorem locate_eq_ctrl {off : BitVec 12} (h4 : off.toNat % 4 = 0) : locate off = .ctrl ↔ off = 0x008#12 := by
  revert off; decide +kernel

/-- Word k of Ri (spec 20_memory R70). -/
theorem locate_reg (i : RegIx) (k : Fin 8) :
    locate (BitVec.ofNat 12 (0x100 + 0x20 * i.val + 4 * k.val)) = .reg i k := by
  revert i k; decide +kernel

/-- Word k of Pj.X and of Pj.Y (spec 20_memory R70). -/
theorem locate_pointX (j : PointIx) (k : Fin 8) :
    locate (BitVec.ofNat 12 (0x500 + 0x40 * j.val + 4 * k.val)) = .pointX j k := by
  revert j k; decide +kernel

theorem locate_pointY (j : PointIx) (k : Fin 8) :
    locate (BitVec.ofNat 12 (0x520 + 0x40 * j.val + 4 * k.val)) = .pointY j k := by
  revert j k; decide +kernel

/-- Word k of the n-th register from 0x300 on (spec 20_memory R70). -/
theorem locate_wide (n : Fin 10) (k : Fin 8) :
    locate (BitVec.ofNat 12 (0x300 + 0x20 * n.val + 4 * k.val)) = .wide (wideAt n.val) k := by
  revert n k; decide +kernel

/-! ### Accesses -/

/-- The window stands at BASE (spec 20_memory R60). -/
@[simp] theorem windowOffset_base (off : BitVec 12) : windowOffset (Config.base + off.toNat) = some off := by
  have := off.isLt
  unfold windowOffset
  rw [if_pos (by omega), Nat.add_sub_cancel_left, BitVec.ofNat_toNat, BitVec.setWidth_eq]

theorem windowOffset_outside {addr : Nat} (h : addr < Config.base ∨ Config.base + 4096 ≤ addr) : windowOffset addr = none := by
  unfold windowOffset
  exact if_neg (by omega)

/-- An access at an offset of the window. -/
@[simp] theorem addressed_base (s : State) (width : Nat) (off : BitVec 12) (op : BusOp) :
    addressed s width (Config.base + off.toNat) op = busAccess s width off op := by
  simp [addressed]

/-- The engine serves a pending access at an offset of the window. -/
theorem serveHost_access {s : State} {width : Nat} {off : BitVec 12} {op : BusOp} {rest : List HostEvent}
    (h : s.host = .access width (Config.base + off.toNat) op :: rest) :
    serveHost s = busAccess { s with host := rest } width off op := by
  rw [serveHost_cons h]
  exact addressed_base ..

/-- One outside the window changes nothing. -/
theorem addressed_outside {s : State} {width addr : Nat} {op : BusOp} (h : addr < Config.base ∨ Config.base + 4096 ≤ addr) :
    addressed s width addr op = s := by
  simp [addressed, windowOffset_outside h]

/-! ### Responses on the MAC port (spec 20_memory R79) -/

theorem macResponse_abandoned {s : State} (h : 0 < s.abandoned) : macResponse s = { s with abandoned := s.abandoned - 1 } := by
  simp [macResponse, h]

theorem macResponse_delivered {s : State} {n : Nat} {g : Drbg} (h0 : s.abandoned = 0) (h : s.phase = .exec n (.gen g))
    (hg : g.tag = none) : macResponse s = { s with phase := .exec n (.gen (g.answered Config.mac)) } := by
  simp [macResponse, h0, h, hg]

theorem macResponse_ignored {s : State} (h0 : s.abandoned = 0) (h : s.waiting = false) : macResponse s = s := by
  unfold macResponse
  rw [if_neg (by omega)]
  split
  · rename_i n g hp
    rw [State.waiting_gen hp] at h
    simp [h]
  all_goals rfl

theorem wellFormedAccess_iff {width : Nat} {off : BitVec 12} :
    wellFormedAccess width off = true ↔ width = 32 ∧ off.toNat % 4 = 0 := by
  simp [wellFormedAccess]

theorem memRead_of_locate {s : State} {off : BitVec 12} {t : Target} (h : locate off = t) : memRead s off = readTarget s t := by
  rw [memRead, h]

theorem memWrite_of_locate {s : State} {off : BitVec 12} {t : Target} {w : Word} (h : locate off = t) :
    memWrite s off w = writeTarget s t w := by
  rw [memWrite, h]

/-! ### The words of a 256-bit register (spec 20_memory R62) -/

theorem getLsbD_wordOf (v : Value) (k : Fin 8) (i : Nat) :
    (wordOf v k).getLsbD i = (decide (i < 32) && v.getLsbD (224 - 32 * k.val + i)) := by
  simp [wordOf]

theorem getLsbD_withWord (v : Value) (k : Fin 8) (w : Word) (i : Nat) (hi : i < 256) :
    (withWord v k w).getLsbD i =
      if 224 - 32 * k.val ≤ i ∧ i < 256 - 32 * k.val then w.getLsbD (i - (224 - 32 * k.val)) else v.getLsbD i := by
  have hk : k.val < 8 := k.isLt
  have mask : ∀ j : Nat, (0xFFFFFFFF#256 : Value).getLsbD j = decide (j < 32) := by
    intro j
    rw [show (0xFFFFFFFF#256 : Value) = (BitVec.allOnes 32).setWidth 256 by decide]
    simp only [BitVec.getLsbD_setWidth, BitVec.getLsbD_allOnes]
    by_cases h : j < 32 <;> simp [h]; omega
  simp only [withWord, BitVec.getLsbD_or, BitVec.getLsbD_and, BitVec.getLsbD_not, BitVec.getLsbD_shiftLeft,
    BitVec.getLsbD_setWidth, hi, mask, decide_true, Bool.true_and]
  by_cases h1 : i < 224 - 32 * k.val
  · simp [h1, Nat.not_le.mpr h1]
  · by_cases h2 : i < 256 - 32 * k.val
    · have h3 : i - (224 - 32 * k.val) < 32 := by omega
      simp [h1, h2, h3, Nat.not_lt.mp h1]; omega
    · have h3 : ¬ i - (224 - 32 * k.val) < 32 := by omega
      simp [h1, h2, h3, BitVec.getLsbD_of_ge w (i - (224 - 32 * k.val)) (by omega)]

/-- Reading a word after a word was written (spec 20_memory R62). -/
theorem wordOf_withWord (v : Value) (k k' : Fin 8) (w : Word) :
    wordOf (withWord v k w) k' = if k' = k then w else wordOf v k' := by
  have hk : k.val < 8 := k.isLt
  have hk' : k'.val < 8 := k'.isLt
  apply BitVec.eq_of_getLsbD_eq
  intro i hi
  rw [getLsbD_wordOf, getLsbD_withWord _ _ _ _ (by omega)]
  by_cases h : k' = k
  · subst h
    rw [if_pos (by omega), if_pos rfl, show 224 - 32 * k'.val + i - (224 - 32 * k'.val) = i by omega]
    simp [hi]
  · have h' : k'.val ≠ k.val := fun e => h (Fin.ext e)
    rw [if_neg (by omega), if_neg h, getLsbD_wordOf]

/-! ### The 32-bit registers (spec 20_memory R70) -/

theorem memRead_id (s : State) : memRead s 0x000 = Config.idWord := memRead_of_locate locate_id
theorem memRead_param (s : State) : memRead s 0x004 = paramWord := memRead_of_locate locate_param
theorem memRead_ctrl (s : State) : memRead s 0x008 = ctrlWord s := memRead_of_locate locate_ctrl
theorem memRead_status (s : State) : memRead s 0x00C = statusWord s := memRead_of_locate locate_status
theorem memRead_cmd (s : State) : memRead s 0x010 = s.cmd := memRead_of_locate locate_cmd
theorem memRead_iter (s : State) : memRead s 0x014 = s.iter := memRead_of_locate locate_iter
theorem memRead_tags0 (s : State) : memRead s 0x018 = tagsWord s 0 := memRead_of_locate locate_tags0
theorem memRead_tags1 (s : State) : memRead s 0x01C = tagsWord s 8 := memRead_of_locate locate_tags1
theorem memRead_pstat (s : State) : memRead s 0x020 = pstatWord s := memRead_of_locate locate_pstat

theorem memWrite_ctrl (s : State) (w : Word) : memWrite s 0x008 w = writeCtrl s w := memWrite_of_locate locate_ctrl
theorem memWrite_status (s : State) (w : Word) : memWrite s 0x00C w = writeStatus s w := memWrite_of_locate locate_status
theorem memWrite_cmd (s : State) (w : Word) : memWrite s 0x010 w = writeCmd s w := memWrite_of_locate locate_cmd

/-! ### The status maps, nibble by nibble (spec 10_state R37) -/

theorem nibbles_extract (t : Nat → BitVec 4) (k : Fin 8) :
    (t 7 ++ t 6 ++ t 5 ++ t 4 ++ t 3 ++ t 2 ++ t 1 ++ t 0).extractLsb' (4 * k.val) 4 = t k.val := by
  apply BitVec.eq_of_getLsbD_eq
  intro i hi
  have hk := k.isLt
  simp only [BitVec.getLsbD_extractLsb', BitVec.getLsbD_append, hi, decide_true, Bool.true_and]
  obtain ⟨k, hk'⟩ := k
  simp only
  interval_cases k
  all_goals interval_cases i <;> rfl

theorem tagsWord_nibble (s : State) (base : Nat) (k : Fin 8) :
    (tagsWord s base).extractLsb' (4 * k.val) 4 = (s.reg (Fin.ofNat 16 (base + k.val))).tag.nibble :=
  nibbles_extract (fun n => (s.reg (Fin.ofNat 16 (base + n))).tag.nibble) k

theorem pstatWord_nibble (s : State) (k : Fin 8) : (pstatWord s).extractLsb' (4 * k.val) 4 = pointNibble (s.point k) :=
  (nibbles_extract (fun n => pointNibble (s.point (Fin.ofNat 8 n))) k).trans
    (by rw [show Fin.ofNat 8 k.val = k from Fin.ext (Nat.mod_eq_of_lt k.isLt)])

/-! ### Writes (spec 20_memory R66, 10_state R30) -/

theorem dropSlot1_eq_some {P : Option Point} {Q : Point} (h : dropSlot1 P = some Q) :
    P = some Q ∧ (Q = .inf ∨ ∃ x y : Value, Q = .aff .s0 x y) := by
  match P with
  | none => cases h
  | some .inf => cases h; exact ⟨rfl, .inl rfl⟩
  | some (.aff .s0 x y) => cases h; exact ⟨rfl, .inr ⟨x, y, rfl⟩⟩
  | some (.aff .s1 x y) => cases h

theorem dropSlot1_s1 {P : Option Point} (h : ∃ x y : Value, P = some (.aff .s1 x y)) : dropSlot1 P = none := by
  obtain ⟨x, y, rfl⟩ := h
  rfl

theorem dropSlot1_other {P : Option Point} (h : ¬ ∃ x y : Value, P = some (.aff .s1 x y)) : dropSlot1 P = P := by
  match P with
  | none => rfl
  | some .inf => rfl
  | some (.aff .s0 x y) => rfl
  | some (.aff .s1 x y) => exact absurd ⟨x, y, rfl⟩ h

/-- CTRL with SRST (spec 70_reset_and_hazards R312). -/
theorem writeCtrl_srst {s : State} {w : Word} (h : w.getLsbD 2 = true) : writeCtrl s w = s.toReset := by
  unfold writeCtrl
  rw [h]
  rfl

/-- CTRL with ABORT alone, BUSY (spec 60_exceptions R284). -/
theorem writeCtrl_abort {s : State} {w : Word} (h1 : w.getLsbD 1 = true) (h2 : w.getLsbD 2 = false) (h : s.busy = true) :
    writeCtrl s w = ({ s with ie := w.getLsbD 0 } : State).abort := by
  unfold writeCtrl
  rw [h1, h2, h]
  rfl

/-- Any other CTRL write takes IE alone (spec 10_state R33). -/
theorem writeCtrl_ie {s : State} {w : Word} (h1 : w.getLsbD 1 = false ∨ s.busy = false) (h2 : w.getLsbD 2 = false) :
    writeCtrl s w = { s with ie := w.getLsbD 0 } := by
  unfold writeCtrl
  rcases h1 with h1 | h1
  · rw [h1, h2]; rfl
  · rw [h1, h2, Bool.and_false]; rfl

/-- STATUS is W1C in DONE and WIGN and nothing else (spec 10_state R34). -/
theorem writeStatus_eq (s : State) (w : Word) :
    writeStatus s w = { s with done := s.done && !w.getLsbD 1, wign := s.wign && !w.getLsbD 5 } := by
  unfold writeStatus State.acknowledge
  cases w.getLsbD 1 <;> cases w.getLsbD 5 <;> simp

end Sys2Proof.Machine
end

