-- ==== Sys2Proof/Laws/Rfc6979.lean ====
section
/-! SUPPORT. Byte strings and the RFC6979 generator: lengths, integers, and what each response of the MAC port leads to
(spec 00_scope R15; 43_nonce R211 to R216; 20_memory R79). -/

namespace Sys2Proof.Machine

/-! ### Byte strings (spec 00_scope R15) -/

theorem intOfBytes_foldl (bs : Bytes) (acc : Nat) :
    bs.foldl (fun acc b => acc * 256 + b.toNat) acc = acc * 256 ^ bs.length + intOfBytes bs := by
  induction bs generalizing acc with
  | nil => simp [intOfBytes]
  | cons b bs ih =>
    rw [intOfBytes, List.foldl_cons, List.foldl_cons, ih, ih (0 * 256 + b.toNat), List.length_cons, pow_succ]
    ring

theorem intOfBytes_nil : intOfBytes [] = 0 := rfl

theorem intOfBytes_cons (b : Byte) (bs : Bytes) : intOfBytes (b :: bs) = b.toNat * 256 ^ bs.length + intOfBytes bs := by
  rw [intOfBytes, List.foldl_cons, intOfBytes_foldl]
  ring

theorem intOfBytes_lt (bs : Bytes) : intOfBytes bs < 256 ^ bs.length := by
  induction bs with
  | nil => simp [intOfBytes]
  | cons b bs ih =>
    rw [intOfBytes_cons, List.length_cons, pow_succ]
    have hb : b.toNat < 256 := b.isLt
    nlinarith

@[simp] theorem beBytes_length (v N : Nat) : (beBytes v N).length = N := by
  induction N with
  | zero => rfl
  | succ N ih => rw [beBytes, List.length_cons, ih]

/-- int(BE(v, N)) = v mod 2^(8N). -/
theorem intOfBytes_beBytes (v N : Nat) : intOfBytes (beBytes v N) = v % 256 ^ N := by
  induction N with
  | zero => simp [beBytes, intOfBytes, Nat.mod_one]
  | succ N ih =>
    rw [beBytes, intOfBytes_cons, beBytes_length, ih, BitVec.toNat_ofNat, pow_succ 256 N, Nat.mod_mul]
    ring

/-- The bytes above the N-th do not count. -/
theorem beBytes_congr {v w N : Nat} (h : v % 256 ^ N = w % 256 ^ N) : beBytes v N = beBytes w N := by
  induction N with
  | zero => rfl
  | succ N ih =>
    have h2 : v % 256 ^ N = w % 256 ^ N := by
      have hd : 256 ^ N ∣ 256 ^ (N + 1) := pow_dvd_pow 256 (Nat.le_succ N)
      rw [← Nat.mod_mod_of_dvd v hd, h, Nat.mod_mod_of_dvd w hd]
    have h1 : v / 256 ^ N % 256 = w / 256 ^ N % 256 := by
      rw [pow_succ, Nat.mod_mul, Nat.mod_mul, h2] at h
      exact Nat.eq_of_mul_eq_mul_left (show 0 < 256 ^ N by positivity) (Nat.add_left_cancel h)
    rw [beBytes, beBytes, ih h2]
    congr 1
    apply BitVec.eq_of_toNat_eq
    rw [BitVec.toNat_ofNat, BitVec.toNat_ofNat]
    exact h1

/-! ### The conversions (spec 43_nonce R211, R212, R213) -/

/-- bits2int keeps the most significant bits. -/
theorem bits2int_eq (bs : Bytes) (qlen : Nat) : bits2int bs qlen = intOfBytes bs / 2 ^ (8 * bs.length - qlen) := by
  unfold bits2int
  split
  · rw [Nat.shiftRight_eq_div_pow]
  · rw [Nat.sub_eq_zero_of_le (by omega), pow_zero, Nat.div_one]

theorem bits2int_lt (bs : Bytes) (qlen : Nat) : bits2int bs qlen < 2 ^ qlen := by
  rw [bits2int_eq, Nat.div_lt_iff_lt_mul (by positivity), ← pow_add]
  refine lt_of_lt_of_le (intOfBytes_lt bs) ?_
  rw [show (256 : Nat) = 2 ^ 8 by norm_num, ← pow_mul]
  exact Nat.pow_le_pow_right (by norm_num) (by omega)

@[simp] theorem bits2octets_length (bs : Bytes) (q : Nat) : (bits2octets bs q).length = octetLen q :=
  beBytes_length _ _

/-- N bytes hold every value below 2^qlen. -/
theorem two_pow_bitlen_le (q : Nat) : 2 ^ bitlen q ≤ 256 ^ octetLen q := by
  rw [show (256 : Nat) = 2 ^ 8 by norm_num, ← pow_mul]
  exact Nat.pow_le_pow_right (by norm_num) (by unfold octetLen; omega)

/-- After one subtraction of q the value is below q. -/
theorem reduced_once_lt {q : Nat} (bs : Bytes) (hq : q ≠ 0) :
    (if bits2int bs (bitlen q) ≥ q then bits2int bs (bitlen q) - q else bits2int bs (bitlen q)) < q := by
  have h1 := bits2int_lt bs (bitlen q)
  have h2 := two_pow_pred_bitlen_le hq
  have h3 : 2 ^ bitlen q = 2 * 2 ^ (bitlen q - 1) := by
    rw [← pow_succ', Nat.sub_add_cancel]
    by_contra h
    rw [show bitlen q = 0 by omega, pow_zero] at h1
    have := lt_two_pow_bitlen q
    rw [show bitlen q = 0 by omega, pow_zero] at this
    omega
  split <;> omega

theorem intOfBytes_bits2octets {q : Nat} (bs : Bytes) (hq : q ≠ 0) :
    intOfBytes (bits2octets bs q) =
      if bits2int bs (bitlen q) ≥ q then bits2int bs (bitlen q) - q else bits2int bs (bitlen q) := by
  rw [bits2octets, int2octets, intOfBytes_beBytes, Nat.mod_eq_of_lt]
  have h1 := reduced_once_lt bs hq
  have h2 := lt_two_pow_bitlen q
  have h3 := two_pow_bitlen_le q
  omega

/-! ### The generator, one MAC call at a time (spec 43_nonce R216, 20_memory R79) -/

variable {mac : Bytes → Bytes → Bytes} {kLen z e q : Nat}

@[simp] theorem Drbg.send_k (g : Drbg) (c : MacCall) (m : Bytes) : (g.send c m).k = g.k := rfl
@[simp] theorem Drbg.send_v (g : Drbg) (c : MacCall) (m : Bytes) : (g.send c m).v = g.v := rfl
@[simp] theorem Drbg.send_t (g : Drbg) (c : MacCall) (m : Bytes) : (g.send c m).t = g.t := rfl
@[simp] theorem Drbg.send_candidate (g : Drbg) (c : MacCall) (m : Bytes) : (g.send c m).candidate = g.candidate := rfl
@[simp] theorem Drbg.send_call (g : Drbg) (c : MacCall) (m : Bytes) : (g.send c m).call = c := rfl
@[simp] theorem Drbg.send_req (g : Drbg) (c : MacCall) (m : Bytes) : (g.send c m).req = ⟨g.k, m⟩ := rfl
@[simp] theorem Drbg.send_tag (g : Drbg) (c : MacCall) (m : Bytes) : (g.send c m).tag = none := rfl
@[simp] theorem Drbg.send_sent (g : Drbg) (c : MacCall) (m : Bytes) : (g.send c m).sent = g.sent ++ [⟨g.k, m⟩] := rfl
@[simp] theorem Drbg.begin_tag : (Drbg.begin kLen z e q).tag = none := rfl
@[simp] theorem Drbg.answered_tag (g : Drbg) : (g.answered mac).tag = some (mac g.req.key g.req.msg) := rfl

/-- The response does not matter to what the next response does: `advance` reads no earlier tag. -/
theorem Drbg.advance_answered (g : Drbg) (y : Bytes) : (g.answered mac).advance z e q y = g.advance z e q y := by
  unfold Drbg.advance Drbg.answered
  cases g.call <;> rfl

theorem Drbg.test_eq (g : Drbg) (q : Nat) :
    g.test q =
      if inRange q (bits2int (g.t.take (octetLen q)) (bitlen q)) then .accepts (bits2int (g.t.take (octetLen q)) (bitlen q))
      else .rejects ({ g with t := g.t.take (octetLen q), candidate := bits2int (g.t.take (octetLen q)) (bitlen q) }.send .rejectK
        (g.v ++ [0x00#8])) := rfl

/-- A turn of the T loop that leaves T short. -/
theorem Drbg.advance_short {g : Drbg} {y : Bytes} (hc : g.call = .fill) (h : (g.t ++ y).length < octetLen q) :
    g.advance z e q y = .goes ({ g with v := y, t := g.t ++ y }.send .fill y) := by
  simp only [Drbg.advance, hc, if_pos h]

/-- The last turn of the T loop. -/
theorem Drbg.advance_full {g : Drbg} {y : Bytes} (hc : g.call = .fill) (h : octetLen q ≤ (g.t ++ y).length) :
    g.advance z e q y = { g with v := y, t := g.t ++ y }.test q := by
  simp only [Drbg.advance, hc, if_neg (Nat.not_lt.mpr h)]

/-- Only the last turn of the T loop ends GEN_K, with a candidate in range. -/
theorem Drbg.advance_accepts {g : Drbg} {y : Bytes} {k : Nat} (h : g.advance z e q y = .accepts k) :
    g.call = .fill ∧ octetLen q ≤ (g.t ++ y).length ∧ k = bits2int ((g.t ++ y).take (octetLen q)) (bitlen q) ∧
      inRange q k = true := by
  cases hc : g.call with
  | fill =>
    by_cases hl : (g.t ++ y).length < octetLen q
    · rw [Drbg.advance_short hc hl] at h; cases h
    · rw [Drbg.advance_full hc (by omega), Drbg.test_eq] at h
      split at h <;> cases h
      exact ⟨rfl, by omega, rfl, ‹_›⟩
  | _ => simp only [Drbg.advance, hc] at h; cases h

/-- Only the last turn of the T loop rejects, a candidate out of range. -/
theorem Drbg.advance_rejects {g g' : Drbg} {y : Bytes} (h : g.advance z e q y = .rejects g') :
    g.call = .fill ∧ octetLen q ≤ (g.t ++ y).length ∧
      inRange q (bits2int ((g.t ++ y).take (octetLen q)) (bitlen q)) = false := by
  cases hc : g.call with
  | fill =>
    by_cases hl : (g.t ++ y).length < octetLen q
    · rw [Drbg.advance_short hc hl] at h; cases h
    · rw [Drbg.advance_full hc (by omega), Drbg.test_eq] at h
      split at h
      · cases h
      · rename_i hr
        exact ⟨rfl, by omega, Bool.not_eq_true _ |>.mp hr⟩
  | _ => simp only [Drbg.advance, hc] at h; cases h

/-- Every other response goes on. -/
theorem Drbg.advance_other {g : Drbg} {y : Bytes} (h : ¬ (g.call = .fill ∧ octetLen q ≤ (g.t ++ y).length)) :
    ∃ g' : Drbg, g.advance z e q y = .goes g' := by
  cases hc : g.call with
  | fill => exact ⟨_, Drbg.advance_short hc (by simpa [hc] using h)⟩
  | _ => exact ⟨_, by simp only [Drbg.advance, hc]; rfl⟩

/-- What a response leads to when GEN_K goes on: a request that no response has reached, recorded last. -/
theorem Drbg.advance_sends {g g' : Drbg} {y : Bytes} (h : g.advance z e q y = .goes g' ∨ g.advance z e q y = .rejects g') :
    g'.tag = none ∧ g'.sent = g.sent ++ [g'.req] := by
  cases hc : g.call with
  | fill =>
    by_cases hl : (g.t ++ y).length < octetLen q
    · rw [Drbg.advance_short hc hl] at h
      rcases h with h | h <;> cases h
      exact ⟨rfl, rfl⟩
    · rw [Drbg.advance_full hc (by omega), Drbg.test_eq] at h
      split at h <;> rcases h with h | h <;> cases h
      exact ⟨rfl, rfl⟩
  | _ =>
    simp only [Drbg.advance, hc] at h
    rcases h with h | h <;> cases h
    exact ⟨rfl, rfl⟩

/-- One more response. -/
theorem Drbg.after_succ {n : Nat} {g g' : Drbg} (h : Drbg.after mac kLen z e q n = some g)
    (ha : g.advance z e q (mac g.req.key g.req.msg) = .goes g' ∨ g.advance z e q (mac g.req.key g.req.msg) = .rejects g') :
    Drbg.after mac kLen z e q (n + 1) = some g' := by
  rw [Drbg.after, h]
  rcases ha with ha | ha <;> simp only [ha]

/-- After n responses n + 1 requests are out, and the last one waits. -/
theorem Drbg.after_sent {n : Nat} {g : Drbg} (h : Drbg.after mac kLen z e q n = some g) :
    g.tag = none ∧ g.sent.length = n + 1 ∧ g.sent.getLast? = some g.req := by
  induction n generalizing g with
  | zero => cases h; exact ⟨rfl, rfl, rfl⟩
  | succ n ih =>
    rw [Drbg.after] at h
    split at h
    · cases h
    · rename_i u hu
      obtain ⟨-, hs, -⟩ := ih hu
      have hg : u.advance z e q (mac u.req.key u.req.msg) = .goes g ∨ u.advance z e q (mac u.req.key u.req.msg) = .rejects g := by
        split at h
        · rename_i v hv; cases h; exact .inl hv
        · rename_i v hv; cases h; exact .inr hv
        · cases h
      obtain ⟨h1, h2⟩ := Drbg.advance_sends hg
      exact ⟨h1, by rw [h2, List.length_append, hs]; rfl, by rw [h2, List.getLast?_append]; rfl⟩

/-- A relation between the number of responses, the number of rejected candidates and the working values that begins with GEN_K
and goes on with every response: the induction over GEN_K, said once. -/
structure Drbg.Run (mac : Bytes → Bytes → Bytes) (kLen z e q : Nat) (P : Nat → Nat → Drbg → Prop) : Prop where
  begins : P 0 0 (Drbg.begin kLen z e q)
  goes : ∀ (n r : Nat) (g g' : Drbg), P n r g → g.advance z e q (mac g.req.key g.req.msg) = .goes g' → P (n + 1) r g'
  rejects : ∀ (n r : Nat) (g g' : Drbg), P n r g → g.advance z e q (mac g.req.key g.req.msg) = .rejects g' → P (n + 1) (r + 1) g'

/-- The values that n responses give are one. -/
theorem Drbg.run_after : Drbg.Run mac kLen z e q (fun n _ g => Drbg.after mac kLen z e q n = some g) :=
  ⟨rfl, fun _ _ _ _ h ha => Drbg.after_succ h (.inl ha), fun _ _ _ _ h ha => Drbg.after_succ h (.inr ha)⟩

/-- The bytes that i turns of the T loop add to T. -/
theorem turns_length (hmac : ∀ k m : Bytes, (mac k m).length = kLen) (k v : Bytes) (i : Nat) :
    ((List.range i).flatMap fun j => (mac k)^[j + 1] v).length = i * kLen := by
  induction i with
  | zero => simp
  | succ i ih =>
    rw [List.range_succ, List.flatMap_append, List.length_append, ih, List.flatMap_singleton, Function.iterate_succ_apply', hmac]
    ring

/-- The T loop (spec 43_nonce R216 step 6): i turns on, each a call on V with T still short. -/
theorem Drbg.Run.fill {P : Nat → Nat → Drbg → Prop} (hP : Drbg.Run mac kLen z e q P) (hmac : ∀ k m : Bytes, (mac k m).length = kLen)
    {n r : Nat} {g : Drbg} (h : P n r g) (hc : g.call = .fill) (hr : g.req = ⟨g.k, g.v⟩) (ht : g.tag = none) (i : Nat)
    (hl : g.t.length + i * kLen < octetLen q) :
    P (n + i) r { g with
      v := (mac g.k)^[i] g.v
      t := g.t ++ (List.range i).flatMap fun j => (mac g.k)^[j + 1] g.v
      req := ⟨g.k, (mac g.k)^[i] g.v⟩
      sent := g.sent ++ (List.range i).map fun j => ⟨g.k, (mac g.k)^[j + 1] g.v⟩ } := by
  induction i with
  | zero =>
    obtain ⟨k, v, t, c, call, req, tag, sent⟩ := g
    simp only at hr
    simpa [hr] using h
  | succ i ih =>
    refine hP.goes _ _ _ _ (ih (by nlinarith)) ?_
    refine (Drbg.advance_short (g := ⟨g.k, _, _, g.candidate, g.call, _, g.tag, _⟩) (by exact hc) ?_).trans ?_
    rotate_left
    · simp only [Drbg.send, List.range_succ, List.flatMap_append, List.map_append, List.flatMap_singleton, List.map_singleton,
        Function.iterate_succ_apply', hc, ht, List.append_assoc]
    · rw [List.length_append, List.length_append, turns_length hmac, hmac]
      linarith

/-- K and V are tags throughout (spec 43_nonce R214). -/
theorem Drbg.after_lengths (hmac : ∀ k m : Bytes, (mac k m).length = kLen) {n : Nat} {g : Drbg}
    (h : Drbg.after mac kLen z e q n = some g) : g.k.length = kLen ∧ g.v.length = kLen := by
  induction n generalizing g with
  | zero => cases h; exact ⟨List.length_replicate, List.length_replicate⟩
  | succ n ih =>
    rw [Drbg.after] at h
    split at h
    · cases h
    · rename_i u hu
      obtain ⟨hk, hv⟩ := ih hu
      generalize hy : mac u.req.key u.req.msg = y at h
      have hyl : y.length = kLen := by rw [← hy]; exact hmac _ _
      cases hc : u.call with
      | fill =>
        by_cases hl : (u.t ++ y).length < octetLen q
        · rw [Drbg.advance_short hc hl] at h
          cases h
          exact ⟨hk, hyl⟩
        · rw [Drbg.advance_full hc (by omega), Drbg.test_eq] at h
          split at h
          · split at * <;> simp_all
          · rename_i v hv'
            split at hv'
            · cases hv'
            · cases hv'
              cases h
              exact ⟨hk, hyl⟩
          · cases h
      | _ =>
        simp only [Drbg.advance, hc] at h
        cases h
        exact ⟨by assumption, by assumption⟩

/-- With the pseudocode of spec 43_nonce R213 and R216, GEN_K can't tell z from z + n where z + n is below 2^256: the parts of its requests
that hold a digest are the same (log entry 21). -/
theorem seedTail_add_order {separator : Byte} {z e q : Nat} (hq : bitlen q = 256) (h : z + q < 2 ^ 256) :
    seedTail separator (z + q) e q = seedTail separator z e q := by
  have hz : ∀ v : Nat, v < 2 ^ 256 → bits2int (beBytes v 32) 256 = v := fun v hv => by
    rw [bits2int_eq, beBytes_length, intOfBytes_beBytes]
    norm_num
    exact hv
  have hpow : 2 ^ (bitlen q - 1) ≤ q := two_pow_pred_bitlen_le (by rintro rfl; simp [bitlen] at hq)
  rw [hq] at hpow
  unfold seedTail bits2octets
  dsimp only
  rw [hq, hz _ h, hz z (by omega), if_pos (by omega), if_neg (by omega), Nat.add_sub_cancel]

/-- The port's tags have K_LEN bytes (spec 00_scope R12). -/
theorem mac_length (key msg : Bytes) : (Config.mac key msg).length = Config.kLen := by
  simp [Config.mac]

theorem one_le_kLen : 1 ≤ Config.kLen := Nat.le_add_left 1 _

end Sys2Proof.Machine
end

