-- ==== Sys2Proof/Laws/Exec.lean ====
section
/-! SUPPORT. Everything a command's meaning can do to the state, said once for all commands (spec 60_exceptions R280): later proofs
take the cases of `Effect` instead of unfolding the meanings. -/

namespace Sys2Proof.Machine

/-- The next states of a command. -/
inductive Effect (i : Instr) (s : State) : State → Prop
  | failed (e : ErrCode) (h : e ≠ .ok) : Effect i s (s.completeErr e)
  | nothing (h : i = .nop) : Effect i s s.finish
  | element (rd : RegIx) (v : Value) (m : ModIx) (h : fieldDest i = some rd) : Effect i s (s.setReg rd ⟨v, .el m⟩).finish
  | point (pd : PointIx) (P : Point) (h : pointDest i = some pd) : Effect i s (s.setPoint pd P).finish
  | eq (b : Bool) (h : writesEq i = true) : Effect i s (s.setEq b).finish
  | vres (b : Bool) (h : writesVres i = true) : Effect i s (s.setVres b).finish
  | raw (rd : RegIx) (v : Value) (h : rawDests i = [rd]) : Effect i s (s.setReg rd ⟨v, .raw⟩).finish
  | rawPair (r1 r2 : RegIx) (v1 v2 : Value) (h : rawDests i = [r1, r2]) :
      Effect i s ((s.setReg r1 ⟨v1, .raw⟩).setReg r2 ⟨v2, .raw⟩).finish
  | waits (h : runsGenK i = true) (hs : s.waiting = true) : Effect i s s
  | asks (g : Drbg) (h : runsGenK i = true) (hg : g.tag = none) : Effect i s (s.holdGen g)
  | rejects (g : Drbg) (h : runsGenK i = true) (hg : g.tag = none) : Effect i s (s.countRejection.holdGen g)
  | looping (m : Mul) (h : multipliesPoint i = true) : Effect i s (s.holdMul m)

/-! ### The reads and checks -/

theorem elemRead_raw {s : State} {i : RegIx} (h : (s.reg i).tag = .raw) : elemRead s i = .error .undefinedOperand := by
  simp [elemRead, h]

theorem elemRead_el {s : State} {i : RegIx} {m : ModIx} (h : (s.reg i).tag = .el m) : elemRead s i = .ok (s.valNat i, m) := by
  simp [elemRead, h]

theorem elemRead_error {s : State} {i : RegIx} {e : ErrCode} (h : elemRead s i = .error e) : e = .undefinedOperand := by
  cases ht : (s.reg i).tag with
  | raw => rw [elemRead_raw ht] at h; cases h; rfl
  | el m => rw [elemRead_el ht] at h; cases h

/-- What the two operand reads of a field command give (spec 41_field R130). -/
theorem elemRead2_eq (s : State) (rs1 rs2 : RegIx) :
    elemRead2 s rs1 rs2 =
      match (s.reg rs1).tag, (s.reg rs2).tag with
      | .raw, _ => .error .undefinedOperand
      | .el _, .raw => .error .undefinedOperand
      | .el t1, .el t2 =>
        if s.modulus t1 = s.modulus t2 then .ok (s.valNat rs1, s.valNat rs2, t1) else .error .orderMismatch := by
  cases h1 : (s.reg rs1).tag with
  | raw => simp [elemRead2, elemRead_raw h1, bind, Except.bind]
  | el t1 =>
    cases h2 : (s.reg rs2).tag with
    | raw => simp [elemRead2, elemRead_el h1, elemRead_raw h2, bind, Except.bind]
    | el t2 =>
      by_cases h : s.modulus t1 = s.modulus t2 <;>
        simp [elemRead2, elemRead_el h1, elemRead_el h2, bind, Except.bind, sameModulus, h, pure, Except.pure]

theorem elemRead2_error {s : State} {rs1 rs2 : RegIx} {e : ErrCode} (h : elemRead2 s rs1 rs2 = .error e) :
    e = .undefinedOperand ∨ e = .orderMismatch := by
  rw [elemRead2_eq] at h
  repeat' split at h
  all_goals cases h
  all_goals simp

theorem elemRead2_ok {s : State} {rs1 rs2 : RegIx} {a b : Nat} {t : ModIx} (h : elemRead2 s rs1 rs2 = .ok (a, b, t)) :
    a = s.valNat rs1 ∧ b = s.valNat rs2 ∧ (s.reg rs1).tag = .el t ∧
      ∃ t2 : ModIx, (s.reg rs2).tag = .el t2 ∧ s.modulus t = s.modulus t2 := by
  rw [elemRead2_eq] at h
  repeat' split at h
  all_goals cases h
  rename_i h2 h1 hm
  exact ⟨rfl, rfl, h1, _, h2, hm⟩

theorem elemRead_ok {s : State} {i : RegIx} {a : Nat} {t : ModIx} (h : elemRead s i = .ok (a, t)) :
    a = s.valNat i ∧ (s.reg i).tag = .el t := by
  cases ht : (s.reg i).tag with
  | raw => rw [elemRead_raw ht] at h; cases h
  | el m => rw [elemRead_el ht] at h; cases h; exact ⟨rfl, rfl⟩

theorem pointRead_none {s : State} {j : PointIx} (h : s.point j = none) : pointRead s j = .error .undefinedOperand := by
  simp [pointRead, h]

theorem pointRead_some {s : State} {j : PointIx} {P : Point} (h : s.point j = some P) : pointRead s j = .ok P := by
  simp [pointRead, h]

theorem pointRead_error {s : State} {j : PointIx} {e : ErrCode} (h : pointRead s j = .error e) :
    e = .undefinedOperand ∧ s.point j = none := by
  cases hp : s.point j with
  | none => rw [pointRead_none hp] at h; cases h; exact ⟨rfl, rfl⟩
  | some P => rw [pointRead_some hp] at h; cases h

theorem pointRead_ok {s : State} {j : PointIx} {P : Point} (h : pointRead s j = .ok P) : s.point j = some P := by
  cases hp : s.point j with
  | none => rw [pointRead_none hp] at h; cases h
  | some Q => rw [pointRead_some hp] at h; cases h; rfl

theorem curveCheck_error {s : State} {c : Slot} {e : ErrCode} (h : curveCheck s c = .error e) :
    c = .s1 ∧ (e = .badModulus ∨ e = .invalidElement) := by
  unfold curveCheck at h
  repeat' split at h
  all_goals cases h
  all_goals simp

theorem newPoint_error {s : State} {c : Slot} {x y : Value} {e : ErrCode} (h : newPoint s c x y = .error e) :
    (c = .s1 ∧ e = .badModulus) ∨ e = .invalidElement ∨ e = .notOnCurve := by
  unfold newPoint at h
  cases hc : curveCheck s c with
  | error e' =>
    simp only [hc, bind, Except.bind] at h
    cases h
    rcases curveCheck_error hc with ⟨h1, h2 | h2⟩ <;> simp [h1, h2]
  | ok u =>
    simp only [hc, bind, Except.bind] at h
    repeat' split at h
    all_goals cases h
    all_goals simp

theorem newPoint_ok {s : State} {c : Slot} {x y : Value} {P : Point} (h : newPoint s c x y = .ok P) :
    P = .aff c x y ∧ curveCheck s c = .ok () ∧ x.toNat < (s.curve c).p.toNat ∧ y.toNat < (s.curve c).p.toNat ∧
      onCurve (s.curve c) x y = true := by
  unfold newPoint at h
  cases hc : curveCheck s c with
  | error e' => simp only [hc, bind, Except.bind] at h; cases h
  | ok u =>
    simp only [hc, bind, Except.bind] at h
    repeat' split at h
    all_goals cases h
    rename_i h1 h2
    rw [not_or, Nat.not_le, Nat.not_le] at h1
    exact ⟨rfl, rfl, h1.1, h1.2, h2⟩

theorem slope_error {p num den : Nat} {e : ErrCode} (h : slope p num den = .error e) : e = .divisionByZero ∧ den = 0 := by
  unfold slope at h
  split at h
  · cases h; exact ⟨rfl, ‹_›⟩
  · cases h

theorem pointAdd_error {curve : Slot → Curve} {P Q : Point} {e : ErrCode} (h : pointAdd curve P Q = .error e) :
    e = .curveMismatch ∨ e = .divisionByZero := by
  unfold pointAdd at h
  split at h
  · cases h
  · cases h
  · split at h
    · cases h; exact .inl rfl
    · simp only at h
      repeat' split at h
      all_goals try cases h
      all_goals
        rename_i hs
        exact .inr (slope_error hs).1

theorem iterate_error {curve : Slot → Curve} {m : Mul} {e : ErrCode} (h : m.iterate curve = .error e) :
    e = .curveMismatch ∨ e = .divisionByZero := by
  unfold Mul.iterate at h
  split at h
  · rename_i e' h1
    cases h
    split at h1
    · exact pointAdd_error h1
    · cases h1
  · split at h
    · rename_i h2
      cases h
      exact pointAdd_error h2
    · cases h

theorem signCore_error {z e k : Nat} {R : Point} {err : ErrCode} (h : signCore z e k R = .error err) : err = .degenerateNonce := by
  unfold signCore at h
  split at h
  · cases h; rfl
  · simp only at h
    repeat' split at h
    all_goals cases h
    all_goals rfl

/-! ### The shared runs -/

theorem mulStep_effect {i : Instr} {s : State} {m : Mul} {failed : ErrCode → State} {finish : Point → State}
    (hi : multipliesPoint i = true) (hf : ∀ e : ErrCode, e ≠ .ok → Effect i s (failed e)) (hd : ∀ R : Point, Effect i s (finish R)) :
    Effect i s (mulStep s m failed finish) := by
  unfold mulStep
  split
  · split
    · rename_i e he
      exact hf e (by rcases iterate_error he with h | h <;> simp [h])
    · exact .looping _ hi
  · exact hd _

theorem multiply_effect {i : Instr} {s : State} {P : Point} {k : Nat} {finish : Point → State}
    (hi : multipliesPoint i = true) (hd : ∀ R : Point, Effect i s (finish R)) : Effect i s (multiply s P k finish) := by
  unfold multiply
  split
  · exact mulStep_effect hi (fun e he => .failed e he) hd
  · exact .looping _ hi
  · exact .looping _ hi

theorem genStep_effect {i : Instr} {s : State} {z e q : Nat} {accepted : Nat → State}
    (hi : runsGenK i = true) (ha : ∀ k : Nat, Effect i s (accepted k)) : Effect i s (genStep s z e q accepted) := by
  unfold genStep
  split
  · rename_i g hw
    split
    · rename_i hg
      refine .waits hi ?_
      unfold State.work at hw
      split at hw
      · cases hw
      · rename_i hp
        subst hw
        rw [State.waiting_gen hp, hg]
        rfl
    · split
      · rename_i h
        exact .asks _ hi (Drbg.advance_sends (.inl h)).1
      · rename_i h
        exact .rejects _ hi (Drbg.advance_sends (.inr h)).1
      · exact ha _
  · exact .asks _ hi rfl
  · exact .asks _ hi rfl

/-- A completion is that of the checks that fail or that of the writes. -/
theorem complete_effect {i : Instr} {s : State} {r : Except ErrCode State}
    (he : ∀ e : ErrCode, r = .error e → e ≠ .ok) (hw : ∀ t : State, r = .ok t → Effect i s t.finish) :
    Effect i s (s.complete r) := by
  cases r with
  | error e => exact .failed e (he e rfl)
  | ok t => exact hw t rfl

theorem finishSign_effect {i : Instr} {s : State} {rdr rds : RegIx} {z e k : Nat} {R : Point} (hi : rawDests i = [rdr, rds]) :
    Effect i s (finishSign s rdr rds z e k R) := by
  unfold finishSign
  apply complete_effect
  · intro err h
    cases hs : signCore z e k R with
    | error e' =>
      simp only [hs, bind, Except.bind] at h
      cases h
      simp [signCore_error hs]
    | ok sig => simp only [hs, bind, Except.bind] at h; cases h
  · intro t h
    cases hs : signCore z e k R with
    | error e' => simp only [hs, bind, Except.bind] at h; cases h
    | ok sig =>
      simp only [hs, bind, Except.bind] at h
      cases h
      exact .rawPair _ _ _ _ hi

/-- Every command gives a next state, of one of the forms of `Effect`. -/
theorem exec_effect (i : Instr) (s : State) : ∃ t : State, exec i s = .next t ∧ Effect i s t := by
  cases i with
  | nop => exact ⟨_, rfl, .nothing rfl⟩
  | fnew rd rs m =>
    refine ⟨_, rfl, complete_effect ?_ ?_⟩ <;> intro x h <;> repeat' split at h
    all_goals cases h
    all_goals first | simp | exact .element _ _ _ rfl
  | fadd rd rs1 rs2 =>
    refine ⟨_, rfl, ?_⟩
    cases h : elemRead2 s rs1 rs2 with
    | error e => exact .failed e (by rcases elemRead2_error h with h | h <;> simp [h])
    | ok r => exact .element _ _ _ rfl
  | fsub rd rs1 rs2 =>
    refine ⟨_, rfl, ?_⟩
    cases h : elemRead2 s rs1 rs2 with
    | error e => exact .failed e (by rcases elemRead2_error h with h | h <;> simp [h])
    | ok r => exact .element _ _ _ rfl
  | fmul rd rs1 rs2 =>
    refine ⟨_, rfl, ?_⟩
    cases h : elemRead2 s rs1 rs2 with
    | error e => exact .failed e (by rcases elemRead2_error h with h | h <;> simp [h])
    | ok r => exact .element _ _ _ rfl
  | fdiv rd rs1 rs2 =>
    refine ⟨_, rfl, ?_⟩
    cases h : elemRead2 s rs1 rs2 with
    | error e => exact .failed e (by rcases elemRead2_error h with h | h <;> simp [h])
    | ok r =>
      by_cases hb : r.2.1 = 0
      · simp only [bind, Except.bind, hb, if_true]; exact .failed _ (by simp)
      · simp only [bind, Except.bind, hb, if_false]; exact .element _ _ _ rfl
  | finv rd rs =>
    refine ⟨_, rfl, ?_⟩
    cases h : elemRead s rs with
    | error e => exact .failed e (by simp [elemRead_error h])
    | ok r =>
      by_cases hb : r.1 = 0
      · simp only [bind, Except.bind, hb, if_true]; exact .failed _ (by simp)
      · simp only [bind, Except.bind, hb, if_false]; exact .element _ _ _ rfl
  | fpow rd rs re neg =>
    refine ⟨_, rfl, ?_⟩
    cases h : elemRead s rs with
    | error e => exact .failed e (by simp [elemRead_error h])
    | ok r =>
      by_cases hb : neg = true ∧ s.valNat re ≠ 0 ∧ r.1 = 0
      · simp only [bind, Except.bind, if_pos hb]; exact .failed _ (by simp)
      · simp only [bind, Except.bind, if_neg hb]; exact .element _ _ _ rfl
  | fscale rd rs imm8 =>
    refine ⟨_, rfl, ?_⟩
    cases h : elemRead s rs with
    | error e => exact .failed e (by simp [elemRead_error h])
    | ok r => exact .element _ _ _ rfl
  | feq rs1 rs2 => exact ⟨_, rfl, .eq _ rfl⟩
  | pinf pd => exact ⟨_, rfl, .point _ _ rfl⟩
  | pnew pd rx ry c =>
    refine ⟨_, rfl, ?_⟩
    cases h : newPoint s c (s.reg rx).val (s.reg ry).val with
    | error e => exact .failed e (by rcases newPoint_error h with h | h | h <;> simp [h])
    | ok P => exact .point _ _ rfl
  | pgen pd c =>
    refine ⟨_, rfl, ?_⟩
    cases c with
    | s0 => exact .point _ _ rfl
    | s1 =>
      cases h : newPoint s .s1 s.gx1 s.gy1 with
      | error e =>
        simp only [slotGenerator, h]
        exact .failed e (by rcases newPoint_error h with h | h | h <;> simp [h])
      | ok P =>
        simp only [slotGenerator, h]
        exact .point _ _ rfl
  | padd pd ps1 ps2 =>
    refine ⟨_, rfl, ?_⟩
    cases h1 : pointRead s ps1 with
    | error e => exact .failed e (by simp [pointRead_error h1])
    | ok P =>
      cases h2 : pointRead s ps2 with
      | error e => exact .failed e (by simp [pointRead_error h2])
      | ok Q =>
        simp only [bind, Except.bind]
        cases h3 : pointAdd s.curve P Q with
        | error e => exact .failed e (by rcases pointAdd_error h3 with h | h <;> simp [h])
        | ok R => exact .point _ _ rfl
  | pmul pd ps rk =>
    refine ⟨_, rfl, ?_⟩
    cases h1 : pointRead s ps with
    | error e => exact .failed e (by simp [pointRead_error h1])
    | ok P => exact multiply_effect rfl fun R => .point _ _ rfl
  | peq ps1 ps2 =>
    refine ⟨_, rfl, ?_⟩
    cases h1 : pointRead s ps1 with
    | error e => exact .failed e (by simp [pointRead_error h1])
    | ok P =>
      cases h2 : pointRead s ps2 with
      | error e => exact .failed e (by simp [pointRead_error h2])
      | ok Q => exact .eq _ rfl
  | pubkey pd re => exact ⟨_, rfl, multiply_effect rfl fun R => .point _ _ rfl⟩
  | pget rdx rdy ps =>
    refine ⟨_, rfl, ?_⟩
    cases h1 : pointRead s ps with
    | error e => exact .failed e (by simp [pointRead_error h1])
    | ok P =>
      cases P with
      | inf => exact .failed _ (by simp)
      | aff c x y => exact .rawPair _ _ _ _ rfl
  | nonce rd rz re m =>
    refine ⟨_, rfl, ?_⟩
    split
    · exact .failed _ (by simp)
    · exact genStep_effect rfl fun k => .raw _ _ rfl
  | sign rdr rz re rk rds =>
    refine ⟨_, rfl, ?_⟩
    split
    · exact .failed _ (by simp)
    · split
      · exact .failed _ (by simp)
      · exact multiply_effect rfl fun R => finishSign_effect rfl
  | signd rdr rz re rds =>
    refine ⟨_, rfl, ?_⟩
    split
    · exact .failed _ (by simp)
    · split
      · exact mulStep_effect rfl (fun e he => .failed e he) fun R => finishSign_effect rfl
      · exact genStep_effect rfl fun k => .looping _ rfl
  | verify rr rs rz rpx rpy =>
    refine ⟨_, rfl, ?_⟩
    simp only
    split
    · split
      · refine mulStep_effect rfl (fun e he => .vres _ rfl) fun R => ?_
        split
        · exact .looping _ rfl
        · exact .vres _ rfl
      · exact .looping _ rfl
      · exact .looping _ rfl
    · exact .vres _ rfl

/-- What a next state of a command looks like. -/
theorem effect_of_exec {i : Instr} {s t : State} (h : exec i s = .next t) : Effect i s t := by
  obtain ⟨u, hu, he⟩ := exec_effect i s
  rw [hu] at h
  cases h
  exact he

end Sys2Proof.Machine
end

