-- ==== Sys2Proof/Laws/Curve.lean ====
section
/-! SUPPORT. The curve equation and the point adder: the six cases of spec 42_point R176, each by its condition, and what the
result keeps. -/

namespace Sys2Proof.Machine

theorem residue_eq_zero_iff (a : Int) {m : Nat} (h : 0 < m) : residue a m = 0 ↔ (m : Int) ∣ a := by
  rw [Int.dvd_iff_emod_eq_zero, ← residue_cast a h]
  omega

/-- The curve equation (spec 42_point R172) as a congruence. -/
theorem onCurve_iff (cv : Curve) (x y : Value) (h : 0 < cv.p.toNat) :
    onCurve cv x y = true ↔
      y.toNat ^ 2 ≡ x.toNat ^ 3 + cv.a.toNat * x.toNat + cv.b.toNat [MOD cv.p.toNat] := by
  unfold onCurve
  rw [decide_eq_true_eq, residue_eq_zero_iff _ h, Nat.ModEq.comm, Nat.modEq_iff_dvd]
  push_cast
  ring_nf

/-- The curve equation in the ring of integers mod p. -/
theorem onCurve_zmod (cv : Curve) (x y : Value) (h : 0 < cv.p.toNat) :
    onCurve cv x y = true ↔
      (y.toNat : ZMod cv.p.toNat) ^ 2 = (x.toNat : ZMod cv.p.toNat) ^ 3 + cv.a.toNat * x.toNat + cv.b.toNat := by
  rw [onCurve_iff cv x y h, ← ZMod.natCast_eq_natCast_iff]
  push_cast
  rfl

/-- What the checks of spec 42_point R174 give when they pass. -/
theorem newPoint_eq_ok {s : State} {c : Slot} {x y : Value} (h1 : curveCheck s c = .ok ()) (h2 : x.toNat < (s.curve c).p.toNat)
    (h3 : y.toNat < (s.curve c).p.toNat) (h4 : onCurve (s.curve c) x y = true) : newPoint s c x y = .ok (.aff c x y) := by
  simp [newPoint, h1, bind, Except.bind, Nat.not_le.2 h2, Nat.not_le.2 h3, h4]

@[simp] theorem curveCheck_s0 (s : State) : curveCheck s .s0 = .ok () := rfl

theorem curveCheck_s1_iff (s : State) :
    curveCheck s .s1 = .ok () ↔
      2 ≤ s.mod2.toNat ∧ s.a1.toNat < s.mod2.toNat ∧ s.b1.toNat < s.mod2.toNat := by
  unfold curveCheck
  simp only
  split
  · simp; omega
  · split
    · simp; omega
    · simp; omega

/-- A slot that passes its check has a modulus of at least 2 (spec 10_state R38). -/
theorem two_le_of_curveCheck {s : State} {c : Slot} (h : curveCheck s c = .ok ()) : 2 ≤ (s.curve c).p.toNat := by
  cases c with
  | s0 => exact (by decide : 2 ≤ Config.mod0.toNat)
  | s1 => exact ((curveCheck_s1_iff s).1 h).1

/-! ### The six cases (spec 42_point R176) -/

theorem pointAdd_inf_left (curve : Slot → Curve) (Q : Point) : pointAdd curve .inf Q = .ok Q := by
  simp [pointAdd]

theorem pointAdd_inf_right (curve : Slot → Curve) (P : Point) : pointAdd curve P .inf = .ok P := by
  cases P <;> simp [pointAdd]

theorem pointAdd_mismatch {curve : Slot → Curve} {c1 c2 : Slot} {x1 y1 x2 y2 : Value}
    (h : (curve c1).params ≠ (curve c2).params) :
    pointAdd curve (.aff c1 x1 y1) (.aff c2 x2 y2) = .error .curveMismatch := by
  simp [pointAdd, h]

theorem pointAdd_opposite {curve : Slot → Curve} {c1 c2 : Slot} {x1 y1 x2 y2 : Value}
    (h : (curve c1).params = (curve c2).params) (hx : x1 = x2) (hy : y1 ≠ y2 ∨ y1.toNat = 0) :
    pointAdd curve (.aff c1 x1 y1) (.aff c2 x2 y2) = .ok .inf := by
  subst hx
  by_cases h1 : y1 = y2
  · have h2 : y1.toNat = 0 := by tauto
    simp [pointAdd, h, h1, h1 ▸ h2]
  · simp [pointAdd, h, h1]

theorem pointAdd_chord {curve : Slot → Curve} {c1 c2 : Slot} {x1 y1 x2 y2 : Value}
    (h : (curve c1).params = (curve c2).params) (hx : x1 ≠ x2) :
    pointAdd curve (.aff c1 x1 y1) (.aff c2 x2 y2) =
      match slope (curve c1).p.toNat (residue ((y2.toNat : Int) - y1.toNat) (curve c1).p.toNat)
        (residue ((x2.toNat : Int) - x1.toNat) (curve c1).p.toNat) with
      | .error e => .error e
      | .ok s => .ok (chord c1 (curve c1).p.toNat s x1.toNat y1.toNat x2.toNat) := by
  simp only [pointAdd, h, hx, ne_eq, not_true, if_false, false_and, not_false_eq_true, if_true] <;> rfl

theorem pointAdd_double {curve : Slot → Curve} {c1 c2 : Slot} {x y : Value}
    (h : (curve c1).params = (curve c2).params) (hy : y.toNat ≠ 0) :
    pointAdd curve (.aff c1 x y) (.aff c2 x y) =
      match slope (curve c1).p.toNat (residue (3 * x.toNat * x.toNat + (curve c1).a.toNat : Nat) (curve c1).p.toNat)
        (residue (2 * y.toNat : Nat) (curve c1).p.toNat) with
      | .error e => .error e
      | .ok s => .ok (chord c1 (curve c1).p.toNat s x.toNat y.toNat x.toNat) := by
  simp only [pointAdd, h, hy, ne_eq, not_true, and_false, if_false] <;> rfl

theorem slope_ok {p num den : Nat} (h : den ≠ 0) : slope p num den = .ok (fdivM p num den) := by
  simp [slope, h]

theorem slope_zero (p num : Nat) : slope p num 0 = .error .divisionByZero := by
  simp [slope]

/-- The divisor of case 5 is not zero (spec 42_point R178). -/
theorem chord_divisor_ne_zero {x1 x2 : Value} {p : Nat} (h1 : x1.toNat < p) (h2 : x2.toNat < p) (hx : x1 ≠ x2) :
    residue ((x2.toNat : Int) - x1.toNat) p ≠ 0 := by
  intro h0
  rw [residue_eq_zero_iff _ (by omega)] at h0
  have h3 : x1.toNat ≠ x2.toNat := fun e => hx (BitVec.eq_of_toNat_eq e)
  obtain ⟨k, hk⟩ := h0
  have h4 : -(p : Int) < p * k := by omega
  have h5 : (p : Int) * k < p := by omega
  have h6 : k < 1 := by nlinarith
  have h7 : -1 < k := by nlinarith
  have h8 : k = 0 := by omega
  subst h8
  omega

/-- The divisor of case 6 is zero only where 2·y = p (spec 42_point R178). -/
theorem tangent_divisor_eq_zero_iff {y : Value} {p : Nat} (h1 : y.toNat < p) (hy : y.toNat ≠ 0) :
    residue (2 * y.toNat : Nat) p = 0 ↔ 2 * y.toNat = p := by
  rw [residue_natCast]
  constructor
  · intro h
    obtain ⟨k, hk⟩ := Nat.dvd_of_mod_eq_zero h
    have h2 : k < 2 := by
      by_contra hc
      have : p * 2 ≤ p * k := Nat.mul_le_mul_left p (by omega)
      omega
    have h3 : k ≠ 0 := by rintro rfl; omega
    have h4 : k = 1 := by omega
    subst h4
    omega
  · intro h
    rw [h, Nat.mod_self]

/-- The sum of two reduced points of one curve: INF, DIVISION_BY_ZERO where a doubling meets 2·y = p, or an affine point on the
first operand's slot (spec 42_point R176, R178, R179). -/
theorem pointAdd_aff_aff {curve : Slot → Curve} {c1 c2 : Slot} {x1 y1 x2 y2 : Value}
    (h : (curve c1).params = (curve c2).params) (h1 : x1.toNat < (curve c1).p.toNat) (h2 : y1.toNat < (curve c1).p.toNat)
    (h3 : x2.toNat < (curve c1).p.toNat) :
    pointAdd curve (.aff c1 x1 y1) (.aff c2 x2 y2) =
      if x1 = x2 ∧ (y1 ≠ y2 ∨ y1.toNat = 0) then .ok .inf
      else if x1 = x2 then
        if 2 * y1.toNat = (curve c1).p.toNat then .error .divisionByZero
        else .ok (chord c1 (curve c1).p.toNat
          (fdivM (curve c1).p.toNat (residue (3 * x1.toNat * x1.toNat + (curve c1).a.toNat : Nat) (curve c1).p.toNat)
            (residue (2 * y1.toNat : Nat) (curve c1).p.toNat)) x1.toNat y1.toNat x1.toNat)
      else .ok (chord c1 (curve c1).p.toNat
        (fdivM (curve c1).p.toNat (residue ((y2.toNat : Int) - y1.toNat) (curve c1).p.toNat)
          (residue ((x2.toNat : Int) - x1.toNat) (curve c1).p.toNat)) x1.toNat y1.toNat x2.toNat) := by
  by_cases hx : x1 = x2
  · by_cases hy : y1 ≠ y2 ∨ y1.toNat = 0
    · rw [if_pos ⟨hx, hy⟩, pointAdd_opposite h hx hy]
    · rw [if_neg (by tauto), if_pos hx]
      rw [not_or, not_not] at hy
      obtain ⟨hy1, hy2⟩ := hy
      subst hx hy1
      rw [pointAdd_double h hy2]
      by_cases hz : 2 * y1.toNat = (curve c1).p.toNat
      · rw [(tangent_divisor_eq_zero_iff h2 hy2).2 hz, slope_zero, if_pos hz]
      · rw [slope_ok (fun e => hz ((tangent_divisor_eq_zero_iff h2 hy2).1 e)), if_neg hz]
  · rw [if_neg (by tauto), if_neg hx, pointAdd_chord h hx, slope_ok (chord_divisor_ne_zero h1 h3 hx)]

/-- The third point of a line, in the ring of integers mod p: x3 = s² − x1 − x2 and y3 = s·(x1 − x3) − y1, both below p
(spec 42_point R176). -/
theorem chord_spec (c : Slot) (p s x1 y1 x2 : Nat) (h0 : 0 < p) (hp : p < 2 ^ 256) :
    ∃ x3 y3 : Value, chord c p s x1 y1 x2 = .aff c x3 y3 ∧ x3.toNat < p ∧ y3.toNat < p ∧
      (x3.toNat : ZMod p) = (s : ZMod p) ^ 2 - x1 - x2 ∧
      (y3.toNat : ZMod p) = (s : ZMod p) * ((x1 : ZMod p) - x3.toNat) - y1 := by
  have hx := residue_lt ((s : Int) * s - x1 - x2) h0
  have hy := residue_lt ((s : Int) * ((x1 : Int) - (residue ((s : Int) * s - x1 - x2) p : Nat)) - y1) h0
  refine ⟨_, _, rfl, ?_, ?_, ?_, ?_⟩
  · rw [toNat_toValue (by omega)]; exact hx
  · rw [toNat_toValue (by omega)]; exact hy
  · rw [toNat_toValue (by omega), residue_zmod _ h0]; push_cast; ring
  · rw [toNat_toValue (by omega), toNat_toValue (by omega), residue_zmod _ h0]; push_cast; rfl

/-- A chord is an affine point of the given slot. -/
theorem chord_aff (c : Slot) (p s x1 y1 x2 : Nat) : ∃ x3 y3 : Value, chord c p s x1 y1 x2 = .aff c x3 y3 := ⟨_, _, rfl⟩

/-- Whatever the sum is, it is INF, an operand, or an affine point on the first operand's slot (spec 42_point R179). -/
theorem pointAdd_ok_slot {curve : Slot → Curve} {P Q R : Point} (h : pointAdd curve P Q = .ok R) :
    R = .inf ∨ (P = .inf ∧ R = Q) ∨ (Q = .inf ∧ R = P) ∨
      ∃ (c1 c2 : Slot) (x1 y1 x2 y2 x3 y3 : Value), P = .aff c1 x1 y1 ∧ Q = .aff c2 x2 y2 ∧ R = .aff c1 x3 y3 ∧
        (curve c1).params = (curve c2).params := by
  cases P with
  | inf => rw [pointAdd_inf_left] at h; cases h; exact .inr (.inl ⟨rfl, rfl⟩)
  | aff c1 x1 y1 =>
    cases Q with
    | inf => rw [pointAdd_inf_right] at h; cases h; exact .inr (.inr (.inl ⟨rfl, rfl⟩))
    | aff c2 x2 y2 =>
      by_cases hc : (curve c1).params = (curve c2).params
      · by_cases hx : x1 = x2
        · by_cases hy : y1 ≠ y2 ∨ y1.toNat = 0
          · rw [pointAdd_opposite hc hx hy] at h; cases h; exact .inl rfl
          · rw [not_or, not_not] at hy
            obtain ⟨rfl, hy⟩ := hy
            subst hx
            rw [pointAdd_double hc hy] at h
            split at h
            · cases h
            · cases h; exact .inr (.inr (.inr ⟨c1, c2, _, _, _, _, _, _, rfl, rfl, rfl, hc⟩))
        · rw [pointAdd_chord hc hx] at h
          split at h
          · cases h
          · cases h; exact .inr (.inr (.inr ⟨c1, c2, _, _, _, _, _, _, rfl, rfl, rfl, hc⟩))
      · rw [pointAdd_mismatch hc] at h; cases h

/-- The sum of two reduced points is reduced (spec 10_state R25). -/
theorem pointAdd_reduced {s : State} {P Q R : Point} (hP : s.PointReduced P) (hQ : s.PointReduced Q)
    (h : pointAdd s.curve P Q = .ok R) : s.PointReduced R := by
  cases P with
  | inf => rw [pointAdd_inf_left] at h; cases h; exact hQ
  | aff c1 x1 y1 =>
    cases Q with
    | inf => rw [pointAdd_inf_right] at h; cases h; exact hP
    | aff c2 x2 y2 =>
      obtain ⟨hk, hx1, hy1⟩ := hP
      obtain ⟨-, hx2, -⟩ := hQ
      by_cases hc : (s.curve c1).params = (s.curve c2).params
      · have hp : (s.curve c1).p = (s.curve c2).p := congrArg (·.1) hc
        have hb : (s.curve c1).p.toNat < 2 ^ 256 := (s.curve c1).p.isLt
        rw [pointAdd_aff_aff hc hx1 hy1 (by rw [hp]; exact hx2)] at h
        have key : ∀ a b d e : Nat, s.PointReduced (chord c1 (s.curve c1).p.toNat a b d e) := by
          intro a b d e
          obtain ⟨x3, y3, e1, e2, e3, -⟩ := chord_spec c1 (s.curve c1).p.toNat a b d e (by omega) hb
          rw [e1]
          exact ⟨hk, e2, e3⟩
        repeat' split at h
        all_goals cases h
        · trivial
        · exact key _ _ _ _
        · exact key _ _ _ _
      · rw [pointAdd_mismatch hc] at h; cases h

/-- The first operand's parameters and an odd prime modulus leave no error (spec 42_point R178). -/
theorem pointAdd_total {s : State} {P Q : Point} (hP : s.PointReduced P) (hQ : s.PointReduced Q)
    (hodd : ∀ (c : Slot) (x y : Value), P = .aff c x y → (s.curve c).p.toNat % 2 = 1)
    (hc : ∀ (c1 c2 : Slot) (x1 y1 x2 y2 : Value), P = .aff c1 x1 y1 → Q = .aff c2 x2 y2 →
      (s.curve c1).params = (s.curve c2).params) : ∃ R : Point, pointAdd s.curve P Q = .ok R := by
  cases P with
  | inf => exact ⟨Q, pointAdd_inf_left _ _⟩
  | aff c1 x1 y1 =>
    cases Q with
    | inf => exact ⟨_, pointAdd_inf_right _ _⟩
    | aff c2 x2 y2 =>
      have hcc := hc c1 c2 x1 y1 x2 y2 rfl rfl
      have hp : (s.curve c1).p = (s.curve c2).p := congrArg (·.1) hcc
      have ho := hodd c1 x1 y1 rfl
      rw [pointAdd_aff_aff hcc hP.2.1 hP.2.2 (by rw [hp]; exact hQ.2.1)]
      repeat' split
      · exact ⟨_, rfl⟩
      · omega
      · exact ⟨_, rfl⟩
      · exact ⟨_, rfl⟩

end Sys2Proof.Machine
end

