-- ==== Sys2Proof/Laws/Loops.lean ====
section
/-! SUPPORT. One step of the two loops a command can be in: GEN_K (spec 43_nonce R216) and PMUL (spec 42_point R181). -/

namespace Sys2Proof.Machine

theorem inRange_iff {q c : Nat} : inRange q c = true ↔ 0 < c ∧ c < q := by
  simp [inRange]

theorem inRange_eq_false {q c : Nat} : inRange q c = false ↔ c = 0 ∨ q ≤ c := by
  rw [Bool.eq_false_iff, ne_eq, inRange_iff]; omega

theorem genStep_begins {s : State} {z e q : Nat} {accepted : Nat → State} (h : ∀ g : Drbg, s.work ≠ .gen g) :
    genStep s z e q accepted = s.holdGen (Drbg.begin Config.kLen z e q) := by
  unfold genStep
  split
  · rename_i g hg
    exact absurd hg (h g)
  · rfl
  · rfl

theorem genStep_waits {s : State} {z e q : Nat} {accepted : Nat → State} {g : Drbg} (h : s.work = .gen g) (hg : g.tag = none) :
    genStep s z e q accepted = s := by
  simp [genStep, h, hg]

theorem genStep_goes {s : State} {z e q : Nat} {accepted : Nat → State} {g g' : Drbg} {y : Bytes} (h : s.work = .gen g)
    (hg : g.tag = some y) (ha : g.advance z e q y = .goes g') : genStep s z e q accepted = s.holdGen g' := by
  simp [genStep, h, hg, ha]

theorem genStep_rejects {s : State} {z e q : Nat} {accepted : Nat → State} {g g' : Drbg} {y : Bytes} (h : s.work = .gen g)
    (hg : g.tag = some y) (ha : g.advance z e q y = .rejects g') : genStep s z e q accepted = s.countRejection.holdGen g' := by
  simp [genStep, h, hg, ha]

theorem genStep_accepts {s : State} {z e q k : Nat} {accepted : Nat → State} {g : Drbg} {y : Bytes} (h : s.work = .gen g)
    (hg : g.tag = some y) (ha : g.advance z e q y = .accepts k) : genStep s z e q accepted = accepted k := by
  simp [genStep, h, hg, ha]

theorem Mul.more_iff {m : Mul} : m.more = true ↔ m.iters < bitlen m.k := by simp [Mul.more]

theorem mulStep_iterates {s : State} {m m' : Mul} {failed : ErrCode → State} {finish : Point → State}
    (h : m.iters < bitlen m.k) (hm : m.iterate s.curve = .ok m') : mulStep s m failed finish = s.holdMul m' := by
  simp [mulStep, Mul.more_iff.2 h, hm]

theorem mulStep_fails {s : State} {m : Mul} {e : ErrCode} {failed : ErrCode → State} {finish : Point → State}
    (h : m.iters < bitlen m.k) (hm : m.iterate s.curve = .error e) : mulStep s m failed finish = failed e := by
  simp [mulStep, Mul.more_iff.2 h, hm]

theorem mulStep_finishes {s : State} {m : Mul} {failed : ErrCode → State} {finish : Point → State}
    (h : bitlen m.k ≤ m.iters) : mulStep s m failed finish = finish m.result := by
  have h' : m.more = false := by simp [Mul.more]; omega
  simp [mulStep, h']

theorem multiply_begins {s : State} {P : Point} {k : Nat} {finish : Point → State} (h : s.work = .fresh) :
    multiply s P k finish = s.holdMul (Mul.start P k none) := by
  simp [multiply, h]

theorem multiply_goes_on {s : State} {P : Point} {k : Nat} {m : Mul} {finish : Point → State} (h : s.work = .mul m) :
    multiply s P k finish = mulStep s m s.completeErr finish := by
  simp [multiply, h]

/-- What one iteration keeps: the scalar and the earlier product; it counts one more iteration. -/
theorem Mul.iterate_ok {curve : Slot → Curve} {m m' : Mul} (h : m.iterate curve = .ok m') :
    m'.k = m.k ∧ m'.earlier = m.earlier ∧ m'.iters = m.iters + 1 ∧
      (if m.k.testBit m.iters then pointAdd curve m.result m.current = .ok m'.result else m'.result = m.result) ∧
      pointAdd curve m.current m.current = .ok m'.current := by
  unfold Mul.iterate at h
  split at h
  · cases h
  · split at h
    · cases h
    · rename_i r hr _ c hc
      cases h
      refine ⟨rfl, rfl, rfl, ?_, hc⟩
      by_cases hb : m.k.testBit m.iters = true
      · simpa [hb] using hr
      · rw [if_neg hb] at hr ⊢
        cases hr
        rfl

/-- `n + 1` iterations are `n` and one more. -/
theorem Mul.loop_succ {curve : Slot → Curve} {n : Nat} {m m' m'' : Mul} (h : Mul.loop curve n m = .ok m')
    (h' : m'.iterate curve = .ok m'') : Mul.loop curve (n + 1) m = .ok m'' := by
  induction n generalizing m with
  | zero =>
    cases h
    simp [Mul.loop, h', bind, Except.bind]
  | succ n ih =>
    simp only [Mul.loop, bind, Except.bind] at h
    cases hm : m.iterate curve with
    | error e => simp [hm] at h
    | ok u =>
      simp only [hm] at h
      have := ih h
      simp only [Mul.loop, bind, Except.bind, hm] at this ⊢
      exact this

/-- A whole loop of PMUL as a run of the machine (spec 42_point R181): with `n` iterations still to come, it ends in the commit of
the product, or in the state for the error of an iteration. `failed` and `finish` are what the command does with them. -/
theorem run_loop {i : Instr} {s : State} {k : Nat} {earlier : Option Point} {failed : ErrCode → State} {finish : Point → State}
    (hd : decode s.cmd = .ok i) (hr : s.resetPending = false)
    (hex : ∀ m : Mul, m.k = k → m.earlier = earlier →
      exec i (s.holdMul m) = .next (mulStep (s.holdMul m) m failed finish))
    (n : Nat) (m : Mul) (hk : m.k = k) (he : m.earlier = earlier) (hn : m.iters + n = bitlen k) :
    (∀ m' : Mul, Mul.loop s.curve n m = .ok m' → ∃ c : Nat, core.run c (s.holdMul m) = .next (finish m'.result)) ∧
      (∀ e : ErrCode, Mul.loop s.curve n m = .error e → ∃ c : Nat, core.run c (s.holdMul m) = .next (failed e)) := by
  have hstep : ∀ m : Mul, m.k = k → m.earlier = earlier →
      step (s.holdMul m) = .next (mulStep (s.holdMul m) m failed finish) := fun m h1 h2 =>
    step_runs rfl hr rfl (by simpa using hd) (hex m h1 h2)
  induction n generalizing m with
  | zero =>
    refine ⟨fun m' h => ?_, fun e h => by cases h⟩
    cases h
    exact ⟨1, run_one ((hstep m hk he).trans (by rw [mulStep_finishes (by rw [hk]; omega)]))⟩
  | succ n ih =>
    cases hm : m.iterate s.curve with
    | error e' =>
      refine ⟨fun m' h => ?_, fun e h => ?_⟩
      · simp [Mul.loop, hm, bind, Except.bind] at h
      · simp only [Mul.loop, hm, bind, Except.bind] at h
        cases h
        exact ⟨1, run_one ((hstep m hk he).trans (by rw [mulStep_fails (by rw [hk]; omega) (by simpa using hm)]))⟩
    | ok u =>
      obtain ⟨u1, u2, u3, -, -⟩ := Mul.iterate_ok hm
      have hs : step (s.holdMul m) = .next (s.holdMul u) :=
        (hstep m hk he).trans (by rw [mulStep_iterates (by rw [hk]; omega) (by simpa using hm)]; rfl)
      have ih' := ih u (u1.trans hk) (u2.trans he) (by omega)
      simp only [Mul.loop, hm, bind, Except.bind]
      refine ⟨fun m' h => ?_, fun e h => ?_⟩
      · obtain ⟨c, hc⟩ := ih'.1 m' h
        exact ⟨c + 1, (run_succ_of_next hs).trans hc⟩
      · obtain ⟨c, hc⟩ := ih'.2 e h
        exact ⟨c + 1, (run_succ_of_next hs).trans hc⟩

/-- The whole of PMUL(P, k) as a run (spec 42_point R181). -/
theorem run_pointMul {i : Instr} {s : State} {P : Point} {k : Nat} {earlier : Option Point} {failed : ErrCode → State}
    {finish : Point → State} (hd : decode s.cmd = .ok i) (hr : s.resetPending = false)
    (hex : ∀ m : Mul, m.k = k → m.earlier = earlier →
      exec i (s.holdMul m) = .next (mulStep (s.holdMul m) m failed finish)) :
    (∀ R : Point, pointMul s.curve P k = .ok R →
      ∃ c : Nat, core.run c (s.holdMul (Mul.start P k earlier)) = .next (finish R)) ∧
      (∀ e : ErrCode, pointMul s.curve P k = .error e →
        ∃ c : Nat, core.run c (s.holdMul (Mul.start P k earlier)) = .next (failed e)) := by
  have hl := run_loop hd hr hex (bitlen k) (Mul.start P k earlier) rfl rfl (by simp [Mul.start])
  have he : ∀ (n : Nat) (m : Mul), (Mul.loop s.curve n { m with earlier := earlier }).map (·.result) =
      (Mul.loop s.curve n m).map (·.result) := by
    intro n
    induction n with
    | zero => intro m; rfl
    | succ n ih =>
      intro m
      have h1 : Mul.iterate s.curve { m with earlier := earlier } =
          (m.iterate s.curve).map fun u => { u with earlier := earlier } := by
        unfold Mul.iterate
        simp only
        split
        · rfl
        · split <;> rfl
      simp only [Mul.loop, bind, Except.bind, h1]
      cases hm : m.iterate s.curve with
      | error e => rfl
      | ok u => exact ih u
  have he' := he (bitlen k) (Mul.start P k none)
  have hs : { Mul.start P k none with earlier := earlier } = Mul.start P k earlier := rfl
  rw [hs] at he'
  refine ⟨fun R h => ?_, fun e h => ?_⟩
  · cases hm : Mul.loop s.curve (bitlen k) (Mul.start P k none) with
    | error e => simp [pointMul, hm, bind, Except.bind] at h
    | ok u =>
      simp only [pointMul, hm, bind, Except.bind] at h
      rw [hm] at he'
      cases hm' : Mul.loop s.curve (bitlen k) (Mul.start P k earlier) with
      | error e => rw [hm'] at he'; cases he'
      | ok v =>
        rw [hm'] at he'
        have e1 : v.result = u.result := by simpa [Except.map] using he'
        cases h
        rw [← e1]
        exact hl.1 v hm'
  · cases hm : Mul.loop s.curve (bitlen k) (Mul.start P k none) with
    | ok u => simp [pointMul, hm, bind, Except.bind, pure, Except.pure] at h
    | error e1 =>
      simp only [pointMul, hm, bind, Except.bind] at h
      cases h
      rw [hm] at he'
      cases hm' : Mul.loop s.curve (bitlen k) (Mul.start P k earlier) with
      | ok v => rw [hm'] at he'; cases he'
      | error e2 =>
        rw [hm'] at he'
        cases he'
        exact hl.2 e hm'

end Sys2Proof.Machine
end

