-- ==== Sys2Proof/Laws/Multiply.lean ====
section
/-! SUPPORT. The scalar multiplier (spec 42_point R181, R183): with an odd modulus its loop meets no error, stays on the slot of its
point and keeps points reduced. -/

namespace Sys2Proof.Machine

/-- Every affine point of Q's kind has the slot of P. -/
def SlotOf (P Q : Point) : Prop :=
  ∀ (c : Slot) (x y : Value), Q = .aff c x y → ∃ x' y' : Value, P = .aff c x' y'

theorem slotOf_self (P : Point) : SlotOf P P := fun _ x y h => ⟨x, y, h⟩

theorem slotOf_inf (P : Point) : SlotOf P .inf := fun _ _ _ h => by cases h

/-- The sum of two points of P's slot is of P's slot. -/
theorem slotOf_pointAdd {curve : Slot → Curve} {P A B R : Point} (hA : SlotOf P A) (hB : SlotOf P B)
    (h : pointAdd curve A B = .ok R) : SlotOf P R := by
  intro c x y e
  rcases pointAdd_ok_slot h with h' | ⟨-, h'⟩ | ⟨-, h'⟩ | ⟨c1, c2, x1, y1, x2, y2, x3, y3, f1, f2, f3, -⟩
  · rw [h'] at e; cases e
  · exact hB c x y (h' ▸ e)
  · exact hA c x y (h' ▸ e)
  · rw [f3] at e; cases e; exact hA _ _ _ f1

/-- Two points of P's slot are of one curve. -/
theorem slotOf_params {curve : Slot → Curve} {P A B : Point} (hA : SlotOf P A) (hB : SlotOf P B) (c1 c2 : Slot)
    (x1 y1 x2 y2 : Value) (e1 : A = .aff c1 x1 y1) (e2 : B = .aff c2 x2 y2) : (curve c1).params = (curve c2).params := by
  obtain ⟨_, _, f1⟩ := hA _ _ _ e1
  obtain ⟨_, _, f2⟩ := hB _ _ _ e2
  rw [f1] at f2
  cases f2
  rfl

/-- One iteration keeps both accumulators on P's slot. -/
theorem Mul.iterate_slot {curve : Slot → Curve} {P : Point} {m m' : Mul} (h : m.iterate curve = .ok m')
    (h1 : SlotOf P m.result) (h2 : SlotOf P m.current) : SlotOf P m'.result ∧ SlotOf P m'.current := by
  obtain ⟨-, -, -, hr, hc⟩ := Mul.iterate_ok h
  refine ⟨?_, slotOf_pointAdd h2 h2 hc⟩
  split at hr
  · exact slotOf_pointAdd h1 h2 hr
  · rw [hr]; exact h1

/-- One iteration keeps both accumulators reduced. -/
theorem Mul.iterate_reduced {s : State} {m m' : Mul} (h : m.iterate s.curve = .ok m') (h1 : s.PointReduced m.result)
    (h2 : s.PointReduced m.current) : s.PointReduced m'.result ∧ s.PointReduced m'.current := by
  obtain ⟨-, -, -, hr, hc⟩ := Mul.iterate_ok h
  refine ⟨?_, pointAdd_reduced h2 h2 hc⟩
  split at hr
  · exact pointAdd_reduced h1 h2 hr
  · rw [hr]; exact h1

/-- With an odd modulus one iteration meets no error (spec 42_point R178). -/
theorem Mul.iterate_total {s : State} {P : Point} {m : Mul}
    (hodd : ∀ (c : Slot) (x y : Value), P = .aff c x y → (s.curve c).p.toNat % 2 = 1)
    (h1 : s.PointReduced m.result) (h2 : s.PointReduced m.current) (h3 : SlotOf P m.result) (h4 : SlotOf P m.current) :
    ∃ m' : Mul, m.iterate s.curve = .ok m' := by
  have hodd' : ∀ (A : Point), SlotOf P A → ∀ (c : Slot) (x y : Value), A = .aff c x y → (s.curve c).p.toNat % 2 = 1 := by
    intro A hA c x y e
    obtain ⟨x', y', e'⟩ := hA c x y e
    exact hodd c x' y' e'
  obtain ⟨C, hC⟩ := pointAdd_total h2 h2 (hodd' _ h4) (slotOf_params h4 h4)
  obtain ⟨R, hR⟩ := pointAdd_total h1 h2 (hodd' _ h3) (slotOf_params h3 h4)
  unfold Mul.iterate
  rw [hR, hC]
  split
  · rename_i e he
    split at he <;> cases he
  · exact ⟨_, rfl⟩

/-- The loop keeps what one iteration keeps. -/
theorem Mul.loop_keeps {curve : Slot → Curve} {I : Mul → Prop} (hI : ∀ m m' : Mul, I m → m.iterate curve = .ok m' → I m')
    (n : Nat) {m m' : Mul} (h : Mul.loop curve n m = .ok m') (hm : I m) : I m' := by
  induction n generalizing m with
  | zero => cases h; exact hm
  | succ n ih =>
    simp only [Mul.loop, bind, Except.bind] at h
    cases hu : m.iterate curve with
    | error e => simp [hu] at h
    | ok u =>
      simp only [hu] at h
      exact ih h (hI m u hm hu)

theorem Mul.loop_slot {curve : Slot → Curve} {P : Point} {n : Nat} {m m' : Mul} (h : Mul.loop curve n m = .ok m')
    (h1 : SlotOf P m.result) (h2 : SlotOf P m.current) : SlotOf P m'.result ∧ SlotOf P m'.current :=
  Mul.loop_keeps (I := fun m => SlotOf P m.result ∧ SlotOf P m.current)
    (fun _ _ hm hi => Mul.iterate_slot hi hm.1 hm.2) n h ⟨h1, h2⟩

theorem Mul.loop_reduced {s : State} {n : Nat} {m m' : Mul} (h : Mul.loop s.curve n m = .ok m')
    (h1 : s.PointReduced m.result) (h2 : s.PointReduced m.current) : s.PointReduced m'.result ∧ s.PointReduced m'.current :=
  Mul.loop_keeps (I := fun m => s.PointReduced m.result ∧ s.PointReduced m.current)
    (fun _ _ hm hi => Mul.iterate_reduced hi hm.1 hm.2) n h ⟨h1, h2⟩

/-- With an odd modulus the loop meets no error. -/
theorem Mul.loop_total {s : State} {P : Point}
    (hodd : ∀ (c : Slot) (x y : Value), P = .aff c x y → (s.curve c).p.toNat % 2 = 1) (n : Nat) (m : Mul)
    (h1 : s.PointReduced m.result) (h2 : s.PointReduced m.current) (h3 : SlotOf P m.result) (h4 : SlotOf P m.current) :
    ∃ m' : Mul, Mul.loop s.curve n m = .ok m' := by
  induction n generalizing m with
  | zero => exact ⟨m, rfl⟩
  | succ n ih =>
    obtain ⟨u, hu⟩ := Mul.iterate_total hodd h1 h2 h3 h4
    have hr := Mul.iterate_reduced hu h1 h2
    have hs := Mul.iterate_slot hu h3 h4
    simp only [Mul.loop, hu, bind, Except.bind]
    exact ih u hr.1 hr.2 hs.1 hs.2

theorem pointMul_ok_iff {curve : Slot → Curve} {P R : Point} {k : Nat} :
    pointMul curve P k = .ok R ↔ ∃ m : Mul, Mul.loop curve (bitlen k) (Mul.start P k none) = .ok m ∧ m.result = R := by
  unfold pointMul
  cases h : Mul.loop curve (bitlen k) (Mul.start P k none) with
  | error e => simp [bind, Except.bind]
  | ok m => simp [bind, Except.bind, pure, Except.pure]

/-- A scalar multiple is reduced and on the slot of its point (spec 10_state R25). -/
theorem pointMul_keeps {s : State} {P R : Point} {k : Nat} (hP : s.PointReduced P) (h : pointMul s.curve P k = .ok R) :
    s.PointReduced R ∧ SlotOf P R := by
  obtain ⟨m, hm, rfl⟩ := pointMul_ok_iff.1 h
  exact ⟨(Mul.loop_reduced hm trivial hP).1, (Mul.loop_slot hm (slotOf_inf P) (slotOf_self P)).1⟩

/-- With an odd modulus PMUL meets no error (spec 42_point R178, R181). -/
theorem pointMul_total {s : State} {P : Point} {k : Nat} (hP : s.PointReduced P)
    (hodd : ∀ (c : Slot) (x y : Value), P = .aff c x y → (s.curve c).p.toNat % 2 = 1) :
    ∃ R : Point, pointMul s.curve P k = .ok R := by
  obtain ⟨m, hm⟩ := Mul.loop_total hodd (bitlen k) (Mul.start P k none) trivial hP (slotOf_inf P) (slotOf_self P)
  exact ⟨m.result, pointMul_ok_iff.2 ⟨m, hm, rfl⟩⟩

/-- PMUL(P, 0) = INF without a PADD call (spec 42_point R181). -/
theorem pointMul_zero (curve : Slot → Curve) (P : Point) : pointMul curve P 0 = .ok .inf := rfl

/-- PMUL(INF, k) = INF (spec 42_point R183). -/
theorem pointMul_inf (curve : Slot → Curve) (k : Nat) : pointMul curve .inf k = .ok .inf := by
  have key : ∀ (n : Nat) (m : Mul), m.result = .inf → m.current = .inf →
      ∃ m' : Mul, Mul.loop curve n m = .ok m' ∧ m'.result = .inf := by
    intro n
    induction n with
    | zero => exact fun m h _ => ⟨m, rfl, h⟩
    | succ n ih =>
      intro m h1 h2
      have hi : m.iterate curve = .ok { m with iters := m.iters + 1, result := .inf, current := .inf } := by
        simp [Mul.iterate, h1, h2, pointAdd_inf_left]
      simp only [Mul.loop, hi, bind, Except.bind]
      exact ih _ rfl rfl
  obtain ⟨m, hm, hr⟩ := key (bitlen k) (Mul.start .inf k none) rfl rfl
  exact pointMul_ok_iff.2 ⟨m, hm, hr⟩

/-! ### Slot 0 -/

theorem mod0_odd : Config.mod0.toNat % 2 = 1 := by decide

/-- G is reduced (spec 10_state R28). -/
theorem generator_reduced (s : State) : s.PointReduced generator :=
  ⟨rfl, (by decide : Config.gx0.toNat < Config.mod0.toNat), (by decide : Config.gy0.toNat < Config.mod0.toNat)⟩

/-- A multiple of G is INF or a reduced point of slot 0, and never an error (spec 42_point R185). -/
theorem pointMul_generator (s : State) (k : Nat) :
    ∃ R : Point, pointMul s.curve generator k = .ok R ∧ s.PointReduced R ∧ SlotOf generator R := by
  obtain ⟨R, hR⟩ := pointMul_total (k := k) (generator_reduced s) (fun c x y h => by cases h; exact mod0_odd)
  exact ⟨R, hR, pointMul_keeps (generator_reduced s) hR⟩

/-- The same for a public key within its range (spec 44_ecdsa R247). -/
theorem pointMul_s0 (s : State) {x y : Value} (hx : x.toNat < Config.mod0.toNat) (hy : y.toNat < Config.mod0.toNat) (k : Nat) :
    ∃ R : Point, pointMul s.curve (.aff .s0 x y) k = .ok R ∧ s.PointReduced R ∧ SlotOf (.aff .s0 x y) R := by
  have hP : s.PointReduced (.aff .s0 x y) := ⟨rfl, hx, hy⟩
  obtain ⟨R, hR⟩ := pointMul_total (k := k) hP (fun c x' y' h => by cases h; exact mod0_odd)
  exact ⟨R, hR, pointMul_keeps hP hR⟩

/-- The sum of two reduced points of slot 0 is no error (spec 44_ecdsa R247). -/
theorem pointAdd_s0 {s : State} {P Q : Point} (hP : s.PointReduced P) (hQ : s.PointReduced Q)
    (sP : SlotOf generator P) (sQ : SlotOf generator Q) : ∃ R : Point, pointAdd s.curve P Q = .ok R := by
  refine pointAdd_total hP hQ (fun c x y e => ?_) (slotOf_params sP sQ)
  obtain ⟨x', y', e'⟩ := sP c x y e
  cases e'
  exact mod0_odd

end Sys2Proof.Machine
end

