-- ==== Sys2Proof/Laws/Ecdsa.lean ====
section
/-! SUPPORT. The commands that multiply a point, stage by stage: the checks, the beginning of the loop, the commit
(spec 42_point R182, R185; 44_ecdsa R241 to R247). -/

namespace Sys2Proof.Machine

/-- The secp256k1 curve equation (spec 10_state R28, 42_point R172). -/
theorem onCurve_s0_iff (s : State) (x y : Value) :
    onCurve (s.curve .s0) x y = true ↔ y.toNat ^ 2 ≡ x.toNat ^ 3 + 7 [MOD Config.mod0.toNat] := by
  rw [onCurve_iff _ _ _ (by exact (by decide : 0 < Config.mod0.toNat))]
  show _ ≡ _ ^ 3 + (0#256).toNat * _ + (7#256).toNat [MOD _] ↔ _
  rw [show (0#256).toNat = 0 from rfl, show (7#256).toNat = 7 from rfl, Nat.zero_mul, Nat.add_zero]
  rfl

theorem badKey_eq_false {e : Nat} : badKey e = false ↔ 1 ≤ e ∧ e < Config.mod1.toNat := by
  rw [badKey, Bool.or_eq_false_iff, decide_eq_false_iff_not, decide_eq_false_iff_not]; omega

theorem badKey_eq_true {e : Nat} : badKey e = true ↔ e = 0 ∨ Config.mod1.toNat ≤ e := by
  rw [badKey, Bool.or_eq_true, decide_eq_true_eq, decide_eq_true_eq]

/-- VERIFY's domain checks (spec 44_ecdsa R246). -/
theorem verifyDomain_iff (s : State) (r sg : Nat) (px py : Value) :
    verifyDomain s r sg px py = true ↔
      0 < r ∧ r < Config.mod1.toNat ∧ 0 < sg ∧ sg < Config.mod1.toNat ∧ px.toNat < Config.mod0.toNat ∧
        py.toNat < Config.mod0.toNat ∧ py.toNat ^ 2 ≡ px.toNat ^ 3 + 7 [MOD Config.mod0.toNat] := by
  rw [← onCurve_s0_iff s]
  unfold verifyDomain
  cases onCurve (s.curve .s0) px py with
  | false => simp
  | true => simp; omega

/-! ### PMUL and PUBKEY -/

theorem exec_pmul {s : State} {pd ps : PointIx} {rk : RegIx} {P : Point} (h : s.point ps = some P) :
    exec (.pmul pd ps rk) s = .next (multiply s P (s.valNat rk) fun R => (s.setPoint pd R).finish) := by
  simp only [exec, execPmul, pointRead_some h]
  rfl

theorem exec_pubkey (s : State) (pd : PointIx) (re : RegIx) :
    exec (.pubkey pd re) s = .next (multiply s generator (s.valNat re) fun R => (s.setPoint pd R).finish) := rfl

/-! ### SIGN and SIGND -/

theorem exec_sign {s : State} {rdr rz re rk rds : RegIx} (h1 : 1 ≤ s.valNat re) (h2 : s.valNat re < Config.mod1.toNat)
    (h3 : s.valNat rk < Config.mod1.toNat) :
    exec (.sign rdr rz re rk rds) s = .next (multiply s generator (s.valNat rk)
      (finishSign s rdr rds (s.valNat rz) (s.valNat re) (s.valNat rk))) := by
  simp only [exec, execSign, badKey_eq_false.2 ⟨h1, h2⟩, Nat.not_le.2 h3]
  rfl

theorem exec_sign_bad_key {s : State} {rdr rz re rk rds : RegIx} (h : s.valNat re = 0 ∨ Config.mod1.toNat ≤ s.valNat re) :
    exec (.sign rdr rz re rk rds) s = .next (s.completeErr .invalidElement) := by
  simp only [exec, execSign, badKey_eq_true.2 h]
  rfl

theorem exec_sign_bad_nonce {s : State} {rdr rz re rk rds : RegIx} (h1 : 1 ≤ s.valNat re)
    (h2 : s.valNat re < Config.mod1.toNat) (h3 : Config.mod1.toNat ≤ s.valNat rk) :
    exec (.sign rdr rz re rk rds) s = .next (s.completeErr .invalidElement) := by
  simp only [exec, execSign, badKey_eq_false.2 ⟨h1, h2⟩, h3]
  rfl

theorem exec_signd_bad_key {s : State} {rdr rz re rds : RegIx} (h : s.valNat re = 0 ∨ Config.mod1.toNat ≤ s.valNat re) :
    exec (.signd rdr rz re rds) s = .next (s.completeErr .invalidElement) := by
  simp only [exec, execSignd, badKey_eq_true.2 h]
  rfl

/-- SIGND inside the loop of PMUL. -/
theorem exec_signd_mul {s : State} {rdr rz re rds : RegIx} {m : Mul} (h1 : 1 ≤ s.valNat re)
    (h2 : s.valNat re < Config.mod1.toNat) (hw : s.work = .mul m) :
    exec (.signd rdr rz re rds) s =
      .next (mulStep s m s.completeErr (finishSign s rdr rds (s.valNat rz) (s.valNat re) m.k)) := by
  simp only [exec, execSignd, badKey_eq_false.2 ⟨h1, h2⟩, hw]
  rfl

/-- SIGND before the loop of PMUL is the generator GEN_K(z, e, n). -/
theorem exec_signd_gen {s : State} {rdr rz re rds : RegIx} (h1 : 1 ≤ s.valNat re)
    (h2 : s.valNat re < Config.mod1.toNat) (hw : ∀ m : Mul, s.work ≠ .mul m) :
    exec (.signd rdr rz re rds) s =
      .next (genStep s (s.valNat rz) (s.valNat re) Config.mod1.toNat fun k => s.holdMul (Mul.start generator k none)) := by
  simp only [exec, execSignd, badKey_eq_false.2 ⟨h1, h2⟩]
  cases h : s.work with
  | mul m => exact absurd h (hw m)
  | fresh => rfl
  | gen g => rfl

/-- SIGN_CORE from R on (spec 44_ecdsa R242). -/
theorem signCore_aff (z e k : Nat) (c : Slot) (Rx Ry : Value) :
    signCore z e k (.aff c Rx Ry) =
      (let n := Config.mod1.toNat
       let r := Rx.toNat % n
       let sg := k ^ (n - 2) * (z + r * e) % n
       if r = 0 ∨ sg = 0 then .error .degenerateNonce else .ok (r, sg)) := by
  simp only [signCore, fpowM_fermat _ _ (show 2 ≤ Config.mod1.toNat by decide), Nat.mod_mul_mod]
  split
  · rename_i h; rw [if_pos (.inl h)]
  · split
    · rename_i h; rw [if_pos (.inr h)]
    · rw [if_neg (by tauto)]

/-! ### VERIFY -/

theorem exec_verify_invalid {s : State} {rr rs rz rpx rpy : RegIx}
    (h : verifyDomain s (s.valNat rr) (s.valNat rs) (s.reg rpx).val (s.reg rpy).val = false) :
    exec (.verify rr rs rz rpx rpy) s = .next (s.setVres false).finish := by
  simp only [exec, execVerify, h]
  rfl

theorem exec_verify_fresh {s : State} {rr rs rz rpx rpy : RegIx}
    (h : verifyDomain s (s.valNat rr) (s.valNat rs) (s.reg rpx).val (s.reg rpy).val = true) (hw : s.work = .fresh) :
    exec (.verify rr rs rz rpx rpy) s =
      .next (s.holdMul (Mul.start generator (s.valNat rz * verifyW (s.valNat rs) % Config.mod1.toNat) none)) := by
  simp only [exec, execVerify, h, hw, if_true]

theorem exec_verify_mul {s : State} {rr rs rz rpx rpy : RegIx} {m : Mul}
    (h : verifyDomain s (s.valNat rr) (s.valNat rs) (s.reg rpx).val (s.reg rpy).val = true) (hw : s.work = .mul m) :
    exec (.verify rr rs rz rpx rpy) s =
      .next (mulStep s m (fun _ => (s.setVres false).finish) fun R =>
        match m.earlier with
        | none => s.holdMul (Mul.start (.aff .s0 (s.reg rpx).val (s.reg rpy).val)
            (s.valNat rr * verifyW (s.valNat rs) % Config.mod1.toNat) (some R))
        | some P1 => (s.setVres (matchesR (s.valNat rr) (pointAdd s.curve P1 R))).finish) := by
  simp only [exec, execVerify, h, hw, if_true]
  rfl

theorem verifyW_eq (sg : Nat) : verifyW sg = sg ^ (Config.mod1.toNat - 2) % Config.mod1.toNat :=
  fpowM_fermat _ _ (by decide)

theorem matchesR_iff (r : Nat) (sum : Except ErrCode Point) :
    matchesR r sum = true ↔ ∃ (c : Slot) (X Y : Value), sum = .ok (.aff c X Y) ∧ X.toNat % Config.mod1.toNat = r := by
  rcases sum with e | P
  · simp [matchesR]
  · cases P <;> simp [matchesR]

end Sys2Proof.Machine
end

