-- ==== Sys2Proof/Laws/Elements.lean ====
section
/-! SUPPORT. Elements stay below their moduli (spec 10_state R22): what keeps State.ElementsReduced. -/

namespace Sys2Proof.Machine

theorem modNat_lt (s : State) (m : ModIx) : s.modNat m < 2 ^ 256 := (s.modulus m).isLt

/-- The registers and the moduli are all that counts. -/
theorem elementsReduced_of_eq {s t : State} (h : s.ElementsReduced) (h1 : t.regs = s.regs) (h2 : t.mod2 = s.mod2)
    (h3 : t.mod3 = s.mod3) : t.ElementsReduced := by
  have hm : ∀ m : ModIx, t.modNat m = s.modNat m := by
    intro m
    unfold State.modNat State.modulus
    match m with
    | 0 | 1 => rfl
    | 2 => simp only [h2]
    | 3 => simp only [h3]
  intro i m ht
  have hr : t.reg i = s.reg i := by simp only [State.reg, h1]
  rw [hr] at ht
  rw [hm]
  simpa only [State.valNat, hr] using h i m ht

theorem elementsReduced_setReg {s : State} (h : s.ElementsReduced) (rd : RegIx) (r : Reg)
    (hr : ∀ m : ModIx, r.tag = .el m → 2 ≤ s.modNat m ∧ r.val.toNat < s.modNat m) : (s.setReg rd r).ElementsReduced := by
  intro i m ht
  rw [State.setReg_modNat]
  by_cases hi : i = rd
  · subst hi
    rw [State.reg_setReg_same] at ht
    simpa [State.valNat] using hr m ht
  · rw [State.reg_setReg_ne _ _ hi] at ht
    simpa [State.valNat, State.reg_setReg_ne _ _ hi] using h i m ht

theorem elementsReduced_raw {s : State} (h : s.ElementsReduced) (rd : RegIx) (v : Value) :
    (s.setReg rd ⟨v, .raw⟩).ElementsReduced :=
  elementsReduced_setReg h rd ⟨v, .raw⟩ fun m hm => by cases hm

/-- Both operands of a two-operand field command are reduced elements of moduli of one value. -/
theorem elemRead2_reduced {s : State} (hI : s.ElementsReduced) {rs1 rs2 : RegIx} {a b : Nat} {m : ModIx}
    (h : elemRead2 s rs1 rs2 = .ok (a, b, m)) : 2 ≤ s.modNat m ∧ a < s.modNat m ∧ b < s.modNat m := by
  obtain ⟨rfl, rfl, h1, m2, h2, h3⟩ := elemRead2_ok h
  have hm : s.modNat m2 = s.modNat m := by simp only [State.modNat, h3]
  exact ⟨(hI _ _ h1).1, (hI _ _ h1).2, hm ▸ (hI _ _ h2).2⟩

/-- A command's completion with an element below its modulus. -/
theorem elementsReduced_element {s : State} (h : s.ElementsReduced) {rd : RegIx} {v : Nat} {m : ModIx} (h2 : 2 ≤ s.modNat m)
    (hv : v < s.modNat m) : (s.setReg rd ⟨toValue v, .el m⟩).finish.ElementsReduced := by
  refine elementsReduced_of_eq (elementsReduced_setReg h rd ⟨toValue v, .el m⟩ fun m' hm => ?_) rfl rfl rfl
  cases hm
  exact ⟨h2, by rw [toNat_toValue (hv.trans (modNat_lt s m))]; exact hv⟩

/-- A two-operand field command keeps elements reduced when its result is below the modulus. -/
theorem elementsReduced_two {s : State} (hI : s.ElementsReduced) {rs1 rs2 rd : RegIx} {f : Nat → Nat → ModIx → Except ErrCode Nat}
    (hf : ∀ a b m v, 2 ≤ s.modNat m → a < s.modNat m → b < s.modNat m → f a b m = .ok v → v < s.modNat m) :
    (s.complete do
      let (a, b, t) ← elemRead2 s rs1 rs2
      let v ← f a b t
      return s.setReg rd ⟨toValue v, .el t⟩).ElementsReduced := by
  cases he : elemRead2 s rs1 rs2 with
  | error e => exact elementsReduced_of_eq hI rfl rfl rfl
  | ok r =>
    obtain ⟨a, b, m⟩ := r
    obtain ⟨h1, h2, h3⟩ := elemRead2_reduced hI he
    cases hv : f a b m with
    | error e => simp only [bind, Except.bind, hv]; exact elementsReduced_of_eq hI rfl rfl rfl
    | ok v =>
      simp only [bind, Except.bind, hv]
      exact elementsReduced_element hI h1 (hf a b m v h1 h2 h3 hv)

/-- The same with one element operand. -/
theorem elementsReduced_one {s : State} (hI : s.ElementsReduced) {rs rd : RegIx} {f : Nat → ModIx → Except ErrCode Nat}
    (hf : ∀ a m v, 2 ≤ s.modNat m → a < s.modNat m → f a m = .ok v → v < s.modNat m) :
    (s.complete do
      let (a, t) ← elemRead s rs
      let v ← f a t
      return s.setReg rd ⟨toValue v, .el t⟩).ElementsReduced := by
  cases he : elemRead s rs with
  | error e => exact elementsReduced_of_eq hI rfl rfl rfl
  | ok r =>
    obtain ⟨a, m⟩ := r
    obtain ⟨rfl, ht⟩ := elemRead_ok he
    obtain ⟨h1, h2⟩ := hI _ _ ht
    cases hv : f (s.valNat rs) m with
    | error e => simp only [bind, Except.bind, hv]; exact elementsReduced_of_eq hI rfl rfl rfl
    | ok v =>
      simp only [bind, Except.bind, hv]
      exact elementsReduced_element hI h1 (hf _ m v h1 h2 hv)

theorem fpowM_lt (M b : Nat) (e : Int) (h : 0 < M) : fpowM M b e < M := by
  rw [fpowM_eq]; exact Nat.mod_lt _ h

/-- Every command keeps elements reduced. -/
theorem exec_elementsReduced {i : Instr} {s t : State} (hI : s.ElementsReduced) (h : exec i s = .next t) :
    t.ElementsReduced := by
  by_cases hd : fieldDest i = none
  · cases effect_of_exec h with
    | element rd v m h' => rw [hd] at h'; cases h'
    | raw rd v _ => exact elementsReduced_of_eq (elementsReduced_raw hI rd v) rfl rfl rfl
    | rawPair r1 r2 v1 v2 _ =>
      exact elementsReduced_of_eq (elementsReduced_raw (elementsReduced_raw hI r1 v1) r2 v2) rfl rfl rfl
    | _ => exact elementsReduced_of_eq hI rfl rfl rfl
  · cases i with
    | fnew rd rs m =>
      simp only [exec, execFnew] at h
      cases h
      split
      · exact elementsReduced_of_eq hI rfl rfl rfl
      · split
        · exact elementsReduced_of_eq hI rfl rfl rfl
        · refine elementsReduced_of_eq (elementsReduced_setReg hI rd ⟨(s.reg rs).val, .el m⟩ fun m' hm => ?_) rfl rfl rfl
          cases hm
          exact ⟨by omega, by simp only [State.valNat] at *; omega⟩
    | fadd rd rs1 rs2 =>
      cases h
      exact elementsReduced_two hI (f := fun a b t => .ok ((a + b) % s.modNat t))
        fun a b m v h1 _ _ hv => by cases hv; exact Nat.mod_lt _ (by omega)
    | fsub rd rs1 rs2 =>
      cases h
      exact elementsReduced_two hI (f := fun a b t => .ok (if a ≥ b then a - b else a + s.modNat t - b))
        fun a b m v h1 h2 h3 hv => by cases hv; split <;> omega
    | fmul rd rs1 rs2 =>
      cases h
      exact elementsReduced_two hI (f := fun a b t => .ok (a * b % s.modNat t))
        fun a b m v h1 _ _ hv => by cases hv; exact Nat.mod_lt _ (by omega)
    | fdiv rd rs1 rs2 =>
      cases h
      refine (congrArg State.ElementsReduced ?_).mpr (elementsReduced_two hI (rs1 := rs1) (rs2 := rs2) (rd := rd)
        (f := fun a b t => if b = 0 then .error .divisionByZero else .ok (fdivM (s.modNat t) a b))
        fun a b m v h1 _ _ hv => by
          split at hv
          · cases hv
          · cases hv; exact fdivM_lt _ _ _ (by omega))
      cases elemRead2 s rs1 rs2 with
      | error e => rfl
      | ok r => by_cases hb : r.2.1 = 0 <;> simp [bind, Except.bind, hb]
    | finv rd rs =>
      cases h
      refine (congrArg State.ElementsReduced ?_).mpr (elementsReduced_one hI (rs := rs) (rd := rd)
        (f := fun a t => if a = 0 then .error .divisionByZero else .ok (fpowM (s.modNat t) a (s.modNat t - 2)))
        fun a m v h1 _ hv => by
          split at hv
          · cases hv
          · cases hv; exact fpowM_lt _ _ _ (by omega))
      cases elemRead s rs with
      | error e => rfl
      | ok r => by_cases hb : r.1 = 0 <;> simp [bind, Except.bind, hb]
    | fpow rd rs re neg =>
      cases h
      refine (congrArg State.ElementsReduced ?_).mpr (elementsReduced_one hI (rs := rs) (rd := rd)
        (f := fun a t => if neg = true ∧ s.valNat re ≠ 0 ∧ a = 0 then .error .divisionByZero
          else .ok (fpowM (s.modNat t) a (signedExponent neg (s.valNat re))))
        fun a m v h1 _ hv => by
          split at hv
          · cases hv
          · cases hv; exact fpowM_lt _ _ _ (by omega))
      cases elemRead s rs with
      | error e => rfl
      | ok r =>
        by_cases hb : neg = true ∧ s.valNat re ≠ 0 ∧ r.1 = 0
        · simp only [bind, Except.bind, if_pos hb]
        · simp only [bind, Except.bind, if_neg hb]
    | fscale rd rs imm8 =>
      cases h
      exact elementsReduced_one hI (f := fun a t => .ok (a * imm8.toNat % s.modNat t))
        fun a m v h1 _ hv => by cases hv; exact Nat.mod_lt _ (by omega)
    | _ => exact absurd rfl hd

/-- A write of MOD2 or MOD3 keeps elements reduced: those of that modulus are gone (spec 10_state R30). -/
theorem elementsReduced_dropElements {s t : State} {m : ModIx} (h : s.ElementsReduced) (h1 : t.regs = s.regs)
    (h2 : ∀ m' : ModIx, m' ≠ m → t.modulus m' = s.modulus m') : (t.dropElements m).ElementsReduced := by
  intro i m' ht
  have hr : t.reg i = s.reg i := by simp only [State.reg, h1]
  have hreg := State.reg_dropElements t m i
  rw [hreg] at ht
  rw [State.dropElements_modNat]
  simp only [State.valNat, hreg]
  split at ht
  · cases ht
  · rename_i hne
    rw [if_neg hne]
    have hm : m' ≠ m := fun e => hne (e ▸ ht)
    rw [hr] at ht ⊢
    have := h i m' ht
    simp only [State.modNat, h2 m' hm]
    exact this

end Sys2Proof.Machine
end

