-- ==== Sys2Proof/Laws/Encoding.lean ====
section
/-! SUPPORT. The decoder and the encoder, field by field: a word is its fields, each field's encoding is read back, the checks of
spec 30_encoding R96 pass on it, and a decoded word's fields are those of the command it stands for. -/

namespace Sys2Proof

/-- The fields of a word made of fields are those fields (spec 30_encoding R91). -/
theorem Fields.ofWord_toWord (f : Fields) : Fields.ofWord f.toWord = f := by
  obtain ⟨op, a, b, c, d, e, x⟩ := f
  simp only [Fields.toWord, Fields.ofWord, Fields.mk.injEq]
  refine ⟨?_, ?_, ?_, ?_, ?_, ?_, ?_⟩ <;>
  · apply BitVec.eq_of_getLsbD_eq
    intro i hi
    simp only [BitVec.getLsbD_extractLsb', BitVec.getLsbD_append]
    repeat' split
    all_goals first | omega | (simp only [hi, decide_true, Bool.true_and]; congr 1; omega)

/-- A word is made of its fields (spec 30_encoding R91). -/
theorem Fields.toWord_ofWord (w : Word) : (Fields.ofWord w).toWord = w := by
  simp only [Fields.toWord, Fields.ofWord]
  apply BitVec.eq_of_getLsbD_eq
  intro i hi
  simp only [BitVec.getLsbD_extractLsb', BitVec.getLsbD_append]
  repeat' split
  all_goals (rw [decide_eq_true (by omega), Bool.true_and]; congr 1; omega)

/-! ### A field's encoding is read back -/

@[simp] theorem regIx_regField (i : RegIx) : regIx (regField i) = i := by simp [regIx, regField]
@[simp] theorem pointIx_pointField (j : PointIx) : pointIx (pointField j) = j := by revert j; decide
@[simp] theorem modIx_modField (m : ModIx) : modIx (modField m) = m := by revert m; decide
@[simp] theorem slotOf_slotField (c : Slot) : slotOf (slotField c) = c := by cases c <;> decide
@[simp] theorem negField_bit (neg : Bool) : (negField neg)[0] = neg := by cases neg <;> decide
@[simp] theorem imm8_halves (v : BitVec 8) : v.extractLsb' 4 4 ++ v.extractLsb' 0 4 = v := by revert v; decide

/-! ### The checks pass on an encoding -/

@[simp] theorem badPoint_pointField (j : PointIx) : badPoint (pointField j) = false := by revert j; decide
@[simp] theorem highX2_modField (m : ModIx) : highX2 (modField m) = false := by revert m; decide
@[simp] theorem highX1_slotField (c : Slot) : highX1 (slotField c) = false := by cases c <;> decide
@[simp] theorem highX1_negField (neg : Bool) : highX1 (negField neg) = false := by cases neg <;> decide
@[simp] theorem nonZero_zero : nonZero 0#4 = false := by decide
theorem nonZero_eq_false {n : Nibble} : nonZero n = false ↔ n = 0#4 := by simp [nonZero]

/-! ### A field that passes its check is the encoding of what is read from it -/

@[simp] theorem regField_regIx (n : Nibble) : regField (regIx n) = n := by simp [regIx, regField]
theorem pointField_pointIx {n : Nibble} : badPoint n = false → pointField (pointIx n) = n := by revert n; decide
theorem modField_modIx {n : Nibble} : highX2 n = false → modField (modIx n) = n := by revert n; decide
theorem slotField_slotOf {n : Nibble} : highX1 n = false → slotField (slotOf n) = n := by revert n; decide
theorem negField_of_bit {n : Nibble} : highX1 n = false → negField n[0] = n := by revert n; decide
theorem imm8_low (c d : Nibble) : (d ++ c).extractLsb' 0 4 = c := by revert c d; decide
theorem imm8_high (c d : Nibble) : (d ++ c).extractLsb' 4 4 = d := by revert c d; decide

/-- What an accepted word passed (spec 30_encoding R96). -/
theorem gate_ok {reserved point : Bool} {i j : Instr} (h : gate reserved point i = .ok j) :
    reserved = false ∧ point = false ∧ j = i := by
  unfold gate at h
  cases reserved <;> cases point <;> simp_all

/-- The fields of a command decode to it. -/
theorem decodeFields_encodeFields (i : Instr) : decodeFields (encodeFields i) = .ok i := by
  cases i <;> simp [encodeFields, decodeFields, gate]

/-- Fields that decode to a command are the fields of that command. -/
theorem encodeFields_of_decodeFields {f : Fields} {i : Instr} (h : decodeFields f = .ok i) : encodeFields i = f := by
  obtain ⟨op, a, b, c, d, e, x⟩ := f
  unfold decodeFields at h
  split at h
  all_goals
    rename_i hop
    first
    | (obtain ⟨h1, h2, h3⟩ := gate_ok h
       have hop' : op = BitVec.ofNat 8 op.toNat := by simp
       simp only at hop
       rw [hop] at hop'
       subst h3
       simp only [Bool.or_eq_false_iff, nonZero_eq_false] at h1 h2
       simp_all [encodeFields, pointField_pointIx, modField_modIx, slotField_slotOf, negField_of_bit, imm8_low, imm8_high])
    | cases h

end Sys2Proof
end

