-- ==== Sys2Proof/Laws/Points.lean ====
section
/-! SUPPORT. Points stay reduced and, for a prime modulus, on their curve (spec 10_state R25, 42_point R176): what keeps
State.PointsReduced and State.PointsOnCurve. -/

namespace Sys2Proof.Machine

/-! ### The third point of a line (spec 42_point R176) -/

/-- On y² = x³ + a·x + b, the line with slope σ through (x1, y1) whose other meeting point has x coordinate x2 meets the curve again at
x3 = σ² − x1 − x2; `hk` says what it means for x2 to be that coordinate. -/
theorem line_third {F : Type} [CommRing F] {a b x1 y1 x2 x3 y3 σ : F} (h1 : y1 ^ 2 = x1 ^ 3 + a * x1 + b)
    (hk : σ * (2 * y1 + σ * (x2 - x1)) = x1 ^ 2 + x1 * x2 + x2 ^ 2 + a) (h3 : x3 = σ ^ 2 - x1 - x2)
    (h4 : y3 = σ * (x1 - x3) - y1) : y3 ^ 2 = x3 ^ 3 + a * x3 + b := by
  subst h4 h3
  linear_combination h1 + (σ ^ 2 - x1 - x2 - x1) * hk

/-- The slope of a chord between two points of the curve. -/
theorem chord_meets {F : Type} [Field F] {a b x1 y1 x2 y2 σ : F} (h1 : y1 ^ 2 = x1 ^ 3 + a * x1 + b)
    (h2 : y2 ^ 2 = x2 ^ 3 + a * x2 + b) (hx : x2 - x1 ≠ 0) (hσ : σ * (x2 - x1) = y2 - y1) :
    σ * (2 * y1 + σ * (x2 - x1)) = x1 ^ 2 + x1 * x2 + x2 ^ 2 + a := by
  apply mul_left_cancel₀ hx
  have hy : y2 = y1 + σ * (x2 - x1) := by linear_combination -hσ
  subst hy
  linear_combination h2 - h1

/-- The slope of a tangent. -/
theorem tangent_meets {F : Type} [CommRing F] {a x y σ : F} (hσ : σ * (2 * y) = 3 * x ^ 2 + a) :
    σ * (2 * y + σ * (x - x)) = x ^ 2 + x * x + x ^ 2 + a := by
  linear_combination hσ

theorem natCast_zmod_ne_zero {p v : Nat} (h1 : v < p) (h2 : v ≠ 0) : (v : ZMod p) ≠ 0 := by
  rw [Ne, ZMod.natCast_eq_zero_iff]
  exact fun h => h2 (Nat.eq_zero_of_dvd_of_lt h h1)

/-- The chord of two reduced points of a curve with a prime modulus ends on the curve. -/
theorem chord_onCurve {cv : Curve} {c : Slot} {p σ x1 y1 x2 : Nat} {x3 y3 : Value} (hp : cv.p.toNat = p) (h0 : 0 < p)
    (h1 : (y1 : ZMod p) ^ 2 = (x1 : ZMod p) ^ 3 + cv.a.toNat * x1 + cv.b.toNat)
    (hk : (σ : ZMod p) * (2 * y1 + σ * ((x2 : ZMod p) - x1)) = (x1 : ZMod p) ^ 2 + x1 * x2 + x2 ^ 2 + cv.a.toNat)
    (h : chord c p σ x1 y1 x2 = .aff c x3 y3) : onCurve cv x3 y3 = true := by
  obtain ⟨x, y, e, -, -, ex, ey⟩ := chord_spec c p σ x1 y1 x2 h0 (hp ▸ cv.p.isLt)
  rw [h] at e
  cases e
  rw [onCurve_zmod cv _ _ (hp ▸ h0), hp]
  exact line_third h1 hk ex ey

/-- The curve equation depends on p, a and b alone. -/
theorem onCurve_of_params {c1 c2 : Curve} (h : c1.params = c2.params) (x y : Value) : onCurve c1 x y = onCurve c2 x y := by
  obtain ⟨p, a, b, _, _⟩ := c1
  obtain ⟨p', a', b', _, _⟩ := c2
  simp only [Curve.params, Prod.mk.injEq] at h
  obtain ⟨rfl, rfl, rfl⟩ := h
  rfl

/-- The sum of two points on their curve is on its curve. -/
theorem pointAdd_onCurve {s : State} {P Q R : Point} (hP : s.PointReduced P) (hQ : s.PointReduced Q)
    (oP : s.PointOnCurve P) (oQ : s.PointOnCurve Q) (h : pointAdd s.curve P Q = .ok R) : s.PointOnCurve R := by
  cases P with
  | inf => rw [pointAdd_inf_left] at h; cases h; exact oQ
  | aff c1 x1 y1 =>
    cases Q with
    | inf => rw [pointAdd_inf_right] at h; cases h; exact oP
    | aff c2 x2 y2 =>
      by_cases hc : (s.curve c1).params = (s.curve c2).params
      swap
      · rw [pointAdd_mismatch hc] at h; cases h
      have hpp : (s.curve c1).p = (s.curve c2).p := congrArg (·.1) hc
      obtain ⟨-, hx1, hy1⟩ := hP
      obtain ⟨-, hx2, -⟩ := hQ
      rw [← hpp] at hx2
      generalize hp : (s.curve c1).p.toNat = p at *
      have h0 : 0 < p := by omega
      by_cases hx : x1 = x2
      · subst hx
        by_cases hy : y1 ≠ y2 ∨ y1.toNat = 0
        · rw [pointAdd_opposite hc rfl hy] at h; cases h; trivial
        · rw [not_or, not_not] at hy
          obtain ⟨rfl, hy⟩ := hy
          rw [pointAdd_double hc hy, hp] at h
          split at h
          · cases h
          · rename_i σ hσ
            obtain ⟨x3, y3, e⟩ := chord_aff c1 p σ x1.toNat y1.toNat x1.toNat
            rw [e] at h
            cases h
            intro hprime
            rw [hp] at hprime
            have := Fact.mk hprime
            have o1 := (onCurve_zmod (s.curve c1) x1 y1 (hp ▸ h0)).1 (oP (hp ▸ hprime))
            rw [hp] at o1
            by_cases hd : residue (2 * y1.toNat : Nat) p = 0
            · rw [hd, slope_zero] at hσ; cases hσ
            · rw [slope_ok hd] at hσ
              have hz := natCast_zmod_ne_zero (residue_lt _ h0) hd
              refine chord_onCurve hp h0 o1 (tangent_meets ?_) e
              cases hσ
              rw [fdivM_zmod p _ _ hz]
              rw [residue_zmod _ h0] at hz ⊢
              rw [residue_zmod _ h0]
              push_cast at hz ⊢
              rw [div_mul_cancel₀ _ hz]
              ring
      · rw [pointAdd_chord hc hx, hp] at h
        have hd := chord_divisor_ne_zero hx1 hx2 hx
        rw [slope_ok hd] at h
        obtain ⟨x3, y3, e⟩ := chord_aff c1 p
          (fdivM p (residue ((y2.toNat : Int) - y1.toNat) p) (residue ((x2.toNat : Int) - x1.toNat) p))
          x1.toNat y1.toNat x2.toNat
        simp only [e] at h
        cases h
        intro hprime
        rw [hp] at hprime
        have := Fact.mk hprime
        have o1 := (onCurve_zmod (s.curve c1) x1 y1 (hp ▸ h0)).1 (oP (hp ▸ hprime))
        have o2 := oQ (hpp ▸ hp ▸ hprime)
        rw [← onCurve_of_params hc, onCurve_zmod _ _ _ (hp ▸ h0)] at o2
        rw [hp] at o1 o2
        have hz := natCast_zmod_ne_zero (residue_lt _ h0) hd
        have hσ := fdivM_zmod p (residue ((y2.toNat : Int) - y1.toNat) p) _ hz
        rw [residue_zmod _ h0] at hz hσ
        rw [residue_zmod _ h0] at hσ
        push_cast at hz hσ
        refine chord_onCurve hp h0 o1 (chord_meets o1 o2 hz ?_) e
        rw [hσ, div_mul_cancel₀ _ hz]

/-- A reduced point on its curve. -/
def State.GoodPoint (s : State) (P : Point) : Prop := s.PointReduced P ∧ s.PointOnCurve P

theorem pointAdd_good {s : State} {P Q R : Point} (hP : s.GoodPoint P) (hQ : s.GoodPoint Q)
    (h : pointAdd s.curve P Q = .ok R) : s.GoodPoint R :=
  ⟨pointAdd_reduced hP.1 hQ.1 h, pointAdd_onCurve hP.1 hQ.1 hP.2 hQ.2 h⟩

theorem good_inf (s : State) : s.GoodPoint .inf := ⟨trivial, trivial⟩

theorem Mul.loop_good {s : State} {n : Nat} {m m' : Mul} (h : Mul.loop s.curve n m = .ok m') (h1 : s.GoodPoint m.result)
    (h2 : s.GoodPoint m.current) : s.GoodPoint m'.result ∧ s.GoodPoint m'.current := by
  refine Mul.loop_keeps (I := fun m => s.GoodPoint m.result ∧ s.GoodPoint m.current) (fun m m' hm hi => ?_) n h ⟨h1, h2⟩
  obtain ⟨-, -, -, hr, hc⟩ := Mul.iterate_ok hi
  refine ⟨?_, pointAdd_good hm.2 hm.2 hc⟩
  split at hr
  · exact pointAdd_good hm.1 hm.2 hr
  · rw [hr]; exact hm.1

theorem pointMul_good {s : State} {P R : Point} {k : Nat} (hP : s.GoodPoint P) (h : pointMul s.curve P k = .ok R) :
    s.GoodPoint R := by
  obtain ⟨m, hm, rfl⟩ := pointMul_ok_iff.1 h
  exact (Mul.loop_good hm (good_inf s) hP).1

/-- G lies on its curve (spec 10_state R28). -/
theorem generator_good (s : State) : s.GoodPoint generator :=
  ⟨generator_reduced s, fun _ => (by decide +kernel : onCurve (State.reset.curve .s0) Config.gx0 Config.gy0 = true)⟩

theorem newPoint_good {s : State} {c : Slot} {x y : Value} {P : Point} (h : newPoint s c x y = .ok P) : s.GoodPoint P := by
  obtain ⟨rfl, h1, h2, h3, h4⟩ := newPoint_ok h
  exact ⟨⟨h1, h2, h3⟩, fun _ => h4⟩

/-! ### The point registers -/

/-- The curve parameters are all that counts. -/
theorem pointReduced_of_eq {s t : State} {P : Point} (h : s.PointReduced P) (h1 : t.mod2 = s.mod2) (h2 : t.a1 = s.a1)
    (h3 : t.b1 = s.b1) : t.PointReduced P := by
  cases P with
  | inf => trivial
  | aff c x y =>
    cases c with
    | s0 => exact h
    | s1 => simpa only [State.PointReduced, curveCheck, State.curve, h1, h2, h3] using h

theorem pointOnCurve_of_eq {s t : State} {P : Point} (h : s.PointOnCurve P) (h1 : t.mod2 = s.mod2) (h2 : t.a1 = s.a1)
    (h3 : t.b1 = s.b1) : t.PointOnCurve P := by
  cases P with
  | inf => trivial
  | aff c x y =>
    cases c with
    | s0 => exact h
    | s1 =>
      intro hp
      rw [onCurve_of_params (show (t.curve .s1).params = (s.curve .s1).params by
        simp only [Curve.params, State.curve, h1, h2, h3])]
      exact h (by simpa only [State.curve, h1] using hp)

theorem good_of_eq {s t : State} {P : Point} (h : s.GoodPoint P) (h1 : t.mod2 = s.mod2) (h2 : t.a1 = s.a1)
    (h3 : t.b1 = s.b1) : t.GoodPoint P :=
  ⟨pointReduced_of_eq h.1 h1 h2 h3, pointOnCurve_of_eq h.2 h1 h2 h3⟩

/-- A property of point values that the curve parameters decide and every point operation keeps: being reduced, or being reduced and on
the curve. -/
structure PointProperty (p : State → Point → Prop) : Prop where
  of_eq : ∀ {s t : State} {P : Point}, p s P → t.mod2 = s.mod2 → t.a1 = s.a1 → t.b1 = s.b1 → p t P
  s0 : ∀ {s t : State} {P : Point}, (P = .inf ∨ ∃ x y : Value, P = .aff .s0 x y) → p s P → p t P
  inf : ∀ s : State, p s .inf
  new : ∀ {s : State} {c : Slot} {x y : Value} {P : Point}, newPoint s c x y = .ok P → p s P
  gen : ∀ s : State, p s generator
  add : ∀ {s : State} {P Q R : Point}, p s P → p s Q → pointAdd s.curve P Q = .ok R → p s R
  loop : ∀ {s : State} {n : Nat} {m m' : Mul}, Mul.loop s.curve n m = .ok m' → p s m.result → p s m.current → p s m'.result

theorem reduced_property : PointProperty State.PointReduced where
  of_eq := pointReduced_of_eq
  s0 := by
    rintro s t P (rfl | ⟨x, y, rfl⟩) h
    · trivial
    · exact h
  inf := fun _ => trivial
  new := fun h => (newPoint_good h).1
  gen := generator_reduced
  add := pointAdd_reduced
  loop := fun h h1 h2 => (Mul.loop_reduced h h1 h2).1

theorem good_property : PointProperty State.GoodPoint where
  of_eq := good_of_eq
  s0 := by
    rintro s t P (rfl | ⟨x, y, rfl⟩) h
    · exact good_inf t
    · exact h
  inf := good_inf
  new := newPoint_good
  gen := generator_good
  add := pointAdd_good
  loop := fun h h1 h2 => (Mul.loop_good h h1 h2).1

/-- Every point register that holds a point holds one with the property. -/
def State.AllPoints (p : State → Point → Prop) (s : State) : Prop := ∀ (j : PointIx) (P : Point), s.point j = some P → p s P

variable {p : State → Point → Prop}

theorem allPoints_of_eq (hp : PointProperty p) {s t : State} (h : s.AllPoints p) (h0 : t.points = s.points) (h1 : t.mod2 = s.mod2)
    (h2 : t.a1 = s.a1) (h3 : t.b1 = s.b1) : t.AllPoints p := by
  intro j P hj
  have hr : t.point j = s.point j := by simp only [State.point, h0]
  exact hp.of_eq (h j P (hr ▸ hj)) h1 h2 h3

theorem allPoints_setPoint (hp : PointProperty p) {s : State} (h : s.AllPoints p) (pd : PointIx) {R : Point} (hR : p s R) :
    (s.setPoint pd R).finish.AllPoints p := by
  intro j P hj
  rw [State.finish_point, State.point_setPoint] at hj
  split at hj
  · cases hj; exact hp.of_eq hR rfl rfl rfl
  · exact hp.of_eq (h j P hj) rfl rfl rfl

/-- A write of MOD2, A1 or B1 keeps the property: the points of slot 1 are gone (spec 10_state R30). -/
theorem allPoints_dropPoints (hp : PointProperty p) {s t : State} (h : s.AllPoints p) (h0 : t.points = s.points) :
    t.dropPoints.AllPoints p := by
  intro j P hj
  rw [State.point_dropPoints] at hj
  obtain ⟨h1, h2⟩ := dropSlot1_eq_some hj
  have hr : t.point j = s.point j := by simp only [State.point, h0]
  exact hp.s0 h2 (h j P (hr ▸ h1))

/-- The working values of a multiplication under way. -/
theorem LoopConsistent.mul {s : State} {m : Mul} (h : s.LoopConsistent) (hw : s.work = .mul m) :
    m.iters ≤ bitlen m.k ∧
      ∃ P : Point, s.multiplies P m.k m.earlier ∧ Mul.loop s.curve m.iters (Mul.start P m.k m.earlier) = .ok m := by
  unfold State.work at hw
  split at hw
  · cases hw
  · rename_i b w hp
    subst hw
    exact (h.2 b m hp).2

theorem multiply_allPoints (hp : PointProperty p) {s : State} {P : Point} {k : Nat} {pd : PointIx} (h : s.AllPoints p)
    (hm : ∀ m : Mul, s.work = .mul m → p s m.result) :
    (multiply s P k fun R => (s.setPoint pd R).finish).AllPoints p := by
  cases hw : s.work with
  | mul m =>
    rw [multiply_goes_on hw]
    unfold mulStep
    split
    · split
      · exact allPoints_of_eq hp h rfl rfl rfl rfl
      · exact allPoints_of_eq hp h rfl rfl rfl rfl
    · exact allPoints_setPoint hp h pd (hm m hw)
  | fresh => rw [multiply_begins hw]; exact allPoints_of_eq hp h rfl rfl rfl rfl
  | gen g => simp only [multiply, hw]; exact allPoints_of_eq hp h rfl rfl rfl rfl

/-- Every command keeps the property of the point registers. -/
theorem exec_allPoints (hp : PointProperty p) {i : Instr} {s t : State} (hd : decode s.cmd = .ok i) (hL : s.LoopConsistent)
    (hI : s.AllPoints p) (h : exec i s = .next t) : t.AllPoints p := by
  have keep : ∀ u : State, u.points = s.points → u.mod2 = s.mod2 → u.a1 = s.a1 → u.b1 = s.b1 → u.AllPoints p :=
    fun u h0 h1 h2 h3 => allPoints_of_eq hp hI h0 h1 h2 h3
  by_cases hpd : pointDest i = none
  · cases effect_of_exec h with
    | point pd P h' => rw [hpd] at h'; cases h'
    | _ => exact keep _ rfl rfl rfl rfl
  · cases i with
    | pinf pd => cases h; exact allPoints_setPoint hp hI pd (hp.inf s)
    | pnew pd rx ry c =>
      simp only [exec, execPnew] at h
      cases h
      cases hn : newPoint s c (s.reg rx).val (s.reg ry).val with
      | error e => exact keep _ rfl rfl rfl rfl
      | ok P => exact allPoints_setPoint hp hI pd (hp.new hn)
    | pgen pd c =>
      simp only [exec, execPgen] at h
      cases h
      cases c with
      | s0 => exact allPoints_setPoint hp hI pd (hp.gen s)
      | s1 =>
        simp only [slotGenerator]
        cases hn : newPoint s .s1 s.gx1 s.gy1 with
        | error e => exact keep _ rfl rfl rfl rfl
        | ok P => exact allPoints_setPoint hp hI pd (hp.new hn)
    | padd pd ps1 ps2 =>
      simp only [exec, execPadd] at h
      cases h
      cases h1 : pointRead s ps1 with
      | error e => exact keep _ rfl rfl rfl rfl
      | ok P =>
        cases h2 : pointRead s ps2 with
        | error e => exact keep _ rfl rfl rfl rfl
        | ok Q =>
          simp only [bind, Except.bind]
          cases h3 : pointAdd s.curve P Q with
          | error e => exact keep _ rfl rfl rfl rfl
          | ok R => exact allPoints_setPoint hp hI pd (hp.add (hI _ _ (pointRead_ok h1)) (hI _ _ (pointRead_ok h2)) h3)
    | pmul pd ps rk =>
      cases hps : s.point ps with
      | none =>
        simp only [exec, execPmul, pointRead_none hps] at h
        cases h
        exact keep _ rfl rfl rfl rfl
      | some P =>
        rw [exec_pmul hps] at h
        cases h
        refine multiply_allPoints hp hI fun m hw => ?_
        obtain ⟨-, Q, hQ, hl⟩ := LoopConsistent.mul hL hw
        simp only [State.multiplies, State.latched, hd] at hQ
        exact hp.loop hl (hp.inf s) (hI _ _ hQ.1)
    | pubkey pd re =>
      rw [exec_pubkey] at h
      cases h
      refine multiply_allPoints hp hI fun m hw => ?_
      obtain ⟨-, Q, hQ, hl⟩ := LoopConsistent.mul hL hw
      simp only [State.multiplies, State.latched, hd] at hQ
      refine hp.loop hl (hp.inf s) ?_
      rw [hQ.1]
      exact hp.gen s
    | _ => exact absurd rfl hpd

end Sys2Proof.Machine
end

