-- ==== Sys2Proof/Laws/Primes.lean ====
section
/-! SUPPORT. The secp256k1 modulus p and order n (spec 10_state R28) are prime: certificates of Pratt, checked with the exponentiation of
spec 41_field R137. -/

namespace Sys2Proof.Machine

/-- a^(N − 1) = 1 and a^((N − 1)/q) ≠ 1 mod N for every q of the list. -/
def lucasTest (N a : Nat) (qs : List Nat) : Bool :=
  powLoop N a (N - 1) (bitlen (N - 1)) (1 % N) == 1 % N &&
    qs.all fun q => powLoop N a ((N - 1) / q) (bitlen ((N - 1) / q)) (1 % N) != 1 % N

theorem powLoop_bitlen (M b e : Nat) : powLoop M b e (bitlen e) (1 % M) = b ^ e % M :=
  powLoop_eq M b e (bitlen e) (1 % M)
    (by rw [Nat.shiftRight_eq_div_pow, Nat.div_eq_of_lt (lt_two_pow_bitlen e), pow_zero])

/-- A number is prime when all the prime factors of N − 1 pass the test. -/
theorem prime_of_lucasTest {N a : Nat} {qs : List Nat} (hq : ∀ q ∈ qs, q.Prime) (hN : qs.prod = N - 1)
    (h : lucasTest N a qs = true) : N.Prime := by
  simp only [lucasTest, Bool.and_eq_true, beq_iff_eq, List.all_eq_true, bne_iff_ne, powLoop_bitlen] at h
  have cast : ∀ e : Nat, ((a : ZMod N) ^ e = 1 ↔ a ^ e % N = 1 % N) := fun e => by
    rw [← Nat.cast_pow, ← Nat.cast_one, ZMod.natCast_eq_natCast_iff]
    rfl
  refine lucas_primality N a ((cast _).2 h.1) fun q hq1 hq2 => ?_
  rw [Ne, cast]
  rw [← hN] at hq2
  obtain ⟨r, hr, hd⟩ := (Nat.Prime.prime hq1).dvd_prod_iff.1 hq2
  rw [(Nat.prime_dvd_prime_iff_eq hq1 (hq r hr)).1 hd]
  exact h.2 r hr

theorem prime_1206781 : Nat.Prime 1206781 := by
  refine prime_of_lucasTest (a := 10) (qs := [
    2, 2, 3, 5, 20113]) ?_ (by decide +kernel) (by decide +kernel)
  simp only [List.mem_cons, List.not_mem_nil, or_false, forall_eq_or_imp, forall_eq]
  exact ⟨by norm_num, by norm_num, by norm_num, by norm_num, by norm_num⟩

theorem prime_7240687 : Nat.Prime 7240687 := by
  refine prime_of_lucasTest (a := 3) (qs := [
    2, 3, 1206781]) ?_ (by decide +kernel) (by decide +kernel)
  simp only [List.mem_cons, List.not_mem_nil, or_false, forall_eq_or_imp, forall_eq]
  exact ⟨by norm_num, by norm_num, prime_1206781⟩

theorem prime_107590001 : Nat.Prime 107590001 := by
  refine prime_of_lucasTest (a := 3) (qs := [
    2, 2, 2, 2, 5, 5, 5, 5, 7, 29, 53]) ?_ (by decide +kernel) (by decide +kernel)
  simp only [List.mem_cons, List.not_mem_nil, or_false, forall_eq_or_imp, forall_eq]
  exact ⟨by norm_num, by norm_num, by norm_num, by norm_num, by norm_num, by norm_num, by norm_num, by norm_num,
    by norm_num, by norm_num, by norm_num⟩

theorem prime_255515944373312847190720520512484175977 : Nat.Prime 255515944373312847190720520512484175977 := by
  refine prime_of_lucasTest (a := 3) (qs := [
    2, 2, 2, 7, 7, 11, 1627, 2657, 4423, 41201, 96557, 7240687, 107590001]) ?_ (by decide +kernel) (by decide +kernel)
  simp only [List.mem_cons, List.not_mem_nil, or_false, forall_eq_or_imp, forall_eq]
  exact ⟨by norm_num, by norm_num, by norm_num, by norm_num, by norm_num, by norm_num, by norm_num, by norm_num,
    by norm_num, by norm_num, by norm_num, prime_7240687, prime_107590001⟩

theorem prime_13331831 : Nat.Prime 13331831 := by
  refine prime_of_lucasTest (a := 13) (qs := [
    2, 5, 971, 1373]) ?_ (by decide +kernel) (by decide +kernel)
  simp only [List.mem_cons, List.not_mem_nil, or_false, forall_eq_or_imp, forall_eq]
  exact ⟨by norm_num, by norm_num, by norm_num, by norm_num⟩

theorem prime_173378833005251801 : Nat.Prime 173378833005251801 := by
  refine prime_of_lucasTest (a := 6) (qs := [
    2, 2, 2, 5, 5, 2621, 24809, 13331831]) ?_ (by decide +kernel) (by decide +kernel)
  simp only [List.mem_cons, List.not_mem_nil, or_false, forall_eq_or_imp, forall_eq]
  exact ⟨by norm_num, by norm_num, by norm_num, by norm_num, by norm_num, by norm_num, by norm_num, prime_13331831⟩

theorem prime_22149492674086928081353 : Nat.Prime 22149492674086928081353 := by
  refine prime_of_lucasTest (a := 5) (qs := [
    2, 2, 2, 3, 5323, 173378833005251801]) ?_ (by decide +kernel) (by decide +kernel)
  simp only [List.mem_cons, List.not_mem_nil, or_false, forall_eq_or_imp, forall_eq]
  exact ⟨by norm_num, by norm_num, by norm_num, by norm_num, by norm_num, prime_173378833005251801⟩

theorem prime_132896956044521568488119 : Nat.Prime 132896956044521568488119 := by
  refine prime_of_lucasTest (a := 6) (qs := [
    2, 3, 22149492674086928081353]) ?_ (by decide +kernel) (by decide +kernel)
  simp only [List.mem_cons, List.not_mem_nil, or_false, forall_eq_or_imp, forall_eq]
  exact ⟨by norm_num, by norm_num, prime_22149492674086928081353⟩

theorem prime_of_mod0 : Nat.Prime 205115282021455665897114700593932402728804164701536103180137503955397371 := by
  refine prime_of_lucasTest (a := 10) (qs := [
    2, 3, 5, 29, 29, 31, 7723, 132896956044521568488119, 255515944373312847190720520512484175977]) ?_ (by decide +kernel) (by decide +kernel)
  simp only [List.mem_cons, List.not_mem_nil, or_false, forall_eq_or_imp, forall_eq]
  exact ⟨by norm_num, by norm_num, by norm_num, by norm_num, by norm_num, by norm_num, by norm_num,
    prime_132896956044521568488119, prime_255515944373312847190720520512484175977⟩

/-- p is prime. -/
theorem mod0_prime : Config.mod0.toNat.Prime := by
  refine prime_of_lucasTest (a := 3) (qs := [
    2, 3, 7, 13441, 205115282021455665897114700593932402728804164701536103180137503955397371]) ?_ (by decide +kernel) (by decide +kernel)
  simp only [List.mem_cons, List.not_mem_nil, or_false, forall_eq_or_imp, forall_eq]
  exact ⟨by norm_num, by norm_num, by norm_num, by norm_num, prime_of_mod0⟩

theorem prime_44706919 : Nat.Prime 44706919 := by
  refine prime_of_lucasTest (a := 6) (qs := [
    2, 3, 797, 9349]) ?_ (by decide +kernel) (by decide +kernel)
  simp only [List.mem_cons, List.not_mem_nil, or_false, forall_eq_or_imp, forall_eq]
  exact ⟨by norm_num, by norm_num, by norm_num, by norm_num⟩

theorem prime_120233 : Nat.Prime 120233 := by
  refine prime_of_lucasTest (a := 3) (qs := [
    2, 2, 2, 7, 19, 113]) ?_ (by decide +kernel) (by decide +kernel)
  simp only [List.mem_cons, List.not_mem_nil, or_false, forall_eq_or_imp, forall_eq]
  exact ⟨by norm_num, by norm_num, by norm_num, by norm_num, by norm_num, by norm_num⟩

theorem prime_174723607534414371449 : Nat.Prime 174723607534414371449 := by
  refine prime_of_lucasTest (a := 3) (qs := [
    2, 2, 2, 17, 59, 4051, 120233, 44706919]) ?_ (by decide +kernel) (by decide +kernel)
  simp only [List.mem_cons, List.not_mem_nil, or_false, forall_eq_or_imp, forall_eq]
  exact ⟨by norm_num, by norm_num, by norm_num, by norm_num, by norm_num, by norm_num, prime_120233, prime_44706919⟩

theorem prime_4681609 : Nat.Prime 4681609 := by
  refine prime_of_lucasTest (a := 23) (qs := [
    2, 2, 2, 3, 97, 2011]) ?_ (by decide +kernel) (by decide +kernel)
  simp only [List.mem_cons, List.not_mem_nil, or_false, forall_eq_or_imp, forall_eq]
  exact ⟨by norm_num, by norm_num, by norm_num, by norm_num, by norm_num, by norm_num⟩

theorem prime_107361793816595537 : Nat.Prime 107361793816595537 := by
  refine prime_of_lucasTest (a := 3) (qs := [
    2, 2, 2, 2, 16699, 85831, 4681609]) ?_ (by decide +kernel) (by decide +kernel)
  simp only [List.mem_cons, List.not_mem_nil, or_false, forall_eq_or_imp, forall_eq]
  exact ⟨by norm_num, by norm_num, by norm_num, by norm_num, by norm_num, by norm_num, prime_4681609⟩

theorem prime_305873 : Nat.Prime 305873 := by
  refine prime_of_lucasTest (a := 3) (qs := [
    2, 2, 2, 2, 7, 2731]) ?_ (by decide +kernel) (by decide +kernel)
  simp only [List.mem_cons, List.not_mem_nil, or_false, forall_eq_or_imp, forall_eq]
  exact ⟨by norm_num, by norm_num, by norm_num, by norm_num, by norm_num, by norm_num⟩

theorem prime_1627771 : Nat.Prime 1627771 := by
  refine prime_of_lucasTest (a := 3) (qs := [
    2, 3, 5, 29, 1871]) ?_ (by decide +kernel) (by decide +kernel)
  simp only [List.mem_cons, List.not_mem_nil, or_false, forall_eq_or_imp, forall_eq]
  exact ⟨by norm_num, by norm_num, by norm_num, by norm_num, by norm_num⟩

theorem prime_297159362677 : Nat.Prime 297159362677 := by
  refine prime_of_lucasTest (a := 2) (qs := [
    2, 2, 3, 3, 11, 461, 1627771]) ?_ (by decide +kernel) (by decide +kernel)
  simp only [List.mem_cons, List.not_mem_nil, or_false, forall_eq_or_imp, forall_eq]
  exact ⟨by norm_num, by norm_num, by norm_num, by norm_num, by norm_num, by norm_num, prime_1627771⟩

theorem prime_545358713 : Nat.Prime 545358713 := by
  refine prime_of_lucasTest (a := 5) (qs := [
    2, 2, 2, 41, 59, 28181]) ?_ (by decide +kernel) (by decide +kernel)
  simp only [List.mem_cons, List.not_mem_nil, or_false, forall_eq_or_imp, forall_eq]
  exact ⟨by norm_num, by norm_num, by norm_num, by norm_num, by norm_num, by norm_num⟩

theorem prime_29047611873442575647497758179 : Nat.Prime 29047611873442575647497758179 := by
  refine prime_of_lucasTest (a := 2) (qs := [
    2, 293, 305873, 545358713, 297159362677]) ?_ (by decide +kernel) (by decide +kernel)
  simp only [List.mem_cons, List.not_mem_nil, or_false, forall_eq_or_imp, forall_eq]
  exact ⟨by norm_num, by norm_num, prime_305873, prime_545358713, prime_297159362677⟩

theorem prime_341948486974166000522343609283189 : Nat.Prime 341948486974166000522343609283189 := by
  refine prime_of_lucasTest (a := 2) (qs := [
    2, 2, 3, 3, 3, 109, 29047611873442575647497758179]) ?_ (by decide +kernel) (by decide +kernel)
  simp only [List.mem_cons, List.not_mem_nil, or_false, forall_eq_or_imp, forall_eq]
  exact ⟨by norm_num, by norm_num, by norm_num, by norm_num, by norm_num, by norm_num,
    prime_29047611873442575647497758179⟩

/-- n is prime. -/
theorem mod1_prime : Config.mod1.toNat.Prime := by
  refine prime_of_lucasTest (a := 7) (qs := [
    2, 2, 2, 2, 2, 2, 3, 149, 631, 107361793816595537, 174723607534414371449,
    341948486974166000522343609283189]) ?_ (by decide +kernel) (by decide +kernel)
  simp only [List.mem_cons, List.not_mem_nil, or_false, forall_eq_or_imp, forall_eq]
  exact ⟨by norm_num, by norm_num, by norm_num, by norm_num, by norm_num, by norm_num, by norm_num, by norm_num,
    by norm_num, prime_107361793816595537, prime_174723607534414371449,
    prime_341948486974166000522343609283189⟩

end Sys2Proof.Machine
end

