-- ==== Sys2Proof/Laws/Group.lean ====
section
/-! SUPPORT. The adder and the scalar multiplier are those of the group of a Weierstrass curve over the integers mod a prime p > 2
(spec 42_point R176, R180, R181), and G has order n (spec 10_state R28). -/

namespace Sys2Proof.Machine

open WeierstrassCurve.Affine

/-- y² = x³ + a·x + b over the integers mod p. -/
abbrev curveOver (p a b : Nat) : WeierstrassCurve.Affine (ZMod p) := ⟨0, 0, 0, a, b⟩

variable {p a b : Nat}

/-- The point values of one curve, with coordinates below p. -/
def OfCurve (curve : Slot → Curve) (p a b : Nat) (P : Point) : Prop :=
  ∀ (c : Slot) (x y : Value), P = .aff c x y →
    (curve c).p.toNat = p ∧ (curve c).a.toNat = a ∧ (curve c).b.toNat = b ∧ x.toNat < p ∧ y.toNat < p

/-- A point value stands for a group element. -/
def StandsFor (P : Point) (A : (curveOver p a b).Point) : Prop :=
  match P, A with
  | .inf, .zero => True
  | .aff _ x y, .some x' y' _ => (x.toNat : ZMod p) = x' ∧ (y.toNat : ZMod p) = y'
  | .inf, .some _ _ _ => False
  | .aff _ _ _, .zero => False

theorem standsFor_inf : StandsFor .inf (0 : (curveOver p a b).Point) := trivial

theorem standsFor_inf_iff {A : (curveOver p a b).Point} : StandsFor .inf A ↔ A = 0 := by
  cases A with
  | zero => exact ⟨fun _ => rfl, fun _ => trivial⟩
  | some x y h => exact ⟨fun h' => h'.elim, fun h' => absurd h' (by simp)⟩

theorem natCast_inj_of_lt {v w : Nat} (hv : v < p) (hw : w < p) (h : (v : ZMod p) = w) : v = w := by
  have h' := (ZMod.natCast_eq_natCast_iff v w p).1 h
  unfold Nat.ModEq at h'
  rwa [Nat.mod_eq_of_lt hv, Nat.mod_eq_of_lt hw] at h'

theorem value_eq_of_cast {v w : Value} (hv : v.toNat < p) (hw : w.toNat < p) (h : (v.toNat : ZMod p) = w.toNat) : v = w :=
  BitVec.eq_of_toNat_eq (natCast_inj_of_lt hv hw h)

/-- Two values that stand for one element are INF both or have equal coordinates. -/
theorem standsFor_unique {curve : Slot → Curve} {P Q : Point} {A : (curveOver p a b).Point} (hP : OfCurve curve p a b P)
    (hQ : OfCurve curve p a b Q) (h1 : StandsFor P A) (h2 : StandsFor Q A) :
    (P = .inf ∧ Q = .inf) ∨ ∃ (c1 c2 : Slot) (x y : Value), P = .aff c1 x y ∧ Q = .aff c2 x y := by
  cases P with
  | inf =>
    cases Q with
    | inf => exact .inl ⟨rfl, rfl⟩
    | aff c x y => rw [standsFor_inf_iff.1 h1] at h2; exact h2.elim
  | aff c1 x1 y1 =>
    cases Q with
    | inf => rw [standsFor_inf_iff.1 h2] at h1; exact h1.elim
    | aff c2 x2 y2 =>
      cases A with
      | zero => exact h1.elim
      | some x y h =>
        obtain ⟨-, -, -, hx1, hy1⟩ := hP _ _ _ rfl
        obtain ⟨-, -, -, hx2, hy2⟩ := hQ _ _ _ rfl
        have ex := value_eq_of_cast hx1 hx2 (h1.1.trans h2.1.symm)
        have ey := value_eq_of_cast hy1 hy2 (h1.2.trans h2.2.symm)
        subst ex ey
        exact .inr ⟨c1, c2, x1, y1, rfl, rfl⟩

/-- Two values that stand for one element are equal as PEQ decides it (spec 42_point R184). -/
theorem standsFor_pointEq {curve : Slot → Curve} {P Q : Point} {A : (curveOver p a b).Point} (hP : OfCurve curve p a b P)
    (hQ : OfCurve curve p a b Q) (h1 : StandsFor P A) (h2 : StandsFor Q A) : pointEq curve P Q = true := by
  rcases standsFor_unique hP hQ h1 h2 with ⟨rfl, rfl⟩ | ⟨c1, c2, x, y, rfl, rfl⟩
  · rfl
  · obtain ⟨p1, a1, b1, -, -⟩ := hP _ _ _ rfl
    obtain ⟨p2, a2, b2, -, -⟩ := hQ _ _ _ rfl
    simp only [pointEq, Curve.params, decide_eq_true_eq, and_true, Prod.mk.injEq]
    exact ⟨BitVec.eq_of_toNat_eq (p1.trans p2.symm), BitVec.eq_of_toNat_eq (a1.trans a2.symm),
              BitVec.eq_of_toNat_eq (b1.trans b2.symm)⟩

/-- On a nonsingular curve a point value on the curve stands for an element. -/
theorem standsFor_exists {curve : Slot → Curve} {P : Point} [Fact p.Prime] (hP : OfCurve curve p a b P)
    (hΔ : (curveOver p a b).Δ ≠ 0) (hc : ∀ (c : Slot) (x y : Value), P = .aff c x y → onCurve (curve c) x y = true) :
    ∃ A : (curveOver p a b).Point, StandsFor P A := by
  cases P with
  | inf => exact ⟨0, trivial⟩
  | aff c x y =>
    obtain ⟨e1, e2, e3, -, -⟩ := hP _ _ _ rfl
    have h := hc _ _ _ rfl
    rw [onCurve_zmod _ _ _ (by rw [e1]; exact (Fact.out : p.Prime).pos), e1, e2, e3] at h
    refine ⟨.some (x.toNat : ZMod p) (y.toNat : ZMod p) (((curveOver p a b).equation_iff_nonsingular_of_Δ_ne_zero hΔ).1 ?_),
      rfl, rfl⟩
    rw [WeierstrassCurve.Affine.equation_iff]
    simpa using h

variable [Fact p.Prime]

theorem two_ne_zero_of_lt (h2 : 2 < p) : (2 : ZMod p) ≠ 0 := by
  have := natCast_zmod_ne_zero h2 (show 2 ≠ 0 by omega)
  rwa [Nat.cast_ofNat] at this

/-- The sum of the adder stands for the sum in the group (spec 42_point R176, R180). -/
theorem pointAdd_standsFor {curve : Slot → Curve} {P Q : Point} {A B : (curveOver p a b).Point} (h2 : 2 < p)
    (hP : OfCurve curve p a b P) (hQ : OfCurve curve p a b Q) (hA : StandsFor P A) (hB : StandsFor Q B) :
    ∃ R : Point, pointAdd curve P Q = .ok R ∧ OfCurve curve p a b R ∧ StandsFor R (A + B) := by
  cases P with
  | inf => rw [standsFor_inf_iff.1 hA, zero_add]; exact ⟨Q, pointAdd_inf_left _ _, hQ, hB⟩
  | aff c1 x1 y1 =>
    cases Q with
    | inf => rw [standsFor_inf_iff.1 hB, add_zero]; exact ⟨_, pointAdd_inf_right _ _, hP, hA⟩
    | aff c2 x2 y2 =>
      cases A with
      | zero => exact hA.elim
      | some X1 Y1 n1 =>
        cases B with
        | zero => exact hB.elim
        | some X2 Y2 n2 =>
          obtain ⟨p1, a1, b1, hx1, hy1⟩ := hP _ _ _ rfl
          obtain ⟨p2, a2, b2, hx2, hy2⟩ := hQ _ _ _ rfl
          obtain ⟨rfl, rfl⟩ := hA
          obtain ⟨rfl, rfl⟩ := hB
          have h0 : 0 < p := by omega
          have hc : (curve c1).params = (curve c2).params := by
            simp only [Curve.params, Prod.mk.injEq]
            exact ⟨BitVec.eq_of_toNat_eq (p1.trans p2.symm), BitVec.eq_of_toNat_eq (a1.trans a2.symm),
              BitVec.eq_of_toNat_eq (b1.trans b2.symm)⟩
          have hneg : ∀ x y : ZMod p, (curveOver p a b).negY x y = -y := fun x y => by
            simp [WeierstrassCurve.Affine.negY]
          -- what a chord stands for
          have third : ∀ (σ : Nat) (hxy : ¬ ((x1.toNat : ZMod p) = x2.toNat ∧
              (y1.toNat : ZMod p) = (curveOver p a b).negY x2.toNat y2.toNat)),
              (σ : ZMod p) = (curveOver p a b).slope x1.toNat x2.toNat y1.toNat y2.toNat →
              OfCurve curve p a b (chord c1 p σ x1.toNat y1.toNat x2.toNat) ∧
                StandsFor (chord c1 p σ x1.toNat y1.toNat x2.toNat)
                  (WeierstrassCurve.Affine.Point.some _ _ n1 + WeierstrassCurve.Affine.Point.some _ _ n2) := by
            intro σ hxy hσ
            obtain ⟨x3, y3, e, lx, ly, ex, ey⟩ := chord_spec c1 p σ x1.toNat y1.toNat x2.toNat h0 (p1 ▸ (curve c1).p.isLt)
            rw [e, WeierstrassCurve.Affine.Point.add_some hxy]
            refine ⟨fun c x y h => ?_, ?_, ?_⟩
            · cases h
              exact ⟨p1, a1, b1, lx, ly⟩
            · rw [ex, hσ]
              simp [WeierstrassCurve.Affine.addX]
            · rw [ey, ex, hσ]
              simp [WeierstrassCurve.Affine.addY, WeierstrassCurve.Affine.negAddY, WeierstrassCurve.Affine.negY,
                WeierstrassCurve.Affine.addX]
              ring
          by_cases hx : x1 = x2
          · subst hx
            by_cases hy : y1 ≠ y2 ∨ y1.toNat = 0
            · refine ⟨.inf, pointAdd_opposite hc rfl hy, fun c x y h => (by cases h), ?_⟩
              rw [WeierstrassCurve.Affine.Point.add_of_Y_eq rfl]
              · trivial
              · rw [hneg]
                have e1 : (y1.toNat : ZMod p) ^ 2 = (x1.toNat : ZMod p) ^ 3 + a * x1.toNat + b := by
                  simpa using (WeierstrassCurve.Affine.equation_iff _ _).1 n1.1
                have e2 : (y2.toNat : ZMod p) ^ 2 = (x1.toNat : ZMod p) ^ 3 + a * x1.toNat + b := by
                  simpa using (WeierstrassCurve.Affine.equation_iff _ _).1 n2.1
                have hm : ((y1.toNat : ZMod p) - y2.toNat) * ((y1.toNat : ZMod p) + y2.toNat) = 0 := by
                  linear_combination e1 - e2
                rcases mul_eq_zero.1 hm with h | h
                · have hyy := value_eq_of_cast hy1 hy2 (sub_eq_zero.1 h)
                  have hz : y1.toNat = 0 := by
                    rcases hy with hy | hy
                    · exact absurd hyy hy
                    · exact hy
                  rw [← hyy, hz]
                  simp
                · exact eq_neg_of_add_eq_zero_left h
            · rw [not_or, not_not] at hy
              obtain ⟨rfl, hy⟩ := hy
              have hd : residue (2 * y1.toNat : Nat) p ≠ 0 := by
                rw [Ne, tangent_divisor_eq_zero_iff hy1 hy]
                intro e
                have := (Fact.out : p.Prime).eq_one_or_self_of_dvd 2 ⟨y1.toNat, by omega⟩
                omega
              have hz := natCast_zmod_ne_zero (residue_lt _ h0) hd
              have hσ := fdivM_zmod p (residue (3 * x1.toNat * x1.toNat + a : Nat) p) _ hz
              rw [residue_zmod _ h0, residue_zmod _ h0] at hσ
              rw [residue_zmod _ h0] at hz
              push_cast at hz hσ
              rw [pointAdd_double hc hy, p1, a1, slope_ok hd]
              have hYn : (y1.toNat : ZMod p) ≠ (curveOver p a b).negY x1.toNat y1.toNat := by
                rw [hneg]
                intro e
                exact hz (by linear_combination e)
              obtain ⟨t1, t2⟩ := third _ (fun h => hYn h.2) (by
                rw [WeierstrassCurve.Affine.slope_of_Y_ne rfl hYn, hneg, hσ]
                congr 1
                · simp; ring
                · ring)
              exact ⟨_, rfl, t1, t2⟩
          · have hX : (x1.toNat : ZMod p) ≠ x2.toNat := fun e => hx (value_eq_of_cast hx1 hx2 e)
            have hd := chord_divisor_ne_zero hx1 hx2 hx
            have hz := natCast_zmod_ne_zero (residue_lt _ h0) hd
            have hσ := fdivM_zmod p (residue ((y2.toNat : Int) - y1.toNat) p) _ hz
            rw [residue_zmod _ h0, residue_zmod _ h0] at hσ
            push_cast at hσ
            rw [pointAdd_chord hc hx, p1, slope_ok hd]
            obtain ⟨t1, t2⟩ := third _ (fun h => hX h.1) (by
              rw [WeierstrassCurve.Affine.slope_of_X_ne hX, hσ, ← neg_sub, ← neg_sub (x1.toNat : ZMod p), neg_div_neg_eq])
            exact ⟨_, rfl, t1, t2⟩

/-- The scalar multiple stands for the multiple in the group (spec 42_point R181). -/
theorem pointMul_standsFor {curve : Slot → Curve} {P : Point} {A : (curveOver p a b).Point} (h2 : 2 < p)
    (hP : OfCurve curve p a b P) (hA : StandsFor P A) (k : Nat) :
    ∃ R : Point, pointMul curve P k = .ok R ∧ OfCurve curve p a b R ∧ StandsFor R (k • A) := by
  have key : ∀ (n : Nat) (m : Mul), m.k = k → m.iters + n = bitlen k → OfCurve curve p a b m.result →
      OfCurve curve p a b m.current → StandsFor m.result ((k % 2 ^ m.iters) • A) → StandsFor m.current (2 ^ m.iters • A) →
      ∃ m' : Mul, Mul.loop curve n m = .ok m' ∧ OfCurve curve p a b m'.result ∧ StandsFor m'.result (k • A) := by
    intro n
    induction n with
    | zero =>
      intro m hk hn o1 o2 s1 s2
      refine ⟨m, rfl, o1, ?_⟩
      rwa [Nat.mod_eq_of_lt (by rw [show m.iters = bitlen k by omega]; exact lt_two_pow_bitlen k)] at s1
    | succ n ih =>
      intro m hk hn o1 o2 s1 s2
      obtain ⟨C, hC, oC, sC⟩ := pointAdd_standsFor h2 o2 o2 s2 s2
      obtain ⟨R, hR, oR, sR⟩ := pointAdd_standsFor h2 o1 o2 s1 s2
      have hcur : StandsFor C (2 ^ (m.iters + 1) • A) := by
        rw [← add_nsmul] at sC
        rwa [pow_succ, mul_two]
      have hbit : k % 2 ^ (m.iters + 1) = k % 2 ^ m.iters + (k.testBit m.iters).toNat * 2 ^ m.iters := by
        rw [Nat.testBit_eq_decide_div_mod_eq, pow_succ, Nat.mod_mul]
        have := Nat.mod_two_eq_zero_or_one (k / 2 ^ m.iters)
        rcases this with h | h <;> simp [h]
      by_cases hb : k.testBit m.iters = true
      · have hi : m.iterate curve = .ok { m with iters := m.iters + 1, result := R, current := C } := by
          simp only [Mul.iterate, hk, hb, if_true, hR, hC]
        simp only [Mul.loop, hi, bind, Except.bind]
        refine ih _ hk (by simp only; omega) oR oC ?_ hcur
        rw [← add_nsmul] at sR
        simpa only [hbit, hb, Bool.toNat_true, one_mul] using sR
      · have hi : m.iterate curve = .ok { m with iters := m.iters + 1, result := m.result, current := C } := by
          simp only [Mul.iterate, hk, hb, hC]
          rfl
        simp only [Mul.loop, hi, bind, Except.bind]
        refine ih _ hk (by simp only; omega) o1 oC ?_ hcur
        simpa only [hbit, hb, Bool.toNat_false, zero_mul, add_zero] using s1
  obtain ⟨m, h1, h3, h4⟩ := key (bitlen k) (Mul.start P k none) rfl (by simp [Mul.start]) (fun c x y h => by cases h) hP
    (by simp only [Mul.start, pow_zero, Nat.mod_one, zero_nsmul]; exact standsFor_inf) (by simpa [Mul.start] using hA)
  exact ⟨m.result, pointMul_ok_iff.2 ⟨m, h1, rfl⟩, h3, h4⟩

/-- A point of prime order: n·P = INF, n prime. -/
theorem standsFor_order {curve : Slot → Curve} {P : Point} {n : Nat} (h2 : 2 < p) (hΔ : (curveOver p a b).Δ ≠ 0)
    (hP : OfCurve curve p a b P) (hc : ∀ (c : Slot) (x y : Value), P = .aff c x y → onCurve (curve c) x y = true)
    (hne : P ≠ .inf) (hn : n.Prime) (hm : pointMul curve P n = .ok .inf) :
    ∃ A : (curveOver p a b).Point, StandsFor P A ∧ addOrderOf A = n := by
  obtain ⟨A, sA⟩ := standsFor_exists hP hΔ hc
  refine ⟨A, sA, addOrderOf_eq_prime (hp := ⟨hn⟩) ?_ fun h => ?_⟩
  · obtain ⟨R, h1, -, h3⟩ := pointMul_standsFor h2 hP sA n
    obtain rfl : Point.inf = R := Except.ok.inj (hm.symm.trans h1)
    exact standsFor_inf_iff.1 h3
  · rw [h] at sA
    cases P with
    | inf => exact hne rfl
    | aff c x y => exact sA.elim

/-- A group element and its negative have one x coordinate. -/
theorem standsFor_x {curve : Slot → Curve} {P Q : Point} {A B : (curveOver p a b).Point} (hP : OfCurve curve p a b P) (hQ : OfCurve curve p a b Q)
   (h1 : StandsFor P A) (h2 : StandsFor Q B) (h : A = B ∨ A + B = 0) {c : Slot} {x y : Value} (e : Q = .aff c x y) : ∃ c' y', P = .aff c' x y' := by
  subst e
  cases B with
  | zero => exact h2.elim
  | some X Y n =>
    obtain ⟨-, -, -, hx2, -⟩ := hQ _ _ _ rfl
    cases P with
    | inf => 
      rw [standsFor_inf_iff.1 h1] at h
      rcases h with h | h
      · cases h
      · rw [zero_add] at h; cases h
    | aff c1 x1 y1 =>
      obtain ⟨-, -, -, hx1, -⟩ := hP _ _ _ rfl
      refine ⟨c1, y1, ?_⟩
      cases A with
      | zero => exact h1.elim
      | some X1 Y1 n1 =>
        have : X1 = X := by
          rcases h with h | h
          · cases h; rfl
          · rw [add_eq_zero_iff_eq_neg, WeierstrassCurve.Affine.Point.neg_some] at h
            cases h; rfl
        subst this
        rw [value_eq_of_cast hx1 hx2 (h1.1.trans h2.1.symm)]

/-- Where 4·a³ + 27·b² is not 0 mod p > 2 the curve is nonsingular. -/
theorem nonsingular_of_discriminant (h2 : 2 < p) (h : (4 * a ^ 3 + 27 * b ^ 2) % p ≠ 0) : (curveOver p a b).Δ ≠ 0 := by
  have e : (curveOver p a b).Δ = -((2 : ZMod p) ^ 4 * ((4 * a ^ 3 + 27 * b ^ 2 : Nat) : ZMod p)) := by
    simp only [WeierstrassCurve.Δ, WeierstrassCurve.b₂, WeierstrassCurve.b₄, WeierstrassCurve.b₆, WeierstrassCurve.b₈]
    push_cast
    ring
  rw [e, neg_ne_zero]
  refine mul_ne_zero (pow_ne_zero _ (two_ne_zero_of_lt h2)) fun h0 => h ?_
  exact Nat.mod_eq_zero_of_dvd ((ZMod.natCast_eq_zero_iff _ _).1 h0)

/-! ### Slot 0 -/

theorem two_lt_mod0 : 2 < Config.mod0.toNat := by decide

/-- The group of secp256k1. -/
abbrev Secp256k1 : Type := (curveOver Config.mod0.toNat Config.a0.toNat Config.b0.toNat).Point

/-- secp256k1 is nonsingular. -/
theorem secp256k1_nonsingular : (curveOver Config.mod0.toNat Config.a0.toNat Config.b0.toNat).Δ ≠ 0 := by
  have h : (curveOver Config.mod0.toNat Config.a0.toNat Config.b0.toNat).Δ = -((21168 : Nat) : ZMod Config.mod0.toNat) := by
    simp only [WeierstrassCurve.Δ, WeierstrassCurve.b₂, WeierstrassCurve.b₄, WeierstrassCurve.b₆, WeierstrassCurve.b₈,
      show Config.a0.toNat = 0 from rfl, show Config.b0.toNat = 7 from rfl]
    push_cast
    ring
  rw [h, neg_ne_zero]
  exact natCast_zmod_ne_zero (by decide) (by decide)

/-- The coordinates of the reduced points of slot 0. -/
theorem ofCurve_s0 {s : State} {P : Point} (h : s.PointReduced P) (hs : SlotOf generator P) :
    OfCurve s.curve Config.mod0.toNat Config.a0.toNat Config.b0.toNat P := by
  rintro c x y rfl
  obtain ⟨_, _, e⟩ := hs c x y rfl
  cases e
  exact ⟨rfl, rfl, rfl, h.2.1, h.2.2⟩

/-- G as a group element of order n (spec 10_state R28), from n·G = INF. -/
theorem generator_standsFor [Fact Config.mod0.toNat.Prime] {n : Nat} (hp : n.Prime)
    (hn : pointMul State.reset.curve generator n = .ok .inf) :
    ∃ G : Secp256k1, StandsFor generator G ∧ addOrderOf G = n :=
  standsFor_order two_lt_mod0 secp256k1_nonsingular
    (ofCurve_s0 (generator_reduced State.reset) (slotOf_self generator))
    (fun c x y h => by
      obtain ⟨rfl, rfl, rfl⟩ : Slot.s0 = c ∧ Config.gx0 = x ∧ Config.gy0 = y := Point.aff.inj h
      exact (generator_good State.reset).2 mod0_prime)
    (fun h => Point.noConfusion h) hp hn

/-- The scalar of verification, u + e·v, is k for s and −k for n − s (spec 44_ecdsa R242, R245, R248, R252). -/
theorem verify_scalar {n z e k r sg s' : Nat} (hn : n.Prime) (h2 : 2 < n) (hs : sg = k ^ (n - 2) * (z + r * e) % n) (h0 : sg ≠ 0)
   (hs' : s' = sg ∨ s' = n - sg) :
   ((z * (s' ^ (n - 2) % n) % n + e * (r * (s' ^ (n-2) % n) % n)) ≡ k [MOD n]) ∨ ((z * (s' ^ (n - 2) % n) % n + e * (r * (s' ^ (n-2) % n) % n)) + k ≡ 0 [MOD n]) := by
  have := Fact.mk hn
  have inv : ∀ x : ZMod n, x ≠ 0 → x ^ (n - 2) = x⁻¹ := fun x hx => by
    refine eq_inv_of_mul_eq_one_left ?_
    rw [← pow_succ, show n - 2 + 1 = n - 1 by omega]
    exact ZMod.pow_card_sub_one_eq_one hx
  have hlt : sg < n := hs ▸ Nat.mod_lt _ hn.pos
  have es : (sg : ZMod n) = (k : ZMod n) ^ (n - 2) * (z + r * e) := by rw [hs, ZMod.natCast_mod]; push_cast; rfl
  have hz : (sg : ZMod n) ≠ 0 := natCast_zmod_ne_zero hlt h0
  have hk : (k : ZMod n) ≠ 0 := fun h => hz (by rw [es, h, zero_pow (by omega), zero_mul])
  rw [inv _ hk] at es
  have ek : (z : ZMod n) + r * e = sg * k := by rw [es]; field_simp
  have main : ((z * (s' ^ (n - 2) % n) % n + e * (r * (s' ^ (n-2) % n) % n) : Nat) : ZMod n) = (s' : ZMod n) ^ (n - 2) * (sg * k) := by
    rw [← ek]; push_cast [ZMod.natCast_mod]; ring
  rw [← ZMod.natCast_eq_natCast_iff, ← ZMod.natCast_eq_natCast_iff]
  rcases hs' with rfl | rfl
  · left; rw [main, inv _ hz]; field_simp
  · right
    have : ((n - sg : Nat) : ZMod n) = -(sg : ZMod n) := by rw [Nat.cast_sub hlt.le]; simp
    rw [Nat.cast_add, main, this, inv _ (neg_ne_zero.2 hz)]; field_simp; simp

end Sys2Proof.Machine
end

