-- ==== Sys2Proof/Laws/Invariant.lean ====
section
/-! SUPPORT. The pieces of the engine's invariant that commands and host events keep: the status record (spec 10_state R34, 60_exceptions
R270, R280) and the working values (spec 10_state R40, 43_nonce R216, 42_point R181). -/

namespace Sys2Proof.Machine

/-! ### The status record -/

theorem statusConsistent_of_eq {s t : State} (h : s.StatusConsistent) (h0 : t.busy = s.busy) (h1 : t.done = s.done)
    (h2 : t.err = s.err) (h3 : t.vres = s.vres) (h4 : t.eqFlag = s.eqFlag) (h5 : t.errcode = s.errcode) :
    t.StatusConsistent := by
  unfold State.StatusConsistent
  rw [h0, h1, h2, h3, h4, h5]
  exact h

/-- Every command keeps the status record consistent. -/
theorem exec_statusConsistent {i : Instr} {s t : State} (hb : s.busy = true) (h : s.StatusConsistent) (hx : exec i s = .next t) :
    t.StatusConsistent := by
  obtain ⟨h1, h2, h3⟩ := h
  obtain ⟨d, e, v, q⟩ := h1 hb
  have hok : s.errcode = .ok := by
    by_contra hne
    rw [h2.2 hne] at e
    cases e
  cases effect_of_exec hx with
  | failed c hc => exact ⟨fun hb => by simp at hb, by simp [hc], fun _ => ⟨v, q⟩⟩
  | nothing _ => exact ⟨fun hb => by simp at hb, by simp [e, hok], by simp [e]⟩
  | element _ _ _ _ => exact ⟨fun hb => by simp at hb, by simp [e, hok], by simp [e]⟩
  | point _ _ _ => exact ⟨fun hb => by simp at hb, by simp [e, hok], by simp [e]⟩
  | eq _ _ => exact ⟨fun hb => by simp at hb, by simp [e, hok], by simp [e]⟩
  | vres _ _ => exact ⟨fun hb => by simp at hb, by simp [e, hok], by simp [e]⟩
  | raw _ _ _ => exact ⟨fun hb => by simp at hb, by simp [e, hok], by simp [e]⟩
  | rawPair _ _ _ _ _ => exact ⟨fun hb => by simp at hb, by simp [e, hok], by simp [e]⟩
  | waits _ _ => exact ⟨h1, h2, h3⟩
  | asks _ _ _ => exact ⟨fun _ => ⟨d, e, v, q⟩, h2, h3⟩
  | rejects _ _ _ => exact ⟨fun _ => ⟨d, e, v, q⟩, h2, h3⟩
  | looping _ _ => exact ⟨fun _ => ⟨d, e, v, q⟩, h2, h3⟩

/-! ### The working values -/

/-- An idle engine has none. -/
theorem loopConsistent_idle {s : State} (h : s.phase = .idle) : s.LoopConsistent := by
  refine ⟨fun b g hg => ?_, fun b m hm => ?_⟩
  · rw [h] at hg; cases hg
  · rw [h] at hm; cases hm

/-- A command just begun has none. -/
theorem loopConsistent_fresh {s : State} {n : Nat} (h : s.phase = .exec n .fresh) : s.LoopConsistent := by
  refine ⟨fun b g hg => ?_, fun b m hm => ?_⟩
  · rw [h] at hg; cases hg
  · rw [h] at hm; cases hm

theorem loopConsistent_gen {s : State} {z e q n : Nat} {g g' : Drbg} (h : s.phase = .exec 0 (.gen g)) (hg : s.generates z e q)
    (h2 : 2 ≤ q) (ha : Drbg.after Config.mac Config.kLen z e q n = some g') (he : g = g' ∨ g = g'.answered Config.mac) :
    s.LoopConsistent := by
  refine ⟨fun b u hu => ?_, fun b m hm => ?_⟩
  · rw [h] at hu
    cases hu
    exact ⟨rfl, z, e, q, n, g', hg, h2, ha, he⟩
  · rw [h] at hm; cases hm

/-- The values of GEN_K under way. -/
theorem LoopConsistent.gen {s : State} {g : Drbg} (h : s.LoopConsistent) (hw : s.work = .gen g) :
    s.phase = .exec 0 (.gen g) ∧ ∃ (z e q n : Nat) (g' : Drbg), s.generates z e q ∧ 2 ≤ q ∧
      Drbg.after Config.mac Config.kLen z e q n = some g' ∧ (g = g' ∨ g = g'.answered Config.mac) := by
  unfold State.work at hw
  split at hw
  · cases hw
  · rename_i b w hp
    subst hw
    obtain ⟨rfl, h'⟩ := h.1 b g hp
    exact ⟨hp, h'⟩

/-- The command decides what GEN_K runs on. -/
theorem generates_unique {s : State} {z e q z' e' q' : Nat} (h : s.generates z e q) (h' : s.generates z' e' q') :
    z = z' ∧ e = e' ∧ q = q' := by
  unfold State.generates at h h'
  generalize decode s.latched = d at h h'
  split at h
  · obtain ⟨rfl, rfl, rfl⟩ := h
    exact ⟨h'.1.symm, h'.2.1.symm, h'.2.2.symm⟩
  · obtain ⟨rfl, rfl, rfl⟩ := h
    exact ⟨h'.1.symm, h'.2.1.symm, h'.2.2.symm⟩
  · exact h.elim

/-- The registers, the moduli and the latched word are all that counts for it. -/
theorem generates_of_eq {s t : State} {z e q : Nat} (h : s.generates z e q) (h0 : t.cmd = s.cmd) (h1 : t.regs = s.regs)
    (h2 : t.mod2 = s.mod2) (h3 : t.mod3 = s.mod3) : t.generates z e q := by
  have hm : ∀ m : ModIx, t.modNat m = s.modNat m := by
    intro m
    unfold State.modNat State.modulus
    match m with
    | 0 | 1 => rfl
    | 2 => simp only [h2]
    | 3 => simp only [h3]
  have hv : ∀ i : RegIx, t.valNat i = s.valNat i := fun i => by simp only [State.valNat, State.reg, h1]
  simpa only [State.generates, State.latched, h0, hm, hv] using h

theorem loopConsistent_hold {s : State} {P : Point} {m : Mul} (h1 : m.iters ≤ bitlen m.k) (h2 : s.multiplies P m.k m.earlier)
    (h3 : Mul.loop s.curve m.iters (Mul.start P m.k m.earlier) = .ok m) : (s.holdMul m).LoopConsistent := by
  refine ⟨fun b g hg => ?_, fun b m' hm => ?_⟩
  · rw [State.holdMul_phase] at hg; cases hg
  · rw [State.holdMul_phase] at hm
    cases hm
    exact ⟨rfl, h1, P, h2, h3⟩

theorem loopConsistent_start {s : State} {P : Point} {k : Nat} {earlier : Option Point} (h : s.multiplies P k earlier) :
    (s.holdMul (Mul.start P k earlier)).LoopConsistent :=
  loopConsistent_hold (Nat.zero_le _) h rfl

/-- One step inside the loop keeps the working values those of the command. -/
theorem mulStep_loopConsistent {s : State} {P : Point} {m : Mul} {failed : ErrCode → State} {finish : Point → State}
    (h1 : m.iters ≤ bitlen m.k) (h2 : s.multiplies P m.k m.earlier)
    (h3 : Mul.loop s.curve m.iters (Mul.start P m.k m.earlier) = .ok m)
    (hf : ∀ e : ErrCode, (failed e).LoopConsistent) (hF : m.iters = bitlen m.k → (finish m.result).LoopConsistent) :
    (mulStep s m failed finish).LoopConsistent := by
  by_cases hm : m.iters < bitlen m.k
  · cases hi : m.iterate s.curve with
    | error e => rw [mulStep_fails hm hi]; exact hf e
    | ok u =>
      rw [mulStep_iterates hm hi]
      obtain ⟨e1, e2, e3, -, -⟩ := Mul.iterate_ok hi
      refine loopConsistent_hold (P := P) (by rw [e1, e3]; omega) (by rw [e1, e2]; exact h2) ?_
      rw [e1, e2, e3]
      exact Mul.loop_succ h3 hi
  · rw [mulStep_finishes (by omega)]
    exact hF (by omega)

/-- The same for a command that multiplies once. -/
theorem multiply_loopConsistent {s : State} {P : Point} {k : Nat} {finish : Point → State} (hL : s.LoopConsistent)
    (h : s.multiplies P k none) (hF : ∀ R : Point, (finish R).phase = .idle) :
    (multiply s P k finish).LoopConsistent := by
  cases hw : s.work with
  | mul m =>
    obtain ⟨h1, Q, h2, h3⟩ := LoopConsistent.mul hL hw
    rw [multiply_goes_on hw]
    exact mulStep_loopConsistent h1 h2 h3 (fun e => loopConsistent_idle rfl) fun _ => loopConsistent_idle (hF _)
  | fresh => rw [multiply_begins hw]; exact loopConsistent_start h
  | gen g => simp only [multiply, hw]; exact loopConsistent_start h

/-- One step of GEN_K keeps the working values those of the command. -/
theorem genStep_loopConsistent {s : State} {z e q : Nat} {accepted : Nat → State} (hL : s.LoopConsistent) (h : s.generates z e q)
    (h2 : 2 ≤ q) (ha : ∀ k : Nat, inRange q k = true → (accepted k).LoopConsistent) :
    (genStep s z e q accepted).LoopConsistent := by
  by_cases hw : ∃ g : Drbg, s.work = .gen g
  · obtain ⟨g, hw⟩ := hw
    cases ht : g.tag with
    | none => rw [genStep_waits hw ht]; exact hL
    | some y =>
      obtain ⟨-, z', e', q', n, g', hg, -, hn, he⟩ := LoopConsistent.gen hL hw
      obtain ⟨rfl, rfl, rfl⟩ := generates_unique h hg
      have he : g = g'.answered Config.mac := he.resolve_left fun e => by
        rw [e, (Drbg.after_sent hn).1] at ht; cases ht
      have hy : y = Config.mac g'.req.key g'.req.msg := by
        rw [he, Drbg.answered_tag] at ht; exact (Option.some.inj ht).symm
      have hadv : g.advance z e q y = g'.advance z e q (Config.mac g'.req.key g'.req.msg) := by
        rw [he, Drbg.advance_answered, hy]
      cases hr : g.advance z e q y with
      | goes u =>
        rw [genStep_goes hw ht hr]
        exact loopConsistent_gen rfl h h2 (Drbg.after_succ hn (.inl (hadv ▸ hr))) (.inl rfl)
      | rejects u =>
        rw [genStep_rejects hw ht hr]
        exact loopConsistent_gen rfl h h2 (Drbg.after_succ hn (.inr (hadv ▸ hr))) (.inl rfl)
      | accepts k =>
        rw [genStep_accepts hw ht hr]
        exact ha k (Drbg.advance_accepts hr).2.2.2
  · rw [genStep_begins fun g hg => hw ⟨g, hg⟩]
    exact loopConsistent_gen (n := 0) rfl h h2 rfl (.inl rfl)

theorem finishSign_phase (s : State) (rdr rds : RegIx) (z e k : Nat) (R : Point) : (finishSign s rdr rds z e k R).phase = .idle := by
  unfold finishSign
  cases signCore z e k R <;> rfl

/-- Every command keeps the working values its own. -/
theorem exec_loopConsistent {i : Instr} {s t : State} (hd : decode s.cmd = .ok i) (hL : s.LoopConsistent)
    (hx : exec i s = .next t) : t.LoopConsistent := by
  by_cases hi : runsGenK i = false ∧ multipliesPoint i = false
  · cases effect_of_exec hx with
    | waits h _ => rw [hi.1] at h; cases h
    | asks g h _ => rw [hi.1] at h; cases h
    | rejects g h _ => rw [hi.1] at h; cases h
    | looping m h => rw [hi.2] at h; cases h
    | _ => exact loopConsistent_idle rfl
  · cases i with
    | pmul pd ps rk =>
      cases hp : s.point ps with
      | none =>
        simp only [exec, execPmul, pointRead_none hp] at hx
        cases hx
        exact loopConsistent_idle rfl
      | some P =>
        rw [exec_pmul hp] at hx
        cases hx
        refine multiply_loopConsistent hL ?_ fun R => rfl
        simp only [State.multiplies, State.latched, hd]
        exact ⟨hp, trivial, trivial⟩
    | pubkey pd re =>
      rw [exec_pubkey] at hx
      cases hx
      refine multiply_loopConsistent hL ?_ fun R => rfl
      simp only [State.multiplies, State.latched, hd]
      exact ⟨trivial, trivial, trivial⟩
    | nonce rd rz re m =>
      simp only [exec, execNonce] at hx
      cases hx
      split
      · exact loopConsistent_idle rfl
      · refine genStep_loopConsistent hL ?_ (by omega) fun k _ => loopConsistent_idle rfl
        simp only [State.generates, State.latched, hd]
        exact ⟨trivial, trivial, trivial⟩
    | sign rdr rz re rk rds =>
      by_cases h : 1 ≤ s.valNat re ∧ s.valNat re < Config.mod1.toNat
      · by_cases hk : s.valNat rk < Config.mod1.toNat
        · rw [exec_sign h.1 h.2 hk] at hx
          cases hx
          refine multiply_loopConsistent hL ?_ fun R => finishSign_phase _ _ _ _ _ _ _
          simp only [State.multiplies, State.latched, hd]
          exact ⟨trivial, trivial, hk, trivial⟩
        · rw [exec_sign_bad_nonce h.1 h.2 (by omega)] at hx
          cases hx
          exact loopConsistent_idle rfl
      · rw [exec_sign_bad_key (by omega)] at hx
        cases hx
        exact loopConsistent_idle rfl
    | signd rdr rz re rds =>
      by_cases h : 1 ≤ s.valNat re ∧ s.valNat re < Config.mod1.toNat
      · by_cases hw : ∃ m : Mul, s.work = .mul m
        · obtain ⟨m, hw⟩ := hw
          rw [exec_signd_mul h.1 h.2 hw] at hx
          cases hx
          obtain ⟨h1, Q, h2, h3⟩ := LoopConsistent.mul hL hw
          exact mulStep_loopConsistent h1 h2 h3 (fun e => loopConsistent_idle rfl)
            fun _ => loopConsistent_idle (finishSign_phase _ _ _ _ _ _ _)
        · rw [exec_signd_gen h.1 h.2 (by simpa using hw)] at hx
          cases hx
          refine genStep_loopConsistent hL ?_ (by decide : 2 ≤ Config.mod1.toNat) fun k hk => loopConsistent_start ?_
          · simp only [State.generates, State.latched, hd]
            exact ⟨trivial, trivial, trivial⟩
          · obtain ⟨g1, g2⟩ := inRange_iff.1 hk
            simp only [State.multiplies, State.latched, hd]
            exact ⟨trivial, g1, g2, trivial⟩
      · rw [exec_signd_bad_key (by omega)] at hx
        cases hx
        exact loopConsistent_idle rfl
    | verify rr rs rz rpx rpy =>
      cases hv : verifyDomain s (s.valNat rr) (s.valNat rs) (s.reg rpx).val (s.reg rpy).val with
      | false =>
        rw [exec_verify_invalid hv] at hx
        cases hx
        exact loopConsistent_idle rfl
      | true =>
        have first : s.multiplies generator (s.valNat rz * verifyW (s.valNat rs) % Config.mod1.toNat) none := by
          simp only [State.multiplies, State.latched, hd]
          exact .inl ⟨trivial, trivial, trivial⟩
        cases hw : s.work with
        | fresh => rw [exec_verify_fresh hv hw] at hx; cases hx; exact loopConsistent_start first
        | gen g => simp only [exec, execVerify, hv, hw, if_true] at hx; cases hx; exact loopConsistent_start first
        | mul m =>
          rw [exec_verify_mul hv hw] at hx
          cases hx
          obtain ⟨h1, Q, h2, h3⟩ := LoopConsistent.mul hL hw
          refine mulStep_loopConsistent h1 h2 h3 (fun e => loopConsistent_idle rfl) fun hn => ?_
          cases he : m.earlier with
          | some P1 => exact loopConsistent_idle rfl
          | none =>
            refine loopConsistent_start ?_
            simp only [State.multiplies, State.latched, hd, he] at h2 ⊢
            refine .inr ⟨trivial, trivial, m.result, rfl, pointMul_ok_iff.2 ⟨m, ?_, rfl⟩⟩
            rcases h2 with ⟨rfl, hk, -⟩ | ⟨-, -, P1, h4, -⟩
            · rw [← hk, ← hn, ← he]; exact h3
            · cases h4
    | _ => simp [runsGenK, multipliesPoint] at hi

/-- While drawn accesses are left execution has not begun, and serving one keeps it so. -/
theorem loopConsistent_beat {s t : State} {n n' : Nat} {w : Work} (h : s.LoopConsistent) (hs : s.phase = .exec (n + 1) w)
    (ht : t.phase = .exec n' w) : t.LoopConsistent := by
  cases w with
  | fresh => exact loopConsistent_fresh ht
  | gen g => have := (h.1 _ _ hs).1; omega
  | mul m => have := (h.2 _ _ hs).1; omega

/-- Inside GEN_K only the registers, the moduli and the latched word count, and a response may arrive. -/
theorem loopConsistent_gen_of_eq {s t : State} {n : Nat} {g g' : Drbg} (h : s.LoopConsistent) (hs : s.phase = .exec n (.gen g))
    (ht : t.phase = .exec n (.gen g')) (hg : g' = g ∨ g.tag = none ∧ g' = g.answered Config.mac) (h0 : t.cmd = s.cmd)
    (h1 : t.regs = s.regs) (h2 : t.mod2 = s.mod2) (h3 : t.mod3 = s.mod3) : t.LoopConsistent := by
  obtain ⟨rfl, z, e, q, k, u, hgen, hq, hk, he⟩ := h.1 _ _ hs
  refine loopConsistent_gen ht (generates_of_eq hgen h0 h1 h2 h3) hq hk ?_
  rcases hg with rfl | ⟨hn, rfl⟩
  · exact he
  · rcases he with rfl | rfl
    · exact .inr rfl
    · cases hn

/-- A response on the MAC port keeps the working values those of the command. -/
theorem macResponse_loopConsistent {s : State} (h : s.LoopConsistent) : (macResponse s).LoopConsistent := by
  unfold macResponse
  split
  · exact h
  · split
    · rename_i n g hp
      split
      · rename_i hg
        exact loopConsistent_gen_of_eq h hp rfl (.inr ⟨by simpa using hg, rfl⟩) rfl rfl rfl rfl
      · exact h
    all_goals exact h

/-! ### Reset (spec 70_reset_and_hazards R310, R311) -/

theorem toReset_elementsReduced (s : State) : s.toReset.ElementsReduced := by
  intro i m h
  have hr : s.toReset.reg i = ⟨0#256, .raw⟩ := by
    show (Vector.replicate 16 _)[i.val] = _
    exact Vector.getElem_replicate ..
  rw [hr] at h
  cases h

theorem toReset_allPoints (p : State → Point → Prop) (s : State) : s.toReset.AllPoints p := by
  intro j P h
  have hr : s.toReset.point j = none := by
    show (Vector.replicate 8 _)[j.val] = _
    exact Vector.getElem_replicate ..
  rw [hr] at h
  cases h

theorem toReset_statusConsistent (s : State) : s.toReset.StatusConsistent := by
  refine ⟨fun h => ?_, ⟨fun h => ?_, fun h => absurd rfl h⟩, fun h => ?_⟩
  · cases h
  · cases h
  · cases h

/-- While RST is asserted the engine is idle. -/
theorem idle_of_resetHeld {s : State} (h : s.ResetHeld) (hr : s.rst = true) : s.phase = .idle := by
  rw [← h hr]
  rfl

/-! ### Writes of the window (spec 20_memory R64 to R66) -/

variable {p : State → Point → Prop}

/-- Every write of the window keeps the invariant's pieces. -/
theorem memWrite_keeps (hp : PointProperty p) {s : State} (off : BitVec 12) (w : Word) (hE : s.ElementsReduced)
    (hP : s.AllPoints p) (hS : s.StatusConsistent) (hL : s.LoopConsistent) :
    (memWrite s off w).ElementsReduced ∧ (memWrite s off w).AllPoints p ∧ (memWrite s off w).StatusConsistent ∧
      (memWrite s off w).LoopConsistent := by
  have same : ∀ t : State, t = s → t.ElementsReduced ∧ t.AllPoints p ∧ t.StatusConsistent ∧ t.LoopConsistent := by
    rintro t rfl
    exact ⟨hE, hP, hS, hL⟩
  have wign : ({ s with wign := true } : State).ElementsReduced ∧ ({ s with wign := true } : State).AllPoints p ∧
      ({ s with wign := true } : State).StatusConsistent ∧ ({ s with wign := true } : State).LoopConsistent :=
    ⟨elementsReduced_of_eq hE rfl rfl rfl, allPoints_of_eq hp hP rfl rfl rfl rfl,
      statusConsistent_of_eq hS rfl rfl rfl rfl rfl rfl, hL⟩
  -- a write that is ignored while BUSY
  have ignored : ∀ t : State, (s.phase = .idle → t.ElementsReduced ∧ t.AllPoints p ∧ t.StatusConsistent ∧ t.LoopConsistent) →
      (s.unlessBusy t).ElementsReduced ∧ (s.unlessBusy t).AllPoints p ∧ (s.unlessBusy t).StatusConsistent ∧
        (s.unlessBusy t).LoopConsistent := by
    intro t ht
    cases hph : s.phase with
    | idle => rw [State.unlessBusy_idle hph]; exact ht hph
    | exec n v => rw [State.unlessBusy_exec hph]; exact wign
  have status : ∀ t : State, t.busy = s.busy → t.done = s.done → t.err = s.err → t.vres = s.vres → t.eqFlag = s.eqFlag →
      t.errcode = s.errcode → t.StatusConsistent := fun t => statusConsistent_of_eq hS
  unfold memWrite
  cases locate off with
  | id => exact same _ rfl
  | param => exact same _ rfl
  | iter => exact same _ rfl
  | tags0 => exact same _ rfl
  | tags1 => exact same _ rfl
  | pstat => exact same _ rfl
  | reserved => exact same _ rfl
  | pointX j k => exact same _ rfl
  | pointY j k => exact same _ rfl
  | ctrl =>
    simp only [writeTarget]
    cases h2 : w.getLsbD 2 with
    | true =>
      rw [writeCtrl_srst h2]
      exact ⟨toReset_elementsReduced s, toReset_allPoints p s, toReset_statusConsistent s, loopConsistent_idle rfl⟩
    | false =>
      by_cases h1 : w.getLsbD 1 = true ∧ s.busy = true
      · rw [writeCtrl_abort h1.1 h2 h1.2]
        obtain ⟨-, -, v, q⟩ := hS.1 h1.2
        exact ⟨elementsReduced_of_eq hE rfl rfl rfl, allPoints_of_eq hp hP rfl rfl rfl rfl,
          ⟨fun hb => (by cases hb), by simp, fun _ => ⟨v, q⟩⟩, loopConsistent_idle rfl⟩
      · rw [writeCtrl_ie (by
          cases hw : w.getLsbD 1
          · exact .inl rfl
          · exact .inr (by simpa [hw] using h1)) h2]
        exact ⟨elementsReduced_of_eq hE rfl rfl rfl, allPoints_of_eq hp hP rfl rfl rfl rfl,
          status _ rfl rfl rfl rfl rfl rfl, hL⟩
  | status =>
    simp only [writeTarget, writeStatus_eq]
    obtain ⟨s1, s2, s3⟩ := hS
    refine ⟨elementsReduced_of_eq hE rfl rfl rfl, allPoints_of_eq hp hP rfl rfl rfl rfl, ⟨fun hb => ?_, s2, s3⟩, hL⟩
    obtain ⟨d, e⟩ := s1 hb
    exact ⟨by simp [d], e⟩
  | cmd =>
    refine ignored _ fun _ => ⟨elementsReduced_of_eq hE rfl rfl rfl, allPoints_of_eq hp hP rfl rfl rfl rfl,
      ⟨fun _ => ⟨rfl, rfl, rfl, rfl⟩, by simp, fun h => by cases h⟩, loopConsistent_fresh rfl⟩
  | reg i k =>
    refine ignored _ fun hi => ⟨elementsReduced_raw hE i _, allPoints_of_eq hp hP rfl rfl rfl rfl,
      status _ rfl rfl rfl rfl rfl rfl, loopConsistent_idle hi⟩
  | wide r k =>
    cases r with
    | mod0 => exact same _ rfl
    | mod1 => exact same _ rfl
    | gx0 => exact same _ rfl
    | gy0 => exact same _ rfl
    | mod2 =>
      refine ignored _ fun hi => ⟨?_, allPoints_dropPoints hp hP rfl, status _ rfl rfl rfl rfl rfl rfl, loopConsistent_idle hi⟩
      exact elementsReduced_of_eq (elementsReduced_dropElements (t := { s with mod2 := withWord s.mod2 k w }) (m := 2) hE rfl
        fun m hm => by
          match m with
          | 0 | 1 | 3 => rfl
          | 2 => exact absurd rfl hm) rfl rfl rfl
    | mod3 =>
      refine ignored _ fun hi => ⟨?_, allPoints_of_eq hp hP rfl rfl rfl rfl, status _ rfl rfl rfl rfl rfl rfl,
        loopConsistent_idle hi⟩
      exact elementsReduced_dropElements (t := { s with mod3 := withWord s.mod3 k w }) (m := 3) hE rfl
        fun m hm => by
          match m with
          | 0 | 1 | 2 => rfl
          | 3 => exact absurd rfl hm
    | a1 =>
      exact ignored _ fun hi => ⟨elementsReduced_of_eq hE rfl rfl rfl, allPoints_dropPoints hp hP rfl,
        status _ rfl rfl rfl rfl rfl rfl, loopConsistent_idle hi⟩
    | b1 =>
      exact ignored _ fun hi => ⟨elementsReduced_of_eq hE rfl rfl rfl, allPoints_dropPoints hp hP rfl,
        status _ rfl rfl rfl rfl rfl rfl, loopConsistent_idle hi⟩
    | gx1 =>
      exact ignored _ fun hi => ⟨elementsReduced_of_eq hE rfl rfl rfl, allPoints_of_eq hp hP rfl rfl rfl rfl,
        status _ rfl rfl rfl rfl rfl rfl, loopConsistent_idle hi⟩
    | gy1 =>
      exact ignored _ fun hi => ⟨elementsReduced_of_eq hE rfl rfl rfl, allPoints_of_eq hp hP rfl rfl rfl rfl,
        status _ rfl rfl rfl rfl rfl rfl, loopConsistent_idle hi⟩

/-- RST is the host's: no write of the window changes it. -/
theorem memWrite_rst (s : State) (off : BitVec 12) (w : Word) : (memWrite s off w).rst = s.rst := by
  have ignored : ∀ t : State, t.rst = s.rst → (s.unlessBusy t).rst = s.rst := by
    intro t ht
    unfold State.unlessBusy
    split
    · rfl
    · exact ht
  unfold memWrite
  cases locate off with
  | ctrl =>
    simp only [writeTarget, writeCtrl]
    split
    · rfl
    · split <;> rfl
  | status => simp only [writeTarget, writeStatus_eq]
  | cmd => exact ignored _ rfl
  | reg i k => exact ignored _ rfl
  | wide r k => cases r <;> first | rfl | exact ignored _ rfl
  | _ => rfl

end Sys2Proof.Machine
end

