-- ==== Sys2Proof/Laws/PerInstr.lean ====
section
/-! SUPPORT. The encoder makes well-formed words only, command by command (spec 30_encoding R92, R94): the format table, read
apart from the decoder, admits the fields of every command's word. -/

namespace Sys2Proof.Laws.EncodesWellFormed

/-- The word of a command is well formed. -/
def Statement (i : Instr) : Prop := (encodeFields i).wellFormed = true

@[simp] theorem admits_reg (n : Nibble) : Role.reg.admits n = true := rfl

@[simp] theorem admits_imm (n : Nibble) : Role.imm.admits n = true := rfl

@[simp] theorem admits_point (j : PointIx) : Role.point.admits (pointField j) = true := by revert j; decide

@[simp] theorem admits_modIx (m : ModIx) : Role.modIx.admits (modField m) = true := by revert m; decide

@[simp] theorem admits_slot (c : Slot) : Role.slot.admits (slotField c) = true := by cases c <;> rfl

@[simp] theorem admits_neg (neg : Bool) : Role.neg.admits (negField neg) = true := by cases neg <;> rfl

@[simp] theorem admits_zero : Role.zero.admits 0#4 = true := rfl

theorem nop : Statement (.nop) := by
  simp [Statement, Fields.wellFormed, formatOf, encodeFields, Format.admits]

theorem fnew (rd rs : RegIx) (m : ModIx) : Statement (.fnew rd rs m) := by
  simp [Statement, Fields.wellFormed, formatOf, encodeFields, Format.admits]

theorem fadd (rd rs1 rs2 : RegIx) : Statement (.fadd rd rs1 rs2) := by
  simp [Statement, Fields.wellFormed, formatOf, encodeFields, Format.admits]

theorem fsub (rd rs1 rs2 : RegIx) : Statement (.fsub rd rs1 rs2) := by
  simp [Statement, Fields.wellFormed, formatOf, encodeFields, Format.admits]

theorem fmul (rd rs1 rs2 : RegIx) : Statement (.fmul rd rs1 rs2) := by
  simp [Statement, Fields.wellFormed, formatOf, encodeFields, Format.admits]

theorem fdiv (rd rs1 rs2 : RegIx) : Statement (.fdiv rd rs1 rs2) := by
  simp [Statement, Fields.wellFormed, formatOf, encodeFields, Format.admits]

theorem finv (rd rs : RegIx) : Statement (.finv rd rs) := by
  simp [Statement, Fields.wellFormed, formatOf, encodeFields, Format.admits]

theorem fpow (rd rs re : RegIx) (neg : Bool) : Statement (.fpow rd rs re neg) := by
  simp [Statement, Fields.wellFormed, formatOf, encodeFields, Format.admits]

theorem fscale (rd rs : RegIx) (imm8 : BitVec 8) : Statement (.fscale rd rs imm8) := by
  simp [Statement, Fields.wellFormed, formatOf, encodeFields, Format.admits]

theorem feq (rs1 rs2 : RegIx) : Statement (.feq rs1 rs2) := by
  simp [Statement, Fields.wellFormed, formatOf, encodeFields, Format.admits]

theorem pinf (pd : PointIx) : Statement (.pinf pd) := by
  simp [Statement, Fields.wellFormed, formatOf, encodeFields, Format.admits]

theorem pnew (pd : PointIx) (rx ry : RegIx) (c : Slot) : Statement (.pnew pd rx ry c) := by
  simp [Statement, Fields.wellFormed, formatOf, encodeFields, Format.admits]

theorem pgen (pd : PointIx) (c : Slot) : Statement (.pgen pd c) := by
  simp [Statement, Fields.wellFormed, formatOf, encodeFields, Format.admits]

theorem padd (pd ps1 ps2 : PointIx) : Statement (.padd pd ps1 ps2) := by
  simp [Statement, Fields.wellFormed, formatOf, encodeFields, Format.admits]

theorem pmul (pd ps : PointIx) (rk : RegIx) : Statement (.pmul pd ps rk) := by
  simp [Statement, Fields.wellFormed, formatOf, encodeFields, Format.admits]

theorem peq (ps1 ps2 : PointIx) : Statement (.peq ps1 ps2) := by
  simp [Statement, Fields.wellFormed, formatOf, encodeFields, Format.admits]

theorem pubkey (pd : PointIx) (re : RegIx) : Statement (.pubkey pd re) := by
  simp [Statement, Fields.wellFormed, formatOf, encodeFields, Format.admits]

theorem pget (rdx rdy : RegIx) (ps : PointIx) : Statement (.pget rdx rdy ps) := by
  simp [Statement, Fields.wellFormed, formatOf, encodeFields, Format.admits]

theorem nonce (rd rz re : RegIx) (m : ModIx) : Statement (.nonce rd rz re m) := by
  simp [Statement, Fields.wellFormed, formatOf, encodeFields, Format.admits]

theorem sign (rdr rz re rk rds : RegIx) : Statement (.sign rdr rz re rk rds) := by
  simp [Statement, Fields.wellFormed, formatOf, encodeFields, Format.admits]

theorem signd (rdr rz re rds : RegIx) : Statement (.signd rdr rz re rds) := by
  simp [Statement, Fields.wellFormed, formatOf, encodeFields, Format.admits]

theorem verify (rr rs rz rpx rpy : RegIx) : Statement (.verify rr rs rz rpx rpy) := by
  simp [Statement, Fields.wellFormed, formatOf, encodeFields, Format.admits]

end Sys2Proof.Laws.EncodesWellFormed
end

