-- ==== Sys2Proof/Tests/Slice0.lean ====
section
/-! SUPPORT. The model's own tests: words written out from spec 30_encoding, the vectors of spec 95_test_vectors.md (each test
names its vector), the nominal MAC of spec 00_scope R12 for the vectors that need one, and for each statement with hypotheses a
state and operands that meet them. -/

namespace Sys2Proof.Tests

-- one test at a time: each kernel evaluation has its own stack
set_option Elab.async false

open Sys2Proof.Machine Sys2Proof.Claims

/-! ## Decoding: one word for each constructor, from the spec's encodings (30_encoding R94, R95; the words of 95) -/

theorem test_decode_nop : decode 0x00000000 = .ok .nop := by decide
theorem test_decode_fnew : decode 0x30009A01 = .ok (.fnew 10 9 3) := by decide
theorem test_decode_fadd : decode 0x00010802 = .ok (.fadd 8 0 1) := by decide
theorem test_decode_fsub : decode 0x00062803 = .ok (.fsub 8 2 6) := by decide
theorem test_decode_fmul : decode 0x00014504 = .ok (.fmul 5 4 1) := by decide
theorem test_decode_fdiv : decode 0x00024805 = .ok (.fdiv 8 4 2) := by decide
theorem test_decode_finv : decode 0x00004806 = .ok (.finv 8 4) := by decide
theorem test_decode_fpow : decode 0x000A5807 = .ok (.fpow 8 5 10 false) := by decide
theorem test_decode_fpow_neg : decode 0x100A4807 = .ok (.fpow 8 4 10 true) := by decide
theorem test_decode_fscale : decode 0x003C0908 = .ok (.fscale 9 0 0x3C) := by decide
theorem test_decode_feq : decode 0x00049009 = .ok (.feq 9 4) := by decide
theorem test_decode_pinf : decode 0x00000310 = .ok (.pinf 3) := by decide
theorem test_decode_pnew : decode 0x10043311 = .ok (.pnew 3 3 4 .s1) := by decide
theorem test_decode_pgen : decode 0x00000512 = .ok (.pgen 5 .s0) := by decide
theorem test_decode_padd : decode 0x00035413 = .ok (.padd 4 5 3) := by decide
theorem test_decode_pmul : decode 0x00092314 = .ok (.pmul 3 2 9) := by decide
theorem test_decode_peq : decode 0x00032015 = .ok (.peq 2 3) := by decide
theorem test_decode_pubkey : decode 0x00004716 = .ok (.pubkey 7 4) := by decide
theorem test_decode_pget : decode 0x00042117 = .ok (.pget 1 2 4) := by decide
theorem test_decode_nonce : decode 0x30043220 = .ok (.nonce 2 3 4 3) := by decide
theorem test_decode_sign : decode 0x04210321 = .ok (.sign 3 0 1 2 4) := by decide
theorem test_decode_signd : decode 0x04015322 = .ok (.signd 3 5 1 4) := by decide
theorem test_decode_verify : decode 0x0CBA9823 = .ok (.verify 8 9 10 11 12) := by decide

/-- F-51, F-50, P-35, F-54: the three reasons of 30_encoding R96, and the reserved bits of a modifier. -/
theorem test_decode_rejects : decode 0x0000000A = .error .unknownOpcode ∧ decode 0x00510802 = .error .reservedField ∧
    decode 0x00000810 = .error .pointField ∧ decode 0x40000801 = .error .reservedField := by decide

/-! ## WellFormed: an ill-formed term for each check -/

theorem test_wf_opcode : (Fields.mk 0x0A 0 0 0 0 0 0).wellFormed = false := by decide
theorem test_wf_zero : (Fields.mk 0x02 8 0 1 5 0 0).wellFormed = false := by decide
theorem test_wf_point : (Fields.mk 0x10 8 0 0 0 0 0).wellFormed = false := by decide
theorem test_wf_modIx : (Fields.mk 0x01 8 0 0 0 0 4).wellFormed = false := by decide
theorem test_wf_slot : (Fields.mk 0x11 0 0 1 0 0 2).wellFormed = false := by decide
theorem test_wf_neg : (Fields.mk 0x07 8 4 10 0 0 2).wellFormed = false := by decide
theorem test_wf_accepts : (Fields.mk 0x11 0 0 1 0 0 1).wellFormed = true := by decide

/-! ## Running one command word, as the vectors of 95 do -/

/-- The state after one step; `s` itself where the step gives no next state. -/
def stepped (s : State) : State :=
  match step s with
  | .next t => t
  | .fault _ => s
  | .refused _ => s

/-- At most `n` steps, until BUSY = 0. -/
def settle : Nat → State → State
  | 0, s => s
  | n + 1, s => if s.busy then settle n (stepped s) else s

/-- The state after the command word `w` ran on `s`: one step for most commands, and for those that multiply a point one for
each bit of a small scalar and two more. -/
def after (s : State) (w : Nat) : State := settle 8 (s.withFetchWord 32 w)

/-- STATUS after the command and one operand register. -/
def regAfter (s : State) (w : Nat) (i : RegIx) : Word × Reg := (statusWord (after s w), (after s w).reg i)

/-- STATUS after the command and one point register. -/
def pointAfter (s : State) (w : Nat) (j : PointIx) : Word × Option Point := (statusWord (after s w), (after s w).point j)

/-- `WR Ri, v`. -/
def wr (i : RegIx) (v : Nat) (s : State) : State := s.setReg i ⟨toValue v, .raw⟩

/-- `WR Ri, v` and FNEW Ri, Ri, m. -/
def el (i : RegIx) (v : Nat) (m : ModIx) (s : State) : State := s.setReg i ⟨toValue v, .el m⟩

/-- The fixture of the field family of 95. -/
def fieldFix : State :=
  wr 8 99 (el 7 3 2 (el 6 1 3 (el 5 2 3 (el 4 3 3 (el 3 6 3 (el 2 0 3 (el 1 4 3 (el 0 5 3
    { State.reset with mod2 := 223#256, mod3 := 7#256 }))))))))

/-- The fixture of the point family of 95. -/
def pointFix : State :=
  ((((wr 4 111 (wr 3 36 (wr 2 152 (wr 1 71 (wr 0 47
    { State.reset with mod2 := 223#256, a1 := 0#256, b1 := 7#256, gx1 := 47#256, gy1 := 71#256 }))))).setPoint 0
      (.aff .s1 47 71)).setPoint 1 (.aff .s1 47 152)).setPoint 2 .inf).setPoint 5 generator

/-- F-52 and F-53. -/
theorem test_nop : statusWord (after fieldFix 0x00000000) = 0x00000002#32 ∧
    statusWord (after fieldFix 0x00000100) = 0x00000906#32 := by decide +kernel
/-- F-4 and F-2. -/
theorem test_fnew : regAfter (wr 9 222 fieldFix) 0x20009A01 10 = (0x002, ⟨222, .el 2⟩) ∧
    regAfter { fieldFix with mod2 := 0 } 0x20002A01 10 = (0x706, ⟨0, .raw⟩) := by decide +kernel
/-- F-1 and F-40. -/
theorem test_fnew_invalid : regAfter (wr 9 7 fieldFix) 0x30009A01 10 = (0x106, ⟨0, .raw⟩) ∧
    regAfter fieldFix 0x20000801 8 = (0x002, ⟨5, .el 2⟩) := by decide +kernel
/-- F-5, F-15 and F-21. -/
theorem test_fadd : regAfter fieldFix 0x00010802 8 = (0x002, ⟨2, .el 3⟩) ∧
    regAfter fieldFix 0x00070802 8 = (0x206, ⟨99, .raw⟩) ∧
    regAfter fieldFix 0x00090802 8 = (0x806, ⟨99, .raw⟩) := by decide +kernel
/-- F-32 and F-39. -/
theorem test_fadd_alias : regAfter fieldFix 0x00000002 0 = (0x002, ⟨3, .el 3⟩) ∧
    regAfter (el 9 3 2 { fieldFix with mod2 := 7 }) 0x00009802 8 = (0x002, ⟨1, .el 2⟩) := by decide +kernel
/-- F-7, F-8 and F-42. -/
theorem test_fsub : regAfter fieldFix 0x00005803 8 = (0x002, ⟨4, .el 3⟩) ∧
    regAfter fieldFix 0x00062803 8 = (0x002, ⟨6, .el 3⟩) ∧
    regAfter (el 10 1 0 (el 9 0 0 fieldFix)) 0x000A9803 8 =
      (0x002, ⟨0xFFFFFFFFFFFFFFFFFFFFFFFFFFFFFFFFFFFFFFFFFFFFFFFFFFFFFFFEFFFFFC2E, .el 0⟩) := by decide +kernel
/-- F-9 and F-43. -/
theorem test_fmul : regAfter fieldFix 0x00004804 8 = (0x002, ⟨1, .el 3⟩) ∧
    regAfter (el 9 0xFFFFFFFFFFFFFFFFFFFFFFFFFFFFFFFFFFFFFFFFFFFFFFFFFFFFFFFEFFFFFC2E 0 fieldFix) 0x00099804 8 =
      (0x002, ⟨1, .el 0⟩) := by decide +kernel
/-- F-10, F-11 and F-12. -/
theorem test_fdiv : regAfter fieldFix 0x00004805 8 = (0x002, ⟨2, .el 3⟩) ∧
    regAfter fieldFix 0x00024805 8 = (0x606, ⟨99, .raw⟩) ∧
    regAfter fieldFix 0x00042805 8 = (0x002, ⟨0, .el 3⟩) := by decide +kernel
/-- F-13, F-14, F-46 and F-47. -/
theorem test_finv : regAfter fieldFix 0x00004806 8 = (0x002, ⟨5, .el 3⟩) ∧
    regAfter fieldFix 0x00002806 8 = (0x606, ⟨99, .raw⟩) ∧
    regAfter (el 9 2 3 { fieldFix with mod3 := 15 }) 0x00009806 8 = (0x002, ⟨2, .el 3⟩) ∧
    regAfter (el 9 3 3 { fieldFix with mod3 := 15 }) 0x00009806 8 = (0x002, ⟨3, .el 3⟩) := by decide +kernel
/-- F-41 and F-45. -/
theorem test_finv_ends : regAfter (el 9 2 0 fieldFix) 0x00009806 8 =
      (0x002, ⟨0x7FFFFFFFFFFFFFFFFFFFFFFFFFFFFFFFFFFFFFFFFFFFFFFFFFFFFFFF7FFFFE18, .el 0⟩) ∧
    regAfter (el 9 1 3 { fieldFix with mod3 := 2 }) 0x00009806 8 = (0x002, ⟨1, .el 3⟩) := by decide +kernel
/-- F-16, F-19, F-20 and F-26. -/
theorem test_fpow : regAfter (wr 10 5 fieldFix) 0x000A4807 8 = (0x002, ⟨5, .el 3⟩) ∧
    regAfter (wr 10 6 fieldFix) 0x000A2807 8 = (0x002, ⟨1, .el 3⟩) ∧
    regAfter (wr 10 5 fieldFix) 0x000A2807 8 = (0x002, ⟨0, .el 3⟩) ∧
    regAfter (wr 10 (2 ^ 256 - 1) fieldFix) 0x000A5807 8 = (0x002, ⟨1, .el 3⟩) := by decide +kernel
/-- F-22, F-23, F-24 and F-25. -/
theorem test_fpow_neg : regAfter (wr 10 1 fieldFix) 0x100A4807 8 = (0x002, ⟨5, .el 3⟩) ∧
    regAfter (wr 10 5 fieldFix) 0x100A4807 8 = (0x002, ⟨3, .el 3⟩) ∧
    regAfter (wr 10 1 fieldFix) 0x100A2807 8 = (0x606, ⟨99, .raw⟩) ∧
    regAfter (wr 10 0 fieldFix) 0x100A2807 8 = (0x002, ⟨1, .el 3⟩) := by decide +kernel
/-- F-28, F-30 and F-31. -/
theorem test_fscale : regAfter fieldFix 0x00030808 8 = (0x002, ⟨1, .el 3⟩) ∧
    regAfter fieldFix 0x00FF0808 8 = (0x002, ⟨1, .el 3⟩) ∧
    regAfter fieldFix 0x00029808 8 = (0x806, ⟨99, .raw⟩) := by decide +kernel
/-- F-33, F-34, F-36, F-37 and F-38. -/
theorem test_feq : statusWord (after (el 9 3 3 fieldFix) 0x00049009) = 0x012#32 ∧
    statusWord (after fieldFix 0x00074009) = 0x002#32 ∧ statusWord (after (wr 9 3 fieldFix) 0x00049009) = 0x002#32 ∧
    statusWord (after (wr 9 99 fieldFix) 0x00089009) = 0x012#32 ∧
    statusWord (after (el 9 3 2 { fieldFix with mod2 := 7 }) 0x00049009) = 0x012#32 := by decide +kernel

/-- The example of 42_point R173. -/
theorem test_pinf : pointAfter pointFix 0x00000310 3 = (0x002, some .inf) := by decide +kernel
/-- P-2, P-3, P-4. -/
theorem test_pnew : pointAfter pointFix 0x10043311 3 = (0x002, some (.aff .s1 36 111)) ∧
    pointAfter (wr 9 72 pointFix) 0x10090311 3 = (0x306, none) ∧
    pointAfter (wr 9 223 pointFix) 0x10090311 3 = (0x106, none) := by decide +kernel
/-- P-5, P-6. -/
theorem test_pnew_slot : pointAfter { pointFix with mod2 := 0 } 0x10010311 3 = (0x706, none) ∧
    pointAfter { pointFix with a1 := 300 } 0x10010311 3 = (0x106, none) := by decide +kernel
/-- P-14 and the example of 42_point R175. -/
theorem test_pgen : pointAfter pointFix 0x10000312 3 = (0x002, some (.aff .s1 47 71)) ∧
    pointAfter State.reset 0x00000512 5 = (0x002, some (.aff .s0 Config.gx0 Config.gy0)) := by decide +kernel
/-- P-7, P-8, P-9, P-10, P-11, P-12, P-13, P-15. -/
theorem test_padd : pointAfter pointFix 0x00010313 3 = (0x002, some .inf) ∧
    pointAfter pointFix 0x00002313 3 = (0x002, some (.aff .s1 47 71)) ∧
    pointAfter pointFix 0x00020313 3 = (0x002, some (.aff .s1 47 71)) ∧
    pointAfter pointFix 0x00022313 3 = (0x002, some .inf) ∧
    pointAfter pointFix 0x00000013 0 = (0x002, some (.aff .s1 36 111)) ∧
    pointAfter pointFix 0x00040313 3 = (0x806, none) ∧
    pointAfter pointFix 0x00005313 3 = (0x406, none) := by decide +kernel
/-- L1-1 and P-36. -/
theorem test_padd_chord : pointAfter ((pointFix.setPoint 0 (.aff .s1 192 105)).setPoint 1 (.aff .s1 17 56)) 0x00010213 2 =
      (0x002, some (.aff .s1 170 142)) ∧
    pointAfter ({ State.reset with mod2 := 4 }.setPoint 4 (.aff .s1 0 2)) 0x00044613 6 = (0x606, none) := by decide +kernel
/-- P-21 (15 of it, the order being 21), from the loop as one function. -/
theorem test_pmul_long : pointMul pointFix.curve (.aff .s1 47 71) (2 ^ 256 - 1) = .ok (.aff .s1 139 86) := by decide +kernel
/-- P-19, P-20, P-22 and P-24. -/
theorem test_pmul : pointAfter (wr 9 0 pointFix) 0x00090314 3 = (0x002, some .inf) ∧
    pointAfter (wr 9 1 pointFix) 0x00090314 3 = (0x002, some (.aff .s1 47 71)) ∧
    pointAfter (wr 9 5 pointFix) 0x00092314 3 = (0x002, some .inf) ∧
    pointAfter (wr 9 20 pointFix) 0x00090014 0 = (0x002, some (.aff .s1 47 152)) := by decide +kernel
/-- The last example of 42_point R183: 1·(0, 1) on p = 2, a = 0, b = 1 fails in the unused final doubling. -/
theorem test_pmul_last_doubling : pointAfter (wr 9 1 ({ State.reset with mod2 := 2, b1 := 1 }.setPoint 0 (.aff .s1 0 1)))
    0x00090314 3 = (0x606, none) := by decide +kernel
/-- P-1, P-25, P-26, P-27. -/
theorem test_peq : statusWord (after pointFix 0x00030015) = 0x806#32 ∧ statusWord (after pointFix 0x00010015) = 0x002#32 ∧
    statusWord (after (pointFix.setPoint 3 .inf) 0x00032015) = 0x012#32 ∧
    statusWord (after pointFix 0x00002015) = 0x002#32 := by decide +kernel
/-- P-16: the curves are equal by value. -/
theorem test_peq_slots : statusWord (after ({ State.reset with mod2 := Config.mod0, b1 := 7 }.setPoint 3
      (.aff .s1 Config.gx0 Config.gy0) |>.setPoint 5 generator) 0x00053015) = 0x012#32 := by decide +kernel
/-- P-28, P-30. -/
theorem test_pubkey : pointAfter (wr 9 0 pointFix) 0x00009316 3 = (0x002, some .inf) ∧
    pointAfter (wr 9 2 pointFix) 0x00009316 3 =
      (0x002, some (.aff .s0 0xC6047F9441ED7D6D3045406E95C07CD85C778E4B8CEF3CA7ABAC09B95C709EE5
        0x1AE168FEA63DC339A3C58419466CEAEEF7F632653266D0E1236431A950CFE52A)) := by decide +kernel
/-- P-32, P-33 and the aliasing of 42_point R186. -/
theorem test_pget : regAfter pointFix 0x00009817 8 = (0x002, ⟨47, .raw⟩) ∧ regAfter pointFix 0x00009817 9 = (0x002, ⟨71, .raw⟩) ∧
    regAfter (wr 8 99 pointFix) 0x00029817 8 = (0x806, ⟨99, .raw⟩) ∧
    regAfter pointFix 0x00008817 8 = (0x002, ⟨71, .raw⟩) := by decide +kernel

/-- The digest of 95: SHA-256 of "sample". -/
def hSample : Nat := 0xAF2BDBE1AA9B6EC1E2ADE1D694F41FC71A831D0268E9891562113D8A62ADD1BF
/-- The digest of 95: SHA-256 of "Satoshi Nakamoto". -/
def hSN : Nat := 0xA0DC65FFCA799873CBEA0AC274015B9526505DAAAED385155425F7337704883E

/-- The fixture of the signature family of 95. -/
def signFix : State := wr 5 hSN (wr 2 1 (wr 1 1 (wr 0 hSample State.reset)))

/-- S-1 and S-12: r in r3 and s in r4, and s alone where both destinations are r3. -/
theorem test_sign : regAfter signFix 0x04210321 3 =
      (0x002, ⟨0x79BE667EF9DCBBAC55A06295CE870B07029BFCDB2DCE28D959F2815B16F81798, .raw⟩) ∧
    regAfter signFix 0x04210321 4 =
      (0x002, ⟨0x28EA4260A4782A6E384E446C637B2ACF62703CF6E76F11B2FC316058A96FA816, .raw⟩) ∧
    regAfter signFix 0x03210321 3 =
      (0x002, ⟨0x28EA4260A4782A6E384E446C637B2ACF62703CF6E76F11B2FC316058A96FA816, .raw⟩) := by decide +kernel
/-- S-4, S-5, S-6, S-9. -/
theorem test_sign_errors : regAfter (wr 2 0 signFix) 0x04210321 3 = (0x506, ⟨0, .raw⟩) ∧
    regAfter (wr 2 Config.mod1.toNat signFix) 0x04210321 3 = (0x106, ⟨0, .raw⟩) ∧
    regAfter (wr 1 0 signFix) 0x04210321 3 = (0x106, ⟨0, .raw⟩) ∧
    regAfter (wr 0 (Config.mod1.toNat - Config.gx0.toNat) signFix) 0x04210321 3 = (0x506, ⟨0, .raw⟩) := by decide +kernel

/-- The nonce of N-1. -/
def nonceN1 : Nat := 0x8F8A276C19F4149656B280621E358CCE24F5F52542772691EE69063B74F15D15

/-- GEN_K in the T loop, the response `t` having arrived. -/
def filled (t : Bytes) : Drbg := ⟨[], [], [], 0, .fill, ⟨[], []⟩, some t, []⟩

/-- SIGND of the signature fixture when the response that holds the nonce of N-1 has arrived. -/
def signdDrawn : State :=
  { signFix with
    cmd := 0x04015322
    phase := .exec 0 (.gen (filled (beBytes nonceN1 32))) }

/-- The candidate is accepted and the multiplication by it begins (44_ecdsa R243). -/
theorem test_signd_candidate : (stepped signdDrawn).phase = .exec 0 (.mul ⟨nonceN1, 0, none, .inf, generator⟩) := by decide +kernel

/-- The same SIGND with the product of the nonce and G in its accumulator. -/
def signdMultiplied : State :=
  { signdDrawn with
    phase := .exec 0 (.mul ⟨nonceN1, 256, none,
      (match pointMul signdDrawn.curve generator nonceN1 with | .ok R => R | .error _ => .inf), generator⟩) }

/-- S-13, from R = k·G. -/
theorem test_signd : (stepped signdMultiplied).reg 3 =
      ⟨0x934B1EA10A4B3C1757E2B0C017D0B6143CE3C9A7E6A4A49860D7A6AB210EE3D8, .raw⟩ ∧
    (stepped signdMultiplied).reg 4 =
      ⟨0xDBBD3162D46E9F9BEF7FEB87C16DC13B4F6568A87F4E83F728E2443BA586675C, .raw⟩ ∧
    statusWord (stepped signdMultiplied) = 0x002#32 := by decide +kernel
/-- S-15. -/
theorem test_signd_key : regAfter (wr 1 0 signFix) 0x04015322 3 = (0x106, ⟨0, .raw⟩) := by decide +kernel

/-- The fixture of the verify family of 95. -/
def verifyFix : State :=
  wr 7 Config.gy0.toNat (wr 6 Config.gx0.toNat (wr 4 0xDBBD3162D46E9F9BEF7FEB87C16DC13B4F6568A87F4E83F728E2443BA586675C
    (wr 3 0x934B1EA10A4B3C1757E2B0C017D0B6143CE3C9A7E6A4A49860D7A6AB210EE3D8 signFix)))

/-- VERIFY of the fixture with both products computed: PMUL(G, u) in `earlier`, PMUL(Q, v) in the accumulator. -/
def verifyMultiplied (s : State) : State :=
  let n := Config.mod1.toNat
  let w := verifyW (s.valNat 4)
  let product := fun k => match pointMul s.curve generator k with | .ok R => R | .error _ => .inf
  let v := s.valNat 3 * w % n
  { s with
    cmd := 0x07654323
    phase := .exec 0 (.mul ⟨v, bitlen v, some (product (s.valNat 5 * w % n)), product v, generator⟩) }

/-- V-1. -/
theorem test_verify : statusWord (stepped (verifyMultiplied verifyFix)) = 0x00A#32 := by decide +kernel
/-- V-2: another digest. -/
theorem test_verify_other_digest : statusWord (stepped (verifyMultiplied (wr 5 0xA1DC65FFCA799873CBEA0AC274015B9526505DAAAED385155425F7337704883E verifyFix))) = 0x002#32 := by decide +kernel
/-- V-9, V-12, V-13, V-15. -/
theorem test_verify_false : statusWord (after (wr 3 0 verifyFix) 0x07654323) = 0x002#32 ∧
    statusWord (after (wr 4 Config.mod1.toNat verifyFix) 0x07654323) = 0x002#32 ∧
    statusWord (after (wr 6 Config.mod0.toNat verifyFix) 0x07654323) = 0x002#32 ∧
    statusWord (after (wr 7 (Config.gy0.toNat + 1) verifyFix) 0x07654323) = 0x002#32 := by decide +kernel

/-- N-4. -/
theorem test_nonce_modulus : regAfter State.reset 0x20010220 2 = (0x706, ⟨0, .raw⟩) := by decide +kernel
/-- A candidate in range is committed (43_nonce R217); one out of range is counted, the command stays BUSY and asks again (R218). -/
theorem test_nonce_candidate :
    (stepped { State.reset with cmd := 0x10010220, phase := .exec 0 (.gen (filled (beBytes 5 32))) }).reg 2 = ⟨5, .raw⟩ ∧
    (stepped { State.reset with cmd := 0x10010220, phase := .exec 0 (.gen (filled (beBytes 0 32))) }).iter = 1 ∧
    (stepped { State.reset with cmd := 0x10010220, phase := .exec 0 (.gen (filled (beBytes 0 32))) }).waiting = true := by decide +kernel

/-- NONCE waiting for the response to a request, with these events pending. -/
def asking (events : List HostEvent) : State :=
  { State.reset with
    cmd := 0x10010220
    phase := .exec 0 (.gen { filled [] with tag := none, req := ⟨[1#8], [2#8]⟩ })
    host := events }

/-- 20_memory R79: the command waits; its response is the tag of its request; after a reset or an abort a late one is discarded, and the
next command's request is answered by the next one. -/
theorem test_mac_port : step (asking []) = .next (asking []) ∧
    stepped (asking [.macReply]) =
      { asking [] with phase := .exec 0 (.gen { filled [] with tag := some (Config.mac [1#8] [2#8]), req := ⟨[1#8], [2#8]⟩ }) } ∧
    (asking []).toReset.abandoned = 1 ∧ (asking []).abort.abandoned = 1 ∧
    stepped { asking [.macReply] with abandoned := 1 } = asking [] := ⟨rfl, rfl, rfl, rfl, rfl⟩

/-- 70_reset_and_hazards R313: RST discards a command inside the loop of PMUL, and one that waits for a response. -/
theorem test_rst_busy : (stepped { signdDrawn with host := [.rst true] }).phase = .idle ∧
    (stepped { signdDrawn with host := [.rst true] }).done = false ∧
    (stepped (asking [.rst true])).abandoned = 1 ∧ (stepped (asking [.rst true])).iter = 0 := by decide +kernel

/-! ## The generator with the nominal MAC (00_scope R12): HMAC-SHA-256, from general knowledge, test only. Its constants are computed
from the primes that define them -/

/-- Half the gap after each odd prime from 3 on, one hexadecimal digit each, the first one lowest. -/
def halfGaps : Nat := 0x27512313335132126612151332331513272121243231231332123132121211

/-- `count` odd primes from `p` on. -/
def oddPrimes (gaps p : Nat) : Nat → List Nat
  | 0 => []
  | count + 1 => p :: oddPrimes (gaps / 16) (p + 2 * (gaps % 16)) count

/-- The first 64 primes. -/
def primes64 : List Nat := 2 :: oddPrimes halfGaps 3 63

theorem test_primes64 : primes64 = (List.range 312).filter fun p => 2 ≤ p && (List.range p).all fun d => d < 2 || p % d ≠ 0 := by
  decide +kernel

/-- The greatest r < 2^bits with r^power ≤ n, one bit at a time. -/
def rootBelow (power n : Nat) : Nat → Nat → Nat
  | 0, r => r
  | bits + 1, r => rootBelow power n bits (if (r + 2 ^ bits) ^ power ≤ n then r + 2 ^ bits else r)

/-- The first 32 bits after the point of the square root (power 2) or cube root (power 3) of p. -/
def rootFraction (power p : Nat) : Nat := rootBelow power (p * 2 ^ (32 * power)) 36 0 % 2 ^ 32

/-- The eight working words of SHA-256. -/
structure Work8 where
  a : Nat
  b : Nat
  c : Nat
  d : Nat
  e : Nat
  f : Nat
  g : Nat
  h : Nat

/-- A word turned right by each of three amounts, and the xor of the three. -/
def turned (x i j k : Nat) : Nat :=
  let twice := x * (2 ^ 32 + 1)
  (twice >>> i ^^^ twice >>> j ^^^ twice >>> k) % 2 ^ 32

/-- The same with a shift in place of the last turn. -/
def turnedShifted (x i j k : Nat) : Nat :=
  let twice := x * (2 ^ 32 + 1)
  (twice >>> i ^^^ twice >>> j) % 2 ^ 32 ^^^ x >>> k

/-- One round with its constant and its message word. -/
def Work8.round (r : Work8) (constant word : Nat) : Work8 :=
  let choice := (r.e &&& r.f) ^^^ (r.g &&& (r.e ^^^ (2 ^ 32 - 1)))
  let majority := (r.a &&& (r.b ||| r.c)) ||| (r.b &&& r.c)
  let mixed := r.h + turned r.e 6 11 25 + choice + constant + word
  { a := (mixed + turned r.a 2 13 22 + majority) % 2 ^ 32, b := r.a, c := r.b, d := r.c
    e := (r.d + mixed) % 2 ^ 32, f := r.e, g := r.f, h := r.g }

/-- The rounds of one block, one for each prime: the window holds the next sixteen message words. -/
def Work8.rounds (r : Work8) (window : List Nat) : List Nat → Work8
  | [] => r
  | p :: primes =>
    match window with
    | [] => r
    | w :: rest =>
      let next := w + turnedShifted (rest.getD 0 0) 7 18 3 + rest.getD 8 0 + turnedShifted (rest.getD 13 0) 17 19 10
      (r.round (rootFraction 3 p) w).rounds (rest ++ [next % 2 ^ 32]) primes

/-- The sixteen words of a block. -/
def blockWords (block : Bytes) : List Nat := (List.range 16).map fun i => intOfBytes ((block.drop (4 * i)).take 4)

def Work8.absorb (r : Work8) (block : Bytes) : Work8 :=
  let s := r.rounds (blockWords block) primes64
  { a := (r.a + s.a) % 2 ^ 32, b := (r.b + s.b) % 2 ^ 32, c := (r.c + s.c) % 2 ^ 32, d := (r.d + s.d) % 2 ^ 32
    e := (r.e + s.e) % 2 ^ 32, f := (r.f + s.f) % 2 ^ 32, g := (r.g + s.g) % 2 ^ 32, h := (r.h + s.h) % 2 ^ 32 }

def Work8.digest (r : Work8) : Bytes := [r.a, r.b, r.c, r.d, r.e, r.f, r.g, r.h].flatMap fun x => beBytes x 4

/-- The working words before the first block. -/
def work8Start : Work8 :=
  { a := rootFraction 2 2, b := rootFraction 2 3, c := rootFraction 2 5, d := rootFraction 2 7
    e := rootFraction 2 11, f := rootFraction 2 13, g := rootFraction 2 17, h := rootFraction 2 19 }

/-- SHA-256 of a message, filled up to whole blocks. -/
def sha256 (message : Bytes) : Bytes :=
  let filled := message ++ 0x80#8 :: List.replicate ((119 - message.length % 64) % 64) 0#8 ++ beBytes (8 * message.length) 8
  ((List.range (filled.length / 64)).foldl (fun r i => r.absorb ((filled.drop (64 * i)).take 64)) work8Start).digest

/-- HMAC-SHA-256 for keys of at most 64 bytes. -/
def hmac (key message : Bytes) : Bytes :=
  let pad := fun (filler : Byte) => (List.range 64).map fun i => key.getD i 0 ^^^ filler
  sha256 (pad 0x5c ++ sha256 (pad 0x36 ++ message))
/-- 93 G3: the digest of "sample" that 95 prints. -/
theorem test_sha256 : intOfBytes (sha256 [0x73, 0x61, 0x6d, 0x70, 0x6c, 0x65]) = hSample := by decide +kernel

/-- GEN_K with every request answered: the rejected candidates, the accepted one, and the number of requests. -/
def genRun (z e q : Nat) : Nat → List Nat → Drbg → Option (List Nat × Nat × Nat)
  | 0, _, _ => none
  | n + 1, rejects, g =>
    match g.advance z e q (hmac g.req.key g.req.msg) with
    | .goes g' => genRun z e q n rejects g'
    | .rejects g' => genRun z e q n (rejects ++ [g'.candidate]) g'
    | .accepts k => some (rejects, k, g.sent.length)

/-- N-1: the first candidate is accepted after 5 calls and is the nonce; the closed form of the statements gives the same. -/
theorem test_genK_secp256k1 : genRun hSN 1 Config.mod1.toNat 5 [] (Drbg.begin 32 hSN 1 Config.mod1.toNat) = some ([], nonceN1, 5) := by
  decide +kernel
theorem test_passCandidate : passCandidate hmac 32 hSN 1 Config.mod1.toNat 0 = nonceN1 := by decide +kernel

/-- The group order of L1-9. -/
def q163 : Nat := 0x4000000000000000000020108A2E0CC0D99F8A5EF
/-- L1-9: the value of bits2octets that the source states. -/
theorem test_bits2octets : intOfBytes (bits2octets (beBytes hSample 32) q163) =
    0x01795edf0d54db760f156d0dac04c0322b3a204224 := by decide +kernel
/-- L1-9: two candidates are rejected, the third is the nonce of the source, after the 11 MAC calls of 43_nonce R221. -/
theorem test_genK_163 : genRun hSample 0x9A4D6792295A7F730FC3F2B49CBC0F62E862272F q163 11 []
      (Drbg.begin 32 hSample 0x9A4D6792295A7F730FC3F2B49CBC0F62E862272F q163) =
    some ([0x4982D236F3FFC758838CA6F5E9FEA455106AF3B2B, 0x63863C30451DADF4944DF4877B740D4F160A8B6AB],
      0x23AF4074C90A02B3FE61D286D5C87F425E6BDD81B, 11) := by decide +kernel
/-- N-10: z = 2^256 - 1 exceeds n, and the nonce of spec 95 is the one in which Hq is z - n (43_nonce R213, R216). -/
theorem test_genK_N10 : genRun (2 ^ 256 - 1) 1 Config.mod1.toNat 5 [] (Drbg.begin 32 (2 ^ 256 - 1) 1 Config.mod1.toNat) =
    some ([], 0x71139AAC71B52F7D5961915AF1B30F94BAF35E39B0043C33D41A57D476A8905C, 5) := by decide +kernel
/-- 43_nonce R213, R215, R216: z and z + n give one Hq, for every z with z + n below 2^256 (log entry 21). -/
theorem test_seedTail_wraps (separator : Byte) (z e : Nat) (h : z + Config.mod1.toNat < 2 ^ 256) :
    seedTail separator (z + Config.mod1.toNat) e Config.mod1.toNat = seedTail separator z e Config.mod1.toNat :=
  seedTail_add_order (by decide +kernel) h
/-- Its hypothesis is met: z = 5. -/
theorem test_bits2octets_wraps : bits2octets (beBytes (5 + Config.mod1.toNat) 32) Config.mod1.toNat =
    bits2octets (beBytes 5 32) Config.mod1.toNat := by decide +kernel

/-! ## The bus and the status words (spec 95, B-1 to B-19) -/

/-- The state after these accesses, each 32 bits wide at an offset of the window. -/
def served (s : State) : List (BitVec 12 × BusOp) → State
  | [] => s
  | (off, op) :: rest => served (busAccess s 32 off op) rest

/-- `RD32 off`. -/
def rd32 (off : BitVec 12) : BitVec 12 × BusOp := (off, .read)
/-- `WR32 off, w`. -/
def wr32 (off : BitVec 12) (w : Word) : BitVec 12 × BusOp := (off, .write w)

/-- One step of an idle engine serves the pending access, whatever BASE is; one below the window is none of the engine's. -/
theorem test_access_step (off : BitVec 12) (op : BusOp) :
    stepped { State.reset with host := [accessAt 32 off op] } = busAccess State.reset 32 off op ∧
    (0 < Config.base → stepped { State.reset with host := [.access 32 (Config.base - 1) op] } = State.reset) := by
  constructor
  · show addressed State.reset 32 (Config.base + off.toNat) op = _
    exact addressed_base ..
  · intro h
    show addressed State.reset 32 (Config.base - 1) op = _
    exact addressed_outside (by omega)

/-- The data of the read served last. -/
def readData (s : State) : Option Word :=
  match s.resp with
  | some (.read false w) => some w
  | some (.read true _) => none
  | some (.write _) => none
  | none => none

/-- B-1, B-3, B-4 (first, seventh and eighth word), B-19. -/
theorem test_bus_constants : readData (served State.reset [rd32 0x000]) = some 0x45430001 ∧
    readData (served State.reset [rd32 0x00C]) = some 0 ∧ readData (served State.reset [rd32 0x300]) = some 0xFFFFFFFF ∧
    readData (served State.reset [rd32 0x318]) = some 0xFFFFFFFE ∧ readData (served State.reset [rd32 0x31C]) = some 0xFFFFFC2F ∧
    readData (served State.reset [rd32 0x024]) = some 0 := by decide +kernel
/-- B-2 but for K_LEN, the free value: NR = 16 and NP = 8. -/
theorem test_bus_param : paramWord.extractLsb' 8 24 = 0x000810 := by
  have key : ∀ x : BitVec 8, (0#8 ++ BitVec.ofNat 8 Config.np ++ BitVec.ofNat 8 Config.nr ++ x).extractLsb' 8 24 = 0x000810 := by
    decide +kernel
  exact key _
/-- B-5, B-6 and an access of 8 bits (20_memory R61). -/
theorem test_bus_words : readData (served State.reset [wr32 0x11C 5, rd32 0x100]) = some 0 ∧
    readData (served State.reset [wr32 0x11C 5, rd32 0x11C]) = some 5 ∧ (served State.reset [wr32 0x11C 5]).reg 0 = ⟨5, .raw⟩ ∧
    readData (served State.reset [wr32 0x300 0, rd32 0x300]) = some 0xFFFFFFFF ∧ (served State.reset [wr32 0x300 0]).wign = false ∧
    (busAccess State.reset 8 0x11C (.write 5)).resp = some (.write true) ∧
    (busAccess State.reset 8 0x11C (.write 5)).reg 0 = ⟨0, .raw⟩ := by decide +kernel
/-- B-8, B-9, B-14 and B-15, from the state after a NOP (B-7, test_nop). -/
theorem test_bus_status : readData (served (after State.reset 0) [wr32 0x00C 2, rd32 0x00C]) = some 0 ∧
    (served (after State.reset 0) [wr32 0x008 1]).irq = true ∧
    (served (after State.reset 0) [wr32 0x008 1, wr32 0x00C 2]).irq = false ∧
    readData (served State.reset [wr32 0x008 2, rd32 0x00C]) = some 0 ∧
    readData (served State.reset [wr32 0x008 1, wr32 0x008 4, rd32 0x008]) = some 0 := by decide +kernel
/-- A NONCE of which three accesses are still to be served. -/
def nonceBusy : State := { signFix with cmd := 0x10010220, phase := .exec 3 .fresh }
/-- B-11, B-12, B-13, B-16. -/
theorem test_bus_busy : (served nonceBusy [wr32 0x100 1]).reg 0 = nonceBusy.reg 0 ∧ (served nonceBusy [wr32 0x100 1]).wign = true ∧
    (served nonceBusy [wr32 0x010 0]).cmd = 0x10010220 ∧ (served nonceBusy [wr32 0x010 0]).wign = true ∧
    statusWord (served nonceBusy [wr32 0x008 2]) = 0xA06 ∧ (served nonceBusy [wr32 0x008 2]).reg 2 = nonceBusy.reg 2 ∧
    statusWord (served nonceBusy [wr32 0x008 6]) = 0 := by decide +kernel
/-- B-17 (F-49) and B-18. -/
theorem test_bus_maps : readData (served (el 0 3 3 { State.reset with mod3 := 7 }) [rd32 0x018]) = some 0x00000007 ∧
    readData (served (after (after State.reset 0x00000110) 0x00000212) [rd32 0x020]) = some 0x00000210 ∧
    readData (served (after (after State.reset 0x00000110) 0x00000212) [rd32 0x540]) = some 0 ∧
    readData (served (after (after State.reset 0x00000110) 0x00000212) [rd32 0x580]) = some 0x79BE667E := by decide +kernel
/-- 10_state R30: a write to MOD2 makes a slot-1 point NONE and leaves one of slot 0; one to MOD3 makes its element RAW. -/
theorem test_bus_invalidates : (served pointFix [wr32 0x340 1]).point 0 = none ∧ (served pointFix [wr32 0x340 1]).point 5 = some generator ∧
    (served fieldFix [wr32 0x360 0]).reg 3 = ⟨6, .raw⟩ ∧ (served fieldFix [wr32 0x360 0]).reg 7 = ⟨3, .el 2⟩ := by decide +kernel
/-- 60_exceptions R270: a CMD write that an idle engine serves latches the word and clears the status record. -/
theorem test_bus_accept : (served (after State.reset 0) [wr32 0x010 0x0A]).cmd = 0x0A ∧
    (served (after State.reset 0) [wr32 0x010 0x0A]).done = false ∧ (served (after State.reset 0) [wr32 0x010 0x0A]).busy = true :=
  ⟨rfl, rfl, rfl⟩

/-! ## Witnesses: for each statement with hypotheses a state and operands that meet them, each clause at a boundary value -/

/-- The command answers a next state of which `p` holds. -/
def execMeets (i : Instr) (s : State) (p : State → Bool) : Bool :=
  match exec i s with
  | .next t => p t
  | .fault _ => false
  | .refused _ => false

/-- A command word just begun, with nothing left of LAT. -/
def ran (w : Nat) (s : State) : State := s.withFetchWord 32 w

theorem witness_EncodeOfDecodeIsIdentity : decode 0x0CBA9823 = .ok (.verify 8 9 10 11 12) ∧ ("VERIFY", 0x00000023, 0xF00000FF) ∈ opcodeRows ∧
    (0x0CBA9823 : Word) &&& 0xF00000FF = 0x00000023 := by decide
/-- A command just begun goes on, and so does one whose response has arrived; one that waits does not. -/
theorem goesOn_ran (w : Nat) (s : State) : goesOn (ran w s) :=
  ⟨⟨.fresh, rfl⟩, fun level rest h => (by cases h), fun ⟨b, g, h, _⟩ => by cases h⟩
theorem outstanding_asking (events : List HostEvent) : outstanding (asking events) := ⟨0, _, rfl, rfl⟩
theorem witness_IllegalWordsCompleteWithCodeNine : goesOn (ran 0x0A State.reset) ∧
    (Fields.ofWord (ran 0x0A State.reset).cmd).wellFormed = false := ⟨goesOn_ran _ _, by decide⟩
theorem witness_StepRunsTheDecodedCommand : goesOn (ran 0x0CBA9823 State.reset) ∧
    decode (ran 0x0CBA9823 State.reset).cmd = .ok (.verify 8 9 10 11 12) ∧ goesOn signdDrawn :=
  ⟨goesOn_ran _ _, by decide, ⟨_, rfl⟩, fun level rest h => (by cases h), fun ⟨b, g, h, hg⟩ => by cases h; cases hg⟩
theorem witness_CmdWriteWhileIdleAccepts : fieldFix.phase = .idle ∧ fieldFix.rst = false ∧
    { fieldFix with host := [accessAt 32 0x010 (.write 0x20)] }.host = accessAt 32 0x010 (.write 0x20) :: [] := ⟨rfl, rfl, rfl⟩
theorem witness_AccessesWhileBusyKeepTheCommand : { State.reset with phase := .exec 1 .fresh }.rst = false ∧
    harmless 32 0x00C .read = true ∧ harmless 32 0x008 (.write 1) = true ∧ harmless 8 0x008 (.write 2) = true ∧
    harmless 32 0x010 (.write 0) = true ∧ harmless 32 0x008 (.write 2) = false ∧
    outstanding (asking [accessAt 32 0x014 .read]) ∧ (asking []).rst = false :=
  ⟨rfl, by decide, by decide, by decide, by decide, by decide, outstanding_asking _, rfl⟩
theorem witness_MacResponsesAreDeliveredOrDiscarded : (asking [.macReply]).host = .macReply :: [] ∧ outstanding (asking [.macReply]) ∧
    (asking []).abandoned = 0 ∧ 0 < { asking [.macReply] with abandoned := 1 }.abandoned ∧ (asking []).err = false ∧
    runsGenK (.nonce 2 0 1 1) = true ∧ ¬ outstanding { State.reset with host := [.macReply] } ∧ (asking []).phase = .exec 0 (asking []).work :=
  ⟨rfl, outstanding_asking _, rfl, by decide, rfl, rfl, fun ⟨b, g, h, _⟩ => (by cases h), rfl⟩
theorem fresh_loopConsistent {s : State} (h : s.work = .fresh) : s.LoopConsistent := by
  refine ⟨fun b g hg => ?_, fun b m hm => ?_⟩
  · simp only [State.work, hg] at h; cases h
  · simp only [State.work, hm] at h; cases h
theorem witness_CommandsWithoutGenKComplete : ({ ran 0x0CBA9823 verifyFix with phase := .exec 3 .fresh }).host = [] ∧
    ({ ran 0x0CBA9823 verifyFix with phase := .exec 3 .fresh }).LoopConsistent ∧
    decode (ran 0x0CBA9823 verifyFix).cmd = .ok (.verify 8 9 10 11 12) ∧ runsGenK (.verify 8 9 10 11 12) = false ∧
    (asking [.quiet]).host = .quiet :: [] := ⟨rfl, fresh_loopConsistent rfl, by decide, rfl, rfl⟩
theorem witness_ErrorCompletionsWriteNothing : fieldFix.err = false ∧ execMeets (.fadd 8 0 7) fieldFix (fun t => t.err) = true := by
  decide +kernel
theorem witness_ErrorCodesOfEachCommand : (ran 0x00070802 fieldFix).LoopConsistent ∧
    decode (ran 0x00070802 fieldFix).cmd = .ok (.fadd 8 0 7) ∧ (ran 0x00070802 fieldFix).err = false ∧
    execMeets (.fadd 8 0 7) (ran 0x00070802 fieldFix) (fun t => t.err) = true :=
  ⟨fresh_loopConsistent rfl, by decide, by decide, by decide +kernel⟩
theorem witness_FlagsAreWrittenOnlyByTheirCommands : writesEq .nop = false ∧ writesVres .nop = false ∧
    execMeets .nop fieldFix (fun _ => true) = true := by decide
theorem witness_IterCountsRejectedCandidates : runsGenK .nop = false ∧
    execMeets .nop fieldFix (fun _ => true) = true ∧ 2 ≤ { State.reset with mod2 := 2 }.modNat 2 ∧
    rejected 2 2 ∧ rejected Config.mod1.toNat 0 ∧ ¬ rejected Config.mod1.toNat nonceN1 ∧
    1 ≤ signFix.valNat 1 ∧ signFix.valNat 1 < Config.mod1.toNat ∧ octetLen Config.mod1.toNat ≤ (beBytes 0 32).length ∧
    { signFix with phase := .exec 0 (.gen (filled (beBytes 0 32))) }.work = .gen (filled (beBytes 0 32)) ∧
    (filled (beBytes 0 32)).tag = some (beBytes 0 32) ∧ (filled []).call = .fill := by unfold rejected; decide
theorem witness_FieldCommandsWriteOnlyTheirDestination : fieldDest (.fadd 8 0 1) = some 8 ∧
    execMeets (.fadd 8 0 1) fieldFix (fun t => !t.err) = true ∧ locate 0x010 = .cmd := by decide +kernel
theorem witness_PointCommandsWriteOnlyTheirDestination : pointDest (.pmul 3 0 1) = some 3 ∧
    multipliesPoint (.pmul 3 0 1) = true ∧ execMeets (.pmul 3 0 1) pointFix (fun t => t.busy) = true ∧
    multipliesPoint (.pinf 3) = false ∧ execMeets (.pinf 3) pointFix (fun t => !t.busy) = true ∧
    execMeets (.padd 3 4 0) pointFix (fun t => t.point 3 == none) = true := by decide +kernel
theorem witness_ComparingCommandsWriteOnlyTheStatus : writesEq (.feq 0 1) = true ∧ writesVres (.feq 0 1) = false ∧
    execMeets (.feq 0 1) fieldFix (fun _ => true) = true ∧ writesVres (.verify 3 4 5 6 7) = true ∧
    writesEq (.verify 3 4 5 6 7) = false ∧ execMeets (.verify 3 4 5 6 7) verifyFix (fun t => t.busy) = true := by decide +kernel
theorem witness_RawResultCommandsWriteOnlyTheirDestinations : rawDests (.pget 8 9 0) ≠ [] ∧ runsGenK (.pget 8 9 0) = false ∧
    execMeets (.pget 8 9 0) pointFix (fun t => !t.busy) = true ∧ rawDests (.sign 3 0 1 2 4) ≠ [] ∧
    execMeets (.sign 3 0 1 2 4) signFix (fun t => t.busy) = true ∧ rawDests (.nonce 2 0 1 2) ≠ [] ∧
    execMeets (.nonce 2 0 1 2) signFix (fun t => t.err) = true := by decide +kernel
theorem witness_Slot0CommandsReadNoSlot1State : slot0Only (.pubkey 3 9) = true ∧ decode (ran 0x00009316 pointFix).cmd = .ok (.pubkey 3 9) ∧
    (ran 0x00009316 pointFix).LoopConsistent := ⟨rfl, by decide, fresh_loopConsistent rfl⟩
theorem witness_FnewBindsAValueBelowItsModulus : { State.reset with mod2 := 1 }.modNat 2 < 2 ∧ 2 ≤ fieldFix.modNat 3 ∧
    fieldFix.modNat 3 ≤ (wr 9 7 fieldFix).valNat 9 ∧ (wr 9 6 fieldFix).valNat 9 < fieldFix.modNat 3 := by decide
theorem fieldFix_reduced : fieldFix.ElementsReduced := by unfold State.ElementsReduced; decide +kernel
theorem witness_RingCommandsComputeInTheIntegersModM : fieldFix.ElementsReduced ∧ (fieldFix.reg 3).tag = .el 3 ∧
    (fieldFix.reg 2).tag = .el 3 ∧ fieldFix.modulus 3 = fieldFix.modulus 3 ∧
    (el 9 6 2 { fieldFix with mod2 := 7 }).modulus 2 = (el 9 6 2 { fieldFix with mod2 := 7 }).modulus 3 :=
  ⟨fieldFix_reduced, by decide, by decide, rfl, by decide⟩
theorem witness_FpowRaisesToTheSignedExponent : (fieldFix.reg 2).tag = .el 3 ∧ 2 ≤ fieldFix.modNat 3 ∧ fieldFix.valNat 2 = 0 ∧
    (wr 10 1 fieldFix).valNat 10 ≠ 0 ∧ (wr 10 0 fieldFix).valNat 10 = 0 ∧ 2 ≤ { State.reset with mod3 := 2 }.modNat 3 := by decide
theorem witness_FdivAndFinvComputeTheFermatFormula : fieldFix.ElementsReduced ∧ (fieldFix.reg 3).tag = .el 3 ∧
    (fieldFix.reg 4).tag = .el 3 ∧ (fieldFix.reg 2).tag = .el 3 ∧ fieldFix.valNat 2 = 0 ∧ fieldFix.valNat 4 ≠ 0 ∧
    Nat.Prime (fieldFix.modNat 3) := by
  refine ⟨fieldFix_reduced, by decide, by decide, by decide, by decide, by decide, ?_⟩
  rw [show fieldFix.modNat 3 = 7 from by decide]
  norm_num
theorem witness_ElementChecksComeFirst : (fieldFix.reg 8).tag = .raw ∧ (fieldFix.reg 0).tag = .el 3 ∧ (fieldFix.reg 7).tag = .el 2 ∧
    fieldFix.modulus 3 ≠ fieldFix.modulus 2 ∧ fieldFix.modulus 2 ≠ fieldFix.modulus 3 := by decide
theorem witness_PointConstructionChecksInOrder : { pointFix with mod2 := 1 }.mod2.toNat < 2 ∧
    (2 ≤ { pointFix with a1 := 223 }.mod2.toNat ∧ { pointFix with a1 := 223 }.mod2.toNat ≤ { pointFix with a1 := 223 }.a1.toNat) ∧
    { pointFix with b1 := 223 }.mod2.toNat ≤ { pointFix with b1 := 223 }.b1.toNat ∧
    (2 ≤ pointFix.mod2.toNat ∧ pointFix.a1.toNat < pointFix.mod2.toNat ∧ pointFix.b1.toNat < pointFix.mod2.toNat) ∧
    (pointFix.curve .s1).p.toNat ≤ (223 : Value).toNat ∧ pointFix.gx1.toNat < (pointFix.curve .s1).p.toNat ∧
    ¬ ((222 : Value).toNat ^ 2 ≡ pointFix.gx1.toNat ^ 3 + (pointFix.curve .s1).a.toNat * pointFix.gx1.toNat + (pointFix.curve .s1).b.toNat
      [MOD (pointFix.curve .s1).p.toNat]) ∧
    pointFix.gy1.toNat ^ 2 ≡ pointFix.gx1.toNat ^ 3 + (pointFix.curve .s1).a.toNat * pointFix.gx1.toNat + (pointFix.curve .s1).b.toNat
      [MOD (pointFix.curve .s1).p.toNat] := by decide
/-- p = 4, the point (0, 2) of P-36. -/
def evenFix : State := { State.reset with mod2 := 4 }.setPoint 4 (.aff .s1 0 2)
theorem pointFix_points : ∀ j : PointIx, pointFix.point j = none ∨ pointFix.point j = some (.aff .s1 47 71) ∨
    pointFix.point j = some (.aff .s1 47 152) ∨ pointFix.point j = some .inf ∨ pointFix.point j = some generator := by decide +kernel
theorem pointFix_reduced : pointFix.PointsReduced := by
  intro j P h
  rcases pointFix_points j with k | k | k | k | k <;> rw [k] at h <;> cases h 
  · exact ⟨by decide, by decide, by decide⟩
  · exact ⟨by decide, by decide, by decide⟩
  · trivial
  · exact ⟨by decide, by decide, by decide⟩
theorem witness_PaddCompletesOrErrsAsRuled : pointFix.PointsReduced ∧ pointFix.point 3 = none ∧ pointFix.point 2 = some .inf ∧
    pointFix.point 0 = some (.aff .s1 47 71) ∧ pointFix.point 1 = some (.aff .s1 47 152) ∧ pointFix.point 5 = some generator ∧
    (pointFix.curve .s0).params ≠ (pointFix.curve .s1).params ∧
    evenFix.point 4 = some (.aff .s1 0 2) ∧ 2 * (2 : Value).toNat = (evenFix.curve .s1).p.toNat ∧
    ¬ (2 * (71 : Value).toNat = (pointFix.curve .s1).p.toNat) :=
  ⟨pointFix_reduced, by decide, by decide, by decide, by decide, by decide, by decide, by decide, by decide, by decide⟩
theorem witness_ScalarMultiplicationTakesOneIterationAStep : multipliesPoint (.pmul 3 0 9) = true ∧
    mayMultiply pointFix (.pmul 3 0 9) ∧ (0 : Nat) < bitlen 2 ∧ 1 < bitlen 2 ∧ 2 / 2 ^ 0 % 2 = 0 ∧ 2 / 2 ^ 1 % 2 = 1 ∧
    pointAdd pointFix.curve .inf (.aff .s1 47 71) = .ok (.aff .s1 47 71) ∧
    pointAdd pointFix.curve (.aff .s1 47 71) (.aff .s1 47 71) = .ok (.aff .s1 36 111) := by
  refine ⟨rfl, ?_, ?_⟩
  · show pointFix.point 0 ≠ none
    decide
  · decide +kernel
theorem witness_PmulRefinesTheScalarMultiple : pointFix.point 3 = none ∧ pointFix.point 0 = some (.aff .s1 47 71) ∧
    begun (ran 0x00090314 (wr 9 20 pointFix)) (.pmul 3 0 9) ∧
    pointMul (wr 9 20 pointFix).curve (.aff .s1 47 71) ((wr 9 20 pointFix).valNat 9) = .ok (.aff .s1 47 152) ∧
    pointMul evenFix.curve (.aff .s1 0 2) 1 = .error .divisionByZero ∧ bitlen 20 ≤ 5 :=
  ⟨by decide, by decide, ⟨by decide, ⟨0, rfl⟩, rfl⟩, by decide +kernel, by decide +kernel, by decide⟩
theorem witness_SmallScalarMultiples : pointFix.PointReduced (.aff .s1 47 71) ∧ (pointFix.curve .s1).p.toNat % 2 = 1 :=
  ⟨pointFix_reduced 0 _ (by decide), by decide⟩
theorem prime_223 : Nat.Prime (pointFix.curve .s1).p.toNat := by
  rw [show (pointFix.curve .s1).p.toNat = 223 from by decide]
  norm_num
theorem witness_PointAddIsChordAndTangent : Nat.Prime (pointFix.curve .s1).p.toNat ∧ 2 < (pointFix.curve .s1).p.toNat ∧
    (222 : Value).toNat < (pointFix.curve .s1).p.toNat ∧ ((47 : Value) = 47 ∧ ((71 : Value) ≠ 152 ∨ (71 : Value).toNat = 0)) ∧
    ¬ ((47 : Value) = 47 ∧ ((71 : Value) ≠ 71 ∨ (71 : Value).toNat = 0)) ∧
    ¬ ((192 : Value) = 17 ∧ ((105 : Value) ≠ 56 ∨ (105 : Value).toNat = 0)) := ⟨prime_223, by decide, by decide, by decide, by decide, by decide⟩
theorem witness_PointAddObeysTheGroupLaws : pointFix.PointReduced (.aff .s1 47 71) ∧ pointFix.PointReduced (.aff .s1 36 111) ∧
    Nat.Prime (pointFix.curve .s1).p.toNat ∧ 2 < (pointFix.curve .s1).p.toNat ∧
    (4 * (pointFix.curve .s1).a.toNat ^ 3 + 27 * (pointFix.curve .s1).b.toNat ^ 2) % (pointFix.curve .s1).p.toNat ≠ 0 ∧
    onOneCurve pointFix (pointFix.curve .s1).params [.inf, .aff .s1 47 71, .aff .s1 47 152] := by
  refine ⟨pointFix_reduced 0 _ (by decide), ⟨by decide, by decide, by decide⟩, prime_223, by decide, by decide, fun P h => ?_⟩
  fin_cases h
  · exact ⟨trivial, fun c x y e => by cases e⟩
  · exact ⟨pointFix_reduced 0 _ (by decide), fun c x y e => by cases e; exact ⟨rfl, by decide +kernel⟩⟩
  · exact ⟨pointFix_reduced 1 _ (by decide), fun c x y e => by cases e; exact ⟨rfl, by decide +kernel⟩⟩
theorem witness_PeqComparesCurveAndCoordinates : pointFix.point 3 = none ∧ pointFix.point 0 = some (.aff .s1 47 71) ∧
    pointFix.point 2 = some .inf := by decide
theorem witness_PubkeyAlwaysCompletes : begun (ran 0x00009316 (wr 9 0 pointFix)) (.pubkey 3 9) ∧ (wr 9 0 pointFix).valNat 9 = 0 ∧
    (wr 9 1 pointFix).valNat 9 = 1 ∧ bitlen 0 ≤ 0 := ⟨⟨by decide, ⟨0, rfl⟩, rfl⟩, by decide, by decide, by decide⟩
theorem witness_PgetWritesRawCoordinates : pointFix.point 3 = none ∧ pointFix.point 2 = some .inf ∧
    pointFix.point 0 = some (.aff .s1 47 71) := by decide
/-- bits2octets with and without the subtraction: q = 3, strings 0xFF and 0x40. -/
theorem witness_OctetConversionsTruncateAndReduceOnce : bits2int [0xFF#8] (bitlen 3) = 3 ∧ bits2int [0x40#8] (bitlen 3) = 1 ∧
    intOfBytes (bits2octets [0xFF#8] 3) = 0 ∧ intOfBytes (bits2octets [0x40#8] 3) = 1 := by decide
theorem witness_MacCallCount : (∀ k m : Bytes, ((fun _ _ => [0x40#8]) k m : Bytes).length = 1) ∧
    (∀ k m : Bytes, ((fun _ _ => [0#8]) k m : Bytes).length = 1) ∧ ¬ rejected 2 (passCandidate (fun _ _ => [0x40#8]) 1 0 0 2 0) ∧
    rejected 2 (passCandidate (fun _ _ => [0#8]) 1 0 0 2 0) ∧ rejected 2 (passCandidate (fun _ _ => [0#8]) 1 0 0 2 1) := by
  refine ⟨fun _ _ => rfl, fun _ _ => rfl, ?_⟩
  unfold rejected
  decide
theorem witness_NonceTestsOneCandidateAtATime : { State.reset with mod2 := 1 }.modNat 2 < 2 ∧ 2 ≤ { State.reset with mod2 := 2 }.modNat 2 ∧
    (ran 0x20010220 { State.reset with mod2 := 2 }).work = .fresh ∧ ¬ rejected 2 1 ∧ rejected 2 0 ∧ rejected 2 2 ∧
    (asking []).work = .gen { filled [] with tag := none, req := ⟨[1#8], [2#8]⟩ } ∧ 2 ≤ (asking []).modNat 1 ∧
    octetLen 2 ≤ [1#8].length ∧ bits2int ([1#8].take (octetLen 2)) (bitlen 2) = 0 ∧ bits2int ([0x40#8].take (octetLen 2)) (bitlen 2) = 1 := by
  unfold rejected; decide
/-- NONCE or SIGND just begun, three drawn accesses left, with the responses to one abandoned request and to `n` of its own to come. -/
def withReplies (w n : Nat) : State :=
  { ran w signFix with
    phase := .exec 3 .fresh
    abandoned := 1
    host := List.replicate 3 .quiet ++ List.replicate (1 + n) .macReply }
/-- With the nominal MAC the candidate of the first pass is accepted (test_passCandidate), and by L1-9 (test_genK_163) one is after two
rejections. With Config.mac, a free value, acceptance can be neither proved nor refuted; whichever it is, one of the two clauses applies. -/
theorem witness_NonceRefinesGenK : begunWithReplies (withReplies 0x10015220 5) (.nonce 2 5 1 1) 5 ∧
    (withReplies 0x10015220 5).iter = 0#32 ∧ 2 ≤ signFix.modNat 1 ∧ callsUpTo 32 (signFix.modNat 1) 0 = 5 ∧
    signFix.valNat 5 = hSN ∧ signFix.valNat 1 = 1 ∧
    ¬ rejected Config.mod1.toNat (passCandidate hmac 32 hSN 1 Config.mod1.toNat 0) ∧ rejected q163 0x4982D236F3FFC758838CA6F5E9FEA455106AF3B2B := by
  refine ⟨⟨by decide, 3, rfl, rfl⟩, by decide, by decide, by decide, by decide, by decide, ?_, by unfold rejected; decide⟩
  rw [test_passCandidate]
  unfold rejected
  decide
/-- The signature with the nonce 1. -/
theorem signatureOf_one (z e : Nat) (Rx : Value) :
    signatureOf z e 1 Rx = (Rx.toNat % Config.mod1.toNat, (z + Rx.toNat % Config.mod1.toNat * e) % Config.mod1.toNat) := by
  simp only [signatureOf, one_pow, one_mul]
/-- The s of S-1. -/
def sS1 : Nat := 0x28EA4260A4782A6E384E446C637B2ACF62703CF6E76F11B2FC316058A96FA816
theorem signatureOf_S1 : signatureOf hSample 1 1 Config.gx0 = (Config.gx0.toNat, sS1) := by
  rw [signatureOf_one]
  decide +kernel
theorem witness_SigningCommitsTheSignature : 1 ≤ signFix.valNat 1 ∧ signFix.valNat 1 < Config.mod1.toNat ∧ signFix.valNat 2 = 1 ∧
    bitlen 1 ≤ 1 ∧ (signFix.holdMul ⟨1, 1, none, generator, generator⟩).work = .mul ⟨1, 1, none, generator, generator⟩ ∧
    (signatureOf 1 1 1 Config.mod1).1 = 0 ∧ (signatureOf (Config.mod1.toNat - Config.gx0.toNat) 1 1 Config.gx0).2 = 0 ∧
    (signatureOf hSample 1 1 Config.gx0).1 ≠ 0 ∧ (signatureOf hSample 1 1 Config.gx0).2 ≠ 0 := by
  rw [signatureOf_S1, signatureOf_one, signatureOf_one]
  decide +kernel
theorem witness_SignRefinesSignCore : (wr 1 0 signFix).valNat 1 = 0 ∧ Config.mod1.toNat ≤ (wr 1 Config.mod1.toNat signFix).valNat 1 ∧
    Config.mod1.toNat ≤ (wr 2 Config.mod1.toNat signFix).valNat 2 ∧ (wr 2 0 signFix).valNat 2 = 0 ∧
    begun (ran 0x04210321 signFix) (.sign 3 0 1 2 4) ∧ 1 ≤ signFix.valNat 1 ∧ signFix.valNat 2 < Config.mod1.toNat ∧
    pointMul signFix.curve (.aff .s0 Config.gx0 Config.gy0) (signFix.valNat 2) = .ok (.aff .s0 Config.gx0 Config.gy0) :=
  ⟨by decide, by decide, by decide, by decide, ⟨by decide, ⟨0, rfl⟩, rfl⟩, by decide, by decide, by decide +kernel⟩
theorem witness_SigndIsSignWithTheGeneratedNonce : 1 ≤ signFix.valNat 1 ∧ signFix.valNat 1 < Config.mod1.toNat ∧
    (filled (beBytes 1 32)).advance (signFix.valNat 0) (signFix.valNat 1) Config.mod1.toNat (beBytes 1 32) = .accepts 1 ∧
    { signFix with phase := .exec 0 (.gen (filled (beBytes 1 32))) }.work = .gen (filled (beBytes 1 32)) ∧ signFix.valNat 2 = 1 ∧
    (signFix.holdMul ⟨1, 0, none, .inf, generator⟩).work = .mul ⟨1, 0, none, .inf, generator⟩ ∧ signFix.work = .fresh := by decide
/-- With the nominal MAC and j = 0 (see witness_NonceRefinesGenK): the nonce of N-1 is accepted (test_passCandidate), its product is affine and
the two parts are those of S-13 (test_signd). For r = 0 or s = 0 see witness_SigningCommitsTheSignature. -/
theorem witness_SigndRefinesGenKAndSignCore : (wr 1 0 signFix).valNat 1 = 0 ∧ Config.mod1.toNat ≤ (wr 1 Config.mod1.toNat signFix).valNat 1 ∧
    begunWithReplies (withReplies 0x04015322 5) (.signd 3 5 1 4) 5 ∧ (withReplies 0x04015322 5).iter = 0#32 ∧ 1 ≤ signFix.valNat 1 ∧
    callsUpTo 32 Config.mod1.toNat 0 = 5 ∧ ¬ rejected Config.mod1.toNat nonceN1 :=
  ⟨by decide, by decide, ⟨by decide, 3, rfl, rfl⟩, by decide, by decide, by decide, by unfold rejected; decide⟩
theorem mayMultiply_verifyFix : mayMultiply verifyFix (.verify 3 4 5 6 7) := by unfold mayMultiply; decide +kernel
theorem not_mayMultiply_verifyFix : ¬ mayMultiply (wr 3 0 verifyFix) (.verify 3 4 5 6 7) := by unfold mayMultiply; decide +kernel
theorem witness_VerifyWritesTheVerdict : ¬ mayMultiply (wr 3 0 verifyFix) (.verify 3 4 5 6 7) ∧ mayMultiply verifyFix (.verify 3 4 5 6 7) ∧
    bitlen 1 ≤ 1 ∧ begun (ran 0x07654323 verifyFix) (.verify 3 4 5 6 7) :=
  ⟨not_mayMultiply_verifyFix, mayMultiply_verifyFix, by decide, by decide, ⟨0, rfl⟩, rfl⟩
theorem witness_DigestCountsModuloN : (5 : RegIx) ≠ 3 ∧ (5 : RegIx) ≠ 4 ∧ (5 : RegIx) ≠ 6 ∧ (5 : RegIx) ≠ 7 ∧
    Config.mod1.toNat ≡ (wr 5 0 verifyFix).valNat 5 [MOD Config.mod1.toNat] ∧
    execMeets (.verify 3 4 5 6 7) (wr 5 0 verifyFix) (fun _ => true) = true := by decide +kernel
/-- The key-1 signature of S-1 (nonce 1), and the same with n − s. -/
def signedFix (negated : Bool) : State :=
  wr 4 (if negated then Config.mod1.toNat - sS1 else sS1) (wr 3 Config.gx0.toNat (wr 5 hSample verifyFix))
theorem witness_SignaturesVerify : begun (ran 0x07654323 (signedFix false)) (.verify 3 4 5 6 7) ∧
    pointMul (signedFix false).curve (.aff .s0 Config.gx0 Config.gy0) 1 = .ok (.aff .s0 ((signedFix false).reg 6).val ((signedFix false).reg 7).val) ∧
    pointMul (signedFix false).curve (.aff .s0 Config.gx0 Config.gy0) 1 = .ok (.aff .s0 Config.gx0 Config.gy0) ∧
    signatureOf ((signedFix false).valNat 5) 1 1 Config.gx0 = ((signedFix false).valNat 3, (signedFix false).valNat 4) ∧
    (signedFix false).valNat 3 ≠ 0 ∧ (signedFix false).valNat 4 ≠ 0 ∧
    (signedFix true).valNat 4 = Config.mod1.toNat - (signedFix false).valNat 4 := by
  refine ⟨⟨by decide, ⟨0, rfl⟩, rfl⟩, by decide +kernel, by decide +kernel, ?_, by decide, by decide, by decide⟩
  rw [show (signedFix false).valNat 5 = hSample from by decide, signatureOf_S1]
  decide +kernel
theorem witness_BusAccessesAreServed : State.reset.phase = .idle ∧ State.reset.rst = false ∧ nonceBusy.phase = .exec (2 + 1) .fresh ∧ (31 : Nat) ≠ 32 ∧
    (0x001 : BitVec 12).toNat % 4 ≠ 0 ∧ (0xFFC : BitVec 12).toNat % 4 = 0 ∧ (asking []).phase = .exec 0 (asking []).work ∧
    outstanding (asking []) ∧ Config.base + 4096 ≤ Config.base + 4096 :=
  ⟨rfl, rfl, rfl, by decide, by decide, by decide, rfl, outstanding_asking _, le_refl _⟩
theorem witness_WideRegistersAreEightWords : State.reset.phase = .idle ∧ Wide.gy1 ∈ [Wide.mod2, Wide.mod3, Wide.a1, Wide.b1, Wide.gx1, Wide.gy1] ∧
    wordOffset (wideBase .gy1) 7 = 0x43C ∧ wordOffset (regBase 15) 7 = 0x2FC := by decide
theorem witness_ReservedAndReadOnlyWritesAreIgnored : reservedOffset 0x024 ∧ reservedOffset 0x0FC ∧ reservedOffset 0x440 ∧ reservedOffset 0x4FC ∧
    reservedOffset 0x700 ∧ reservedOffset 0xFFC ∧ readOnlyOffset 0x000 ∧ readOnlyOffset 0x004 ∧ readOnlyOffset 0x014 ∧ readOnlyOffset 0x020 ∧
    readOnlyOffset 0x300 ∧ readOnlyOffset 0x33C ∧ readOnlyOffset 0x380 ∧ readOnlyOffset 0x3BC ∧ readOnlyOffset 0x500 ∧ readOnlyOffset 0x6FC := by
  unfold reservedOffset readOnlyOffset
  refine ⟨?_, ?_, ?_, ?_, ?_, ?_, ?_, ?_, ?_, ?_, ?_, ?_, ?_, ?_, ?_, ?_⟩ <;> decide
theorem witness_LockedWritesWhileBusySetWign : nonceBusy.busy = true ∧ lockedOffset 0x010 ∧ lockedOffset 0x100 ∧ lockedOffset 0x2FC ∧
    lockedOffset 0x340 ∧ lockedOffset 0x37C ∧ lockedOffset 0x3C0 ∧ lockedOffset 0x43C ∧ (1 : Word).getLsbD 1 = false ∧ (1 : Word).getLsbD 2 = false := by
  unfold lockedOffset; decide
theorem witness_WritesInvalidateBindings : pointFix.phase = .idle ∧ (fieldFix.reg 7).tag = .el 2 ∧ (fieldFix.reg 3).tag = .el 3 ∧
    (fieldFix.reg 8).tag = .raw ∧ pointFix.point 0 = some (.aff .s1 47 71) ∧ pointFix.point 5 = some generator := by decide
theorem witness_StatusWordsShowTheirFields : (fieldFix.reg 8).tag = .raw ∧ (fieldFix.reg 0).tag = .el 3 ∧ pointFix.point 3 = none ∧
    pointFix.point 2 = some .inf ∧ pointFix.point 0 = some (.aff .s1 47 71) ∧ State.reset.busy = false ∧ State.reset.done = false ∧
    (1 : Word).getLsbD 1 = false ∧ (1 : Word).getLsbD 2 = false := by decide
theorem witness_IrqIsEnableAndDone : execMeets .nop { State.reset with ie := true } (fun t => !t.busy && t.irq) = true ∧
    (1 : Word).getLsbD 1 = false ∧ (1 : Word).getLsbD 2 = false ∧ (2 : Word).getLsbD 1 = true ∧ State.reset.phase = .idle := by decide
theorem witness_AbortEndsTheCommand : (2 : Word).getLsbD 1 = true ∧ (2 : Word).getLsbD 2 = false ∧ nonceBusy.busy = true ∧
    State.reset.busy = false ∧ (6 : Word).getLsbD 1 = true ∧ (6 : Word).getLsbD 2 = true ∧ (asking []).busy = true ∧ (asking []).abandons = 1 := by
  decide
theorem witness_SoftResetGivesTheResetValues : (4 : Word).getLsbD 2 = true := by decide
theorem witness_HardResetHoldsTheResetValues : (asking [.rst true]).host = .rst true :: [] ∧ State.reset.phase = .idle ∧
    { State.reset with rst := true }.rst = true ∧ { State.reset with rst := true }.ResetHeld ∧ (0xFFC : BitVec 12).toNat % 4 = 0 :=
  ⟨rfl, rfl, rfl, fun _ => rfl, by decide⟩
theorem pointFix_curveInv : pointFix.CurveInv where
  base :=
    { elements := by unfold State.ElementsReduced; decide +kernel
      points := pointFix_reduced
      status := ⟨by decide, by decide, by decide⟩
      reset := fun h => absurd h (by decide)
      loop := fresh_loopConsistent rfl }
  onCurve := by
    intro j P h
    rcases pointFix_points j with k | k | k | k | k <;> rw [k] at h <;> cases h
    · exact fun _ => by decide +kernel
    · exact fun _ => by decide +kernel
    · trivial
    · exact fun _ => by decide +kernel
/-- The invariants hold in the point fixture, and a step from there answers a next state. -/
theorem witness_EveryStepKeepsTheInvariant : pointFix.Inv ∧ step pointFix = .next pointFix := ⟨pointFix_curveInv.base, rfl⟩
theorem witness_EveryStepKeepsPointsOnTheirCurve : pointFix.CurveInv ∧ step pointFix = .next pointFix := ⟨pointFix_curveInv, rfl⟩

end Sys2Proof.Tests
end

section
/-! PROOFS. One step keeps the engine's invariant, said once for both properties of points (spec 10_state R22, R25, R34, R40;
70_reset_and_hazards R310), and O59 and O60 from it. -/

namespace Sys2Proof.Machine

/-- The engine's invariant with the property `p` of its points: being reduced, or being reduced and on the curve. -/
structure State.InvWith (p : State → Point → Prop) (s : State) : Prop where
  elements : s.ElementsReduced
  points : s.AllPoints p
  status : s.StatusConsistent
  reset : s.ResetHeld
  loop : s.LoopConsistent

theorem inv_iff_invWith {s : State} : s.Inv ↔ s.InvWith State.PointReduced :=
  ⟨fun ⟨hE, hP, hS, hR, hL⟩ => ⟨hE, hP, hS, hR, hL⟩, fun ⟨hE, hP, hS, hR, hL⟩ => ⟨hE, hP, hS, hR, hL⟩⟩

theorem curveInv_iff_invWith {s : State} : s.CurveInv ↔ s.InvWith State.GoodPoint :=
  ⟨fun ⟨⟨hE, hP, hS, hR, hL⟩, hC⟩ => ⟨hE, fun j P h => ⟨hP j P h, hC j P h⟩, hS, hR, hL⟩,
    fun ⟨hE, hP, hS, hR, hL⟩ => ⟨⟨hE, fun j P h => (hP j P h).1, hS, hR, hL⟩, fun j P h => (hP j P h).2⟩⟩

theorem resetHeld_of_rst_false {s : State} (h : s.rst = false) : s.ResetHeld :=
  fun hr => absurd (h.symm.trans hr) Bool.false_ne_true

theorem rst_false_of_exec {s : State} {n : Nat} {w : Work} (h : s.ResetHeld) (hph : s.phase = .exec n w) : s.rst = false := by
  by_contra hr
  rw [idle_of_resetHeld h (by simpa using hr)] at hph
  cases hph

/-- RST is the host's: no command changes it. -/
theorem exec_rst {i : Instr} {s t : State} (h : exec i s = .next t) : t.rst = s.rst := by
  cases effect_of_exec h <;> rfl

variable {p : State → Point → Prop}

theorem toReset_invWith (hp : PointProperty p) (s : State) (b : Bool) : ({ s.toReset with rst := b } : State).InvWith p where
  elements := elementsReduced_of_eq (toReset_elementsReduced s) rfl rfl rfl
  points := allPoints_of_eq hp (toReset_allPoints p s) rfl rfl rfl rfl
  status := toReset_statusConsistent s
  reset := fun _ => rfl
  loop := loopConsistent_idle rfl

/-- Neither the pending events, nor the answer to an access, nor the count of responses to discard is in the invariant. -/
theorem invWith_outside (hp : PointProperty p) {s : State} (h : s.InvWith p) (host : List HostEvent) (resp : Option BusResp)
    (n : Nat) : ({ s with host := host, resp := resp, abandoned := n } : State).InvWith p where
  elements := elementsReduced_of_eq h.elements rfl rfl rfl
  points := allPoints_of_eq hp h.points rfl rfl rfl rfl
  status := h.status
  reset := fun hr => by rw [← h.reset hr]; rfl
  loop := h.loop

theorem memWrite_invWith (hp : PointProperty p) {s : State} (h : s.InvWith p) (hr : s.rst = false) (off : BitVec 12) (w : Word) :
    (memWrite s off w).InvWith p := by
  obtain ⟨hE, hP, hS, hL⟩ := memWrite_keeps hp off w h.elements h.points h.status h.loop
  exact ⟨hE, hP, hS, resetHeld_of_rst_false ((memWrite_rst s off w).trans hr), hL⟩

theorem respond_invWith (hp : PointProperty p) {s : State} (h : s.InvWith p) (r : BusResp) : (s.respond r).InvWith p :=
  invWith_outside hp h s.host (some r) s.abandoned

theorem busAccess_invWith (hp : PointProperty p) {s : State} (h : s.InvWith p) (width : Nat) (off : BitVec 12) (op : BusOp) :
    (busAccess s width off op).InvWith p := by
  cases op with
  | read =>
    simp only [busAccess]
    split <;> exact respond_invWith hp h _
  | write w =>
    simp only [busAccess]
    split
    · refine respond_invWith hp ?_ _
      split
      · exact h
      · rename_i hr
        exact memWrite_invWith hp h (by simpa using hr) off w
    · exact respond_invWith hp h _

theorem driveReset_invWith (hp : PointProperty p) {s : State} (h : s.InvWith p) (asserted : Bool) :
    (driveReset s asserted).InvWith p := by
  unfold driveReset
  split
  · exact toReset_invWith hp s true
  · split
    · exact toReset_invWith hp s false
    · exact h

theorem macResponse_invWith (hp : PointProperty p) {s : State} (h : s.InvWith p) : (macResponse s).InvWith p := by
  by_cases h0 : 0 < s.abandoned
  · rw [macResponse_abandoned h0]
    exact invWith_outside hp h s.host s.resp (s.abandoned - 1)
  · cases hw : s.waiting with
    | false => rwa [macResponse_ignored (by omega) hw]
    | true =>
      obtain ⟨n, g, hph, hg⟩ := State.waiting_eq_true hw
      have hL := macResponse_loopConsistent h.loop
      rw [macResponse_delivered (by omega) hph hg] at hL ⊢
      exact ⟨elementsReduced_of_eq h.elements rfl rfl rfl, allPoints_of_eq hp h.points rfl rfl rfl rfl,
        statusConsistent_of_eq h.status (by simp [State.busy, hph]) rfl rfl rfl rfl rfl,
        resetHeld_of_rst_false (show s.rst = false from rst_false_of_exec h.reset hph), hL⟩

/-- The engine serves an event. -/
theorem serveHost_invWith (hp : PointProperty p) {s : State} (h : s.InvWith p) : (serveHost s).InvWith p := by
  cases hh : s.host with
  | nil => rwa [serveHost_nil hh]
  | cons ev rest =>
    rw [serveHost_cons hh]
    have h' : ({ s with host := rest } : State).InvWith p := invWith_outside hp h rest s.resp s.abandoned
    cases ev with
    | access width addr op =>
      simp only [handleEvent, addressed]
      split
      · exact busAccess_invWith hp h' _ _ _
      · exact h'
    | rst asserted => exact driveReset_invWith hp h' asserted
    | macReply => exact macResponse_invWith hp h'
    | quiet => exact h'

/-- One access of the draw of LAT is counted. -/
theorem beat_invWith (hp : PointProperty p) {s : State} (h : s.InvWith p) {n : Nat} {w : Work} (hph : s.phase = .exec (n + 1) w) :
    ({ s with phase := .exec n w } : State).InvWith p where
  elements := elementsReduced_of_eq h.elements rfl rfl rfl
  points := allPoints_of_eq hp h.points rfl rfl rfl rfl
  status := statusConsistent_of_eq h.status (by simp [State.busy, hph]) rfl rfl rfl rfl rfl
  reset := resetHeld_of_rst_false (show s.rst = false from rst_false_of_exec h.reset hph)
  loop := loopConsistent_beat h.loop hph rfl

/-- The engine goes on with the latched command. -/
theorem runLatched_invWith (hp : PointProperty p) {s t : State} (h : s.InvWith p) {w : Work} (hph : s.phase = .exec 0 w)
    (ht : runLatched s = .next t) : t.InvWith p := by
  have hb : s.busy = true := by simp [State.busy, hph]
  have hr : s.rst = false := rst_false_of_exec h.reset hph
  cases hd : decode s.cmd with
  | ok i =>
    rw [runLatched_of_ok hd] at ht
    exact ⟨exec_elementsReduced h.elements ht, exec_allPoints hp hd h.loop h.points ht, exec_statusConsistent hb h.status ht,
      resetHeld_of_rst_false ((exec_rst ht).trans hr), exec_loopConsistent hd h.loop ht⟩
  | error e =>
    rw [runLatched_of_error hd] at ht
    cases ht
    obtain ⟨-, -, hv, hq⟩ := h.status.1 hb
    exact ⟨elementsReduced_of_eq h.elements rfl rfl rfl, allPoints_of_eq hp h.points rfl rfl rfl rfl,
      ⟨fun hb => by simp at hb, by simp, fun _ => ⟨hv, hq⟩⟩, resetHeld_of_rst_false hr, loopConsistent_idle rfl⟩

/-- Every step keeps the invariant, whichever property of point values it is taken with. -/
theorem step_invWith (hp : PointProperty p) {s t : State} (h : s.InvWith p) (ht : step s = .next t) : t.InvWith p := by
  unfold step at ht
  split at ht
  · cases ht
    exact serveHost_invWith hp h
  · split at ht
    · cases ht
      exact serveHost_invWith hp h
    · rename_i w hph
      split at ht
      · cases ht
        exact serveHost_invWith hp h
      · exact runLatched_invWith hp h hph ht
    · rename_i n w hph
      cases ht
      refine serveHost_invWith hp ?_
      split
      · exact beat_invWith hp h hph
      · exact h

end Sys2Proof.Machine

namespace Sys2Proof.Proofs

open Sys2Proof.Machine Sys2Proof.Claims

/-- Settles O59: commands and host events keep each piece, and RST is never asserted while a command executes. -/
theorem everyStepKeepsTheInvariant : Obligations.EveryStepKeepsTheInvariant :=
  fun _ _ h ht => inv_iff_invWith.2 (step_invWith reduced_property (inv_iff_invWith.1 h) ht)

/-- Settles O60: the same step lemma, with points that are reduced and on their curve. -/
theorem everyStepKeepsPointsOnTheirCurve : Obligations.EveryStepKeepsPointsOnTheirCurve :=
  fun _ _ h ht => curveInv_iff_invWith.2 (step_invWith good_property (curveInv_iff_invWith.1 h) ht)

end Sys2Proof.Proofs
end

section
/-! PROOFS. No command reads a flag (spec 10_state R39): O13. Two runs of one command from states that differ in EQ and VRES alone are
compared, once for each shared operation and then command by command. -/

namespace Sys2Proof.Machine

/-- The state with other flags. -/
def State.withFlags (s : State) (e v : Bool) : State := { s with eqFlag := e, vres := v }

/-- What a command answers from `s` and from `s.withFlags e v`: the same state, but for the flags it did not write. -/
inductive FlagTwins (s : State) (e v : Bool) : State → State → Prop
  | kept (t : State) (he : t.eqFlag = s.eqFlag) (hv : t.vres = s.vres) : FlagTwins s e v t (t.withFlags e v)
  | wroteEq (t : State) (hv : t.vres = s.vres) : FlagTwins s e v t (t.withFlags t.eqFlag v)
  | wroteVres (t : State) (he : t.eqFlag = s.eqFlag) : FlagTwins s e v t (t.withFlags e t.vres)

variable {s : State} {e v : Bool}

/-- The statement's form of it. -/
theorem FlagTwins.agree {t u : State} (h : FlagTwins s e v t u) :
    t = { u with eqFlag := t.eqFlag, vres := t.vres } ∧ (u.eqFlag = t.eqFlag ∨ (u.eqFlag = e ∧ t.eqFlag = s.eqFlag)) ∧
      (u.vres = t.vres ∨ (u.vres = v ∧ t.vres = s.vres)) := by
  cases h with
  | kept he hv => exact ⟨rfl, .inr ⟨rfl, he⟩, .inr ⟨rfl, hv⟩⟩
  | wroteEq hv => exact ⟨rfl, .inl rfl, .inr ⟨rfl, hv⟩⟩
  | wroteVres he => exact ⟨rfl, .inr ⟨rfl, he⟩, .inl rfl⟩

/-! ### The shared operations -/

/-- A read or a check that both runs make alike comes before the rest of a command. -/
theorem flagTwins_bind {α : Type} {x : Except ErrCode α} {f g : α → Except ErrCode State}
    (h : ∀ a : α, FlagTwins s e v (s.complete (f a)) ((s.withFlags e v).complete (g a))) :
    FlagTwins s e v (s.complete (x >>= f)) ((s.withFlags e v).complete (x >>= g)) := by
  cases x with
  | error c => exact .kept _ rfl rfl
  | ok a => exact h a

theorem flagTwins_ite {c : Prop} [Decidable c] {t t' u u' : State} (h1 : FlagTwins s e v t u) (h2 : FlagTwins s e v t' u') :
    FlagTwins s e v (if c then t else t') (if c then u else u') := by
  split
  · exact h1
  · exact h2

theorem flagTwins_complete_ite {c : Prop} [Decidable c] {r r' q q' : Except ErrCode State}
    (h1 : FlagTwins s e v (s.complete r) ((s.withFlags e v).complete q))
    (h2 : FlagTwins s e v (s.complete r') ((s.withFlags e v).complete q')) :
    FlagTwins s e v (s.complete (if c then r else r')) ((s.withFlags e v).complete (if c then q else q')) := by
  split
  · exact h1
  · exact h2

theorem flagTwins_mulStep {m : Mul} {failed failed' : ErrCode → State} {finish finish' : Point → State}
    (hf : ∀ c : ErrCode, FlagTwins s e v (failed c) (failed' c)) (hF : ∀ R : Point, FlagTwins s e v (finish R) (finish' R)) :
    FlagTwins s e v (mulStep s m failed finish) (mulStep (s.withFlags e v) m failed' finish') := by
  have hcurve : (s.withFlags e v).curve = s.curve := rfl
  simp only [mulStep, hcurve]
  split
  · cases m.iterate s.curve with
    | error c => exact hf c
    | ok m' => exact .kept _ rfl rfl
  · exact hF _

theorem flagTwins_multiply {P : Point} {k : Nat} {finish finish' : Point → State}
    (hF : ∀ R : Point, FlagTwins s e v (finish R) (finish' R)) :
    FlagTwins s e v (multiply s P k finish) (multiply (s.withFlags e v) P k finish') := by
  have hwork : (s.withFlags e v).work = s.work := rfl
  simp only [multiply, hwork]
  cases s.work with
  | mul m => exact flagTwins_mulStep (fun c => .kept _ rfl rfl) hF
  | fresh => exact .kept _ rfl rfl
  | gen g => exact .kept _ rfl rfl

theorem flagTwins_genStep {z x q : Nat} {accepted accepted' : Nat → State}
    (ha : ∀ k : Nat, FlagTwins s e v (accepted k) (accepted' k)) :
    FlagTwins s e v (genStep s z x q accepted) (genStep (s.withFlags e v) z x q accepted') := by
  have hwork : (s.withFlags e v).work = s.work := rfl
  simp only [genStep, hwork]
  cases s.work with
  | fresh => exact .kept _ rfl rfl
  | mul m => exact .kept _ rfl rfl
  | gen g =>
    cases hg : g.tag with
    | none => simp only [hg]; exact .kept _ rfl rfl
    | some y =>
      simp only [hg]
      cases g.advance z x q y with
      | goes g' => exact .kept _ rfl rfl
      | rejects g' => exact .kept _ rfl rfl
      | accepts k => exact ha k

theorem flagTwins_finishSign {rdr rds : RegIx} {z x k : Nat} {R : Point} :
    FlagTwins s e v (finishSign s rdr rds z x k R) (finishSign (s.withFlags e v) rdr rds z x k R) :=
  flagTwins_bind fun _ => .kept _ rfl rfl

/-! ### The commands -/

/-- Every command answers twins. -/
theorem exec_flagTwins (i : Instr) (s : State) (e v : Bool) :
    ∃ t u : State, exec i s = .next t ∧ exec i (s.withFlags e v) = .next u ∧ FlagTwins s e v t u := by
  cases i with
  | nop => exact ⟨_, _, rfl, rfl, .kept _ rfl rfl⟩
  | fnew rd rs m =>
    exact ⟨_, _, rfl, rfl, flagTwins_complete_ite (.kept _ rfl rfl) (flagTwins_complete_ite (.kept _ rfl rfl) (.kept _ rfl rfl))⟩
  | fadd rd rs1 rs2 => exact ⟨_, _, rfl, rfl, flagTwins_bind fun _ => .kept _ rfl rfl⟩
  | fsub rd rs1 rs2 => exact ⟨_, _, rfl, rfl, flagTwins_bind fun _ => .kept _ rfl rfl⟩
  | fmul rd rs1 rs2 => exact ⟨_, _, rfl, rfl, flagTwins_bind fun _ => .kept _ rfl rfl⟩
  | fdiv rd rs1 rs2 =>
    exact ⟨_, _, rfl, rfl, flagTwins_bind fun _ => flagTwins_complete_ite (.kept _ rfl rfl) (.kept _ rfl rfl)⟩
  | finv rd rs =>
    exact ⟨_, _, rfl, rfl, flagTwins_bind fun _ => flagTwins_complete_ite (.kept _ rfl rfl) (.kept _ rfl rfl)⟩
  | fpow rd rs re neg =>
    exact ⟨_, _, rfl, rfl, flagTwins_bind fun _ => flagTwins_complete_ite (.kept _ rfl rfl) (.kept _ rfl rfl)⟩
  | fscale rd rs imm8 => exact ⟨_, _, rfl, rfl, flagTwins_bind fun _ => .kept _ rfl rfl⟩
  | feq rs1 rs2 => exact ⟨_, _, rfl, rfl, .wroteEq _ rfl⟩
  | pinf pd => exact ⟨_, _, rfl, rfl, .kept _ rfl rfl⟩
  | pnew pd rx ry c => exact ⟨_, _, rfl, rfl, flagTwins_bind fun _ => .kept _ rfl rfl⟩
  | pgen pd c => exact ⟨_, _, rfl, rfl, flagTwins_bind fun _ => .kept _ rfl rfl⟩
  | padd pd ps1 ps2 =>
    exact ⟨_, _, rfl, rfl, flagTwins_bind fun _ => flagTwins_bind fun _ => flagTwins_bind fun _ => .kept _ rfl rfl⟩
  | pmul pd ps rk =>
    refine ⟨_, _, rfl, rfl, ?_⟩
    have hread : pointRead (s.withFlags e v) ps = pointRead s ps := rfl
    rw [hread]
    cases pointRead s ps with
    | error c => exact .kept _ rfl rfl
    | ok P => exact flagTwins_multiply fun R => .kept _ rfl rfl
  | peq ps1 ps2 => exact ⟨_, _, rfl, rfl, flagTwins_bind fun _ => flagTwins_bind fun _ => .wroteEq _ rfl⟩
  | pubkey pd re => exact ⟨_, _, rfl, rfl, flagTwins_multiply fun R => .kept _ rfl rfl⟩
  | pget rdx rdy ps =>
    refine ⟨_, _, rfl, rfl, flagTwins_bind fun P => ?_⟩
    cases P <;> exact .kept _ rfl rfl
  | nonce rd rz re m =>
    exact ⟨_, _, rfl, rfl, flagTwins_ite (.kept _ rfl rfl) (flagTwins_genStep fun k => .kept _ rfl rfl)⟩
  | sign rdr rz re rk rds =>
    exact ⟨_, _, rfl, rfl, flagTwins_ite (.kept _ rfl rfl)
      (flagTwins_ite (.kept _ rfl rfl) (flagTwins_multiply fun R => flagTwins_finishSign))⟩
  | signd rdr rz re rds =>
    refine ⟨_, _, rfl, rfl, flagTwins_ite (.kept _ rfl rfl) ?_⟩
    have hwork : (s.withFlags e v).work = s.work := rfl
    rw [hwork]
    cases s.work with
    | mul m => exact flagTwins_mulStep (fun c => .kept _ rfl rfl) fun R => flagTwins_finishSign
    | fresh => exact flagTwins_genStep fun k => .kept _ rfl rfl
    | gen g => exact flagTwins_genStep fun k => .kept _ rfl rfl
  | verify rr rs rz rpx rpy =>
    refine ⟨_, _, rfl, rfl, flagTwins_ite ?_ (.wroteVres _ rfl)⟩
    have hwork : (s.withFlags e v).work = s.work := rfl
    rw [hwork]
    cases s.work with
    | mul m =>
      refine flagTwins_mulStep (fun c => .wroteVres _ rfl) fun R => ?_
      cases m.earlier with
      | none => exact .kept _ rfl rfl
      | some P1 => exact .wroteVres _ rfl
    | fresh => exact .kept _ rfl rfl
    | gen g => exact .kept _ rfl rfl

end Sys2Proof.Machine

namespace Sys2Proof.Proofs

open Sys2Proof.Machine Sys2Proof.Claims

/-- Settles O13: who writes a flag is read off `Effect`; that none is read, off the two runs. -/
theorem flagsAreWrittenOnlyByTheirCommands : Obligations.FlagsAreWrittenOnlyByTheirCommands := by
  refine ⟨fun i s t h => ⟨fun hi => ?_, fun hi => ?_⟩, fun s beats w => ⟨rfl, rfl⟩, fun i s e v => ?_⟩
  · cases effect_of_exec h with
    | eq b hb => rw [hi] at hb; cases hb
    | _ => rfl
  · cases effect_of_exec h with
    | vres b hb => rw [hi] at hb; cases hb
    | _ => rfl
  · obtain ⟨t, u, ht, hu, h⟩ := exec_flagTwins i s e v
    exact ⟨t, u, ht, hu, h.agree⟩

end Sys2Proof.Proofs
end

section
/-! PROOFS. What counts in ITER (spec 10_state R36): O14. -/

namespace Sys2Proof.Machine

open Sys2Proof.Claims

/-- The accept of a command's word clears ITER exactly where the command runs GEN_K (spec 60_exceptions R270). -/
theorem clearsIter_encode (i : Instr) : clearsIter (encode i) = runsGenK i := by
  have hop : (encode i).extractLsb' 0 8 = (encodeFields i).op := congrArg Fields.op (Fields.ofWord_toWord (encodeFields i))
  unfold clearsIter
  rw [hop]
  cases i <;> rfl

theorem countRejection_iter (s : State) : s.countRejection.iter = saturated (s.iter.toNat + 1) := by
  have hlt := s.iter.isLt
  apply BitVec.eq_of_toNat_eq
  by_cases h : s.iter = 0xFFFFFFFF#32
  · simp [State.countRejection, saturated, h]
  · have hne : s.iter.toNat ≠ 0xFFFFFFFF := fun e => h (BitVec.eq_of_toNat_eq e)
    simp only [State.countRejection, saturated, if_neg h]
    rw [BitVec.toNat_add, BitVec.toNat_ofNat, BitVec.toNat_ofNat]
    omega

/-- One step of GEN_K counts in ITER exactly the candidate that ends a T loop out of range (spec 43_nonce R216 step 6). -/
theorem genStep_iter {s : State} {z e q : Nat} {accepted : Nat → State} {g : Drbg} {y : Bytes} (hw : s.work = .gen g)
    (ht : g.tag = some y) (ha : ∀ k : Nat, (accepted k).iter = s.iter) :
    (g.call = .fill ∧ octetLen q ≤ (g.t ++ y).length ∧ rejected q (bits2int ((g.t ++ y).take (octetLen q)) (bitlen q)) →
      (genStep s z e q accepted).iter = saturated (s.iter.toNat + 1)) ∧
    (¬ (g.call = .fill ∧ octetLen q ≤ (g.t ++ y).length ∧ rejected q (bits2int ((g.t ++ y).take (octetLen q)) (bitlen q))) →
      (genStep s z e q accepted).iter = s.iter) := by
  cases hr : g.advance z e q y with
  | goes g' =>
    rw [genStep_goes hw ht hr]
    refine ⟨fun ⟨hc, hl, hj⟩ => ?_, fun _ => rfl⟩
    rw [Drbg.advance_full hc hl, Drbg.test_eq, if_neg (by simpa using inRange_eq_false.2 hj)] at hr
    cases hr
  | rejects g' =>
    rw [genStep_rejects hw ht hr]
    obtain ⟨hc, hl, hj⟩ := Drbg.advance_rejects hr
    exact ⟨fun _ => countRejection_iter s, fun hn => absurd ⟨hc, hl, inRange_eq_false.1 hj⟩ hn⟩
  | accepts k =>
    rw [genStep_accepts hw ht hr]
    obtain ⟨-, -, rfl, hk⟩ := Drbg.advance_accepts hr
    refine ⟨fun ⟨_, _, hj⟩ => ?_, fun _ => ha _⟩
    rw [inRange_eq_false.2 hj] at hk
    cases hk

end Sys2Proof.Machine

namespace Sys2Proof.Proofs

open Sys2Proof.Machine Sys2Proof.Claims

/-- Settles O14: ITER changes at an accept and in a step of GEN_K that rejects a candidate, and nowhere else. -/
theorem iterCountsRejectedCandidates : Obligations.IterCountsRejectedCandidates := by
  refine ⟨fun s beats i => ?_, fun i s t h hi => ?_, ?_, fun s w => ⟨memRead_iter s, memWrite_of_locate locate_iter⟩, rfl⟩
  · rw [State.accept_iter, clearsIter_encode]
  · cases effect_of_exec h with
    | rejects g hg _ => rw [hi] at hg; cases hg
    | _ => rfl
  · rintro i s t g y q candidate hw ht (⟨rd, rz, re, m, rfl, rfl, h2⟩ | ⟨rdr, rz, re, rds, rfl, rfl, h1, h2⟩) rfl hx
    · simp only [exec, execNonce, if_neg (Nat.not_lt.2 h2)] at hx
      cases hx
      exact genStep_iter hw ht fun k => rfl
    · rw [exec_signd_gen h1 h2 (by simp [hw])] at hx
      cases hx
      exact genStep_iter hw ht fun k => rfl

end Sys2Proof.Proofs
end

section
/-! PROOFS. G has order n (spec 10_state R28): O35. -/

namespace Sys2Proof.Machine

/-- n·G = INF, by running the loop of PMUL in the kernel (256 iterations). -/
theorem pointMul_generator_order : pointMul State.reset.curve generator Config.mod1.toNat = .ok .inf := by decide +kernel

/-- Two multiples of G that stand for one group element are one point: both are INF or of slot 0. -/
theorem eq_of_standsFor_s0 {s : State} {P Q : Point} {A : Secp256k1} (hP : s.PointReduced P) (sP : SlotOf generator P)
    (hQ : s.PointReduced Q) (sQ : SlotOf generator Q) (h1 : StandsFor P A) (h2 : StandsFor Q A) : P = Q := by
  rcases standsFor_unique (ofCurve_s0 hP sP) (ofCurve_s0 hQ sQ) h1 h2 with ⟨rfl, rfl⟩ | ⟨c1, c2, x, y, rfl, rfl⟩
  · rfl
  · obtain ⟨_, _, e1⟩ := sP c1 x y rfl
    obtain ⟨_, _, e2⟩ := sQ c2 x y rfl
    cases e1
    cases e2
    rfl

/-- A scalar of G counts modulo n. -/
theorem pointMul_generator_mod (s : State) (k : Nat) :
    pointMul s.curve generator k = pointMul s.curve generator (k % Config.mod1.toNat) := by
  have := Fact.mk mod0_prime
  obtain ⟨G, hG, hn⟩ := generator_standsFor mod1_prime pointMul_generator_order
  have hC := ofCurve_s0 (generator_reduced s) (slotOf_self generator)
  obtain ⟨R, hR, rR, sR⟩ := pointMul_generator s k
  obtain ⟨R', hR', rR', sR'⟩ := pointMul_generator s (k % Config.mod1.toNat)
  obtain ⟨Q, hQ, -, gQ⟩ := pointMul_standsFor two_lt_mod0 hC hG k
  obtain ⟨Q', hQ', -, gQ'⟩ := pointMul_standsFor two_lt_mod0 hC hG (k % Config.mod1.toNat)
  obtain rfl : R = Q := Except.ok.inj (hR.symm.trans hQ)
  obtain rfl : R' = Q' := Except.ok.inj (hR'.symm.trans hQ')
  rw [← hn, mod_addOrderOf_nsmul] at gQ'
  rw [hR, hR', eq_of_standsFor_s0 rR sR rR' sR' gQ gQ']

end Sys2Proof.Machine

namespace Sys2Proof.Proofs

open Sys2Proof.Machine Sys2Proof.Claims

/-- Settles O35: n·G = INF is evaluated, and the scalar multiples are those of a group element of that order. -/
theorem generatorHasOrderN : Obligations.GeneratorHasOrderN :=
  ⟨(generator_good State.reset).2 mod0_prime, pointMul_generator_order, pointMul_generator_mod⟩

end Sys2Proof.Proofs
end

section
/-! PROOFS. What the status registers show and what writes of the window change (spec 10_state R30 to R37, R41, R42): O52, O53, O54
and O58. -/

namespace Sys2Proof.Machine

open Sys2Proof.Claims

/-! ### The fields of the 32-bit registers -/

/-- The parts of a nibble within a word. -/
theorem parts_of_nibble {v : Word} {n : Nat} {x : BitVec 4} (h : v.extractLsb' n 4 = x) :
    v.extractLsb' n 2 = x.extractLsb' 0 2 ∧ v.getLsbD (n + 2) = x.getLsbD 2 ∧ v.getLsbD (n + 3) = x.getLsbD 3 := by
  subst h
  refine ⟨?_, by simp, by simp⟩
  apply BitVec.eq_of_getLsbD_eq
  intro i hi
  simp [hi, show i < 4 by omega]

theorem nibble_el (m : ModIx) :
    (Tag.el m).nibble.extractLsb' 0 2 = BitVec.ofNat 2 m.val ∧ (Tag.el m).nibble.getLsbD 2 = true ∧
      (Tag.el m).nibble.getLsbD 3 = false := by
  revert m; decide

theorem pointNibble_aff (c : Slot) (x y : Value) :
    (pointNibble (some (.aff c x y))).extractLsb' 0 2 = 2#2 ∧ (pointNibble (some (.aff c x y))).getLsbD 2 = (c == .s1) ∧
      (pointNibble (some (.aff c x y))).getLsbD 3 = false := by
  cases c <;> simp only [pointNibble] <;> decide

/-- TAGS0 and TAGS1 are one map of sixteen nibbles (spec 10_state R37). -/
theorem memRead_tags_nibble (s : State) (w : Fin 2) (k : Fin 8) :
    (memRead s (if w = 0 then 0x018 else 0x01C)).extractLsb' (4 * k.val) 4 =
      (s.reg ⟨8 * w.val + k.val, by omega⟩).tag.nibble := by
  have hw : memRead s (if w = 0 then 0x018 else 0x01C) = tagsWord s (8 * w.val) := by
    match w with
    | 0 => exact memRead_tags0 s
    | 1 => exact memRead_tags1 s
  have hi : Fin.ofNat 16 (8 * w.val + k.val) = ⟨8 * w.val + k.val, by omega⟩ := Fin.ext (Nat.mod_eq_of_lt (by omega))
  rw [hw, tagsWord_nibble, hi]

/-- STATUS, field by field (spec 10_state R34). -/
theorem statusWord_fields (s : State) :
    (statusWord s).getLsbD 0 = s.busy ∧ (statusWord s).getLsbD 1 = s.done ∧ (statusWord s).getLsbD 2 = s.err ∧
      (statusWord s).getLsbD 3 = s.vres ∧ (statusWord s).getLsbD 4 = s.eqFlag ∧ (statusWord s).getLsbD 5 = s.wign ∧
      (statusWord s).extractLsb' 6 2 = 0#2 ∧ (statusWord s).extractLsb' 8 4 = s.errcode.bits ∧
      (statusWord s).extractLsb' 12 20 = 0#20 := by
  unfold statusWord
  refine ⟨?_, ?_, ?_, ?_, ?_, ?_, ?_, ?_, ?_⟩
  iterate 6
    repeat rw [BitVec.getLsbD_append]
    simp
  all_goals
    repeat rw [BitVec.extractLsb'_append_eq_of_le (by decide)]
  · rw [BitVec.extractLsb'_append_eq_right]
  · rw [BitVec.extractLsb'_append_eq_right]
  · rfl

/-- PARAM, field by field (spec 10_state R32). -/
theorem paramWord_fields :
    paramWord.extractLsb' 0 8 = BitVec.ofNat 8 Config.kLen ∧ paramWord.extractLsb' 8 8 = 16#8 ∧ paramWord.extractLsb' 16 8 = 8#8 ∧
      paramWord.extractLsb' 24 8 = 0#8 := by
  unfold paramWord
  generalize BitVec.ofNat 8 Config.kLen = b
  refine ⟨?_, ?_, ?_, ?_⟩
  · rw [BitVec.extractLsb'_append_eq_right]
  all_goals
    rw [BitVec.extractLsb'_append_eq_of_le (by decide)]
    rfl

/-- CTRL, field by field (spec 10_state R33). -/
theorem ctrlWord_fields (s : State) : (ctrlWord s).getLsbD 0 = s.ie ∧ (ctrlWord s).extractLsb' 1 31 = 0#31 := by
  unfold ctrlWord
  cases s.ie <;> decide

/-! ### Writes of the 32-bit registers -/

/-- An idle engine accepts the word written to CMD. -/
theorem memWrite_cmd_idle {s : State} (h : s.phase = .idle) (w : Word) :
    memWrite s 0x010 w = { s with draws := s.draws + 1 }.accept (Config.lat s.draws (s.accept 0 w)) w := by
  rw [memWrite_cmd, writeCmd, State.unlessBusy_idle h]

theorem memWrite_ctrl_ie {s : State} {w : Word} (h1 : w.getLsbD 1 = false ∨ s.busy = false) (h2 : w.getLsbD 2 = false) :
    memWrite s 0x008 w = { s with ie := w.getLsbD 0 } := by
  rw [memWrite_ctrl, writeCtrl_ie h1 h2]

theorem memWrite_status_eq (s : State) (w : Word) :
    memWrite s 0x00C w = { s with done := s.done && !w.getLsbD 1, wign := s.wign && !w.getLsbD 5 } := by
  rw [memWrite_status, writeStatus_eq]

/-! ### Writes of the 256-bit registers while idle -/

theorem memWrite_reg_idle {s : State} (h : s.phase = .idle) (i : RegIx) (k : Fin 8) (w : Word) :
    memWrite s (wordOffset (regBase i) k) w = s.setReg i ⟨withWord (s.reg i).val k w, .raw⟩ := by
  rw [memWrite_of_locate (off := wordOffset (regBase i) k) (locate_reg i k)]
  exact State.unlessBusy_idle h

theorem locate_wideBase (r : Wide) (k : Fin 8) : locate (wordOffset (wideBase r) k) = .wide r k := by
  cases r <;> revert k <;> decide +kernel

theorem memWrite_wide (s : State) (r : Wide) (k : Fin 8) (w : Word) :
    memWrite s (wordOffset (wideBase r) k) w = writeWide s r k w :=
  memWrite_of_locate (locate_wideBase r k)

/-- The elements of the modulus written become RAW and keep their values (spec 10_state R30). -/
theorem reg_writeWide {s : State} (h : s.phase = .idle) (r : Wide) (k : Fin 8) (w : Word) (i : RegIx) :
    (writeWide s r k w).reg i =
      if (r = .mod2 ∧ (s.reg i).tag = .el 2) ∨ (r = .mod3 ∧ (s.reg i).tag = .el 3) then ⟨(s.reg i).val, .raw⟩ else s.reg i := by
  cases r <;> simp [writeWide, State.unlessBusy_idle h] <;> rfl

/-- The slot-1 points become NONE when a curve parameter of slot 1 is written (spec 10_state R30). -/
theorem point_writeWide {s : State} (h : s.phase = .idle) (r : Wide) (k : Fin 8) (w : Word) (j : PointIx) :
    (writeWide s r k w).point j = if r = .mod2 ∨ r = .a1 ∨ r = .b1 then dropSlot1 (s.point j) else s.point j := by
  cases r <;> simp [writeWide, State.unlessBusy_idle h] <;> rfl

end Sys2Proof.Machine

namespace Sys2Proof.Proofs

open Sys2Proof.Machine Sys2Proof.Claims

/-- Settles O52: each write, from what it does to the one register named and to the tags and points of R30. -/
theorem writesInvalidateBindings : Obligations.WritesInvalidateBindings := by
  intro s k w hs
  refine ⟨fun i j => ?_, ?_, fun r hr t ht => ⟨fun i => ?_, fun j => ?_⟩, ?_, ?_⟩
  · rw [memWrite_reg_idle hs]
    exact ⟨by simp, fun hj => State.reg_setReg_ne s _ hj, rfl⟩
  · rintro t (rfl | rfl | ⟨rfl, h2⟩)
    · rw [memWrite_status_eq]; exact ⟨rfl, rfl⟩
    · rw [memWrite_cmd_idle hs]; exact ⟨rfl, rfl⟩
    · rw [memWrite_ctrl_ie (.inr ((State.busy_eq_false_iff s).2 hs)) h2]; exact ⟨rfl, rfl⟩
  · rw [ht, memWrite_wide, reg_writeWide hs]
    split
    · rename_i hd
      exact ⟨rfl, fun _ => rfl, fun hn => absurd hd hn⟩
    · rename_i hd
      exact ⟨rfl, fun h => absurd h hd, fun _ => rfl⟩
  · rw [ht, memWrite_wide, point_writeWide hs]
    split
    · rename_i hd
      exact ⟨fun _ => dropSlot1_s1, fun hn => dropSlot1_other fun h1 => hn ⟨hd, h1⟩⟩
    · rename_i hd
      exact ⟨fun h => absurd h hd, fun _ => rfl⟩
  · rintro i t rfl
    rw [memWrite_reg_idle hs]
    rfl
  · rintro r t rfl
    rw [memWrite_wide]
    refine ⟨?_, ?_, ?_, ?_, ?_, ?_⟩
    all_goals
      rintro rfl
      simp only [writeWide, State.unlessBusy_idle hs]
    all_goals rfl

/-- Settles O53: each register as the word of its fields, the maps nibble by nibble. -/
theorem statusWordsShowTheirFields : Obligations.StatusWordsShowTheirFields := by
  intro s
  refine ⟨?_, ?_, ?_, ⟨memRead_id s, memRead_cmd s⟩, ?_, ?_, fun w => ⟨?_, ?_, ?_, memWrite_status_eq s w, ?_⟩⟩
  · rintro k w v rfl
    have hn := memRead_tags_nibble s w k
    refine ⟨fun hr => by rw [hn, hr]; rfl, fun m hm => ?_⟩
    obtain ⟨p1, p2, p3⟩ := parts_of_nibble hn
    rw [p1, p2, p3, hm]
    exact nibble_el m
  · rintro k v rfl
    have hn : (memRead s 0x020).extractLsb' (4 * k.val) 4 = pointNibble (s.point k) := by
      rw [memRead_pstat, pstatWord_nibble]
    refine ⟨fun hp => by rw [hn, hp]; rfl, fun hp => by rw [hn, hp]; rfl, fun c x y hp => ?_⟩
    obtain ⟨p1, p2, p3⟩ := parts_of_nibble hn
    rw [p1, p2, p3, hp]
    exact pointNibble_aff c x y
  · rintro v rfl
    rw [memRead_status]
    exact statusWord_fields s
  · rintro v rfl
    rw [memRead_param]
    exact paramWord_fields
  · rintro v rfl
    rw [memRead_ctrl]
    exact ctrlWord_fields s
  · exact memWrite_of_locate locate_tags0
  · exact memWrite_of_locate locate_tags1
  · exact memWrite_of_locate locate_pstat
  · exact fun h1 h2 => memWrite_ctrl_ie (.inl h1) h2

/-- Settles O54: a completion sets DONE; every other clause is what one write does to IE or DONE. -/
theorem irqIsEnableAndDone : Obligations.IrqIsEnableAndDone := by
  intro s
  refine ⟨rfl, fun i t h hidle => ?_, fun w h1 h2 => ?_, fun w h1 => ?_, fun w hs => ?_⟩
  · cases effect_of_exec h with
    | waits _ hw => rw [State.waiting_idle hidle] at hw; cases hw
    | asks g _ _ => cases hidle
    | rejects g _ _ => cases hidle
    | looping m _ => cases hidle
    | _ => simp [State.irq]
  · rw [memWrite_ctrl_ie (.inl h1) h2]
    rfl
  · rw [memWrite_status_eq]
    simp [State.irq, h1]
  · rw [memWrite_cmd_idle hs]
    simp [State.irq]

/-- Settles O58: the reset state is its own reset. -/
theorem resetMeetsTheInvariants : Obligations.ResetMeetsTheInvariants :=
  ⟨curveInv_iff_invWith.2 (toReset_invWith good_property State.reset false), fun i => Vector.getElem_replicate i.isLt,
    fun j => Vector.getElem_replicate j.isLt, by decide⟩

end Sys2Proof.Proofs
end

section
/-! PROOFS. The register window and the MAC port (spec 20_memory R60 to R70, R79): O7, O8, O48, O49, O50 and O51. -/

namespace Sys2Proof.Machine

open Sys2Proof.Claims

/-! ### What an engine serves that does not go on with its command -/

/-- A request on the MAC port without a response is what the engine waits for (spec 20_memory R79). -/
theorem outstanding_iff_waiting {s : State} : outstanding s ↔ s.waiting = true := by
  constructor
  · rintro ⟨n, g, hp, hg⟩
    rw [State.waiting_gen hp, hg]
    rfl
  · exact State.waiting_eq_true

/-- What is next and does not count against LAT is served from the state as it is (spec 70_reset_and_hazards R320; log entry 2). -/
theorem step_serves_uncounted {s : State} (hc : s.countsBeat = false)
    (h : s.phase = .idle ∨ (∃ (n : Nat) (work : Work), s.phase = .exec (n + 1) work) ∨ outstanding s) :
    step s = .next (serveHost s) := by
  cases hr : s.resetPending with
  | true => exact step_of_resetPending hr
  | false =>
    have succ : ∀ (n : Nat) (work : Work), s.phase = .exec (n + 1) work → step s = .next (serveHost s) := by
      intro n work hp
      rw [step_of_exec_succ hp hr, if_neg (by simp [hc])]
    rcases h with hp | ⟨n, work, hp⟩ | ho
    · exact step_of_idle hp
    · exact succ n work hp
    · have hw := outstanding_iff_waiting.1 ho
      obtain ⟨beats, g, hp, -⟩ := ho
      cases beats with
      | zero => exact step_of_waiting hp hw
      | succ n => exact succ n _ hp

/-- An access to the window is served from the state in which it counts against LAT if LAT is not over
(spec 20_memory R72, 70_reset_and_hazards R320). -/
theorem step_access {s base : State} {width : Nat} {off : BitVec 12} {op : BusOp} {rest : List HostEvent}
    (h : (s.phase = .idle ∨ s.phase = .exec 0 s.work ∧ outstanding s) ∧ base = { s with host := rest } ∨
      ∃ (n : Nat) (work : Work), s.phase = .exec (n + 1) work ∧ base = { s with phase := .exec n work, host := rest })
    (hh : s.host = accessAt width off op :: rest) : step s = .next (busAccess base width off op) := by
  rcases h with ⟨hp | ⟨hp, ho⟩, rfl⟩ | ⟨n, work, hp, rfl⟩
  · rw [step_of_idle hp, serveHost_access hh]
  · rw [step_of_waiting hp (outstanding_iff_waiting.1 ho), serveHost_access hh]
  · have hc : s.countsBeat = true := by simp [State.countsBeat, hh, accessAt]
    rw [step_of_exec_succ hp (by simp [State.resetPending, hh, accessAt]), if_pos hc, serveHost_access (by exact hh)]

/-! ### One access (spec 20_memory R61) -/

theorem busAccess_read_malformed (s : State) {width : Nat} {off : BitVec 12} (h : width ≠ 32 ∨ off.toNat % 4 ≠ 0) :
    busAccess s width off .read = { s with resp := some (.read true 0#32) } :=
  if_neg fun hw => absurd (wellFormedAccess_iff.1 hw) (by omega)

theorem busAccess_write_malformed (s : State) {width : Nat} {off : BitVec 12} (w : Word)
    (h : width ≠ 32 ∨ off.toNat % 4 ≠ 0) :
    busAccess s width off (.write w) = { s with resp := some (.write true) } :=
  if_neg fun hw => absurd (wellFormedAccess_iff.1 hw) (by omega)

theorem busAccess_read {s : State} {off : BitVec 12} (hr : s.rst = false) (h4 : off.toNat % 4 = 0) :
    busAccess s 32 off .read = { s with resp := some (.read false (memRead s off)) } := by
  rw [busAccess, if_pos (wellFormedAccess_iff.2 ⟨rfl, h4⟩), if_neg (by simp [hr])]
  rfl

theorem busAccess_write {s : State} {off : BitVec 12} (w : Word) (hr : s.rst = false) (h4 : off.toNat % 4 = 0) :
    busAccess s 32 off (.write w) = { memWrite s off w with resp := some (.write false) } := by
  rw [busAccess, if_pos (wellFormedAccess_iff.2 ⟨rfl, h4⟩), if_neg (by simp [hr])]
  rfl

/-! ### Which targets a write changes (spec 20_memory R64, R65, R66) -/

/-- The 256-bit registers from 0x300 on that the host can write (spec 20_memory R70). -/
def Wide.writable : Wide → Bool
  | .mod2 | .mod3 | .a1 | .b1 | .gx1 | .gy1 => true
  | .mod0 | .mod1 | .gx0 | .gy0 => false

/-- Reserved and read-only targets (spec 20_memory R64, R65). -/
def Target.ignoresWrites : Target → Bool
  | .ctrl | .status | .cmd | .reg _ _ => false
  | .wide r _ => !r.writable
  | _ => true

/-- The targets of spec 20_memory R66. -/
def Target.locked : Target → Bool
  | .cmd | .reg _ _ => true
  | .wide r _ => r.writable
  | _ => false

theorem writeTarget_of_ignoresWrites {t : Target} (h : t.ignoresWrites = true) (s : State) (w : Word) :
    writeTarget s t w = s := by
  cases t with
  | ctrl | status | cmd | reg i k => cases h
  | wide r k =>
    cases r with
    | mod2 | mod3 | a1 | b1 | gx1 | gy1 => cases h
    | _ => rfl
  | _ => rfl

theorem State.unlessBusy_busy {s : State} (h : s.busy = true) (t : State) : s.unlessBusy t = { s with wign := true } :=
  if_pos h

theorem writeTarget_of_locked {t : Target} {s : State} (h : t.locked = true) (hb : s.busy = true) (w : Word) :
    writeTarget s t w = { s with wign := true } := by
  cases t with
  | cmd | reg i k => exact State.unlessBusy_busy hb _
  | wide r k =>
    cases r with
    | mod0 | mod1 | gx0 | gy0 => cases h
    | _ => exact State.unlessBusy_busy hb _
  | _ => cases h

/-- CTRL and STATUS alone are written in every phase. -/
theorem Target.write_cases (t : Target) : t.ignoresWrites = true ∨ t.locked = true ∨ t = .ctrl ∨ t = .status := by
  cases t with
  | wide r k => cases r <;> simp [Target.ignoresWrites, Target.locked, Wide.writable]
  | _ => simp [Target.ignoresWrites, Target.locked]

/-- While BUSY a write that neither aborts nor resets can change IE, DONE and WIGN alone (spec 20_memory R66). -/
theorem writeTarget_busy {s : State} (hb : s.busy = true) (t : Target) (w : Word)
    (hc : t = .ctrl → w.getLsbD 1 = false ∧ w.getLsbD 2 = false) :
    ∃ ie done wign : Bool, writeTarget s t w = { s with ie := ie, done := done, wign := wign } := by
  rcases t.write_cases with h | h | rfl | rfl
  · exact ⟨s.ie, s.done, s.wign, writeTarget_of_ignoresWrites h s w⟩
  · exact ⟨s.ie, s.done, true, writeTarget_of_locked h hb w⟩
  · obtain ⟨h1, h2⟩ := hc rfl
    exact ⟨w.getLsbD 0, s.done, s.wign, writeCtrl_ie (.inl h1) h2⟩
  · exact ⟨s.ie, _, _, writeStatus_eq s w⟩

/-- While BUSY a harmless access can change the response, IE, DONE and WIGN alone. -/
theorem busAccess_harmless {s : State} {width : Nat} {off : BitVec 12} {op : BusOp} (hb : s.busy = true) (hr : s.rst = false)
    (h : harmless width off op = true) :
    ∃ (resp : Option BusResp) (ie done wign : Bool),
      busAccess s width off op = { s with resp := resp, ie := ie, done := done, wign := wign } := by
  by_cases hw : width = 32 ∧ off.toNat % 4 = 0
  · obtain ⟨rfl, h4⟩ := hw
    cases op with
    | read => exact ⟨_, s.ie, s.done, s.wign, busAccess_read hr h4⟩
    | write w =>
      have hc : locate off = .ctrl → w.getLsbD 1 = false ∧ w.getLsbD 2 = false := by
        intro hl
        have h8 := (locate_eq_ctrl h4).1 hl
        simpa [harmless, wellFormedAccess, h8] using h
      obtain ⟨ie, done, wign, hm⟩ := writeTarget_busy hb (locate off) w hc
      exact ⟨_, ie, done, wign, (busAccess_write w hr h4).trans (by rw [memWrite, hm])⟩
  · have hm : width ≠ 32 ∨ off.toNat % 4 ≠ 0 := by omega
    cases op with
    | read => exact ⟨_, s.ie, s.done, s.wign, busAccess_read_malformed s hm⟩
    | write w => exact ⟨_, s.ie, s.done, s.wign, busAccess_write_malformed s w hm⟩

/-! ### The ranges of the address map (spec 20_memory R70) -/

section
variable {off : BitVec 12}

theorem locate_narrow_range (h : off.toNat < 0x024) : locate off = narrowAt (off.toNat / 4) :=
  if_pos h

theorem locate_reg_range (h1 : 0x100 ≤ off.toNat) (h2 : off.toNat < 0x300) : ∃ (i : RegIx) (k : Fin 8), locate off = .reg i k := by
  unfold locate
  rw [if_neg (by omega), if_neg (by omega), if_pos h2]
  exact ⟨_, _, rfl⟩

theorem locate_wide_range (h1 : 0x300 ≤ off.toNat) (h2 : off.toNat < 0x440) :
    ∃ k : Fin 8, locate off = .wide (wideAt ((off.toNat - 0x300) / 0x20)) k := by
  unfold locate
  rw [if_neg (by omega), if_neg (by omega), if_neg (by omega), if_pos h2]
  exact ⟨_, rfl⟩

theorem locate_point_range (h1 : 0x500 ≤ off.toNat) (h2 : off.toNat < 0x700) :
    ∃ (j : PointIx) (k : Fin 8), locate off = .pointX j k ∨ locate off = .pointY j k := by
  unfold locate
  rw [if_neg (by omega), if_neg (by omega), if_neg (by omega), if_neg (by omega), if_neg (by omega), if_pos h2]
  split
  · exact ⟨_, _, .inl rfl⟩
  · exact ⟨_, _, .inr rfl⟩

theorem locate_of_reservedOffset (h : reservedOffset off) : locate off = .reserved := by
  obtain ⟨-, h | h | h⟩ := h
  · unfold locate
    rw [if_neg (by omega), if_pos h.2]
  · unfold locate
    rw [if_neg (by omega), if_neg (by omega), if_neg (by omega), if_neg (by omega), if_pos h.2]
  · unfold locate
    rw [if_neg (by omega), if_neg (by omega), if_neg (by omega), if_neg (by omega), if_neg (by omega), if_neg (by omega)]

/-- Which of the registers from 0x300 on an offset falls into decides what a write does. -/
theorem locate_wide_writable {b : Bool} {n : Nat} (h1 : 0x300 ≤ off.toNat) (h2 : off.toNat < 0x440)
    (hn : (off.toNat - 0x300) / 0x20 = n) (hw : (wideAt n).writable = b) :
    (locate off).locked = b ∧ (locate off).ignoresWrites = !b := by
  obtain ⟨k, hk⟩ := locate_wide_range h1 h2
  rw [hk, hn, ← hw]
  exact ⟨rfl, rfl⟩

theorem ignoresWrites_of_readOnlyOffset (h : readOnlyOffset off) : (locate off).ignoresWrites = true := by
  obtain ⟨h4, h | h | h | h | h⟩ := h
  · rw [locate_narrow_range (by omega)]
    obtain e | e : off.toNat / 4 = 0 ∨ off.toNat / 4 = 1 := by omega
    all_goals rw [e]; rfl
  · rw [locate_narrow_range h.2]
    obtain e | e | e | e : off.toNat / 4 = 5 ∨ off.toNat / 4 = 6 ∨ off.toNat / 4 = 7 ∨ off.toNat / 4 = 8 := by omega
    all_goals rw [e]; rfl
  · obtain e | e : (off.toNat - 0x300) / 0x20 = 0 ∨ (off.toNat - 0x300) / 0x20 = 1 := by omega
    all_goals exact (locate_wide_writable (b := false) (by omega) (by omega) e rfl).2
  · obtain e | e : (off.toNat - 0x300) / 0x20 = 4 ∨ (off.toNat - 0x300) / 0x20 = 5 := by omega
    all_goals exact (locate_wide_writable (b := false) (by omega) (by omega) e rfl).2
  · obtain ⟨j, k, hl | hl⟩ := locate_point_range h.1 h.2
    all_goals rw [hl]; rfl

theorem locked_of_lockedOffset (h : lockedOffset off) : (locate off).locked = true := by
  obtain ⟨-, h | h | h | h⟩ := h
  · rw [BitVec.eq_of_toNat_eq (y := 0x010#12) h, locate_cmd]
    rfl
  · obtain ⟨i, k, hl⟩ := locate_reg_range h.1 h.2
    rw [hl]
    rfl
  · obtain e | e : (off.toNat - 0x300) / 0x20 = 2 ∨ (off.toNat - 0x300) / 0x20 = 3 := by omega
    all_goals exact (locate_wide_writable (b := true) (by omega) (by omega) e rfl).1
  · obtain e | e | e | e : (off.toNat - 0x300) / 0x20 = 6 ∨ (off.toNat - 0x300) / 0x20 = 7 ∨
        (off.toNat - 0x300) / 0x20 = 8 ∨ (off.toNat - 0x300) / 0x20 = 9 := by omega
    all_goals exact (locate_wide_writable (b := true) (by omega) (by omega) e rfl).1

end

/-! ### The words of the 256-bit registers (spec 20_memory R62) -/

theorem memRead_reg (s : State) (i : RegIx) (k : Fin 8) : memRead s (wordOffset (regBase i) k) = wordOf (s.reg i).val k :=
  memRead_of_locate (locate_reg i k)

theorem memRead_wide (s : State) (r : Wide) (k : Fin 8) : memRead s (wordOffset (wideBase r) k) = wordOf (wideVal s r) k :=
  memRead_of_locate (locate_wideBase r k)

/-- A write to a word of a writable register replaces that word of its value. -/
theorem wideVal_writeWide {s : State} (h : s.phase = .idle) {r : Wide} (hr : r.writable = true) (k : Fin 8) (w : Word) :
    wideVal (writeWide s r k w) r = withWord (wideVal s r) k w := by
  cases r with
  | mod0 | mod1 | gx0 | gy0 => cases hr
  | _ =>
    rw [writeWide, State.unlessBusy_idle h]
    rfl

/-- A number below b^n is the sum of its n digits to the base b, the most significant first. -/
theorem sum_digits (b x n : Nat) : ∑ k : Fin n, x / b ^ (n - 1 - k.val) % b * b ^ (n - 1 - k.val) = x % b ^ n := by
  induction n with
  | zero => simp [Nat.mod_one]
  | succ n ih =>
    have tail : ∀ k : Fin n, n + 1 - 1 - k.succ.val = n - 1 - k.val := by
      intro k
      rw [Fin.val_succ]
      omega
    simp only [Fin.sum_univ_succ, tail, ih]
    rw [Nat.mod_pow_succ, Nat.add_comm, Nat.mul_comm]
    rfl

theorem toNat_wordOf (v : Value) (k : Fin 8) : (wordOf v k).toNat = v.toNat / (2 ^ 32) ^ (8 - 1 - k.val) % 2 ^ 32 := by
  rw [wordOf, BitVec.extractLsb'_toNat, Nat.shiftRight_eq_div_pow, ← Nat.pow_mul,
    show 224 - 32 * k.val = 32 * (8 - 1 - k.val) by omega]

theorem toNat_eq_sum_wordOf (v : Value) : v.toNat = ∑ k : Fin 8, (wordOf v k).toNat * 2 ^ (32 * (7 - k.val)) := by
  simp only [toNat_wordOf, Nat.pow_mul]
  rw [sum_digits (2 ^ 32) v.toNat 8, ← Nat.pow_mul, Nat.mod_eq_of_lt v.isLt]

/-! ### The MAC port (spec 20_memory R79) -/

/-- A tag has K_LEN bytes (spec 00_scope R12). -/
theorem length_mac (key msg : Bytes) : (Config.mac key msg).length = Config.kLen :=
  Vector.length_toList

/-- A command inside GEN_K whose request has no response stays as it is, or finds its modulus or its key bad. -/
theorem exec_outstanding {i : Instr} {s : State} (hi : runsGenK i = true) (ho : outstanding s) :
    ∃ t : State, exec i s = .next t ∧ (t = s ∨ t.err = true) := by
  obtain ⟨n, g, hp, hg⟩ := ho
  have hw : s.work = .gen g := State.work_of_phase hp
  cases i with
  | nonce rd rz re m =>
    refine ⟨_, rfl, ?_⟩
    split
    · exact .inr rfl
    · exact .inl (genStep_waits hw hg)
  | signd rdr rz re rds =>
    refine ⟨_, rfl, ?_⟩
    split
    · exact .inr rfl
    · rw [hw]
      exact .inl (genStep_waits hw hg)
  | _ => cases hi

end Sys2Proof.Machine

namespace Sys2Proof.Proofs

open Sys2Proof.Machine Sys2Proof.Claims

/-- Settles O7: the access is served with its beat counted, and a harmless one reaches the response, IE, DONE and WIGN alone. -/
theorem accessesWhileBusyKeepTheCommand : Obligations.AccessesWhileBusyKeepTheCommand := by
  intro s n work width off op rest hp hr hh hs
  have served : step s = .next (busAccess { s with phase := .exec n work, host := rest } width off op) := by
    rcases hp with hp | ⟨rfl, hp, ho⟩
    · exact step_access (.inr ⟨n, work, hp, rfl⟩) hh
    · exact step_access (.inl ⟨.inr ⟨by rw [State.work_of_phase hp, hp], ho⟩, by rw [← hp]⟩) hh
  obtain ⟨resp, ie, done, wign, ht⟩ :=
    busAccess_harmless (s := { s with phase := .exec n work, host := rest }) rfl hr hs
  rw [ht] at served
  exact ⟨_, served, rfl, rfl, rfl⟩

/-- Settles O8: a response never counts against LAT, so each clause is one case of what a response does. -/
theorem macResponsesAreDeliveredOrDiscarded : Obligations.MacResponsesAreDeliveredOrDiscarded := by
  refine ⟨fun s rest hh hp => ?_, fun s ho hp hh => ?_, fun i s hi ho _ => exec_outstanding hi ho⟩
  · have served : step s = .next (macResponse { s with host := rest }) := by
      rw [step_serves_uncounted (by simp [State.countsBeat, hh]) hp, serveHost_cons hh]
      rfl
    rw [served]
    refine ⟨fun ha => ?_, ?_, fun h0 ho => ?_⟩
    · rw [macResponse_abandoned (by exact ha)]
    · rintro beats g tag h0 hg ht rfl
      rw [macResponse_delivered (by exact h0) (by exact hg) ht]
      exact ⟨length_mac _ _, rfl⟩
    · have hw : s.waiting = false := Bool.eq_false_iff.2 fun hw => ho (outstanding_iff_waiting.2 hw)
      rw [macResponse_ignored (s := { s with host := rest }) h0 hw]
  · rw [step_of_waiting hp (outstanding_iff_waiting.1 ho), serveHost_nil hh]

/-- Settles O48: what one access does to the state it is served from, which is the same state but for the beat it counts. -/
theorem busAccessesAreServed : Obligations.BusAccessesAreServed := by
  refine ⟨fun s base width off op rest hp hh hr => ?_, fun s width addr op rest hp hh ha => ?_, fun s hp hh => ?_⟩
  · have hbr : base.rst = false := by
      rcases hp with ⟨-, rfl⟩ | ⟨n, work, -, rfl⟩
      · exact hr
      · exact hr
    rw [step_access hp hh]
    refine ⟨fun hm => ⟨?_, ?_⟩, ?_⟩
    · rintro rfl
      rw [busAccess_read_malformed base hm]
    · rintro w rfl
      rw [busAccess_write_malformed base w hm]
    · rintro rfl h4
      refine ⟨?_, ?_⟩
      · rintro rfl
        rw [busAccess_read hbr h4]
      · rintro w rfl
        rw [busAccess_write w hbr h4]
  · rw [step_serves_uncounted (by simp [State.countsBeat, hh, windowOffset_outside ha]) (hp.imp_right (Or.imp_right And.right)),
      serveHost_cons hh]
    exact congrArg _ (addressed_outside ha)
  · rw [step_of_idle hp, serveHost_nil hh]

/-- Settles O49: each register read and written as its words. -/
theorem wideRegistersAreEightWords : Obligations.WideRegistersAreEightWords := by
  refine ⟨memRead_reg, memRead_wide, fun s j k => ⟨?_, ?_⟩, fun s i k k' w hs => ?_, fun s r k k' w hs hr => ?_, toNat_eq_sum_wordOf⟩
  · exact memRead_of_locate (locate_pointX j k)
  · exact memRead_of_locate (locate_pointY j k)
  · rw [memWrite_reg_idle hs, memRead_reg, memRead_reg, State.reg_setReg_same, wordOf_withWord]
  · have hw : r.writable = true := by
      revert r
      decide
    rw [memWrite_wide, memRead_wide, memRead_wide, wideVal_writeWide hs hw, wordOf_withWord]

/-- Settles O50: where each offset leads, and what a write does there. -/
theorem reservedAndReadOnlyWritesAreIgnored : Obligations.ReservedAndReadOnlyWritesAreIgnored := by
  refine ⟨fun s off w h => ?_, fun s off w h => ?_, fun s w => ?_⟩
  · have hl := locate_of_reservedOffset h
    exact ⟨memRead_of_locate hl, memWrite_of_locate hl⟩
  · exact writeTarget_of_ignoresWrites (ignoresWrites_of_readOnlyOffset h) s w
  · rw [memWrite_status_eq]
    exact ⟨rfl, rfl, rfl, rfl, rfl⟩

/-- Settles O51: a locked offset leads to a locked target; CTRL and STATUS are written in every phase. -/
theorem lockedWritesWhileBusySetWign : Obligations.LockedWritesWhileBusySetWign := by
  intro s hb
  refine ⟨fun off w h => ?_, fun w => ⟨fun h1 h2 => ?_, ?_⟩⟩
  · exact writeTarget_of_locked (locked_of_lockedOffset h) hb w
  · exact memWrite_ctrl_ie (.inl h1) h2
  · rw [memWrite_status_eq]
    exact ⟨rfl, rfl⟩

end Sys2Proof.Proofs
end

section
/-! PROOFS. The encoding tables (spec 30_encoding R91 to R98): O1 to O5. -/

namespace Sys2Proof

open Sys2Proof.Claims

/-! ### A word accepted by the decoder and by the format table -/

theorem Fields.ofWord_inj {v w : Word} : Fields.ofWord v = Fields.ofWord w ↔ v = w :=
  ⟨fun h => by rw [← Fields.toWord_ofWord v, h, Fields.toWord_ofWord], congrArg Fields.ofWord⟩

/-- The fields of a word that decodes are those of its command. -/
theorem ofWord_of_decode {w : Word} {i : Instr} (h : decode w = .ok i) : Fields.ofWord w = encodeFields i :=
  (encodeFields_of_decodeFields h).symm

theorem gate_eq_ok {reserved point : Bool} {i j : Instr} :
    gate reserved point i = .ok j ↔ (reserved = false ∧ point = false) ∧ i = j := by
  cases reserved <;> cases point <;> simp [gate]

section
variable {n : Nibble}

/-! The checks of spec 30_encoding R96 are the values that the roles of R92 admit. -/

theorem admits_zero_iff : Role.zero.admits n = true ↔ nonZero n = false := by revert n; decide
theorem admits_point_iff : Role.point.admits n = true ↔ badPoint n = false := by revert n; decide
theorem admits_modIx_iff : Role.modIx.admits n = true ↔ highX2 n = false := by revert n; decide
theorem admits_slot_iff : Role.slot.admits n = true ↔ highX1 n = false := by revert n; decide
theorem admits_neg_iff : Role.neg.admits n = true ↔ highX1 n = false := by revert n; decide

end

/-- The decoder accepts exactly the words that the format table admits (spec 30_encoding R96, R97). -/
theorem decodeFields_ok_iff_wellFormed (f : Fields) : (∃ i : Instr, decodeFields f = .ok i) ↔ f.wellFormed = true := by
  unfold decodeFields
  split
  -- no opcode of the map
  case h_23 => simp_all [Fields.wellFormed, formatOf]
  -- an opcode of the map: what its gate checks is what its format admits
  all_goals
    rename_i hop
    simp [Fields.wellFormed, formatOf, hop, Format.admits, gate_eq_ok, admits_zero_iff, admits_point_iff, admits_modIx_iff,
      admits_slot_iff, admits_neg_iff, and_assoc, and_comm, and_left_comm]

theorem decode_error_of_not_wellFormed {w : Word} (h : (Fields.ofWord w).wellFormed = false) :
    ∃ e : DecodeError, decode w = .error e := by
  cases hd : decode w with
  | error e => exact ⟨e, rfl⟩
  | ok i => exact absurd ((decodeFields_ok_iff_wellFormed _).1 ⟨i, hd⟩) (Bool.eq_false_iff.1 h)

/-! ### Match and mask (spec 30_encoding R95) -/

/-- The bits that a role fixes to zero in its field (spec 30_encoding R92). -/
def Role.mask : Role → Nibble
  | .reg | .imm => 0x0
  | .point => 0x8
  | .modIx => 0xC
  | .slot | .neg => 0xE
  | .zero => 0xF

theorem Role.admits_iff_mask (r : Role) (n : Nibble) : r.admits n = true ↔ n &&& r.mask = 0#4 := by
  cases r <;> revert n <;> decide

/-- The bits that a format fixes: the opcode and, in each field, those its role fixes. -/
def Format.mask (t : Format) : Fields := ⟨BitVec.allOnes 8, t.a.mask, t.b.mask, t.c.mask, t.d.mask, t.e.mask, t.x.mask⟩

theorem Fields.ofWord_and (v w : Word) : Fields.ofWord (v &&& w) =
    ⟨(Fields.ofWord v).op &&& (Fields.ofWord w).op, (Fields.ofWord v).a &&& (Fields.ofWord w).a,
      (Fields.ofWord v).b &&& (Fields.ofWord w).b, (Fields.ofWord v).c &&& (Fields.ofWord w).c,
      (Fields.ofWord v).d &&& (Fields.ofWord w).d, (Fields.ofWord v).e &&& (Fields.ofWord w).e,
      (Fields.ofWord v).x &&& (Fields.ofWord w).x⟩ := by
  simp only [Fields.ofWord, BitVec.extractLsb'_and]

/-- Only the opcode of a table row's match is not zero, and its mask has the bits that the opcode's format fixes. -/
theorem opcodeRow_format {row : String × Word × Word} (h : row ∈ opcodeRows) :
    ∃ op : BitVec 8, Fields.ofWord row.2.1 = ⟨op, 0, 0, 0, 0, 0, 0⟩ ∧
      (formatOf op).map Format.mask = some (Fields.ofWord row.2.2) := by
  refine ⟨row.2.1.extractLsb' 0 8, ?_⟩
  revert row
  decide

/-- A word meets a row's match under its mask when it has the row's opcode and the opcode's format admits it. -/
theorem match_mask_iff {w : Word} {row : String × Word × Word} (h : row ∈ opcodeRows) :
    w &&& row.2.2 = row.2.1 ↔
      (Fields.ofWord w).op = (Fields.ofWord row.2.1).op ∧ (Fields.ofWord w).wellFormed = true := by
  obtain ⟨op, hmatch, hrow⟩ := opcodeRow_format h
  obtain ⟨t, ht, hmask⟩ := Option.map_eq_some_iff.1 hrow
  rw [← Fields.ofWord_inj, Fields.ofWord_and, hmatch, ← hmask]
  simp only [Format.mask, Fields.mk.injEq, BitVec.and_allOnes]
  refine and_congr_right fun hop => ?_
  simp [Fields.wellFormed, hop, ht, Format.admits, Role.admits_iff_mask, and_assoc]

/-- The opcode table has a row with the mnemonic and the opcode of each command. -/
theorem mnemonic_mem_opcodeRows (i : Instr) :
    (mnemonic i, (encodeFields i).op) ∈ opcodeRows.map fun row => (row.1, (Fields.ofWord row.2.1).op) := by
  cases i <;> simp only [mnemonic, encodeFields] <;> decide

/-- No two rows share a mnemonic or an opcode. -/
theorem opcodeRows_mnemonic_eq_iff_op : ∀ row ∈ opcodeRows, ∀ row' ∈ opcodeRows,
    row.1 = row'.1 ↔ (Fields.ofWord row.2.1).op = (Fields.ofWord row'.2.1).op := by
  decide

theorem mnemonic_eq_iff_op (i : Instr) {row : String × Word × Word} (h : row ∈ opcodeRows) :
    mnemonic i = row.1 ↔ (encodeFields i).op = (Fields.ofWord row.2.1).op := by
  obtain ⟨own, hown, heq⟩ := List.mem_map.1 (mnemonic_mem_opcodeRows i)
  obtain ⟨hname, hop⟩ := Prod.mk.inj heq
  rw [← hname, ← hop]
  exact opcodeRows_mnemonic_eq_iff_op own hown row h

/-- Match and mask of a row decide whether a word decodes to the row's mnemonic (spec 30_encoding R95). -/
theorem decode_mnemonic_iff {w : Word} {row : String × Word × Word} (h : row ∈ opcodeRows) :
    (∃ i : Instr, decode w = .ok i ∧ mnemonic i = row.1) ↔ w &&& row.2.2 = row.2.1 := by
  rw [match_mask_iff h, ← decodeFields_ok_iff_wellFormed]
  constructor
  · rintro ⟨i, hd, hm⟩
    rw [ofWord_of_decode hd]
    exact ⟨(mnemonic_eq_iff_op i h).1 hm, i, decodeFields_encodeFields i⟩
  · rintro ⟨hop, i, hd⟩
    refine ⟨i, hd, (mnemonic_eq_iff_op i h).2 ?_⟩
    rw [← ofWord_of_decode hd, hop]

end Sys2Proof

namespace Sys2Proof.Machine

open Sys2Proof.Claims

theorem State.resetPending_eq_true {s : State} (h : s.resetPending = true) :
    ∃ (level : Bool) (rest : List HostEvent), s.host = .rst level :: rest := by
  unfold State.resetPending at h
  split at h
  · next level rest hh => exact ⟨level, rest, hh⟩
  · cases h

/-- A command that goes on runs the latched word in this step (spec 70_reset_and_hazards R320). -/
theorem step_of_goesOn {s : State} (h : goesOn s) : step s = runLatched s := by
  obtain ⟨⟨work, hphase⟩, hrst, hmac⟩ := h
  have hr : s.resetPending = false := Bool.eq_false_iff.2 fun h => by
    obtain ⟨level, rest, hh⟩ := State.resetPending_eq_true h
    exact hrst level rest hh
  have hw : s.waiting = false := Bool.eq_false_iff.2 fun h => hmac (outstanding_iff_waiting.2 h)
  exact step_of_exec_zero hphase hr hw

end Sys2Proof.Machine

namespace Sys2Proof.Proofs

open Sys2Proof.Machine Sys2Proof.Claims

/-- Settles O1: the decoder evaluated on each word. -/
theorem specWordsDecode : Obligations.SpecWordsDecode := by
  unfold Obligations.SpecWordsDecode
  decide

/-- Settles O2: the word's fields are the command's fields, and those decode to the command. -/
theorem decodeOfEncodeIsIdentity : Obligations.DecodeOfEncodeIsIdentity := by
  intro i
  rw [decode, encode, Fields.ofWord_toWord, decodeFields_encodeFields]

/-- Settles O3: a word that decodes has its command's fields; match and mask stand for the opcode and its format. -/
theorem encodeOfDecodeIsIdentity : Obligations.EncodeOfDecodeIsIdentity := by
  refine ⟨fun w i hd => ?_, fun w row h => decode_mnemonic_iff h⟩
  rw [encode, ← ofWord_of_decode hd, Fields.toWord_ofWord]

/-- Settles O4: a word outside the format table is one the decoder rejects. -/
theorem illegalWordsCompleteWithCodeNine : Obligations.IllegalWordsCompleteWithCodeNine := by
  intro s hs hwf
  obtain ⟨e, hd⟩ := decode_error_of_not_wellFormed hwf
  refine ⟨rfl, ?_⟩
  rw [step_of_goesOn hs, runLatched_of_error hd]
  rfl

/-- Settles O5: the step runs the latched word, which decodes. -/
theorem stepRunsTheDecodedCommand : Obligations.StepRunsTheDecodedCommand := by
  intro s i hs hd
  rw [step_of_goesOn hs, runLatched_of_ok hd]

end Sys2Proof.Proofs
end

section
/-! PROOFS. The frame of the commands that write no register: NOP, FEQ, PEQ and VERIFY (spec 40_control R120, 41_field R142,
42_point R184, 44_ecdsa R245): O17. Their next states are read off `Effect`. -/

namespace Sys2Proof.Machine

/-- The classes of `Effect` that a comparing command is in: it has no destination, runs no GEN_K, and only VERIFY runs PMUL. -/
theorem classes_of_comparing {i : Instr} (h : i = .nop ∨ writesEq i = true ∨ writesVres i = true) :
    fieldDest i = none ∧ pointDest i = none ∧ rawDests i = [] ∧ runsGenK i = false ∧ multipliesPoint i = writesVres i := by
  rcases h with rfl | h | h
  · exact ⟨rfl, rfl, rfl, rfl, rfl⟩
  · cases i with
    | feq rs1 rs2 => exact ⟨rfl, rfl, rfl, rfl, rfl⟩
    | peq ps1 ps2 => exact ⟨rfl, rfl, rfl, rfl, rfl⟩
    | _ => cases h
  · cases i with
    | verify rr rs rz rpx rpy => exact ⟨rfl, rfl, rfl, rfl, rfl⟩
    | _ => cases h

/-- A command without a destination and without GEN_K changes the flags, the status of its completion and its accumulators alone. -/
theorem exec_frame_of_no_dest {i : Instr} {s t : State} (hf : fieldDest i = none) (hp : pointDest i = none)
    (hr : rawDests i = []) (hg : runsGenK i = false) (h : exec i s = .next t) :
    t = { s with eqFlag := t.eqFlag, vres := t.vres, err := t.err, errcode := t.errcode, phase := t.phase, done := t.done } := by
  cases effect_of_exec h with
  | failed | nothing | eq | vres | looping => rfl
  | element rd v m hd => cases hf.symm.trans hd
  | point pd P hd => cases hp.symm.trans hd
  | raw rd v hd => cases hr.symm.trans hd
  | rawPair r1 r2 v1 v2 hd => cases hr.symm.trans hd
  | waits hi | asks _ hi | rejects _ hi => cases hg.symm.trans hi

/-- A command that runs neither GEN_K nor PMUL completes in its one step. -/
theorem exec_completes {i : Instr} {s t : State} (hg : runsGenK i = false) (hm : multipliesPoint i = false)
    (h : exec i s = .next t) : t.phase = .idle ∧ t.done = true := by
  cases effect_of_exec h with
  | waits hi | asks _ hi | rejects _ hi => cases hg.symm.trans hi
  | looping _ hi => cases hm.symm.trans hi
  | _ => exact ⟨rfl, rfl⟩

/-- No word of the window but STATUS shows a flag, the status of a completion or the phase (spec 20_memory R70). -/
theorem memRead_eq_of_frame {s t : State} {off : BitVec 12} (hoff : locate off ≠ .status)
    (h : t = { s with eqFlag := t.eqFlag, vres := t.vres, err := t.err, errcode := t.errcode, phase := t.phase,
                      done := t.done }) : memRead t off = memRead s off := by
  rw [h, memRead_of_locate rfl, memRead_of_locate rfl]
  cases hl : locate off with
  | status => exact absurd hl hoff
  | _ => rfl

end Sys2Proof.Machine

namespace Sys2Proof.Proofs

open Sys2Proof.Machine Sys2Proof.Claims

/-- Settles O17: a comparing command has no destination, so `Effect` leaves the flags, the completion and the loop of PMUL. -/
theorem comparingCommandsWriteOnlyTheStatus : Obligations.ComparingCommandsWriteOnlyTheStatus := by
  refine ⟨fun s => rfl, fun i s t hi h => ?_⟩
  obtain ⟨hf, hp, hr, hg, hm⟩ := classes_of_comparing hi
  have hframe := exec_frame_of_no_dest hf hp hr hg h
  obtain ⟨heq, hvres⟩ := flagsAreWrittenOnlyByTheirCommands.1 i s t h
  exact ⟨hframe, fun hv => exec_completes hg (hm.trans hv) h, heq, hvres, fun off hoff => memRead_eq_of_frame hoff hframe⟩

end Sys2Proof.Proofs
end

section
/-! PROOFS. The field commands (spec 41_field R130 to R145): O15 and O20 to O25. What a command reads decides its completion, said
once per command; the values are then arithmetic modulo M. -/

namespace Sys2Proof.Machine

variable {s t : State} {rd rs rs1 rs2 re : RegIx} {a b : Nat} {m t1 t2 : ModIx}

/-! ### The operand reads of two elements (spec 41_field R130, R132, R133) -/

theorem elemRead2_raw (h : (s.reg rs1).tag = .raw ∨ (s.reg rs2).tag = .raw) :
    elemRead2 s rs1 rs2 = .error .undefinedOperand := by
  rw [elemRead2_eq]
  rcases h with h | h
  · rw [h]
  · cases h1 : (s.reg rs1).tag <;> rw [h]

theorem elemRead2_mismatch (h1 : (s.reg rs1).tag = .el t1) (h2 : (s.reg rs2).tag = .el t2) (h : s.modulus t1 ≠ s.modulus t2) :
    elemRead2 s rs1 rs2 = .error .orderMismatch := by
  rw [elemRead2_eq, h1, h2]
  exact if_neg h

theorem elemRead2_el (h1 : (s.reg rs1).tag = .el t1) (h2 : (s.reg rs2).tag = .el t2) (h : s.modulus t1 = s.modulus t2) :
    elemRead2 s rs1 rs2 = .ok (s.valNat rs1, s.valNat rs2, t1) := by
  rw [elemRead2_eq, h1, h2]
  exact if_pos h

/-! ### The commands after their reads -/

/-- A failed read is the completion of every command that begins with it. -/
theorem complete_bind_error {α : Type} {x : Except ErrCode α} {e : ErrCode} (h : x = .error e) (f : α → Except ErrCode State) :
    s.complete (x >>= f) = s.completeErr e := by
  rw [h]
  rfl

/-- After a read the command completes as the rest of it says. -/
theorem complete_bind_ok {α : Type} {x : Except ErrCode α} {r : α} (h : x = .ok r) (f : α → Except ErrCode State) :
    s.complete (x >>= f) = s.complete (f r) := by
  rw [h]
  rfl

/-- A failed read or check of two operands is the whole meaning of the commands that make it (spec 41_field R130). -/
theorem exec_two_error {i : Instr} {e : ErrCode}
    (hi : i ∈ [Instr.fadd rd rs1 rs2, .fsub rd rs1 rs2, .fmul rd rs1 rs2, .fdiv rd rs1 rs2])
    (h : elemRead2 s rs1 rs2 = .error e) : exec i s = .next (s.completeErr e) := by
  simp only [List.mem_cons, List.not_mem_nil, or_false] at hi
  rcases hi with rfl | rfl | rfl | rfl
  all_goals exact congrArg Host.Outcome.next (complete_bind_error h _)

/-- The same for one element operand. -/
theorem exec_one_error {i : Instr} {e : ErrCode} {neg : Bool} {imm8 : BitVec 8}
    (hi : i ∈ [Instr.finv rd rs, .fpow rd rs re neg, .fscale rd rs imm8]) (h : elemRead s rs = .error e) :
    exec i s = .next (s.completeErr e) := by
  simp only [List.mem_cons, List.not_mem_nil, or_false] at hi
  rcases hi with rfl | rfl | rfl
  all_goals exact congrArg Host.Outcome.next (complete_bind_error h _)

theorem exec_fadd_of_read (h : elemRead2 s rs1 rs2 = .ok (a, b, m)) :
    exec (.fadd rd rs1 rs2) s = .next (s.setReg rd ⟨toValue ((a + b) % s.modNat m), .el m⟩).finish :=
  congrArg Host.Outcome.next (complete_bind_ok h _)

theorem exec_fsub_of_read (h : elemRead2 s rs1 rs2 = .ok (a, b, m)) :
    exec (.fsub rd rs1 rs2) s = .next (s.setReg rd ⟨toValue (if a ≥ b then a - b else a + s.modNat m - b), .el m⟩).finish :=
  congrArg Host.Outcome.next (complete_bind_ok h _)

theorem exec_fmul_of_read (h : elemRead2 s rs1 rs2 = .ok (a, b, m)) :
    exec (.fmul rd rs1 rs2) s = .next (s.setReg rd ⟨toValue (a * b % s.modNat m), .el m⟩).finish :=
  congrArg Host.Outcome.next (complete_bind_ok h _)

theorem exec_fdiv_of_read (h : elemRead2 s rs1 rs2 = .ok (a, b, m)) :
    exec (.fdiv rd rs1 rs2) s = .next (if b = 0 then s.completeErr .divisionByZero
      else (s.setReg rd ⟨toValue (fdivM (s.modNat m) a b), .el m⟩).finish) :=
  congrArg Host.Outcome.next ((complete_bind_ok h _).trans (apply_ite s.complete _ _ _))

theorem exec_finv_of_read (h : elemRead s rs = .ok (a, m)) :
    exec (.finv rd rs) s = .next (if a = 0 then s.completeErr .divisionByZero
      else (s.setReg rd ⟨toValue (fpowM (s.modNat m) a (s.modNat m - 2)), .el m⟩).finish) :=
  congrArg Host.Outcome.next ((complete_bind_ok h _).trans (apply_ite s.complete _ _ _))

theorem exec_fpow_of_read {neg : Bool} (h : elemRead s rs = .ok (a, m)) :
    exec (.fpow rd rs re neg) s = .next (if neg = true ∧ s.valNat re ≠ 0 ∧ a = 0 then s.completeErr .divisionByZero
      else (s.setReg rd ⟨toValue (fpowM (s.modNat m) a (signedExponent neg (s.valNat re))), .el m⟩).finish) :=
  congrArg Host.Outcome.next ((complete_bind_ok h _).trans (apply_ite s.complete _ _ _))

theorem exec_fscale_of_read {imm8 : BitVec 8} (h : elemRead s rs = .ok (a, m)) :
    exec (.fscale rd rs imm8) s = .next (s.setReg rd ⟨toValue (a * imm8.toNat % s.modNat m), .el m⟩).finish :=
  congrArg Host.Outcome.next (complete_bind_ok h _)

theorem exec_fnew_eq (s : State) (rd rs : RegIx) (m : ModIx) :
    exec (.fnew rd rs m) s = .next (if s.modNat m < 2 then s.completeErr .badModulus
      else if s.modNat m ≤ s.valNat rs then s.completeErr .invalidElement
      else (s.setReg rd ⟨(s.reg rs).val, .el m⟩).finish) := by
  refine congrArg Host.Outcome.next ((apply_ite s.complete _ _ _).trans ?_)
  rw [apply_ite s.complete]
  rfl

/-! ### The frame of the commands with an element destination (spec 41_field R130) -/

/-- A command with an element destination is in no other class of `Effect`. -/
theorem classes_of_fieldDest {i : Instr} (h : fieldDest i = some rd) :
    i ≠ .nop ∧ pointDest i = none ∧ rawDests i = [] ∧ writesEq i = false ∧ writesVres i = false ∧ runsGenK i = false ∧
      multipliesPoint i = false := by
  cases i with
  | fnew | fadd | fsub | fmul | fdiv | finv | fpow | fscale => exact ⟨nofun, rfl, rfl, rfl, rfl, rfl, rfl⟩
  | _ => cases h

/-- Such a command ends with an error or with an element in its destination. -/
theorem exec_of_fieldDest {i : Instr} (hd : fieldDest i = some rd) (h : exec i s = .next t) :
    (∃ e : ErrCode, t = s.completeErr e) ∨ ∃ (v : Value) (m : ModIx), t = (s.setReg rd ⟨v, .el m⟩).finish := by
  obtain ⟨hnop, hpoint, hraw, heq, hvres, hgen, hmul⟩ := classes_of_fieldDest hd
  cases effect_of_exec h with
  | failed e => exact .inl ⟨e, rfl⟩
  | element rd' v m hd' =>
    cases hd.symm.trans hd'
    exact .inr ⟨v, m, rfl⟩
  | nothing hi => exact absurd hi hnop
  | point pd P hi => cases hpoint.symm.trans hi
  | eq b hi => cases heq.symm.trans hi
  | vres b hi => cases hvres.symm.trans hi
  | raw r v hi => cases hraw.symm.trans hi
  | rawPair r1 r2 v1 v2 hi => cases hraw.symm.trans hi
  | waits hi | asks _ hi | rejects _ hi => cases hgen.symm.trans hi
  | looping _ hi => cases hmul.symm.trans hi

/-- Where the operand registers and the status record alone changed, every other word of the window is as before, and so is a
register's that did not change (spec 20_memory R70). -/
theorem memRead_eq_of_regs_frame {off : BitVec 12}
    (h : t = { s with regs := t.regs, err := t.err, errcode := t.errcode, phase := t.phase, done := t.done })
    (hstatus : locate off ≠ .status) (htags0 : locate off ≠ .tags0) (htags1 : locate off ≠ .tags1)
    (hreg : ∀ (j : RegIx) (k : Fin 8), locate off = .reg j k → t.reg j = s.reg j) : memRead t off = memRead s off := by
  rw [memRead_of_locate (s := t) rfl, memRead_of_locate (s := s) rfl]
  cases hl : locate off with
  | status => exact absurd hl hstatus
  | tags0 => exact absurd hl htags0
  | tags1 => exact absurd hl htags1
  | reg j k => simp only [readTarget, hreg j k hl]
  | _ => rw [h]; rfl

/-! ### Arithmetic modulo M (spec 00_scope R13, 41_field R134 to R141) -/

/-- A residue fits in a register: it is canonical and stands for the number reduced. -/
theorem toValue_mod_canonical {M n : Nat} (h0 : 0 < M) (hM : M < 2 ^ 256) :
    (toValue (n % M)).toNat < M ∧ ((toValue (n % M)).toNat : ZMod M) = (n : ZMod M) := by
  have hlt : n % M < M := Nat.mod_lt n h0
  rw [toNat_toValue (hlt.trans hM)]
  exact ⟨hlt, ZMod.natCast_mod n M⟩

/-- The difference as FSUB forms it is the residue of a + (M − b) (spec 41_field R135). -/
theorem difference_eq_mod {M : Nat} (ha : a < M) (hb : b < M) :
    (if a ≥ b then a - b else a + M - b) = (a + (M - b)) % M := by
  split
  · rw [show a + (M - b) = a - b + M by omega, Nat.add_mod_right, Nat.mod_eq_of_lt (by omega)]
  · rw [show a + M - b = a + (M - b) by omega, Nat.mod_eq_of_lt (by omega)]

theorem cast_add_sub_modulus {M : Nat} (hb : b ≤ M) : ((a + (M - b) : Nat) : ZMod M) = a - b := by
  rw [Nat.cast_add, Nat.cast_sub hb, ZMod.natCast_self, zero_sub, sub_eq_add_neg]

/-- FPOW_M with the exponent written out as an integer residue (spec 41_field R137). -/
theorem fpowM_eq_pow_emod {M : Nat} (h : 1 ≤ M) (b : Nat) (e : Int) : fpowM M b e = b ^ (e % ((M : Int) - 1)).toNat % M := by
  rw [fpowM_eq, residue, Nat.cast_sub h, Nat.cast_one]

/-- Fermat: for a prime M the product of the formula's quotient and the divisor is the dividend (spec 41_field R138). -/
theorem fermat_quotient_mul {M : Nat} (hp : M.Prime) (ha : a < M) (h0 : b ≠ 0) (hb : b < M) :
    a * b ^ (M - 2) % M * b % M = a := by
  have := Fact.mk hp
  have hb0 : (b : ZMod M) ≠ 0 := by
    rw [Ne, ZMod.natCast_eq_zero_iff]
    exact Nat.not_dvd_of_pos_of_lt (Nat.pos_of_ne_zero h0) hb
  have hmul : ((fdivM M a b * b : Nat) : ZMod M) = (a : ZMod M) := by
    rw [Nat.cast_mul, fdivM_zmod M a b hb0, div_mul_cancel₀ _ hb0]
  rw [← fdivM_eq M a b hp.two_le, (ZMod.natCast_eq_natCast_iff' _ _ _).1 hmul, Nat.mod_eq_of_lt ha]

/-! ### Equality of operand registers (spec 41_field R142) -/

theorem sameTag_iff (s : State) (x y : Tag) :
    sameTag s x y = true ↔
      (x = .raw ∧ y = .raw) ∨ ∃ m1 m2 : ModIx, x = .el m1 ∧ y = .el m2 ∧ s.modulus m1 = s.modulus m2 := by
  cases x <;> cases y <;> simp [sameTag]

theorem feqFlag_iff (s : State) (rs1 rs2 : RegIx) :
    feqFlag s rs1 rs2 = true ↔ (s.reg rs1).val = (s.reg rs2).val ∧
      (((s.reg rs1).tag = .raw ∧ (s.reg rs2).tag = .raw) ∨
        ∃ m1 m2 : ModIx, (s.reg rs1).tag = .el m1 ∧ (s.reg rs2).tag = .el m2 ∧ s.modulus m1 = s.modulus m2) := by
  rw [feqFlag, Bool.and_eq_true, decide_eq_true_iff, sameTag_iff]

end Sys2Proof.Machine

namespace Sys2Proof.Proofs

open Sys2Proof.Machine Sys2Proof.Claims

/-- Settles O15: the command ends with an error or with one register written. -/
theorem fieldCommandsWriteOnlyTheirDestination : Obligations.FieldCommandsWriteOnlyTheirDestination := by
  intro i rd s t hd h
  rcases exec_of_fieldDest hd h with ⟨e, rfl⟩ | ⟨v, m, rfl⟩
  · exact ⟨rfl, fun _ _ => rfl, fun off hstatus h0 h1 _ => memRead_eq_of_regs_frame rfl hstatus h0 h1 fun _ _ _ => rfl⟩
  · have hregs (j : RegIx) (hj : j ≠ rd) := State.reg_setReg_ne s ⟨v, .el m⟩ hj
    exact ⟨rfl, hregs, fun off hstatus h0 h1 hrd =>
      memRead_eq_of_regs_frame rfl hstatus h0 h1 fun j k hl => hregs j fun hj => hrd k (hj ▸ hl)⟩

/-- Settles O21: each result is a residue modulo M of an integer that the ring of integers mod M knows. -/
theorem ringCommandsComputeInTheIntegersModM : Obligations.RingCommandsComputeInTheIntegersModM := by
  intro s rd rs1 rs2 t1 t2 imm8 hI h1 h2 hM
  have hread := elemRead2_el h1 h2 hM
  obtain ⟨hM2, ha, hb⟩ := elemRead2_reduced hI hread
  have canonical (n : Nat) := toValue_mod_canonical (n := n) (Nat.zero_lt_of_lt hM2) (modNat_lt s t1)
  refine ⟨_, _, _, _, ⟨exec_fadd_of_read hread, ?_⟩, ⟨exec_fsub_of_read hread, ?_⟩, ⟨exec_fmul_of_read hread, ?_⟩,
    exec_fscale_of_read (elemRead_el h1), ?_⟩
  · rw [← Nat.cast_add]
    exact canonical _
  · rw [difference_eq_mod ha hb, ← cast_add_sub_modulus hb.le]
    exact canonical _
  · rw [← Nat.cast_mul]
    exact canonical _
  · rw [← Nat.cast_mul]
    exact canonical _

/-- Settles O22: FPOW_M reduces the signed exponent mod M − 1. -/
theorem fpowRaisesToTheSignedExponent : Obligations.FpowRaisesToTheSignedExponent := by
  intro s rd rs re neg t ht hM
  refine ⟨fun hneg hE ha => ?_, fun hok => ?_⟩
  · rw [exec_fpow_of_read (elemRead_el ht), if_pos ⟨hneg, hE, ha⟩]
  · rw [exec_fpow_of_read (elemRead_el ht), if_neg hok, fpowM_eq_pow_emod (Nat.le_of_succ_le hM)]
    rfl

/-- Settles O23: the exponent M − 2 is its own residue, and for a prime M Fermat's theorem makes it the inverse. -/
theorem fdivAndFinvComputeTheFermatFormula : Obligations.FdivAndFinvComputeTheFermatFormula := by
  rintro s rd rs1 rs2 t1 t2 _ _ _ hI h1 h2 hM rfl rfl rfl
  have hread := elemRead2_el h1 h2 hM
  obtain ⟨hM2, ha, hb⟩ := elemRead2_reduced hI hread
  have hmod : s.modNat t2 = s.modNat t1 := congrArg BitVec.toNat hM.symm
  have hpos : 0 < s.modNat t1 := Nat.zero_lt_of_lt hM2
  rw [exec_fdiv_of_read hread, exec_finv_of_read (elemRead_el h2), hmod]
  refine ⟨fun h0 => ?_, fun h0 => ⟨?_, ?_, Nat.mod_lt _ hpos, Nat.mod_lt _ hpos, fun hp => ⟨?_, ?_⟩⟩⟩
  · rw [if_pos h0, if_pos h0]
    exact ⟨rfl, rfl⟩
  · rw [if_neg h0, fdivM_eq _ _ _ hM2]
    rfl
  · rw [if_neg h0, fpowM_fermat _ _ hM2]
    rfl
  · exact fermat_quotient_mul hp ha h0 hb
  · simpa only [one_mul] using fermat_quotient_mul hp hp.one_lt h0 hb

/-- Settles O20: the branches of FNEW in the order of its rule. -/
theorem fnewBindsAValueBelowItsModulus : Obligations.FnewBindsAValueBelowItsModulus := by
  intro s rd rs m
  rw [exec_fnew_eq]
  refine ⟨fun hM => ?_, fun hM hv => ?_, fun hM hv => ?_⟩
  · rw [if_pos hM]
  · rw [if_neg hM.not_gt, if_pos hv]
  · rw [if_neg hM.not_gt, if_neg hv.not_ge]

/-- Settles O24: the error of the reads is the command's. -/
theorem elementChecksComeFirst : Obligations.ElementChecksComeFirst := by
  intro s rd rs1 rs2 neg imm8
  refine ⟨fun hraw => ?_, fun i hi => ⟨fun hraw => ?_, fun t1 t2 h1 h2 hne => ?_⟩⟩
  · have hone {i : Instr} (hi : i ∈ [Instr.finv rd rs1, .fpow rd rs1 rs2 neg, .fscale rd rs1 imm8]) :=
      exec_one_error hi (elemRead_raw hraw)
    exact ⟨hone (by simp), hone (by simp), hone (by simp)⟩
  · exact exec_two_error hi (elemRead2_raw hraw)
  · exact exec_two_error hi (elemRead2_mismatch h1 h2 hne)

/-- Settles O25: FEQ writes the flag that its rule describes and completes. -/
theorem feqComparesValueAndModulus : Obligations.FeqComparesValueAndModulus :=
  fun s rs1 rs2 => ⟨feqFlag s rs1 rs2, rfl, feqFlag_iff s rs1 rs2⟩

end Sys2Proof.Proofs
end

section
/-! PROOFS. The frames of the commands with a point destination (spec 42_point R170) and of the commands with raw results
(spec 42_point R186, 43_nonce R217, 44_ecdsa R241, R243): O16 and O18. Their next states are read off `Effect`. -/

namespace Sys2Proof.Machine

variable {i : Instr} {pd : PointIx} {s t : State} {off : BitVec 12}

/-! ### Commands with a point destination -/

/-- A command with a point destination is in no other class of `Effect` but the loop of PMUL. -/
theorem classes_of_pointDest (h : pointDest i = some pd) :
    i ≠ .nop ∧ fieldDest i = none ∧ rawDests i = [] ∧ writesEq i = false ∧ writesVres i = false ∧ runsGenK i = false := by
  cases i with
  | pinf | pnew | pgen | padd | pmul | pubkey => exact ⟨nofun, rfl, rfl, rfl, rfl, rfl⟩
  | _ => cases h

/-- Such a command ends with an error or with a point in its destination, or goes on with the loop of PMUL. -/
theorem exec_of_pointDest (hd : pointDest i = some pd) (h : exec i s = .next t) :
    (∃ e : ErrCode, t = s.completeErr e) ∨ (∃ P : Point, t = (s.setPoint pd P).finish) ∨
      (multipliesPoint i = true ∧ ∃ m : Mul, t = s.holdMul m) := by
  obtain ⟨hnop, hfield, hraw, heq, hvres, hgen⟩ := classes_of_pointDest hd
  cases effect_of_exec h with
  | failed e => exact .inl ⟨e, rfl⟩
  | point pd' P hd' =>
    cases hd.symm.trans hd'
    exact .inr (.inl ⟨P, rfl⟩)
  | looping m hi => exact .inr (.inr ⟨hi, m, rfl⟩)
  | nothing hi => exact absurd hi hnop
  | element rd v m hi => cases hfield.symm.trans hi
  | eq b hi => cases heq.symm.trans hi
  | vres b hi => cases hvres.symm.trans hi
  | raw r v hi => cases hraw.symm.trans hi
  | rawPair r1 r2 v1 v2 hi => cases hraw.symm.trans hi
  | waits hi | asks _ hi | rejects _ hi => cases hgen.symm.trans hi

/-- Where the point registers, the status of a completion and the phase alone changed, every other word of the window is as before, and
so is a point's that did not change (spec 20_memory R70). -/
theorem memRead_eq_of_points_frame
    (h : t = { s with points := t.points, err := t.err, errcode := t.errcode, phase := t.phase, done := t.done })
    (hstatus : locate off ≠ .status) (hpstat : locate off ≠ .pstat)
    (hpoint : ∀ (j : PointIx) (k : Fin 8), locate off = .pointX j k ∨ locate off = .pointY j k → t.point j = s.point j) :
    memRead t off = memRead s off := by
  rw [memRead_of_locate (s := t) rfl, memRead_of_locate (s := s) rfl]
  cases hl : locate off with
  | status => exact absurd hl hstatus
  | pstat => exact absurd hl hpstat
  | pointX j k => simp only [readTarget, hpoint j k (.inl hl)]
  | pointY j k => simp only [readTarget, hpoint j k (.inr hl)]
  | _ => rw [h]; rfl

/-! ### Commands with raw results -/

/-- A command with raw results writes no flag, no element and no point. -/
theorem classes_of_rawDests (h : rawDests i ≠ []) :
    i ≠ .nop ∧ fieldDest i = none ∧ pointDest i = none ∧ writesEq i = false ∧ writesVres i = false := by
  cases i with
  | pget | nonce | sign | signd => exact ⟨nofun, rfl, rfl, rfl, rfl⟩
  | _ => exact absurd rfl h

/-- Such a command ends with an error or with its raw results, or goes on with GEN_K or with the loop of PMUL, its registers as they
were. -/
theorem exec_of_rawDests (hd : rawDests i ≠ []) (h : exec i s = .next t) :
    (∃ e : ErrCode, t = s.completeErr e) ∨
      (∃ (rd : RegIx) (v : Value), rawDests i = [rd] ∧ t = (s.setReg rd ⟨v, .raw⟩).finish) ∨
      (∃ (r1 r2 : RegIx) (v1 v2 : Value), rawDests i = [r1, r2] ∧
        t = ((s.setReg r1 ⟨v1, .raw⟩).setReg r2 ⟨v2, .raw⟩).finish) ∨
      ((runsGenK i = true ∨ multipliesPoint i = true) ∧ t = { s with phase := t.phase, iter := t.iter }) := by
  obtain ⟨hnop, hfield, hpoint, heq, hvres⟩ := classes_of_rawDests hd
  cases effect_of_exec h with
  | failed e => exact .inl ⟨e, rfl⟩
  | raw rd v hi => exact .inr (.inl ⟨rd, v, hi, rfl⟩)
  | rawPair r1 r2 v1 v2 hi => exact .inr (.inr (.inl ⟨r1, r2, v1, v2, hi, rfl⟩))
  | waits hi | asks _ hi | rejects _ hi => exact .inr (.inr (.inr ⟨.inl hi, rfl⟩))
  | looping m hi => exact .inr (.inr (.inr ⟨.inr hi, rfl⟩))
  | nothing hi => exact absurd hi hnop
  | element rd v m hi => cases hfield.symm.trans hi
  | point pd P hi => cases hpoint.symm.trans hi
  | eq b hi => cases heq.symm.trans hi
  | vres b hi => cases hvres.symm.trans hi

/-- After a command with raw results a register is as before, or a destination that holds a raw result. -/
theorem reg_of_rawDests (hd : rawDests i ≠ []) (h : exec i s = .next t) (j : RegIx) :
    t.reg j = s.reg j ∨ j ∈ rawDests i ∧ (t.reg j).tag = .raw := by
  rcases exec_of_rawDests hd h with ⟨e, rfl⟩ | ⟨rd, v, hr, rfl⟩ | ⟨r1, r2, v1, v2, hr, rfl⟩ | ⟨-, ht⟩
  · exact .inl rfl
  · by_cases hj : j = rd
    · simp [hr, hj]
    · exact .inl (State.reg_setReg_ne s _ hj)
  · by_cases h2 : j = r2
    · simp [hr, h2]
    · by_cases h1 : j = r1
      · simp [hr, h1, State.reg_setReg, apply_ite Reg.tag]
      · exact .inl ((State.reg_setReg_ne _ _ h2).trans (State.reg_setReg_ne s _ h1))
  · rw [ht]
    exact .inl rfl

/-- Such a command changes the operand registers, the status of a completion, its working values and ITER alone, and while it goes on not
even the registers (spec 42_point R186, 43_nonce R217, 44_ecdsa R241, R243). -/
theorem exec_frame_of_rawDests (hd : rawDests i ≠ []) (h : exec i s = .next t) :
    t = { s with regs := t.regs, err := t.err, errcode := t.errcode, done := t.done, phase := t.phase, iter := t.iter } ∧
      (t.phase ≠ .idle → t.regs = s.regs ∧ (runsGenK i = true ∨ multipliesPoint i = true)) := by
  rcases exec_of_rawDests hd h with ⟨e, rfl⟩ | ⟨rd, v, -, rfl⟩ | ⟨r1, r2, v1, v2, -, rfl⟩ | ⟨hloop, ht⟩
  · exact ⟨rfl, fun hp => absurd rfl hp⟩
  · exact ⟨rfl, fun hp => absurd rfl hp⟩
  · exact ⟨rfl, fun hp => absurd rfl hp⟩
  · rw [ht]
    exact ⟨rfl, fun _ => ⟨rfl, hloop⟩⟩

/-- A word of the window that shows no iteration count does not depend on it (spec 20_memory R70). -/
theorem memRead_with_iter (s : State) (n : Word) (h : locate off ≠ .iter) : memRead { s with iter := n } off = memRead s off := by
  rw [memRead_of_locate rfl, memRead_of_locate rfl]
  cases hl : locate off with
  | iter => exact absurd hl h
  | _ => rfl

end Sys2Proof.Machine

namespace Sys2Proof.Proofs

open Sys2Proof.Machine Sys2Proof.Claims

/-- Settles O16: the command ends with an error, writes its one point, or goes on with its accumulators. -/
theorem pointCommandsWriteOnlyTheirDestination : Obligations.PointCommandsWriteOnlyTheirDestination := by
  intro i pd s t hd h
  obtain ⟨-, -, -, -, -, hgen⟩ := classes_of_pointDest hd
  have hcompletes (hm : multipliesPoint i = false) := exec_completes hgen hm h
  rcases exec_of_pointDest hd h with ⟨e, rfl⟩ | ⟨P, rfl⟩ | ⟨-, m, rfl⟩
  · exact ⟨rfl, hcompletes, fun _ => rfl, fun _ _ => rfl, fun _ => rfl,
      fun off hstatus hpstat _ => memRead_eq_of_points_frame rfl hstatus hpstat fun _ _ _ => rfl⟩
  · have hpoints (j : PointIx) (hj : j ≠ pd) := State.point_setPoint_ne s P hj
    refine ⟨rfl, hcompletes, fun hp => absurd rfl hp, hpoints, fun hnone => ?_, fun off hstatus hpstat hpd => ?_⟩
    · rw [State.finish_point, State.point_setPoint_same] at hnone
      cases hnone
    · refine memRead_eq_of_points_frame rfl hstatus hpstat fun j k hl => hpoints j ?_
      rintro rfl
      exact hl.elim (hpd k).1 (hpd k).2
  · exact ⟨rfl, hcompletes, fun _ => rfl, fun _ _ => rfl, fun _ => rfl,
      fun off hstatus hpstat _ => memRead_eq_of_points_frame rfl hstatus hpstat fun _ _ _ => rfl⟩

/-- Settles O18: the command ends with an error or with raw results, or goes on with its registers as they were. -/
theorem rawResultCommandsWriteOnlyTheirDestinations : Obligations.RawResultCommandsWriteOnlyTheirDestinations := by
  intro i s t hd h
  have hreg := reg_of_rawDests hd h
  have hiter := iterCountsRejectedCandidates.2.1 i s t h
  have hkept (j : RegIx) (hj : j ∉ rawDests i) : t.reg j = s.reg j := (hreg j).resolve_right fun hr => hj hr.1
  obtain ⟨hframe, hloop⟩ := exec_frame_of_rawDests hd h
  refine ⟨hframe, hiter, hloop, hkept, fun j hj => ((hreg j).resolve_left hj).2, fun off hstatus h0 h1 hi hr => ?_⟩
  by_cases hl : locate off = .iter
  · rw [memRead_of_locate hl, memRead_of_locate hl]
    exact hiter (Bool.eq_false_iff.2 fun hg => hi hg hl)
  · rw [← memRead_with_iter t s.iter hl]
    exact memRead_eq_of_regs_frame (by rw [hframe]) hstatus h0 h1 fun j k hj => hkept j fun hm => hr j hm k hj

end Sys2Proof.Proofs
end

section
/-! PROOFS. The point commands that complete in one step (spec 42_point R171 to R186): O26, O27, O33 and O36. What a command reads
decides its completion, said once per command. -/

namespace Sys2Proof.Machine

variable {s : State} {pd ps ps1 ps2 : PointIx} {rx ry rdx rdy : RegIx} {c : Slot} {x y : Value} {e : ErrCode} {P Q R : Point}

/-! ### The construction of a point (spec 10_state R38, 42_point R173 to R175) -/

theorem curveCheck_bad_modulus (h : s.mod2.toNat < 2) : curveCheck s .s1 = .error .badModulus :=
  if_pos h

theorem curveCheck_bad_coefficient (h2 : 2 ≤ s.mod2.toNat) (h : s.mod2.toNat ≤ s.a1.toNat ∨ s.mod2.toNat ≤ s.b1.toNat) :
    curveCheck s .s1 = .error .invalidElement :=
  (if_neg h2.not_gt).trans (if_pos h)

theorem curveCheck_eq_ok (h : c = .s1 → 2 ≤ s.mod2.toNat ∧ s.a1.toNat < s.mod2.toNat ∧ s.b1.toNat < s.mod2.toNat) :
    curveCheck s c = .ok () := by
  cases c with
  | s0 => rfl
  | s1 => exact (curveCheck_s1_iff s).2 (h rfl)

theorem newPoint_bad_curve (h : curveCheck s c = .error e) : newPoint s c x y = .error e := by
  simp only [newPoint, h, bind, Except.bind]

theorem newPoint_out_of_range (hc : curveCheck s c = .ok ())
    (h : (s.curve c).p.toNat ≤ x.toNat ∨ (s.curve c).p.toNat ≤ y.toNat) : newPoint s c x y = .error .invalidElement := by
  simp only [newPoint, hc, bind, Except.bind, ge_iff_le, if_pos h]

theorem newPoint_off_curve (hc : curveCheck s c = .ok ()) (hx : x.toNat < (s.curve c).p.toNat)
    (hy : y.toNat < (s.curve c).p.toNat) (h : ¬ onCurve (s.curve c) x y = true) : newPoint s c x y = .error .notOnCurve := by
  simp only [newPoint, hc, bind, Except.bind, ge_iff_le, if_neg (not_or.2 ⟨hx.not_ge, hy.not_ge⟩), if_neg h]

/-- PNEW and PGEN c1 load the checked point (spec 42_point R174, R175). -/
theorem exec_new {i : Instr} (hi : (i = .pnew pd rx ry c ∧ x = (s.reg rx).val ∧ y = (s.reg ry).val) ∨
      (i = .pgen pd .s1 ∧ c = .s1 ∧ x = s.gx1 ∧ y = s.gy1)) :
    exec i s = .next (s.complete (newPoint s c x y >>= fun P => return s.setPoint pd P)) := by
  rcases hi with ⟨rfl, rfl, rfl⟩ | ⟨rfl, rfl, rfl, rfl⟩
  · rfl
  · rfl

/-! ### The reads of point registers (spec 42_point R171) -/

/-- NONE in either operand ends the commands that read two points. -/
theorem exec_two_points_none {i : Instr} (hi : (∃ pd : PointIx, i = .padd pd ps1 ps2) ∨ i = .peq ps1 ps2)
    (h : s.point ps1 = none ∨ s.point ps2 = none) : exec i s = .next (s.completeErr .undefinedOperand) := by
  have hread {f : Point → Point → Except ErrCode State} :
      s.complete (pointRead s ps1 >>= fun P => pointRead s ps2 >>= f P) = s.completeErr .undefinedOperand := by
    cases h1 : s.point ps1 with
    | none => exact complete_bind_error (pointRead_none h1) _
    | some P =>
      have h2 : s.point ps2 = none := h.resolve_left (by simp [h1])
      exact (complete_bind_ok (pointRead_some h1) _).trans (complete_bind_error (pointRead_none h2) _)
  rcases hi with ⟨pd, rfl⟩ | rfl
  · exact congrArg Host.Outcome.next hread
  · exact congrArg Host.Outcome.next hread

/-- PADD of two points completes as their sum does (spec 42_point R177). -/
theorem exec_padd_of_read (h1 : s.point ps1 = some P) (h2 : s.point ps2 = some Q) :
    exec (.padd pd ps1 ps2) s = .next (s.complete (pointAdd s.curve P Q >>= fun R => return s.setPoint pd R)) :=
  congrArg Host.Outcome.next
    ((complete_bind_ok (pointRead_some h1) _).trans (complete_bind_ok (pointRead_some h2) _))

theorem exec_padd_ok (h1 : s.point ps1 = some P) (h2 : s.point ps2 = some Q) (h : pointAdd s.curve P Q = .ok R) :
    exec (.padd pd ps1 ps2) s = .next (s.setPoint pd R).finish :=
  (exec_padd_of_read h1 h2).trans (congrArg _ (complete_bind_ok h _))

theorem exec_padd_error (h1 : s.point ps1 = some P) (h2 : s.point ps2 = some Q) (h : pointAdd s.curve P Q = .error e) :
    exec (.padd pd ps1 ps2) s = .next (s.completeErr e) :=
  (exec_padd_of_read h1 h2).trans (congrArg _ (complete_bind_error h _))

/-- PEQ of two points writes their equality (spec 42_point R184). -/
theorem exec_peq_of_read (h1 : s.point ps1 = some P) (h2 : s.point ps2 = some Q) :
    exec (.peq ps1 ps2) s = .next (s.setEq (pointEq s.curve P Q)).finish :=
  congrArg Host.Outcome.next
    ((complete_bind_ok (pointRead_some h1) _).trans (complete_bind_ok (pointRead_some h2) _))

theorem exec_pget_undefined (h : s.point ps = none ∨ s.point ps = some .inf) :
    exec (.pget rdx rdy ps) s = .next (s.completeErr .undefinedOperand) := by
  rcases h with h | h
  · exact congrArg Host.Outcome.next (complete_bind_error (pointRead_none h) _)
  · exact congrArg Host.Outcome.next (complete_bind_ok (pointRead_some h) _)

theorem exec_pget_aff (h : s.point ps = some (.aff c x y)) :
    exec (.pget rdx rdy ps) s = .next ((s.setReg rdx ⟨x, .raw⟩).setReg rdy ⟨y, .raw⟩).finish :=
  congrArg Host.Outcome.next (complete_bind_ok (pointRead_some h) _)

/-! ### Sums and equality of points (spec 42_point R176, R178, R179, R184) -/

/-- The sum of two reduced points of one curve fails only where a doubling meets 2·y = p, and is otherwise INF or of the first
operand's slot. -/
theorem pointAdd_aff_cases {curve : Slot → Curve} {c1 c2 : Slot} {x1 y1 x2 y2 : Value}
    (h : (curve c1).params = (curve c2).params) (h1 : x1.toNat < (curve c1).p.toNat) (h2 : y1.toNat < (curve c1).p.toNat)
    (h3 : x2.toNat < (curve c1).p.toNat) :
    (x1 = x2 ∧ y1 = y2 ∧ y1.toNat ≠ 0 ∧ 2 * y1.toNat = (curve c1).p.toNat ∧
        pointAdd curve (.aff c1 x1 y1) (.aff c2 x2 y2) = .error .divisionByZero) ∨
      (¬ (x1 = x2 ∧ y1 = y2 ∧ y1.toNat ≠ 0 ∧ 2 * y1.toNat = (curve c1).p.toNat) ∧
        ∃ R : Point, pointAdd curve (.aff c1 x1 y1) (.aff c2 x2 y2) = .ok R ∧ (R = .inf ∨ ∃ x y : Value, R = .aff c1 x y)) := by
  rw [pointAdd_aff_aff h h1 h2 h3]
  split
  · exact .inr ⟨by tauto, .inf, rfl, .inl rfl⟩
  · split
    · split
      · exact .inl (by tauto)
      · exact .inr ⟨by tauto, _, rfl, .inr (chord_aff ..)⟩
    · exact .inr ⟨by tauto, _, rfl, .inr (chord_aff ..)⟩

theorem params_eq_iff {c1 c2 : Curve} : c1.params = c2.params ↔ c1.p = c2.p ∧ c1.a = c2.a ∧ c1.b = c2.b := by
  simp [Curve.params]

theorem pointEq_iff (curve : Slot → Curve) (P Q : Point) :
    pointEq curve P Q = true ↔ (P = .inf ∧ Q = .inf) ∨
      ∃ (c1 c2 : Slot) (x y : Value), P = .aff c1 x y ∧ Q = .aff c2 x y ∧
        (curve c1).p = (curve c2).p ∧ (curve c1).a = (curve c2).a ∧ (curve c1).b = (curve c2).b := by
  cases P with
  | inf => cases Q <;> simp [pointEq]
  | aff c1 x1 y1 =>
    cases Q with
    | inf => simp [pointEq]
    | aff c2 x2 y2 =>
      simp only [pointEq, decide_eq_true_iff, params_eq_iff]
      constructor
      · rintro ⟨hc, rfl, rfl⟩
        exact .inr ⟨c1, c2, x1, y1, rfl, rfl, hc⟩
      · rintro (⟨⟨⟩, -⟩ | ⟨_, _, _, _, ⟨⟩, ⟨⟩, hc⟩)
        exact ⟨hc, rfl, rfl⟩

end Sys2Proof.Machine

namespace Sys2Proof.Proofs

open Sys2Proof.Machine Sys2Proof.Claims

/-- Settles O26: PNEW and PGEN c1 complete as the construction of their point does, check by check. -/
theorem pointConstructionChecksInOrder : Obligations.PointConstructionChecksInOrder := by
  refine fun s pd rx ry c => ⟨rfl, rfl, fun i x y hi => ?_⟩
  have hok {P : Point} (h : newPoint s c x y = .ok P) : exec i s = .next (s.setPoint pd P).finish :=
    (exec_new hi).trans (congrArg _ (complete_bind_ok h _))
  have herror {e : ErrCode} (h : newPoint s c x y = .error e) : exec i s = .next (s.completeErr e) :=
    (exec_new hi).trans (congrArg _ (complete_bind_error h _))
  refine ⟨?_, ?_, fun hcurve => ?_⟩
  · rintro rfl hM
    exact herror (newPoint_bad_curve (curveCheck_bad_modulus hM))
  · rintro rfl hM hab
    exact herror (newPoint_bad_curve (curveCheck_bad_coefficient hM hab))
  · have hcheck := curveCheck_eq_ok hcurve
    rw [← onCurve_iff _ _ _ (Nat.zero_lt_of_lt (two_le_of_curveCheck hcheck))]
    exact ⟨fun hxy => herror (newPoint_out_of_range hcheck hxy), fun hx hy =>
      ⟨fun hoff => herror (newPoint_off_curve hcheck hx hy hoff), fun hon => hok (newPoint_eq_ok hcheck hx hy hon)⟩⟩

/-- Settles O27: PADD completes as the sum of its operands does. -/
theorem paddCompletesOrErrsAsRuled : Obligations.PaddCompletesOrErrsAsRuled := by
  intro s pd ps1 ps2 hI
  refine ⟨exec_two_points_none (.inl ⟨pd, rfl⟩), fun Q h1 h2 => exec_padd_ok h1 h2 (pointAdd_inf_left _ _),
    fun P h1 h2 => exec_padd_ok h1 h2 (pointAdd_inf_right _ _), fun c1 c2 x1 y1 x2 y2 h1 h2 =>
    ⟨fun hc => exec_padd_error h1 h2 (pointAdd_mismatch hc), fun hc => ?_⟩⟩
  obtain ⟨-, hx1, hy1⟩ := hI ps1 _ h1
  obtain ⟨-, hx2, -⟩ := hI ps2 _ h2
  rw [← (params_eq_iff.1 hc).1] at hx2
  rcases pointAdd_aff_cases hc hx1 hy1 hx2 with ⟨hx, hy, hy0, hp, hadd⟩ | ⟨hne, R, hadd, hR⟩
  · exact ⟨fun _ => exec_padd_error h1 h2 hadd, fun h => absurd ⟨hx, hy, hy0, hp⟩ h⟩
  · exact ⟨fun h => absurd h hne, fun _ => ⟨R, hadd, exec_padd_ok h1 h2 hadd, hR⟩⟩

/-- Settles O33: PEQ writes the equality of its operands, which its rule describes. -/
theorem peqComparesCurveAndCoordinates : Obligations.PeqComparesCurveAndCoordinates :=
  fun s _ _ => ⟨exec_two_points_none (.inr rfl),
    fun P Q h1 h2 => ⟨pointEq s.curve P Q, exec_peq_of_read h1 h2, pointEq_iff s.curve P Q⟩⟩

/-- Settles O36: the write of y comes last, so it stands where the two destinations are one. -/
theorem pgetWritesRawCoordinates : Obligations.PgetWritesRawCoordinates := by
  refine fun s rdx rdy ps => ⟨exec_pget_undefined, fun c x y h => ⟨_, exec_pget_aff h, rfl, rfl, rfl, ?_, fun hne => ?_⟩⟩
  · exact State.reg_setReg_same ..
  · exact (State.reg_setReg_ne _ _ hne).trans (State.reg_setReg_same ..)

end Sys2Proof.Proofs
end

section
/-! PROOFS. The scalar multiplier (spec 42_point R181 to R185): O28, O29, O30 and O34. A command that multiplies is `mulStep` inside its
loop, and left alone by the host it runs PMUL(P, k) to its end. -/

namespace Sys2Proof.Machine

open Sys2Proof.Claims

variable {i : Instr} {s : State} {P : Point} {k : Nat}

/-! ### One iteration a step (spec 42_point R181) -/

/-- Inside the loop every command that passed its checks does one step of it. -/
theorem exec_mulStep {m : Mul} (hi : multipliesPoint i = true) (hc : mayMultiply s i) (hw : s.work = .mul m) :
    ∃ (failed : ErrCode → State) (finish : Point → State), exec i s = .next (mulStep s m failed finish) := by
  cases i with
  | pmul pd ps rk =>
    obtain ⟨P, hP⟩ := Option.ne_none_iff_exists'.1 hc
    exact ⟨_, _, (exec_pmul hP).trans (congrArg _ (multiply_goes_on hw))⟩
  | pubkey pd re => exact ⟨_, _, (exec_pubkey s pd re).trans (congrArg _ (multiply_goes_on hw))⟩
  | sign rdr rz re rk rds =>
    obtain ⟨h1, h2, h3⟩ := hc
    exact ⟨_, _, (exec_sign h1 h2 h3).trans (congrArg _ (multiply_goes_on hw))⟩
  | signd rdr rz re rds =>
    obtain ⟨h1, h2⟩ := hc
    exact ⟨_, _, exec_signd_mul h1 h2 hw⟩
  | verify rr rs rz rpx rpy => exact ⟨_, _, exec_verify_mul ((verifyDomain_iff ..).2 hc) hw⟩
  | _ => cases hi

section
variable {curve : Slot → Curve} {m : Mul} {R C : Point}

/-- With its bit of the scalar set an iteration adds and doubles. -/
theorem Mul.iterate_adds (hb : m.k.testBit m.iters = true) (hR : pointAdd curve m.result m.current = .ok R)
    (hC : pointAdd curve m.current m.current = .ok C) :
    m.iterate curve = .ok { m with iters := m.iters + 1, result := R, current := C } := by
  simp only [Mul.iterate, hb, if_true, hR, hC]

/-- With that bit clear it doubles alone. -/
theorem Mul.iterate_skips (hb : m.k.testBit m.iters = false) (hC : pointAdd curve m.current m.current = .ok C) :
    m.iterate curve = .ok { m with iters := m.iters + 1, current := C } := by
  simp only [Mul.iterate, hb, Bool.false_eq_true, if_false, hC]

end

/-! ### Small multiples (spec 42_point R183) -/

theorem Mul.loop_cons {curve : Slot → Curve} {n : Nat} {m m' : Mul} (h : m.iterate curve = .ok m') :
    Mul.loop curve (n + 1) m = Mul.loop curve n m' := by
  simp only [Mul.loop, h, bind, Except.bind]

/-- 1·P = P, if the doubling that is always done meets no error. -/
theorem pointMul_one {curve : Slot → Curve} {C : Point} (hC : pointAdd curve P P = .ok C) : pointMul curve P 1 = .ok P := by
  have hfirst := Mul.iterate_adds (m := Mul.start P 1 none) Nat.testBit_one_zero (pointAdd_inf_left curve P) hC
  exact pointMul_ok_iff.2 ⟨_, Mul.loop_cons hfirst, rfl⟩

/-- 2·P = P + P, if the doublings that are always done meet no error. -/
theorem pointMul_two {curve : Slot → Curve} {C D : Point} (hC : pointAdd curve P P = .ok C) (hD : pointAdd curve C C = .ok D) :
    pointMul curve P 2 = .ok C := by
  have hfirst := Mul.iterate_skips (m := Mul.start P 2 none) (Nat.testBit_zero 2) hC
  have hsecond := Mul.iterate_adds (m := ⟨2, 1, none, .inf, C⟩) (by decide : Nat.testBit 2 1 = true) (pointAdd_inf_left curve C) hD
  exact pointMul_ok_iff.2 ⟨_, (Mul.loop_cons hfirst).trans (Mul.loop_cons hsecond), rfl⟩

/-- With an odd modulus a doubling meets no error (spec 42_point R178). -/
theorem pointAdd_self_total (hP : s.PointReduced P)
    (hodd : ∀ (c : Slot) (x y : Value), P = .aff c x y → (s.curve c).p.toNat % 2 = 1) : ∃ C : Point, pointAdd s.curve P P = .ok C :=
  pointAdd_total hP hP hodd (slotOf_params (slotOf_self P) (slotOf_self P))

theorem generator_odd (s : State) (c : Slot) (x y : Value) (h : generator = .aff c x y) : (s.curve c).p.toNat % 2 = 1 := by
  cases h
  exact mod0_odd

/-! ### The whole multiplication as a run (spec 70_reset_and_hazards R320; log entries 2 and 5) -/

/-- A command that is PMUL(P, k) and a commit, left alone by the host, commits the product or completes with the error of an
iteration. -/
theorem reaches_of_multiply {finish : Point → State} (hb : begun s i)
    (hex : ∀ w : Work, exec i { s with phase := .exec 0 w } = .next (multiply { s with phase := .exec 0 w } P k finish)) :
    (∀ R : Point, pointMul s.curve P k = .ok R → reaches s (finish R)) ∧
      (∀ e : ErrCode, pointMul s.curve P k = .error e → reaches s (s.completeErr e)) := by
  obtain ⟨hd, ⟨beats, hphase⟩, hhost⟩ := hb
  have hr : s.resetPending = false := by simp [State.resetPending, hhost]
  have hbegin : step { s with phase := .exec 0 .fresh } = .next (s.holdMul (Mul.start P k none)) :=
    step_runs rfl hr rfl hd ((hex .fresh).trans (congrArg _ (multiply_begins rfl)))
  have hreach {c : Nat} {t : State} (hrun : core.run c (s.holdMul (Mul.start P k none)) = .next t) : reaches s t :=
    ⟨beats + (c + 1), (run_add (run_beats hphase hhost)).trans ((run_succ_of_next hbegin).trans hrun)⟩
  obtain ⟨hok, herror⟩ := run_pointMul (P := P) (k := k) (earlier := none) (failed := s.completeErr) (finish := finish) hd hr
    fun m _ _ => (hex (.mul m)).trans (congrArg _ (multiply_goes_on rfl))
  refine ⟨fun R h => ?_, fun e h => ?_⟩
  · obtain ⟨c, hrun⟩ := hok R h
    exact hreach hrun
  · obtain ⟨c, hrun⟩ := herror e h
    exact hreach hrun

end Sys2Proof.Machine

namespace Sys2Proof.Proofs

open Sys2Proof.Machine Sys2Proof.Claims

/-- Settles O28: the command does one iteration, whose sums are given. -/
theorem scalarMultiplicationTakesOneIterationAStep : Obligations.ScalarMultiplicationTakesOneIterationAStep := by
  intro i s m R C hi hc hw hmore hR hC
  obtain ⟨failed, finish, hexec⟩ := exec_mulStep hi hc hw
  have hiterate : m.iterate s.curve = .ok ⟨m.k, m.iters + 1, m.earlier, R, C⟩ := by
    have hbit := Nat.testBit_eq_decide_div_mod_eq (x := m.k) (i := m.iters)
    split at hR
    · next hb => exact Mul.iterate_adds (hbit.trans (decide_eq_true hb)) hR hC
    · next hb =>
      subst hR
      exact Mul.iterate_skips (hbit.trans (decide_eq_false hb)) hC
  rw [hexec, mulStep_iterates hmore hiterate]
  rfl

/-- Settles O29: PMUL is PMUL(P, k) and the write of its destination. -/
theorem pmulRefinesTheScalarMultiple : Obligations.PmulRefinesTheScalarMultiple := by
  intro s pd ps rk
  refine ⟨fun hnone => ?_, fun P m hP hw hdone => ?_, fun P hP hb => reaches_of_multiply hb fun w => exec_pmul hP⟩
  · simp only [exec, execPmul, pointRead_none hnone]
  · rw [exec_pmul hP, multiply_goes_on hw, mulStep_finishes hdone]

/-- Settles O30: for an odd modulus no doubling fails, so the loop can be run by hand. -/
theorem smallScalarMultiples : Obligations.SmallScalarMultiples := by
  refine ⟨pointMul_zero, pointMul_inf, fun s P k hP hodd => ?_⟩
  obtain ⟨R, hR⟩ := pointMul_total (k := k) hP hodd
  obtain ⟨C, hC⟩ := pointAdd_self_total hP hodd
  have hCslot := slotOf_pointAdd (slotOf_self P) (slotOf_self P) hC
  obtain ⟨D, hD⟩ := pointAdd_self_total (pointAdd_reduced hP hP hC) fun c x y hc => by
    obtain ⟨x', y', hP'⟩ := hCslot c x y hc
    exact hodd c x' y' hP'
  exact ⟨⟨R, hR, (pointMul_keeps hP hR).1⟩, pointMul_one hC, (pointMul_two hC hD).trans hC.symm⟩

/-- Settles O34: p is odd and G reduced, so PMUL(G, e) is no error and stays on slot 0. -/
theorem pubkeyAlwaysCompletes : Obligations.PubkeyAlwaysCompletes := by
  intro s pd re
  refine ⟨fun m hw hdone => ?_, fun hb => ?_⟩
  · rw [exec_pubkey, multiply_goes_on hw, mulStep_finishes hdone]
  · obtain ⟨R, hR, hreduced, hslot⟩ := pointMul_generator s (s.valNat re)
    obtain ⟨hreach, -⟩ := reaches_of_multiply (P := generator) (k := s.valNat re)
      (finish := fun R => (s.setPoint pd R).finish) hb fun w => exec_pubkey _ pd re
    refine ⟨R, hR, hreach R hR, ?_, fun h0 => ?_, fun h1 => ?_⟩
    · cases R with
      | inf => exact .inl rfl
      | aff c x y =>
        obtain ⟨_, _, hc⟩ := hslot c x y rfl
        cases hc
        exact .inr ⟨x, y, rfl, hreduced.2⟩
    · rw [h0, pointMul_zero] at hR
      exact (Except.ok.inj hR).symm
    · obtain ⟨C, hC⟩ := pointAdd_self_total (generator_reduced s) (generator_odd s)
      rw [h1, pointMul_one hC] at hR
      exact (Except.ok.inj hR).symm

end Sys2Proof.Proofs
end

section
/-! PROOFS. The adder over a prime field (spec 42_point R176): O31. Its slopes are quotients in the field of integers mod p. -/

namespace Sys2Proof.Machine

variable {p : Nat}

/-! ### Opposite points (spec 42_point R176, cases 3 and 4) -/

section
variable {x1 y1 x2 y2 : Value}

/-- Which points are opposite does not depend on their order. -/
theorem opposite_comm : (x1 = x2 ∧ (y1 ≠ y2 ∨ y1.toNat = 0)) ↔ (x2 = x1 ∧ (y2 ≠ y1 ∨ y2.toNat = 0)) := by
  by_cases hy : y1 = y2
  · rw [hy, eq_comm]
  · simp [hy, Ne.symm hy, eq_comm]

/-- Points that are not opposite and have one x are one point, off the line y = 0. -/
theorem eq_of_not_opposite (hne : ¬ (x1 = x2 ∧ (y1 ≠ y2 ∨ y1.toNat = 0))) (hx : x1 = x2) : y1 = y2 ∧ y1.toNat ≠ 0 := by
  tauto

end

/-! ### The slope in the field (spec 42_point R176) -/

section
variable [Fact p.Prime]

/-- A quotient of residues with a divisor that is not 0 is the quotient in the field. -/
theorem slope_residues {num den : Int} (hd : residue den p ≠ 0) :
    ∃ σ : Nat, slope p (residue num p) (residue den p) = .ok σ ∧ (σ : ZMod p) * den = num := by
  have hpos := (Fact.out : p.Prime).pos
  have hz := natCast_zmod_ne_zero (residue_lt den hpos) hd
  refine ⟨_, slope_ok hd, ?_⟩
  rw [fdivM_zmod p _ _ hz, residue_zmod num hpos, residue_zmod den hpos]
  rw [residue_zmod den hpos] at hz
  exact div_mul_cancel₀ _ hz

/-- A prime p > 2 is no 2·y (spec 42_point R178). -/
theorem two_mul_ne_of_prime (h2 : 2 < p) (y : Nat) : 2 * y ≠ p := by
  intro h
  have := (Fact.out : p.Prime).eq_one_or_self_of_dvd 2 ⟨y, h.symm⟩
  omega

/-- Two points of one curve that are not opposite have a chord or tangent as their sum. -/
theorem pointAdd_eq_chord {curve : Slot → Curve} {c1 c2 : Slot} {x1 y1 x2 y2 : Value} (hc : (curve c1).params = (curve c2).params)
    (hp : (curve c1).p.toNat = p) (h2 : 2 < p) (hx1 : x1.toNat < p) (hy1 : y1.toNat < p) (hx2 : x2.toNat < p)
    (hne : ¬ (x1 = x2 ∧ (y1 ≠ y2 ∨ y1.toNat = 0))) :
    ∃ σ : Nat, pointAdd curve (.aff c1 x1 y1) (.aff c2 x2 y2) = .ok (chord c1 p σ x1.toNat y1.toNat x2.toNat) ∧
      (x1 ≠ x2 → (σ : ZMod p) * ((x2.toNat : ZMod p) - x1.toNat) = (y2.toNat : ZMod p) - y1.toNat) ∧
      (x1 = x2 → (σ : ZMod p) * (2 * (y1.toNat : ZMod p)) = 3 * (x1.toNat : ZMod p) ^ 2 + (curve c1).a.toNat) := by
  by_cases hx : x1 = x2
  · obtain ⟨rfl, hy⟩ := eq_of_not_opposite hne hx
    subst hx
    have hd : residue (2 * y1.toNat : Nat) p ≠ 0 := fun h =>
      two_mul_ne_of_prime h2 _ ((tangent_divisor_eq_zero_iff hy1 hy).1 h)
    obtain ⟨σ, hσ, hmul⟩ := slope_residues (num := (3 * x1.toNat * x1.toNat + (curve c1).a.toNat : Nat)) hd
    refine ⟨σ, by rw [pointAdd_double hc hy, hp, hσ], fun h => absurd rfl h, fun _ => ?_⟩
    push_cast at hmul
    rw [hmul]
    ring
  · obtain ⟨σ, hσ, hmul⟩ := slope_residues (num := (y2.toNat : Int) - y1.toNat) (chord_divisor_ne_zero hx1 hx2 hx)
    refine ⟨σ, by rw [pointAdd_chord hc hx, hp, hσ], fun _ => ?_, fun h => absurd h hx⟩
    push_cast at hmul
    exact hmul

end

end Sys2Proof.Machine

namespace Sys2Proof.Proofs

open Sys2Proof.Machine Sys2Proof.Claims

/-- Settles O31: the slope is a quotient in the field, and the rest of the formula is the ring's. -/
theorem pointAddIsChordAndTangent : Obligations.PointAddIsChordAndTangent := by
  intro curve c1 c2 x1 y1 x2 y2 p hc hp hprime h2 hx1 hy1 hx2 hy2
  have := Fact.mk hprime
  refine ⟨fun ⟨hx, hy⟩ => pointAdd_opposite hc hx hy, fun hne => ?_⟩
  obtain ⟨σ, hadd, hchord, htangent⟩ := pointAdd_eq_chord hc hp h2 hx1 hy1 hx2 hne
  obtain ⟨x3, y3, hthird, hx3, hy3, ex3, ey3⟩ :=
    chord_spec c1 p σ x1.toNat y1.toNat x2.toNat hprime.pos (hp ▸ (curve c1).p.isLt)
  exact ⟨x3, y3, σ, hadd.trans (congrArg _ hthird), hx3, hy3, hchord, htangent, ex3, ey3⟩

end Sys2Proof.Proofs
end

section
/-! PROOFS. The group laws of the adder (spec 42_point R180): O32. Commutativity rests on the formula of O31; associativity on the group of
a nonsingular curve, for which Laws/Group says that the adder's sums are the group's. -/

namespace Sys2Proof.Machine

open Sys2Proof.Claims

/-! ### Commutativity (spec 42_point R180) -/

/-- The third point of a line through two points does not depend on their order. -/
theorem third_comm {F : Type} [CommRing F] {x1 y1 x2 y2 x3 y3 x3' y3' σ : F} (hσ : σ * (x2 - x1) = y2 - y1)
    (hx3 : x3 = σ ^ 2 - x1 - x2) (hy3 : y3 = σ * (x1 - x3) - y1) (hx3' : x3' = σ ^ 2 - x2 - x1) (hy3' : y3' = σ * (x2 - x3') - y2) :
    x3 = x3' ∧ y3 = y3' := by
  have hx : x3 = x3' := by rw [hx3, hx3']; ring
  subst hx
  exact ⟨rfl, by linear_combination hy3 - hy3' - hσ⟩

/-- P + Q and Q + P are equal as PEQ decides, for two affine points of one curve (spec 42_point R180, R184). -/
theorem pointAdd_comm_aff {curve : Slot → Curve} {c1 c2 : Slot} {x1 y1 x2 y2 : Value} {p : Nat}
    (hc : (curve c1).params = (curve c2).params) (hp : (curve c1).p.toNat = p) (hprime : p.Prime) (h2 : 2 < p)
    (hx1 : x1.toNat < p) (hy1 : y1.toNat < p) (hx2 : x2.toNat < p) (hy2 : y2.toNat < p) :
    ∃ R R' : Point, pointAdd curve (.aff c1 x1 y1) (.aff c2 x2 y2) = .ok R ∧
      pointAdd curve (.aff c2 x2 y2) (.aff c1 x1 y1) = .ok R' ∧ pointEq curve R R' = true := by
  have := Fact.mk hprime
  obtain ⟨ep, ea, -⟩ := params_eq_iff.1 hc
  obtain ⟨hinf, hsum⟩ := Proofs.pointAddIsChordAndTangent curve c1 c2 x1 y1 x2 y2 p hc hp hprime h2 hx1 hy1 hx2 hy2
  obtain ⟨hinf', hsum'⟩ :=
    Proofs.pointAddIsChordAndTangent curve c2 c1 x2 y2 x1 y1 p hc.symm (ep ▸ hp) hprime h2 hx2 hy2 hx1 hy1
  by_cases hopp : x1 = x2 ∧ (y1 ≠ y2 ∨ y1.toNat = 0)
  · exact ⟨.inf, .inf, hinf hopp, hinf' (opposite_comm.1 hopp), rfl⟩
  · obtain ⟨x3, y3, σ, hadd, hx3, hy3, hchord, htangent, ex3, ey3⟩ := hsum hopp
    obtain ⟨x3', y3', σ', hadd', hx3', hy3', hchord', htangent', ex3', ey3'⟩ := hsum' (opposite_comm.not.1 hopp)
    have hthird : (x3.toNat : ZMod p) = x3'.toNat ∧ (y3.toNat : ZMod p) = y3'.toNat := by
      by_cases hx : x1 = x2
      · obtain ⟨rfl, h0⟩ := eq_of_not_opposite hopp hx
        subst hx
        have hy : 2 * (y1.toNat : ZMod p) ≠ 0 := mul_ne_zero (two_ne_zero_of_lt h2) (natCast_zmod_ne_zero hy1 h0)
        have hσ : σ = σ' := mul_right_cancel₀ hy (by rw [htangent rfl, htangent' rfl, ea])
        subst hσ
        exact third_comm (by simp only [sub_self, mul_zero]) ex3 ey3 ex3' ey3'
      · have hne : (x2.toNat : ZMod p) - x1.toNat ≠ 0 := sub_ne_zero.2 fun h => hx (value_eq_of_cast hx2 hx1 h).symm
        have hσ : σ = σ' := mul_right_cancel₀ hne (by linear_combination hchord hx + hchord' (Ne.symm hx))
        subst hσ
        exact third_comm (hchord hx) ex3 ey3 ex3' ey3'
    obtain rfl := value_eq_of_cast hx3 hx3' hthird.1
    obtain rfl := value_eq_of_cast hy3 hy3' hthird.2
    exact ⟨_, _, hadd, hadd', (pointEq_iff ..).2 (.inr ⟨c1, c2, x3, y3, rfl, rfl, params_eq_iff.1 hc⟩)⟩

theorem pointEq_self (curve : Slot → Curve) (P : Point) : pointEq curve P P = true := by
  cases P with
  | inf => rfl
  | aff c x y => exact (pointEq_iff ..).2 (.inr ⟨c, c, x, y, rfl, rfl, rfl, rfl, rfl⟩)

/-! ### Negatives (spec 42_point R180) -/

/-- The coordinate p − y, or 0 for y = 0. -/
theorem exists_neg_value {p : Nat} (h0 : 0 < p) (hp : p < 2 ^ 256) (y : Value) :
    ∃ y' : Value, y'.toNat < p ∧ (y'.toNat : ZMod p) = -(y.toNat : ZMod p) := by
  have hlt := residue_lt (-(y.toNat : Int)) h0
  refine ⟨toValue (residue (-(y.toNat : Int)) p), ?_⟩
  rw [toNat_toValue (hlt.trans hp), residue_zmod _ h0, Int.cast_neg, Int.cast_natCast]
  exact ⟨hlt, rfl⟩

/-! ### The points of one curve -/

/-- Values on one curve are those that Laws/Group speaks of. -/
theorem ofCurve_of_onOneCurve {s : State} {p a b : Value} {points : List Point} {P : Point} (h : onOneCurve s (p, a, b) points)
    (hP : P ∈ points) : OfCurve s.curve p.toNat a.toNat b.toNat P := by
  rintro c x y rfl
  obtain ⟨⟨-, hx, hy⟩, hcurve⟩ := h _ hP
  obtain ⟨hparams, -⟩ := hcurve c x y rfl
  obtain ⟨rfl, rfl, rfl⟩ : (s.curve c).p = p ∧ (s.curve c).a = a ∧ (s.curve c).b = b := by simpa [Curve.params] using hparams
  exact ⟨rfl, rfl, rfl, hx, hy⟩

theorem standsFor_of_onOneCurve {s : State} {p a b : Value} {points : List Point} {P : Point} [Fact p.toNat.Prime]
    (hΔ : (curveOver p.toNat a.toNat b.toNat).Δ ≠ 0) (h : onOneCurve s (p, a, b) points) (hP : P ∈ points) :
    ∃ A : (curveOver p.toNat a.toNat b.toNat).Point, StandsFor P A :=
  standsFor_exists (ofCurve_of_onOneCurve h hP) hΔ fun c x y e => ((h P hP).2 c x y e).2

/-- (P + Q) + R and P + (Q + R) stand for one group element (spec 42_point R180). -/
theorem pointAdd_assoc {s : State} {p a b : Value} [Fact p.toNat.Prime] (h2 : 2 < p.toNat)
    (hΔ : (curveOver p.toNat a.toNat b.toNat).Δ ≠ 0) {P Q R : Point} (h : onOneCurve s (p, a, b) [P, Q, R]) :
    ∃ PQ QR left right : Point, pointAdd s.curve P Q = .ok PQ ∧ pointAdd s.curve PQ R = .ok left ∧
      pointAdd s.curve Q R = .ok QR ∧ pointAdd s.curve P QR = .ok right ∧ pointEq s.curve left right = true := by
  have hP := ofCurve_of_onOneCurve h (P := P) (by simp)
  have hQ := ofCurve_of_onOneCurve h (P := Q) (by simp)
  have hR := ofCurve_of_onOneCurve h (P := R) (by simp)
  obtain ⟨A, hA⟩ := standsFor_of_onOneCurve hΔ h (P := P) (by simp)
  obtain ⟨B, hB⟩ := standsFor_of_onOneCurve hΔ h (P := Q) (by simp)
  obtain ⟨C, hC⟩ := standsFor_of_onOneCurve hΔ h (P := R) (by simp)
  obtain ⟨PQ, ePQ, oPQ, sPQ⟩ := pointAdd_standsFor h2 hP hQ hA hB
  obtain ⟨left, eleft, oleft, sleft⟩ := pointAdd_standsFor h2 oPQ hR sPQ hC
  obtain ⟨QR, eQR, oQR, sQR⟩ := pointAdd_standsFor h2 hQ hR hB hC
  obtain ⟨right, eright, oright, sright⟩ := pointAdd_standsFor h2 hP oQR hA sQR
  rw [add_assoc] at sleft
  exact ⟨PQ, QR, left, right, ePQ, eleft, eQR, eright, standsFor_pointEq oleft oright sleft sright⟩

/-- Every point of the curve has an inverse: (x, −y), and INF for INF (spec 42_point R180). -/
theorem exists_inverse {s : State} {params : Value × Value × Value} (hp : params.1.toNat.Prime) (h2 : 2 < params.1.toNat) {P : Point}
    (h : onOneCurve s params [P]) : ∃ Q : Point, onOneCurve s params [Q] ∧ pointAdd s.curve P Q = .ok .inf := by
  cases P with
  | inf => exact ⟨.inf, h, pointAdd_inf_left _ _⟩
  | aff c x y =>
    obtain ⟨⟨hcheck, hx, hy⟩, hcurve⟩ := h _ (List.mem_singleton.2 rfl)
    obtain ⟨rfl, hon⟩ := hcurve c x y rfl
    have : Fact (s.curve c).p.toNat.Prime := ⟨hp⟩
    obtain ⟨y', hy', hneg⟩ := exists_neg_value (p := (s.curve c).p.toNat) hp.pos (s.curve c).p.isLt y
    have hon' : onCurve (s.curve c) x y' = true := by
      rw [onCurve_zmod _ _ _ hp.pos] at hon ⊢
      rw [hneg, neg_sq, hon]
    have hopposite : y ≠ y' ∨ y.toNat = 0 := by
      by_contra hcon
      obtain ⟨rfl, h0⟩ : y = y' ∧ y.toNat ≠ 0 := by tauto
      refine natCast_zmod_ne_zero hy h0 ((mul_eq_zero.1 ?_).resolve_left (two_ne_zero_of_lt h2))
      linear_combination hneg
    refine ⟨.aff c x y', fun Q hQ => ?_, pointAdd_opposite rfl rfl hopposite⟩
    obtain rfl := List.mem_singleton.1 hQ
    refine ⟨⟨hcheck, hx, hy'⟩, fun c' x' y'' e => ?_⟩
    cases e
    exact ⟨rfl, hon'⟩

end Sys2Proof.Machine

namespace Sys2Proof.Proofs

open Sys2Proof.Machine Sys2Proof.Claims

/-- Settles O32: INF by its cases, commutativity by the formula, the rest by the group of the curve. -/
theorem pointAddObeysTheGroupLaws : Obligations.PointAddObeysTheGroupLaws := by
  refine ⟨fun curve P => ⟨pointAdd_inf_left curve P, pointAdd_inf_right curve P⟩,
    fun s P Q p hP hQ hprime h2 hp hc => ?_, fun s p a b hprime h2 hΔ => ?_⟩
  · cases P with
    | inf => exact ⟨Q, Q, pointAdd_inf_left .., pointAdd_inf_right .., pointEq_self ..⟩
    | aff c1 x1 y1 =>
      cases Q with
      | inf => exact ⟨_, _, pointAdd_inf_right .., pointAdd_inf_left .., pointEq_self ..⟩
      | aff c2 x2 y2 =>
        obtain ⟨-, hx1, hy1⟩ := hP
        obtain ⟨-, hx2, hy2⟩ := hQ
        have hp1 := hp c1 x1 y1 (.inl rfl)
        rw [hp1] at hx1 hy1
        rw [hp c2 x2 y2 (.inr rfl)] at hx2 hy2
        exact pointAdd_comm_aff (hc c1 c2 x1 y1 x2 y2 rfl rfl) hp1 hprime h2 hx1 hy1 hx2 hy2
  · have := Fact.mk hprime
    have hsmooth := nonsingular_of_discriminant h2 hΔ
    exact ⟨fun P Q R h => pointAdd_assoc h2 hsmooth h, fun P h => exists_inverse hprime h2 h⟩

end Sys2Proof.Proofs
end

section
/-! PROOFS. The nonce generator (spec 43_nonce R211 to R221): O37 to O40. A run of GEN_K is followed pass by pass for every relation that
`Drbg.Run` admits, and read twice: for the responses of any provider, and for the machine with its queue of MAC responses. -/

namespace Sys2Proof.Machine

open Sys2Proof.Claims

variable {mac : Bytes → Bytes → Bytes} {kLen z e q j : Nat}

/-! ### Sizes (spec 43_nonce R210, R221) -/

theorem one_le_octetLen (hq : 2 ≤ q) : 1 ≤ octetLen q := by
  have hbits : bitlen q ≠ 0 := fun h => by
    have := lt_two_pow_bitlen q
    rw [h] at this
    omega
  unfold octetLen
  omega

/-- c calls fill T and c − 1 do not. -/
theorem callsPerPass_bounds (hq : 2 ≤ q) (hk : 1 ≤ kLen) :
    1 ≤ callsPerPass kLen q ∧ (callsPerPass kLen q - 1) * kLen < octetLen q ∧ octetLen q ≤ callsPerPass kLen q * kLen := by
  have hN := one_le_octetLen hq
  have hdiv : kLen * callsPerPass kLen q + (octetLen q + kLen - 1) % kLen = octetLen q + kLen - 1 := Nat.div_add_mod ..
  have hmod : (octetLen q + kLen - 1) % kLen < kLen := Nat.mod_lt _ hk
  have hone : 1 ≤ callsPerPass kLen q := Nat.div_pos (by omega) hk
  rw [mul_comm] at hdiv
  rw [Nat.sub_mul, one_mul]
  omega

theorem seedTail_eq (separator : Byte) : seedTail separator z e q = [separator] ++ keyAndDigest z e q :=
  List.append_assoc ..

/-! ### The end of a pass (spec 43_nonce R216 step 6) -/

theorem inRange_of_not_rejected {c : Nat} (h : ¬ rejected q c) : inRange q c = true :=
  Bool.not_eq_false _ |>.mp fun hc => h (inRange_eq_false.1 hc)

/-- The working values after the response y has ended a pass with a candidate out of range. -/
def Drbg.rejecting (q : Nat) (g : Drbg) (y : Bytes) : Drbg :=
  { g with
    v := y
    t := (g.t ++ y).take (octetLen q)
    candidate := bits2int ((g.t ++ y).take (octetLen q)) (bitlen q) }.send .rejectK (y ++ [0x00#8])

theorem Drbg.advance_of_in_range {g : Drbg} {y : Bytes} (hc : g.call = .fill) (hl : octetLen q ≤ (g.t ++ y).length)
    (hr : ¬ rejected q (bits2int ((g.t ++ y).take (octetLen q)) (bitlen q))) :
    g.advance z e q y = .accepts (bits2int ((g.t ++ y).take (octetLen q)) (bitlen q)) := by
  rw [Drbg.advance_full hc hl, Drbg.test_eq, if_pos (inRange_of_not_rejected hr)]

theorem Drbg.advance_of_rejected {g : Drbg} {y : Bytes} (hc : g.call = .fill) (hl : octetLen q ≤ (g.t ++ y).length)
    (hr : rejected q (bits2int ((g.t ++ y).take (octetLen q)) (bitlen q))) :
    g.advance z e q y = .rejects (g.rejecting q y) := by
  rw [Drbg.advance_full hc hl, Drbg.test_eq, if_neg (Bool.not_eq_true _ |>.mpr (inRange_eq_false.2 hr))]
  rfl

/-! ### GEN_K pass by pass (spec 43_nonce R216) -/

/-- All requests before the T loop of pass j + 1. -/
def requestsBefore (mac : Bytes → Bytes → Bytes) (kLen z e q : Nat) : Nat → List MacReq
  | 0 => seedRequests mac kLen z e q
  | j + 1 => requestsUpTo mac kLen z e q j ++ retryRequests mac kLen z e q j

theorem requestsUpTo_eq (j : Nat) :
    requestsUpTo mac kLen z e q j = requestsBefore mac kLen z e q j ++ passRequests mac kLen z e q j := by
  cases j <;> rfl

/-- T after the c calls of pass j + 1. -/
def passBytes (mac : Bytes → Bytes → Bytes) (kLen z e q j : Nat) : Bytes :=
  (List.range (callsPerPass kLen q)).flatMap fun i => (mac (passKV mac kLen z e q j).1)^[i + 1] (passKV mac kLen z e q j).2

theorem passCandidate_eq (j : Nat) :
    passCandidate mac kLen z e q j = bits2int ((passBytes mac kLen z e q j).take (octetLen q)) (bitlen q) := rfl

/-- The first request of the T loop of pass j + 1 is out. -/
structure Drbg.BeginsPass (mac : Bytes → Bytes → Bytes) (kLen z e q j : Nat) (g : Drbg) : Prop where
  call : g.call = .fill
  k : g.k = (passKV mac kLen z e q j).1
  v : g.v = (passKV mac kLen z e q j).2
  t : g.t = []
  req : g.req = ⟨g.k, g.v⟩
  tag : g.tag = none
  sent : g.sent = requestsBefore mac kLen z e q j ++ [⟨g.k, g.v⟩]

/-- The last request of the T loop of pass j + 1 is out. -/
structure Drbg.EndsPass (mac : Bytes → Bytes → Bytes) (kLen z e q j : Nat) (g : Drbg) : Prop where
  call : g.call = .fill
  k : g.k = (passKV mac kLen z e q j).1
  response : mac g.req.key g.req.msg = (mac (passKV mac kLen z e q j).1)^[callsPerPass kLen q] (passKV mac kLen z e q j).2
  t : g.t ++ mac g.req.key g.req.msg = passBytes mac kLen z e q j
  sent : g.sent = requestsUpTo mac kLen z e q j

section
variable (hq : 2 ≤ q) (hk : 1 ≤ kLen) (hmac : ∀ k m : Bytes, (mac k m).length = kLen)
include hq hk hmac

theorem octetLen_le_passBytes (j : Nat) : octetLen q ≤ (passBytes mac kLen z e q j).length := by
  rw [passBytes, turns_length hmac]
  exact (callsPerPass_bounds hq hk).2.2

/-- The last response of a pass with its candidate in range ends GEN_K. -/
theorem Drbg.EndsPass.accepts {g : Drbg} (h : g.EndsPass mac kLen z e q j) (hr : ¬ rejected q (passCandidate mac kLen z e q j)) :
    g.advance z e q (mac g.req.key g.req.msg) = .accepts (passCandidate mac kLen z e q j) := by
  have hl := octetLen_le_passBytes (z := z) (e := e) hq hk hmac j
  rw [passCandidate_eq] at hr ⊢
  rw [← h.t] at hl hr ⊢
  exact Drbg.advance_of_in_range h.call hl hr

/-- Otherwise it rejects that candidate. -/
theorem Drbg.EndsPass.rejects {g : Drbg} (h : g.EndsPass mac kLen z e q j) (hr : rejected q (passCandidate mac kLen z e q j)) :
    g.advance z e q (mac g.req.key g.req.msg) = .rejects (g.rejecting q (mac g.req.key g.req.msg)) := by
  have hl := octetLen_le_passBytes (z := z) (e := e) hq hk hmac j
  rw [passCandidate_eq] at hr
  rw [← h.t] at hl hr
  exact Drbg.advance_of_rejected h.call hl hr

end

theorem Drbg.EndsPass.rejecting_candidate {g : Drbg} (h : g.EndsPass mac kLen z e q j) :
    (g.rejecting q (mac g.req.key g.req.msg)).candidate = passCandidate mac kLen z e q j := by
  rw [passCandidate_eq, ← h.t]
  rfl

section
variable {P : Nat → Nat → Drbg → Prop} (hP : Drbg.Run mac kLen z e q P)
include hP

/-- Four responses lead through steps 2 to 5. -/
theorem Drbg.Run.beginsFirstPass : ∃ g : Drbg, P 4 0 g ∧ g.BeginsPass mac kLen z e q 0 := by
  have h1 := hP.goes _ _ _ _ hP.begins rfl
  have h2 := hP.goes _ _ _ _ h1 rfl
  have h3 := hP.goes _ _ _ _ h2 rfl
  have h4 := hP.goes _ _ _ _ h3 rfl
  refine ⟨_, h4, rfl, ?_, ?_, rfl, rfl, rfl, ?_⟩
  all_goals
    simp [Drbg.begin, seedTail_eq, passKV, seedKV, requestsBefore, seedRequests]

/-- The T loop up to its last request. -/
theorem Drbg.Run.endsPass (hq : 2 ≤ q) (hk : 1 ≤ kLen) (hmac : ∀ k m : Bytes, (mac k m).length = kLen) {n r : Nat} {g : Drbg}
    (h : P n r g) (hg : g.BeginsPass mac kLen z e q j) :
    ∃ g' : Drbg, P (n + (callsPerPass kLen q - 1)) r g' ∧ g'.EndsPass mac kLen z e q j := by
  obtain ⟨hone, hshort, -⟩ := callsPerPass_bounds hq hk
  obtain ⟨c, hc⟩ : ∃ c : Nat, callsPerPass kLen q = c + 1 := ⟨_, (Nat.sub_add_cancel hone).symm⟩
  rw [hc, Nat.add_sub_cancel] at hshort ⊢
  refine ⟨_, hP.fill hmac h hg.call hg.req hg.tag c (by simpa [hg.t] using hshort), hg.call, hg.k, ?_, ?_, ?_⟩
  · rw [hc, Function.iterate_succ_apply', hg.k, hg.v]
  · simp [passBytes, hc, hg.t, hg.k, hg.v, List.range_succ, Function.iterate_succ_apply']
  · simp [requestsUpTo_eq, passRequests, hc, hg.sent, hg.k, hg.v, List.range_succ_eq_map, Function.comp_def]

/-- Three responses lead from a rejected candidate to the next pass. -/
theorem Drbg.Run.beginsNextPass (hq : 2 ≤ q) (hk : 1 ≤ kLen) (hmac : ∀ k m : Bytes, (mac k m).length = kLen) {n r : Nat} {g : Drbg}
    (h : P n r g) (hg : g.EndsPass mac kLen z e q j) (hr : rejected q (passCandidate mac kLen z e q j)) :
    ∃ g' : Drbg, P (n + 3) (r + 1) g' ∧ g'.BeginsPass mac kLen z e q (j + 1) := by
  have h1 := hP.rejects _ _ _ _ h (hg.rejects hq hk hmac hr)
  have h2 := hP.goes _ _ _ _ h1 rfl
  have h3 := hP.goes _ _ _ _ h2 rfl
  refine ⟨_, h3, rfl, ?_, ?_, rfl, rfl, rfl, ?_⟩
  all_goals
    simp [Drbg.rejecting, passKV, requestsBefore, retryRequests, hg.k, hg.response, hg.sent]

/-- With the first j candidates rejected, all responses but one lead to the last request of pass j + 1. -/
theorem Drbg.Run.reachesEndOfPass (hq : 2 ≤ q) (hk : 1 ≤ kLen) (hmac : ∀ k m : Bytes, (mac k m).length = kLen)
    (hr : ∀ i : Nat, i < j → rejected q (passCandidate mac kLen z e q i)) :
    ∃ g : Drbg, P (callsUpTo kLen q j - 1) j g ∧ g.EndsPass mac kLen z e q j := by
  have hone := (callsPerPass_bounds (kLen := kLen) hq hk).1
  have hcount : ∀ j : Nat, callsUpTo kLen q j - 1 = 4 + j * callsPerPass kLen q + 2 * j + (callsPerPass kLen q - 1) := fun j => by
    rw [callsUpTo, add_mul, one_mul]
    omega
  induction j with
  | zero =>
    obtain ⟨g, h, hg⟩ := hP.beginsFirstPass
    rw [hcount]
    simpa using hP.endsPass hq hk hmac h hg
  | succ j ih =>
    obtain ⟨g, h, hg⟩ := ih fun i hi => hr i (by omega)
    obtain ⟨g', h', hg'⟩ := hP.beginsNextPass hq hk hmac h hg (hr j (by omega))
    have hnext : callsUpTo kLen q j - 1 + 3 = 4 + (j + 1) * callsPerPass kLen q + 2 * (j + 1) := by
      rw [callsUpTo]
      omega
    rw [hcount, ← hnext]
    exact hP.endsPass hq hk hmac h' hg'

end

/-! ### One step of a command in GEN_K (spec 43_nonce R217, R218) -/

section
variable {s : State} {rd rz re : RegIx} {m : ModIx}

theorem exec_nonce_bad_modulus (h : s.modNat m < 2) : exec (.nonce rd rz re m) s = .next (s.completeErr .badModulus) := by
  simp only [exec, execNonce, if_pos h]

/-- With an order of at least 2 NONCE is the generator and the commit of its nonce. -/
theorem exec_nonce (h : 2 ≤ s.modNat m) :
    exec (.nonce rd rz re m) s = .next (genStep s (s.valNat rz) (s.valNat re) (s.modNat m) fun k =>
      (s.setReg rd ⟨toValue k, .raw⟩).finish) := by
  simp only [exec, execNonce, if_neg (Nat.not_lt.2 h), State.complete_ok]

theorem countRejection_eq (s : State) : s.countRejection = { s with iter := saturated (s.iter.toNat + 1) } := by
  rw [← countRejection_iter]
  rfl

theorem saturated_succ (r : Nat) : saturated ((saturated r).toNat + 1) = saturated (r + 1) := by
  simp only [saturated, BitVec.toNat_ofNat]
  congr 1
  omega

end

/-! ### GEN_K as a run of the machine (spec 20_memory R79; log entries 2, 4 and 19) -/

section
variable {s t u : State} {i : Instr} {replies : Nat}

theorem reaches_step (h : reaches s t) (ht : step t = .next u) : reaches s u := by
  obtain ⟨n, hn⟩ := h
  exact ⟨n + 1, (run_add hn).trans (run_one ht)⟩

/-- The executing command with these working values, after r rejected candidates, `abandoned` responses still to be discarded and
`coming` responses still in the queue. -/
def State.inGenK (s : State) (r : Nat) (work : Work) (abandoned coming : Nat) : State :=
  { s with iter := saturated r, phase := .exec 0 work, abandoned := abandoned, host := List.replicate coming .macReply }

/-- At each of these states the command i takes a step of GEN_K(z, e, q). -/
def generatesBy (s : State) (i : Instr) (z e q : Nat) (accepted : State → Nat → State) : Prop :=
  ∀ (r : Nat) (work : Work) (abandoned coming : Nat), (∀ m : Mul, work ≠ .mul m) →
    exec i (s.inGenK r work abandoned coming) =
      .next (genStep (s.inGenK r work abandoned coming) z e q (accepted (s.inGenK r work abandoned coming)))

theorem inGenK_resetPending (r : Nat) (work : Work) (abandoned coming : Nat) :
    (s.inGenK r work abandoned coming).resetPending = false := by
  cases coming <;> rfl

/-- A response is served while the command waits. -/
theorem step_inGenK_waits {r abandoned coming : Nat} {g : Drbg} (hg : g.tag = none) :
    step (s.inGenK r (.gen g) abandoned (coming + 1)) = .next (macResponse (s.inGenK r (.gen g) abandoned coming)) := by
  have hw : (s.inGenK r (.gen g) abandoned (coming + 1)).waiting = true := by rw [State.waiting_gen rfl, hg]; rfl
  rw [step_of_waiting rfl hw, serveHost_cons (ev := .macReply) (rest := List.replicate coming .macReply) rfl]
  rfl

/-- The responses to abandoned requests are discarded. -/
theorem reaches_discards {r coming : Nat} {g : Drbg} (hg : g.tag = none) (abandoned : Nat)
    (h : reaches s (t.inGenK r (.gen g) abandoned (abandoned + coming))) : reaches s (t.inGenK r (.gen g) 0 coming) := by
  induction abandoned with
  | zero => rwa [Nat.zero_add] at h
  | succ n ih =>
    rw [Nat.succ_add] at h
    exact ih (reaches_step h ((step_inGenK_waits hg).trans (by rw [macResponse_abandoned (Nat.succ_pos n)]; rfl)))

section
variable {accepted : State → Nat → State} (hd : decode s.cmd = .ok i) (hex : generatesBy s i z e q accepted)
include hd hex

/-- With the response it waited for the command does what follows it in GEN_K. -/
theorem reaches_answered {r coming : Nat} {g : Drbg} (hg : g.tag = none)
    (h : reaches s (s.inGenK r (.gen g) 0 (coming + 1))) :
    reaches s (genStep (s.inGenK r (.gen (g.answered Config.mac)) 0 coming) z e q
      (accepted (s.inGenK r (.gen (g.answered Config.mac)) 0 coming))) := by
  have hanswered : reaches s (s.inGenK r (.gen (g.answered Config.mac)) 0 coming) :=
    reaches_step h ((step_inGenK_waits hg).trans (by rw [macResponse_delivered rfl rfl hg]; rfl))
  exact reaches_step hanswered (step_runs rfl (inGenK_resetPending ..) rfl hd (hex _ _ _ _ fun m => by simp))

/-- A command that has just begun, with a queue of responses, sends its first request. -/
theorem reaches_begin (hb : begunWithReplies s i replies) (hiter : s.iter = 0#32) :
    reaches s (s.inGenK 0 (.gen (Drbg.begin Config.kLen z e q)) 0 replies) := by
  obtain ⟨-, beats, hphase, hhost⟩ := hb
  have hfresh : reaches s (s.inGenK 0 .fresh s.abandoned (s.abandoned + replies)) := by
    refine ⟨beats, (run_quiet_beats hphase hhost).trans ?_⟩
    rw [State.inGenK, show saturated 0 = s.iter from hiter.symm]
  refine reaches_discards rfl s.abandoned (reaches_step hfresh ?_)
  exact step_runs rfl (inGenK_resetPending ..) rfl hd
    ((hex _ _ _ _ fun m => by simp).trans (congrArg _ (genStep_begins fun g => by simp [State.inGenK, State.work])))

/-- The machine follows GEN_K: each response takes the command to the next request. -/
theorem run_machine (hb : begunWithReplies s i replies) (hiter : s.iter = 0#32) :
    Drbg.Run Config.mac Config.kLen z e q fun n r g =>
      g.tag = none ∧ (n ≤ replies → reaches s (s.inGenK r (.gen g) 0 (replies - n))) := by
  have hanswered {n r : Nat} {g : Drbg} (hn : n + 1 ≤ replies)
      (h : g.tag = none ∧ (n ≤ replies → reaches s (s.inGenK r (.gen g) 0 (replies - n)))) :=
    reaches_answered hd hex (coming := replies - (n + 1)) h.1 (by
      rw [show replies - (n + 1) + 1 = replies - n by omega]; exact h.2 (by omega))
  refine ⟨⟨rfl, fun _ => reaches_begin hd hex hb hiter⟩, fun n r g g' h ha => ?_, fun n r g g' h ha => ?_⟩
  · refine ⟨(Drbg.advance_sends (.inl ha)).1, fun hn => ?_⟩
    have := hanswered hn h
    rwa [genStep_goes rfl rfl ((Drbg.advance_answered ..).trans ha)] at this
  · refine ⟨(Drbg.advance_sends (.inr ha)).1, fun hn => ?_⟩
    have := hanswered hn h
    rw [genStep_rejects rfl rfl ((Drbg.advance_answered ..).trans ha), countRejection_eq] at this
    rw [State.inGenK, ← saturated_succ]
    exact this

variable (hq : 2 ≤ q) (hr : ∀ i : Nat, i < j → rejected q (passCandidate Config.mac Config.kLen z e q i)) (hiter : s.iter = 0#32)
include hq hr hiter

/-- With all responses but the last of pass j + 1 the command waits for that one. -/
theorem reaches_endOfPass (hb : begunWithReplies s i replies) (hn : callsUpTo Config.kLen q j - 1 ≤ replies) :
    ∃ g : Drbg, reaches s (s.inGenK j (.gen g) 0 (replies - (callsUpTo Config.kLen q j - 1))) ∧ g.tag = none ∧
      g.EndsPass Config.mac Config.kLen z e q j := by
  obtain ⟨g, ⟨htag, hreach⟩, hg⟩ := (run_machine hd hex hb hiter).reachesEndOfPass hq one_le_kLen mac_length hr
  exact ⟨g, hreach hn, htag, hg⟩

/-- With that one too, and its candidate in range, the command ends GEN_K with the candidate. -/
theorem reaches_accepted (hb : begunWithReplies s i (callsUpTo Config.kLen q j))
    (ha : ¬ rejected q (passCandidate Config.mac Config.kLen z e q j)) :
    ∃ g : Drbg, reaches s (accepted (s.inGenK j (.gen g) 0 0) (passCandidate Config.mac Config.kLen z e q j)) := by
  obtain ⟨g, hreach, htag, hg⟩ := reaches_endOfPass hd hex hq hr hiter hb (Nat.sub_le ..)
  have hlast : callsUpTo Config.kLen q j - (callsUpTo Config.kLen q j - 1) = 0 + 1 := by
    rw [callsUpTo]
    omega
  rw [hlast] at hreach
  have := reaches_answered hd hex htag hreach
  rw [genStep_accepts rfl rfl ((Drbg.advance_answered ..).trans (hg.accepts hq one_le_kLen mac_length ha))] at this
  exact ⟨_, this⟩

end

/-- NONCE takes a step of GEN_K at each of its states. -/
theorem generatesBy_nonce {rd rz re : RegIx} {m : ModIx} (hq : 2 ≤ s.modNat m) :
    generatesBy s (.nonce rd rz re m) (s.valNat rz) (s.valNat re) (s.modNat m) fun u k => (u.setReg rd ⟨toValue k, .raw⟩).finish := by
  intro r work abandoned coming _
  have hmod : (s.inGenK r work abandoned coming).modNat m = s.modNat m := by
    match m with
    | 0 | 1 | 2 | 3 => rfl
  rw [exec_nonce (hq.trans_eq hmod.symm), hmod]
  rfl

end

end Sys2Proof.Machine

namespace Sys2Proof.Proofs

open Sys2Proof.Machine Sys2Proof.Claims

/-- Settles O37: each conversion by its integer and its length. -/
theorem octetConversionsTruncateAndReduceOnce : Obligations.OctetConversionsTruncateAndReduceOnce := by
  have hbytes (N : Nat) : 256 ^ N = 2 ^ (8 * N) := by rw [pow_mul]; norm_num
  refine ⟨fun v N => ⟨beBytes_length v N, ?_, ?_⟩, fun bs qlen => ⟨bits2int_eq bs qlen, bits2int_lt bs qlen⟩, fun bs q hq => ?_⟩
  · rw [← hbytes]
    exact intOfBytes_beBytes v N
  · exact beBytes_congr (by rw [hbytes, Nat.add_mod_right])
  · have hint := intOfBytes_bits2octets bs (show q ≠ 0 by omega)
    exact ⟨bits2octets_length bs q, hint, hint.trans_lt (reduced_once_lt bs (by omega))⟩

/-- Settles O38: GEN_K followed with the responses of any provider. -/
theorem macCallCount : Obligations.MacCallCount := by
  intro mac kLen z e q j hq hk hmac hr
  obtain ⟨g, hafter, hg⟩ := Drbg.run_after.reachesEndOfPass hq hk hmac hr
  obtain ⟨htag, hlength, hlast⟩ := Drbg.after_sent hafter
  have hcount : g.sent.length = callsUpTo kLen q j := by
    rw [hlength, callsUpTo]
    omega
  refine ⟨g, hafter, hg.sent, hlast, htag, hcount, ?_, hg.accepts hq hk hmac, fun hj =>
    ⟨_, hg.rejects hq hk hmac hj, hg.rejecting_candidate⟩⟩
  rintro rfl rfl rfl
  exact hcount.trans (by decide)

/-- Settles O39: the cases of `genStep`, each with what GEN_K does with the response. -/
theorem nonceTestsOneCandidateAtATime : Obligations.NonceTestsOneCandidateAtATime := by
  rintro s rd rz re m q rfl
  refine ⟨exec_nonce_bad_modulus, fun hq hw => ?_, fun g hq hw ht => ?_, ?_⟩
  · rw [exec_nonce hq, genStep_begins fun g => by simp [hw]]
    refine ⟨_, rfl, rfl, rfl, rfl, ?_⟩
    rw [List.append_assoc, ← seedTail_eq]
    rfl
  · rw [exec_nonce hq, genStep_waits hw ht]
  · rintro g y candidate hq hw ht rfl
    rw [exec_nonce hq]
    refine ⟨fun ⟨hc, hl⟩ => ⟨fun hr => ?_, fun hr => ?_⟩, fun hother => ?_⟩
    · rw [genStep_accepts hw ht (Drbg.advance_of_in_range hc hl hr)]
      rfl
    · rw [genStep_rejects hw ht (Drbg.advance_of_rejected hc hl hr), countRejection_eq]
      exact ⟨_, rfl, rfl, rfl, rfl, rfl, rfl⟩
    · obtain ⟨g', ha⟩ := Drbg.advance_other (z := s.valNat rz) (e := s.valNat re) hother
      rw [genStep_goes hw ht ha]
      exact ⟨g', rfl, ha, Drbg.advance_sends (.inl ha)⟩

/-- Settles O40: GEN_K followed on the machine, then the commit. -/
theorem nonceRefinesGenK : Obligations.NonceRefinesGenK := by
  rintro s j rd rz re m q candidate rfl hq hiter rfl hr
  refine ⟨fun hb => ?_, fun hb ha => ?_⟩
  · obtain ⟨g, hreach, htag, hg⟩ := reaches_endOfPass hb.1 (generatesBy_nonce hq) hq hr hiter hb le_rfl
    rw [Nat.sub_self] at hreach
    exact ⟨g, hreach, htag, hg.sent⟩
  · obtain ⟨g, hreach⟩ := reaches_accepted hb.1 (generatesBy_nonce hq) hq hr hiter hb ha
    exact hreach

end Sys2Proof.Proofs
end

section
/-! PROOFS. The signing commands (spec 44_ecdsa R241 to R244, R249 to R251): O41 to O44. SIGN with its nonce in a register and SIGND
with the nonce of GEN_K run the one loop of PMUL, and SIGN_CORE completes both from its product. -/

namespace Sys2Proof.Machine

open Sys2Proof.Claims

variable {s t u : State} {i : Instr} {rdr rz re rk rds : RegIx} {z e k : Nat}

/-! ### SIGN_CORE from the product on (spec 44_ecdsa R242) -/

theorem finishSign_inf : finishSign s rdr rds z e k .inf = s.completeErr .degenerateNonce := rfl

section
variable {c : Slot} {Rx Ry : Value} {sig : Nat × Nat} (hsig : sig = signatureOf z e k Rx)
include hsig

theorem finishSign_degenerate (h : sig.1 = 0 ∨ sig.2 = 0) :
    finishSign s rdr rds z e k (.aff c Rx Ry) = s.completeErr .degenerateNonce := by
  subst hsig
  have hcore : signCore z e k (.aff c Rx Ry) = .error .degenerateNonce := (signCore_aff ..).trans (if_pos h)
  rw [finishSign, hcore]
  rfl

theorem finishSign_signature (h1 : sig.1 ≠ 0) (h2 : sig.2 ≠ 0) :
    finishSign s rdr rds z e k (.aff c Rx Ry) = (withSignature s rdr rds sig).finish := by
  subst hsig
  have hcore : signCore z e k (.aff c Rx Ry) = .ok (signatureOf z e k Rx) := (signCore_aff ..).trans (if_neg (not_or.2 ⟨h1, h2⟩))
  rw [finishSign, hcore]
  rfl

end

/-- The completion discards the working values. -/
theorem finishSign_with_phase (p : Phase) :
    finishSign { s with phase := p } rdr rds z e k = finishSign s rdr rds z e k := by
  funext R
  unfold finishSign
  cases signCore z e k R <;> rfl

/-- With every iteration done both commands go on with SIGN_CORE (spec 44_ecdsa R241, R243). -/
theorem exec_signs_product {m : Mul}
    (hi : (i = .sign rdr rz re rk rds ∧ s.valNat rk = m.k ∧ m.k < Config.mod1.toNat) ∨ i = .signd rdr rz re rds)
    (h1 : 1 ≤ s.valNat re) (h2 : s.valNat re < Config.mod1.toNat) (hw : s.work = .mul m) (hdone : bitlen m.k ≤ m.iters) :
    exec i s = .next (finishSign s rdr rds (s.valNat rz) (s.valNat re) m.k m.result) := by
  rcases hi with ⟨rfl, hk, hlt⟩ | rfl
  · rw [exec_sign h1 h2 (hk.trans_lt hlt), multiply_goes_on hw, mulStep_finishes hdone, hk]
  · rw [exec_signd_mul h1 h2 hw, mulStep_finishes hdone]

/-- Where no candidate is accepted a step of GEN_K does not depend on what its command does with one. -/
theorem genStep_eq_of_not_accepts {q : Nat} {accepted accepted' : Nat → State}
    (h : ∀ (g : Drbg) (y : Bytes) (k : Nat), s.work = .gen g → g.tag = some y → g.advance z e q y ≠ .accepts k) :
    genStep s z e q accepted = genStep s z e q accepted' := by
  by_cases hw : ∃ g : Drbg, s.work = .gen g
  · obtain ⟨g, hw⟩ := hw
    cases ht : g.tag with
    | none => rw [genStep_waits hw ht, genStep_waits hw ht]
    | some y =>
      cases ha : g.advance z e q y with
      | goes g' => rw [genStep_goes hw ht ha, genStep_goes hw ht ha]
      | rejects g' => rw [genStep_rejects hw ht ha, genStep_rejects hw ht ha]
      | accepts k => exact absurd ha (h g y k hw ht)
  · rw [genStep_begins fun g hg => hw ⟨g, hg⟩, genStep_begins fun g hg => hw ⟨g, hg⟩]

/-- NONCE m1 is the generator GEN_K(z, e, n), like SIGND, and the commit of its nonce (spec 44_ecdsa R250). -/
theorem exec_nonce_m1 (s : State) (rd rz re : RegIx) :
    exec (.nonce rd rz re 1) s = .next (genStep s (s.valNat rz) (s.valNat re) Config.mod1.toNat fun k =>
      (s.setReg rd ⟨toValue k, .raw⟩).finish) :=
  exec_nonce (m := 1) (by decide : 2 ≤ Config.mod1.toNat)

/-! ### The whole commands as runs (log entries 2, 4 and 5) -/

theorem reaches_trans (h : reaches s t) (h' : reaches t u) : reaches s u := by
  obtain ⟨m, hm⟩ := h
  obtain ⟨n, hn⟩ := h'
  exact ⟨m + n, (run_add hm).trans hn⟩

/-- SIGN with key and nonce in range computes R = PMUL(G, k) and goes on with SIGN_CORE. -/
theorem reaches_signCore {R : Point} (hb : begun s (.sign rdr rz re rk rds)) (h1 : 1 ≤ s.valNat re)
    (h2 : s.valNat re < Config.mod1.toNat) (h3 : s.valNat rk < Config.mod1.toNat)
    (hR : pointMul s.curve generator (s.valNat rk) = .ok R) :
    reaches s (finishSign s rdr rds (s.valNat rz) (s.valNat re) (s.valNat rk) R) :=
  (reaches_of_multiply hb fun w => by
    rw [← finishSign_with_phase (.exec 0 w)]
    exact exec_sign h1 h2 h3).1 R hR

/-- SIGND takes a step of GEN_K(z, e, n) at each of its states before the loop of PMUL. -/
theorem generatesBy_signd (h1 : 1 ≤ s.valNat re) (h2 : s.valNat re < Config.mod1.toNat) :
    generatesBy s (.signd rdr rz re rds) (s.valNat rz) (s.valNat re) Config.mod1.toNat
      fun u k => u.holdMul (Mul.start generator k none) :=
  fun _ _ _ _ hw => exec_signd_gen h1 h2 hw

/-- With an accepted candidate k SIGND computes R = PMUL(G, k) and goes on with SIGN_CORE. -/
theorem reaches_signCore_of_accepted {j : Nat} {R : Point}
    (hb : begunWithReplies s (.signd rdr rz re rds) (callsUpTo Config.kLen Config.mod1.toNat j)) (hiter : s.iter = 0#32)
    (h1 : 1 ≤ s.valNat re) (h2 : s.valNat re < Config.mod1.toNat)
    (hk : k = passCandidate Config.mac Config.kLen (s.valNat rz) (s.valNat re) Config.mod1.toNat j)
    (hr : ∀ i : Nat, i < j → rejected Config.mod1.toNat
      (passCandidate Config.mac Config.kLen (s.valNat rz) (s.valNat re) Config.mod1.toNat i))
    (ha : ¬ rejected Config.mod1.toNat k) (hR : pointMul s.curve generator k = .ok R) :
    ∃ g : Drbg, reaches s (finishSign (s.inGenK j (.gen g) 0 0) rdr rds (s.valNat rz) (s.valNat re) k R) := by
  have hd := hb.1
  obtain ⟨g, hnonce⟩ := reaches_accepted hd (generatesBy_signd h1 h2) (by decide) hr hiter hb (hk ▸ ha)
  rw [← hk] at hnonce
  obtain ⟨hloop, -⟩ := run_pointMul (k := k) (s := s.inGenK j (.gen g) 0 0) (failed := (s.inGenK j (.gen g) 0 0).completeErr)
    (finish := finishSign (s.inGenK j (.gen g) 0 0) rdr rds (s.valNat rz) (s.valNat re) k) (earlier := none) hd rfl
    fun m hm _ => by
      rw [← hm, ← finishSign_with_phase (.exec 0 (.mul m))]
      exact exec_signd_mul h1 h2 rfl
  exact ⟨g, reaches_trans hnonce (hloop R hR)⟩

end Sys2Proof.Machine

namespace Sys2Proof.Proofs

open Sys2Proof.Machine Sys2Proof.Claims

/-- Settles O41: both commands end in SIGN_CORE on the product, by its three cases. -/
theorem signingCommitsTheSignature : Obligations.SigningCommitsTheSignature := by
  intro s i rdr rz re rk rds m hi h1 h2 hw hdone
  rw [exec_signs_product hi h1 h2 hw hdone]
  refine ⟨fun hR => by rw [hR, finishSign_inf], ?_⟩
  intro c Rx Ry sig hR hsig
  rw [hR]
  exact ⟨fun h0 => congrArg _ (finishSign_degenerate hsig h0), fun hr hs => congrArg _ (finishSign_signature hsig hr hs)⟩

/-- Settles O42: the checks in their order, then SIGN_CORE on PMUL(G, k), which is INF for k = 0. -/
theorem signRefinesSignCore : Obligations.SignRefinesSignCore := by
  rintro s rdr rz re rk rds n rfl
  refine ⟨exec_sign_bad_key, exec_sign_bad_nonce, fun hb h1 h2 h3 => ⟨fun h0 => ?_, ?_⟩⟩
  · exact reaches_signCore hb h1 h2 h3 (by rw [h0, pointMul_zero])
  · intro Rx Ry sig hR hsig
    have hreach := reaches_signCore hb h1 h2 h3 hR
    refine ⟨fun h0 => ?_, fun hr hs => ?_⟩
    · rwa [finishSign_degenerate hsig h0] at hreach
    · rwa [finishSign_signature hsig hr hs] at hreach

/-- Settles O43: SIGND and SIGN begin the same loop and leave it in the same way, and before it SIGND and NONCE m1 take the same step of
GEN_K. -/
theorem signdIsSignWithTheGeneratedNonce : Obligations.SigndIsSignWithTheGeneratedNonce := by
  intro s rdr rz re rk rds rd h1 h2
  refine ⟨fun g y k hw ht ha => ⟨?_, ?_⟩, fun m hw hk hlt => ?_, fun hw ha => ?_⟩
  · rintro rfl
    obtain ⟨-, -, -, hk⟩ := Drbg.advance_accepts ha
    rw [exec_signd_gen h1 h2 (by simp [hw]), genStep_accepts hw ht ha,
      exec_sign (s := { s with phase := .exec 0 .fresh }) h1 h2 (inRange_iff.1 hk).2, multiply_begins rfl]
    rfl
  · rw [exec_nonce_m1, genStep_accepts hw ht ha]
    rfl
  · rw [exec_signd_mul h1 h2 hw, exec_sign h1 h2 (hk.trans_lt hlt), multiply_goes_on hw, hk]
  · rw [exec_signd_gen h1 h2 hw, exec_nonce_m1]
    exact congrArg _ (genStep_eq_of_not_accepts ha)

/-- Settles O44: GEN_K followed on the machine, then the loop of PMUL, then SIGN_CORE. -/
theorem signdRefinesGenKAndSignCore : Obligations.SigndRefinesGenKAndSignCore := by
  rintro s rdr rz re rds n rfl
  refine ⟨exec_signd_bad_key, ?_⟩
  rintro j candidate Rx Ry sig hb hiter h1 h2 rfl hr ha hR hsig
  obtain ⟨g, hreach⟩ := reaches_signCore_of_accepted hb hiter h1 h2 rfl hr ha hR
  refine ⟨fun h0 => ?_, fun hr hs => ?_⟩
  · rw [finishSign_degenerate hsig h0] at hreach
    exact hreach
  · rw [finishSign_signature hsig hr hs] at hreach
    exact hreach

end Sys2Proof.Proofs
end

section
/-! PROOFS. VERIFY (spec 44_ecdsa R245 to R248, R252): O45 and O46. Left alone by the host it runs the loop of PMUL twice and ends with the
verdict on the sum of the products; of a signature that sum is ±k·G, and k·G has the x coordinate that r comes from. -/

namespace Sys2Proof.Machine

open Sys2Proof.Claims

variable {s : State} {i : Instr} {rr rs rz rpx rpy : RegIx}

/-! ### The command as a run (log entries 2 and 5) -/

theorem mayMultiply_verify_iff : mayMultiply s (.verify rr rs rz rpx rpy) ↔
    verifyDomain s (s.valNat rr) (s.valNat rs) (s.reg rpx).val (s.reg rpy).val = true :=
  (verifyDomain_iff ..).symm

section
variable {m : Mul} (hc : mayMultiply s (.verify rr rs rz rpx rpy)) (hw : s.work = .mul m)
include hc hw

/-- In its first multiplication: the product is kept, and the second multiplication begins. -/
theorem exec_verify_first (he : m.earlier = none) :
    exec (.verify rr rs rz rpx rpy) s = .next (mulStep s m (fun _ => (s.setVres false).finish) fun R =>
      s.holdMul (Mul.start (.aff .s0 (s.reg rpx).val (s.reg rpy).val)
        (s.valNat rr * verifyW (s.valNat rs) % Config.mod1.toNat) (some R))) := by
  simp only [exec_verify_mul (mayMultiply_verify_iff.1 hc) hw, he]

/-- In its second one: the verdict on the sum of both products. -/
theorem exec_verify_second {P1 : Point} (he : m.earlier = some P1) :
    exec (.verify rr rs rz rpx rpy) s = .next (mulStep s m (fun _ => (s.setVres false).finish) fun R =>
      (s.setVres (matchesR (s.valNat rr) (pointAdd s.curve P1 R))).finish) := by
  simp only [exec_verify_mul (mayMultiply_verify_iff.1 hc) hw, he]

end

/-- LAT passes with a silent host. -/
theorem reaches_fresh (hb : begun s i) : reaches s { s with phase := .exec 0 .fresh } := by
  obtain ⟨-, ⟨beats, hphase⟩, hhost⟩ := hb
  exact ⟨beats, run_beats hphase hhost⟩

/-- After its checks VERIFY computes both products and ends with the verdict on their sum. -/
theorem reaches_verdict {P1 P2 : Point} (hb : begun s (.verify rr rs rz rpx rpy)) (hc : mayMultiply s (.verify rr rs rz rpx rpy))
    (h1 : pointMul s.curve generator (s.valNat rz * verifyW (s.valNat rs) % Config.mod1.toNat) = .ok P1)
    (h2 : pointMul s.curve (.aff .s0 (s.reg rpx).val (s.reg rpy).val)
      (s.valNat rr * verifyW (s.valNat rs) % Config.mod1.toNat) = .ok P2) :
    reaches s (s.setVres (matchesR (s.valNat rr) (pointAdd s.curve P1 P2))).finish := by
  have hfresh := reaches_fresh hb
  obtain ⟨hd, -, hhost⟩ := hb
  have hr : s.resetPending = false := by simp [State.resetPending, hhost]
  have hbegin := reaches_step hfresh (step_runs rfl hr rfl hd (exec_verify_fresh ((mayMultiply_verify_iff (rz := rz)).1 hc) rfl))
  obtain ⟨hfirst, -⟩ := run_pointMul (s := s) (earlier := none) (failed := fun _ => (s.setVres false).finish)
    (finish := fun R => s.holdMul (Mul.start (.aff .s0 (s.reg rpx).val (s.reg rpy).val)
      (s.valNat rr * verifyW (s.valNat rs) % Config.mod1.toNat) (some R))) hd hr
    fun m _ he => exec_verify_first (s := s.holdMul m) hc rfl he
  obtain ⟨hsecond, -⟩ := run_pointMul (s := s) (earlier := some P1) (failed := fun _ => (s.setVres false).finish)
    (finish := fun R => (s.setVres (matchesR (s.valNat rr) (pointAdd s.curve P1 R))).finish) hd hr
    fun m _ he => exec_verify_second (s := s.holdMul m) hc rfl he
  exact reaches_trans hbegin (reaches_trans (hfirst P1 h1) (hsecond P2 h2))

/-- A public key is of the slot of G. -/
theorem slotOf_generator_s0 (x y : Value) : SlotOf generator (.aff .s0 x y) := by
  intro c x' y' h
  cases h
  exact ⟨_, _, rfl⟩

/-- The products and their sum are no errors (spec 44_ecdsa R247). -/
theorem verify_points (hc : mayMultiply s (.verify rr rs rz rpx rpy)) (u v : Nat) :
    ∃ P1 P2 P3 : Point, pointMul s.curve generator u = .ok P1 ∧
      pointMul s.curve (.aff .s0 (s.reg rpx).val (s.reg rpy).val) v = .ok P2 ∧ pointAdd s.curve P1 P2 = .ok P3 := by
  obtain ⟨-, -, -, -, hx, hy, -⟩ := hc
  obtain ⟨P1, h1, reduced1, slot1⟩ := pointMul_generator s u
  obtain ⟨P2, h2, reduced2, slot2⟩ := pointMul_s0 s hx hy v
  obtain ⟨P3, h3⟩ := pointAdd_s0 reduced1 reduced2 slot1 fun c x y h => by
    obtain ⟨_, _, hkey⟩ := slot2 c x y h
    exact slotOf_generator_s0 _ _ c _ _ hkey
  exact ⟨P1, P2, P3, h1, h2, h3⟩

/-! ### The sum for a signature (spec 44_ecdsa R252) -/

/-- A key e·G that is affine passes VERIFY's checks of it (spec 44_ecdsa R246). -/
theorem key_in_domain {e : Nat} {x y : Value} (h : pointMul s.curve generator e = .ok (.aff .s0 x y)) :
    x.toNat < Config.mod0.toNat ∧ y.toNat < Config.mod0.toNat ∧ y.toNat ^ 2 ≡ x.toNat ^ 3 + 7 [MOD Config.mod0.toNat] := by
  obtain ⟨⟨-, hx, hy⟩, hcurve⟩ := pointMul_good (generator_good s) h
  exact ⟨hx, hy, (onCurve_s0_iff s x y).1 (hcurve mod0_prime)⟩

/-- Where u + e·v is ±k mod n, the points u·G + v·(e·G) and k·G have one x coordinate. -/
theorem sum_has_x_of_multiple {e k u v : Nat} {Q P1 P2 P3 : Point} {c : Slot} {x y : Value}
    (hQ : pointMul s.curve generator e = .ok Q) (hk : pointMul s.curve generator k = .ok (.aff c x y))
    (h1 : pointMul s.curve generator u = .ok P1) (h2 : pointMul s.curve Q v = .ok P2) (h3 : pointAdd s.curve P1 P2 = .ok P3)
    (h : u + e * v ≡ k [MOD Config.mod1.toNat] ∨ u + e * v + k ≡ 0 [MOD Config.mod1.toNat]) :
    ∃ (c' : Slot) (y' : Value), P3 = .aff c' x y' := by
  have := Fact.mk mod0_prime
  obtain ⟨G, hG, hn⟩ := generator_standsFor mod1_prime pointMul_generator_order
  have oG := ofCurve_s0 (generator_reduced s) (slotOf_self generator)
  obtain ⟨_, hQ', oQ, gQ⟩ := pointMul_standsFor two_lt_mod0 oG hG e
  obtain rfl := Except.ok.inj (hQ.symm.trans hQ')
  obtain ⟨_, hk', ok, gk⟩ := pointMul_standsFor two_lt_mod0 oG hG k
  obtain rfl := Except.ok.inj (hk.symm.trans hk')
  obtain ⟨_, h1', o1, g1⟩ := pointMul_standsFor two_lt_mod0 oG hG u
  obtain rfl := Except.ok.inj (h1.symm.trans h1')
  obtain ⟨_, h2', o2, g2⟩ := pointMul_standsFor two_lt_mod0 oQ gQ v
  obtain rfl := Except.ok.inj (h2.symm.trans h2')
  obtain ⟨_, h3', o3, g3⟩ := pointAdd_standsFor two_lt_mod0 o1 o2 g1 g2
  obtain rfl := Except.ok.inj (h3.symm.trans h3')
  rw [← mul_nsmul, ← add_nsmul] at g3
  refine standsFor_x o3 ok g3 gk ?_ rfl
  rw [← add_nsmul, ← zero_nsmul G, nsmul_eq_nsmul_iff_modEq, nsmul_eq_nsmul_iff_modEq, hn]
  exact h

end Sys2Proof.Machine

namespace Sys2Proof.Proofs

open Sys2Proof.Machine Sys2Proof.Claims

/-- Settles O45: the checks decide the step, and after them neither product nor their sum is an error. -/
theorem verifyWritesTheVerdict : Obligations.VerifyWritesTheVerdict := by
  rintro s rr rs rz rpx rpy n w rfl hw
  rw [← verifyW_eq] at hw
  refine ⟨fun hc => ?_, fun m P1 hc hwork hdone he => ⟨_, ?_, matchesR_iff ..⟩, fun hb hc => ?_⟩
  · exact exec_verify_invalid (Bool.eq_false_iff.2 fun hv => hc (mayMultiply_verify_iff.2 hv))
  · rw [exec_verify_second hc hwork he, mulStep_finishes hdone]
    rfl
  · obtain ⟨P1, P2, P3, h1, h2, h3⟩ := verify_points hc (s.valNat rz * w % Config.mod1.toNat)
      (s.valNat rr * w % Config.mod1.toNat)
    subst hw
    have hreach := reaches_verdict hb hc h1 h2
    rw [h3] at hreach
    exact ⟨_, P1, P2, P3, hreach, h1, h2, h3, by simp [matchesR_iff]⟩

/-- Settles O46: the signature passes the checks, and the verdict is on a point with the x coordinate of k·G. -/
theorem signaturesVerify : Obligations.SignaturesVerify := by
  rintro s rr rs rz rpx rpy n e k Rx Ry ⟨r, sg⟩ rfl hb he hk hsig hr0 hs0 hr hs
  obtain ⟨hR, hS⟩ := Prod.mk.inj hsig
  rw [← hR] at hS
  have hrlt : r < Config.mod1.toNat := hR ▸ Nat.mod_lt _ mod1_prime.pos
  have hslt : sg < Config.mod1.toNat := hS ▸ Nat.mod_lt _ mod1_prime.pos
  have hc : mayMultiply s (.verify rr rs rz rpx rpy) :=
    ⟨by omega, by omega, by omega, by omega, key_in_domain he⟩
  obtain ⟨P1, P2, P3, h1, h2, h3⟩ := verify_points hc (s.valNat rz * verifyW (s.valNat rs) % Config.mod1.toNat)
    (s.valNat rr * verifyW (s.valNat rs) % Config.mod1.toNat)
  obtain ⟨c, y, rfl⟩ := sum_has_x_of_multiple he hk h1 h2 h3 (by
    rw [verifyW_eq, hr]
    exact verify_scalar mod1_prime (by decide) hS hs0 hs)
  have hreach := reaches_verdict hb hc h1 h2
  rw [h3, (matchesR_iff ..).2 ⟨c, Rx, y, rfl, by rw [hr, hR]⟩] at hreach
  exact hreach

end Sys2Proof.Proofs
end

section
/-! PROOFS. What the ECDSA commands do not tell apart: slot-1 registers (spec 44_ecdsa R240): O19, and digests equal mod n (R251): O47.
A command is run from s and from f s, for an update f that it carries along unread. -/

namespace Sys2Proof.Machine

open Sys2Proof.Claims

variable {s : State} {i : Instr} {f : State → State} {m : Mul} {rdr rz re rk rds rr rs rpx rpy : RegIx} {z e k : Nat}

/-! ### An update that is carried along -/

/-- A command that multiplies holds its accumulators, fails and iterates with the update f as without it. -/
structure CarriesAlong (f : State → State) (s : State) : Prop where
  work : (f s).work = s.work
  holdMul : ∀ m : Mul, (f s).holdMul m = f (s.holdMul m)
  completeErr : ∀ e : ErrCode, (f s).completeErr e = f (s.completeErr e)
  iterate : ∀ m : Mul, s.work = .mul m → m.iterate (f s).curve = m.iterate s.curve

section
variable (hf : CarriesAlong f s)
include hf

theorem mulStep_carries {failed failed' : ErrCode → State} {finish finish' : Point → State} (hw : s.work = .mul m)
    (hfailed : ∀ e : ErrCode, failed' e = f (failed e)) (hfinish : finish' m.result = f (finish m.result)) :
    mulStep (f s) m failed' finish' = f (mulStep s m failed finish) := by
  by_cases hmore : m.iters < bitlen m.k
  · have hi := hf.iterate m hw
    cases hm : m.iterate s.curve with
    | error e => rw [mulStep_fails hmore (hi.trans hm), mulStep_fails hmore hm, hfailed]
    | ok m' => rw [mulStep_iterates hmore (hi.trans hm), mulStep_iterates hmore hm, hf.holdMul]
  · rw [mulStep_finishes (Nat.not_lt.1 hmore), mulStep_finishes (Nat.not_lt.1 hmore), hfinish]

theorem multiply_carries {P : Point} {finish finish' : Point → State}
    (hfinish : ∀ R : Point, finish' R = f (finish R)) : multiply (f s) P k finish' = f (multiply s P k finish) := by
  cases hw : s.work with
  | mul m =>
    rw [multiply_goes_on (hf.work.trans hw), multiply_goes_on hw]
    exact mulStep_carries hf hw hf.completeErr (hfinish _)
  | fresh => rw [multiply_begins (hf.work.trans hw), multiply_begins hw, hf.holdMul]
  | gen g => simp only [multiply, hf.work, hw, hf.holdMul]

/-- SIGN reads its key, its nonce and, in SIGN_CORE, its digest. -/
theorem exec_sign_carries (he : (f s).valNat re = s.valNat re) (hk : (f s).valNat rk = s.valNat rk)
    (hfinish : ∀ R : Point, finishSign (f s) rdr rds ((f s).valNat rz) (s.valNat re) (s.valNat rk) R =
      f (finishSign s rdr rds (s.valNat rz) (s.valNat re) (s.valNat rk) R)) :
    ∃ t : State, exec (.sign rdr rz re rk rds) s = .next t ∧ exec (.sign rdr rz re rk rds) (f s) = .next (f t) := by
  refine ⟨_, rfl, congrArg Host.Outcome.next ?_⟩
  rw [he, hk]
  split
  · exact hf.completeErr _
  · split
    · exact hf.completeErr _
    · exact multiply_carries hf hfinish

/-- VERIFY reads its signature and its key, and its digest in u = z·w mod n; its verdict reads slot 0 alone. -/
theorem exec_verify_carries (hr : (f s).valNat rr = s.valNat rr) (hs : (f s).valNat rs = s.valNat rs)
    (hx : (f s).reg rpx = s.reg rpx) (hy : (f s).reg rpy = s.reg rpy)
    (hz : (f s).valNat rz ≡ s.valNat rz [MOD Config.mod1.toNat])
    (hend : ∀ b : Bool, endVerify (f s) b = f (endVerify s b))
    (hsum : ∀ (m : Mul) (P1 : Point), s.work = .mul m → m.earlier = some P1 →
      pointAdd (f s).curve P1 m.result = pointAdd s.curve P1 m.result) :
    ∃ t : State, exec (.verify rr rs rz rpx rpy) s = .next t ∧ exec (.verify rr rs rz rpx rpy) (f s) = .next (f t) := by
  refine ⟨_, rfl, congrArg Host.Outcome.next ?_⟩
  have hu : (f s).valNat rz * verifyW (s.valNat rs) % Config.mod1.toNat =
      s.valNat rz * verifyW (s.valNat rs) % Config.mod1.toNat := hz.mul_right _
  have hdomain (r sg : Nat) (px py : Value) : verifyDomain (f s) r sg px py = verifyDomain s r sg px py := rfl
  simp only [hr, hs, hx, hy, hu, hdomain, hf.work]
  split
  · cases hw : s.work with
    | mul m =>
      refine mulStep_carries hf hw (fun e => hend false) ?_
      cases he : m.earlier with
      | none => exact hf.holdMul _
      | some P1 =>
        simp only [hsum m P1 hw he]
        exact hend _
    | fresh => exact hf.holdMul _
    | gen g => exact hf.holdMul _
  · exact hend false

end

/-! ### Another digest (spec 44_ecdsa R251) -/

theorem setReg_comm {i j : RegIx} (h : i ≠ j) (a b : Reg) : (s.setReg i a).setReg j b = (s.setReg j b).setReg i a :=
  congrArg (fun regs => { s with regs := regs }) (Vector.set_comm a b (fun hv => h (Fin.ext hv)))

theorem carriesAlong_setReg (s : State) (rz : RegIx) (other : Reg) : CarriesAlong (State.setReg · rz other) s where
  work := rfl
  holdMul _ := rfl
  completeErr _ := rfl
  iterate _ _ := rfl

theorem valNat_setReg_ne {j : RegIx} (other : Reg) (h : rz ≠ j) : (s.setReg rz other).valNat j = s.valNat j :=
  congrArg (fun r => r.val.toNat) (State.reg_setReg_ne s other h.symm)

theorem valNat_setReg_same (other : Reg) : (s.setReg rz other).valNat rz = other.val.toNat :=
  congrArg (fun r => r.val.toNat) (State.reg_setReg_same ..)

/-- SIGN_CORE counts the digest modulo n. -/
theorem signCore_of_modEq {z' : Nat} (h : z' ≡ z [MOD Config.mod1.toNat]) (R : Point) : signCore z' e k R = signCore z e k R := by
  cases R with
  | inf => rfl
  | aff c Rx Ry =>
    have hs (r : Nat) : k ^ (Config.mod1.toNat - 2) * (z' + r * e) % Config.mod1.toNat =
        k ^ (Config.mod1.toNat - 2) * (z + r * e) % Config.mod1.toNat :=
      (h.add_right _).mul_left _
    rw [signCore_aff, signCore_aff]
    simp only [hs]

theorem finishSign_setReg {other : Reg} {z' : Nat} (hr : rz ≠ rdr) (hs : rz ≠ rds)
    (h : z' ≡ z [MOD Config.mod1.toNat]) (R : Point) :
    finishSign (s.setReg rz other) rdr rds z' e k R = (finishSign s rdr rds z e k R).setReg rz other := by
  unfold finishSign
  rw [signCore_of_modEq h]
  cases signCore z e k R with
  | error _ => rfl
  | ok sig =>
    have hset : (s.setReg rz other).setSignature rdr rds sig = (s.setSignature rdr rds sig).setReg rz other := by
      rw [State.setSignature, State.setSignature, setReg_comm hr, setReg_comm hs]
    exact congrArg State.finish hset

/-! ### Other slot-1 registers (spec 44_ecdsa R240) -/

/-- The adder reads the curves of its operands alone. -/
theorem pointAdd_of_slot0 {curve curve' : Slot → Curve} {P Q : Point} (h : curve' .s0 = curve .s0) (hP : SlotOf generator P)
    (hQ : SlotOf generator Q) : pointAdd curve' P Q = pointAdd curve P Q := by
  cases P with
  | inf => rw [pointAdd_inf_left, pointAdd_inf_left]
  | aff c1 x1 y1 =>
    cases Q with
    | inf => rw [pointAdd_inf_right, pointAdd_inf_right]
    | aff c2 x2 y2 =>
      obtain ⟨_, _, h1⟩ := hP c1 x1 y1 rfl
      obtain ⟨_, _, h2⟩ := hQ c2 x2 y2 rfl
      cases h1
      cases h2
      simp only [pointAdd, h]

theorem Mul.iterate_of_slot0 {curve curve' : Slot → Curve} (h : curve' .s0 = curve .s0) (hresult : SlotOf generator m.result)
    (hcurrent : SlotOf generator m.current) : m.iterate curve' = m.iterate curve := by
  rw [Mul.iterate, Mul.iterate, pointAdd_of_slot0 h hresult hcurrent, pointAdd_of_slot0 h hcurrent hcurrent]

/-- The working values of a command of slot 0 stay on slot 0 (spec 42_point R179). -/
theorem slot0_of_loop (hi : slot0Only i = true) (hd : decode s.cmd = .ok i) (hL : s.LoopConsistent) (hw : s.work = .mul m) :
    SlotOf generator m.result ∧ SlotOf generator m.current ∧ ∀ P1 : Point, m.earlier = some P1 → SlotOf generator P1 := by
  obtain ⟨-, P, hP, hl⟩ := LoopConsistent.mul hL hw
  simp only [State.multiplies, State.latched, hd] at hP
  have hfirst (he : m.earlier = none) :
      SlotOf generator generator ∧ ∀ P1 : Point, m.earlier = some P1 → SlotOf generator P1 := ⟨slotOf_self _, by simp [he]⟩
  have hstart : SlotOf generator P ∧ ∀ P1 : Point, m.earlier = some P1 → SlotOf generator P1 := by
    cases i with
    | pubkey pd re =>
      obtain ⟨rfl, -, he⟩ := hP
      exact hfirst he
    | sign rdr rz re rk rds =>
      obtain ⟨rfl, -, -, he⟩ := hP
      exact hfirst he
    | signd rdr rz re rds =>
      obtain ⟨rfl, -, -, he⟩ := hP
      exact hfirst he
    | verify rr rs rz rpx rpy =>
      rcases hP with ⟨rfl, -, he⟩ | ⟨rfl, -, P1, he, h1⟩
      · exact hfirst he
      · refine ⟨slotOf_generator_s0 _ _, fun P1' he' => ?_⟩
        obtain rfl := Option.some.inj (he.symm.trans he')
        exact (pointMul_keeps (generator_reduced s) h1).2
    | _ => cases hi
  obtain ⟨hresult, hcurrent⟩ := Mul.loop_slot hl (slotOf_inf _) hstart.1
  exact ⟨hresult, hcurrent, hstart.2⟩

section
variable (mod2 a1 b1 gx1 gy1 : Value)

theorem carriesAlong_withSlot1 (h : ∀ m : Mul, s.work = .mul m → SlotOf generator m.result ∧ SlotOf generator m.current) :
    CarriesAlong (withSlot1 · mod2 a1 b1 gx1 gy1) s where
  work := rfl
  holdMul _ := rfl
  completeErr _ := rfl
  iterate m hw := Mul.iterate_of_slot0 rfl (h m hw).1 (h m hw).2

theorem finishSign_withSlot1 (R : Point) : finishSign (withSlot1 s mod2 a1 b1 gx1 gy1) rdr rds z e k R =
    withSlot1 (finishSign s rdr rds z e k R) mod2 a1 b1 gx1 gy1 := by
  unfold finishSign
  cases signCore z e k R <;> rfl

theorem genStep_withSlot1 {q : Nat} {accepted accepted' : Nat → State}
    (ha : ∀ k : Nat, accepted' k = withSlot1 (accepted k) mod2 a1 b1 gx1 gy1) :
    genStep (withSlot1 s mod2 a1 b1 gx1 gy1) z e q accepted' = withSlot1 (genStep s z e q accepted) mod2 a1 b1 gx1 gy1 := by
  have hwork : (withSlot1 s mod2 a1 b1 gx1 gy1).work = s.work := rfl
  by_cases hw : ∃ g : Drbg, s.work = .gen g
  · obtain ⟨g, hw⟩ := hw
    cases ht : g.tag with
    | none => rw [genStep_waits (hwork.trans hw) ht, genStep_waits hw ht]
    | some y =>
      cases hr : g.advance z e q y with
      | goes g' => rw [genStep_goes (hwork.trans hw) ht hr, genStep_goes hw ht hr]; rfl
      | rejects g' => rw [genStep_rejects (hwork.trans hw) ht hr, genStep_rejects hw ht hr]; rfl
      | accepts k => rw [genStep_accepts (hwork.trans hw) ht hr, genStep_accepts hw ht hr, ha]
  · rw [genStep_begins (s := s) fun g hg => hw ⟨g, hg⟩,
      genStep_begins (s := withSlot1 s mod2 a1 b1 gx1 gy1) fun g hg => hw ⟨g, hg⟩]
    rfl

/-- SIGND reads slot 0 in GEN_K, in the loop of PMUL and in SIGN_CORE. -/
theorem exec_signd_withSlot1 (hf : CarriesAlong (withSlot1 · mod2 a1 b1 gx1 gy1) s) :
    ∃ t : State, exec (.signd rdr rz re rds) s = .next t ∧
      exec (.signd rdr rz re rds) (withSlot1 s mod2 a1 b1 gx1 gy1) = .next (withSlot1 t mod2 a1 b1 gx1 gy1) := by
  by_cases hkey : 1 ≤ s.valNat re ∧ s.valNat re < Config.mod1.toNat
  · obtain ⟨h1, h2⟩ := hkey
    by_cases hw : ∃ m : Mul, s.work = .mul m
    · obtain ⟨m, hw⟩ := hw
      exact ⟨_, exec_signd_mul h1 h2 hw, (exec_signd_mul (s := withSlot1 s mod2 a1 b1 gx1 gy1) h1 h2 hw).trans
        (congrArg _ (mulStep_carries hf hw hf.completeErr (finishSign_withSlot1 mod2 a1 b1 gx1 gy1 _)))⟩
    · have hw' : ∀ m : Mul, s.work ≠ .mul m := fun m h => hw ⟨m, h⟩
      exact ⟨_, exec_signd_gen h1 h2 hw', (exec_signd_gen (s := withSlot1 s mod2 a1 b1 gx1 gy1) h1 h2 hw').trans
        (congrArg _ (genStep_withSlot1 mod2 a1 b1 gx1 gy1 fun k => rfl))⟩
  · have hbad : s.valNat re = 0 ∨ Config.mod1.toNat ≤ s.valNat re := by omega
    exact ⟨_, exec_signd_bad_key hbad, exec_signd_bad_key hbad⟩

end

end Sys2Proof.Machine

namespace Sys2Proof.Proofs

open Sys2Proof.Machine Sys2Proof.Claims

/-- Settles O19: the invariant keeps the accumulators on slot 0, so no sum and no check reads slot 1. -/
theorem slot0CommandsReadNoSlot1State : Obligations.Slot0CommandsReadNoSlot1State := by
  intro i s mod2 a1 b1 gx1 gy1 hi hd hL
  have hslot {m : Mul} (hw : s.work = .mul m) := slot0_of_loop hi hd hL hw
  have hf := carriesAlong_withSlot1 mod2 a1 b1 gx1 gy1 fun m hw =>
    let ⟨hresult, hcurrent, _⟩ := hslot hw
    ⟨hresult, hcurrent⟩
  cases i with
  | pubkey pd re =>
    exact ⟨_, exec_pubkey .., (exec_pubkey ..).trans (congrArg Host.Outcome.next (multiply_carries hf fun R => rfl))⟩
  | sign rdr rz re rk rds => exact exec_sign_carries hf rfl rfl fun R => finishSign_withSlot1 mod2 a1 b1 gx1 gy1 R
  | signd rdr rz re rds => exact exec_signd_withSlot1 mod2 a1 b1 gx1 gy1 hf
  | verify rr rs rz rpx rpy =>
    refine exec_verify_carries (f := (withSlot1 · mod2 a1 b1 gx1 gy1)) hf rfl rfl rfl rfl (Nat.ModEq.refl _) (fun b => rfl)
      fun m P1 hw he => ?_
    obtain ⟨hresult, -, hearlier⟩ := hslot hw
    exact pointAdd_of_slot0 rfl (hearlier P1 he) hresult
  | _ => cases hi

/-- Settles O47: SIGN uses the digest in a sum mod n, VERIFY in a product mod n. -/
theorem digestCountsModuloN : Obligations.DigestCountsModuloN := by
  intro s t i rz other hi hz ht
  have hdigest : (s.setReg rz other).valNat rz ≡ s.valNat rz [MOD Config.mod1.toNat] := by rwa [valNat_setReg_same]
  have hf := carriesAlong_setReg s rz other
  obtain ⟨u, hu, hu'⟩ : ∃ u : State, exec i s = .next u ∧ exec i (s.setReg rz other) = .next (u.setReg rz other) := by
    rcases hi with ⟨rdr, re, rk, rds, rfl, hr, he, hk, hs⟩ | ⟨rr, rs, rpx, rpy, rfl, hr, hs, hx, hy⟩
    · exact exec_sign_carries hf (valNat_setReg_ne other he) (valNat_setReg_ne other hk) (finishSign_setReg hr hs hdigest)
    · exact exec_verify_carries (f := (State.setReg · rz other)) hf (valNat_setReg_ne other hr) (valNat_setReg_ne other hs)
        (State.reg_setReg_ne s other hx.symm) (State.reg_setReg_ne s other hy.symm) hdigest (fun b => rfl) fun m P1 _ _ => rfl
  cases hu.symm.trans ht
  exact hu'

end Sys2Proof.Proofs
end

section
/-! PROOFS. How a command begins and how the host ends it (spec 60_exceptions R270, R284): O6 and O55. -/

namespace Sys2Proof.Machine

open Sys2Proof.Claims

theorem clearsIter_iff {w : Word} : clearsIter w = true ↔ w.extractLsb' 0 8 = 0x20#8 ∨ w.extractLsb' 0 8 = 0x22#8 := by
  simp [clearsIter]

/-- An ended command leaves one response more to be discarded exactly where its request has no response yet (spec 20_memory R79). -/
theorem discards_abandons (s : State) : discards s s.abandons :=
  ⟨fun ho => State.abandons_of_waiting (outstanding_iff_waiting.1 ho),
    fun ho => State.abandons_of_not_waiting (Bool.eq_false_iff.2 fun hw => ho (outstanding_iff_waiting.2 hw))⟩

end Sys2Proof.Machine

namespace Sys2Proof.Proofs

open Sys2Proof.Machine Sys2Proof.Claims

/-- Settles O6: the idle engine serves the write, and the write is an accept. -/
theorem cmdWriteWhileIdleAccepts : Obligations.CmdWriteWhileIdleAccepts := by
  intro s w rest hidle hrst hhost
  have served := step_access (.inl ⟨.inl hidle, rfl⟩) hhost
  rw [busAccess_write w (by exact hrst) (by decide), memWrite_cmd_idle (by exact hidle)] at served
  simp only [State.accept, clearsIter_iff] at served
  exact ⟨_, served⟩

/-- Settles O55: the three cases of a CTRL write. -/
theorem abortEndsTheCommand : Obligations.AbortEndsTheCommand := by
  intro s w habort
  refine ⟨fun hsrst hbusy => ⟨rfl, s.abandons, discards_abandons s, ?_⟩, fun hsrst hidle => memWrite_ctrl_ie (.inr hidle) hsrst,
    fun hsrst => ?_⟩
  · rw [memWrite_ctrl, writeCtrl_abort habort hsrst hbusy]
    rfl
  · rw [memWrite_ctrl, writeCtrl_srst hsrst]

end Sys2Proof.Proofs
end

section
/-! PROOFS. How a command ends (spec 60_exceptions R271, R280, R285): O10, O11 and O12. Whether it completes and what an error leaves
unchanged are read off `Effect`; which errors are raised is followed through the shared operations, command by command. -/

namespace Sys2Proof.Machine

open Sys2Proof.Claims

variable {s t : State} {i : Instr} {codes : List ErrCode}

/-- A completion with an error is `complete_err` (spec 60_exceptions R280). -/
theorem eq_completeErr_of_exec (herr : s.err = false) (h : exec i s = .next t) (hterr : t.err = true) :
    ∃ e : ErrCode, e ≠ .ok ∧ t = s.completeErr e := by
  cases effect_of_exec h with
  | failed e he => exact ⟨e, he, rfl⟩
  | _ => cases herr.symm.trans hterr

/-! ### The errors of the adder and of the loop of PMUL (spec 42_point R176, R178, R181) -/

/-- The sum of two points of one curve has no error but DIVISION_BY_ZERO. -/
theorem pointAdd_error_of_params {curve : Slot → Curve} {P Q : Point} {e : ErrCode}
    (hc : ∀ (c1 c2 : Slot) (x1 y1 x2 y2 : Value), P = .aff c1 x1 y1 → Q = .aff c2 x2 y2 → (curve c1).params = (curve c2).params)
    (h : pointAdd curve P Q = .error e) : e = .divisionByZero := by
  unfold pointAdd at h
  split at h
  · cases h
  · cases h
  · rw [if_neg (not_not.2 (hc _ _ _ _ _ _ rfl rfl))] at h
    dsimp only at h
    repeat' split at h
    all_goals cases h
    all_goals
      next hs => exact (slope_error hs).1

/-- An iteration with both accumulators on the slot of P has no other error either. -/
theorem iterate_error_of_slot {curve : Slot → Curve} {P : Point} {m : Mul} {e : ErrCode} (hresult : SlotOf P m.result)
    (hcurrent : SlotOf P m.current) (h : m.iterate curve = .error e) : e = .divisionByZero := by
  unfold Mul.iterate at h
  split at h
  · next hsum =>
    cases h
    split at hsum
    · exact pointAdd_error_of_params (slotOf_params hresult hcurrent) hsum
    · cases hsum
  · split at h
    · next hdouble =>
      cases h
      exact pointAdd_error_of_params (slotOf_params hcurrent hcurrent) hdouble
    · cases h

/-- An iteration of a multiplication of G has no error (spec 42_point R185). -/
theorem iterate_generator {n k : Nat} {earlier : Option Point} {m : Mul}
    (h : Mul.loop s.curve n (Mul.start generator k earlier) = .ok m) : ∃ m' : Mul, m.iterate s.curve = .ok m' := by
  obtain ⟨hresult, hcurrent⟩ := Mul.loop_reduced h trivial (generator_reduced s)
  obtain ⟨hslot, hslot'⟩ := Mul.loop_slot h (slotOf_inf _) (slotOf_self _)
  exact Mul.iterate_total (generator_odd s) hresult hcurrent hslot hslot'

/-- The working values of PUBKEY, SIGN and SIGND are those of a multiplication of G. -/
theorem multiplies_generator {k : Nat} {earlier : Option Point} {P : Point} (hd : decode s.cmd = .ok i) (hi : slot0Only i = true)
    (hv : writesVres i = false) (h : s.multiplies P k earlier) : P = generator := by
  simp only [State.multiplies, State.latched, hd] at h
  cases i with
  | pubkey | sign | signd => exact h.1
  | verify => cases hv
  | _ => cases hi

/-! ### Which errors the shared operations raise -/

/-- If this state is that of an error, its code is one of these. -/
def ErrsWithin (codes : List ErrCode) (t : State) : Prop := t.err = true → t.errcode ∈ codes

theorem errsWithin_of_no_err (h : t.err = false) : ErrsWithin codes t :=
  fun h' => by cases h.symm.trans h'

theorem errsWithin_completeErr {e : ErrCode} (h : e ∈ codes) : ErrsWithin codes (s.completeErr e) := fun _ => h

/-- The first of the reads and checks of a command raises its errors, or the rest follows it. -/
theorem errsWithin_bind {α : Type} {x : Except ErrCode α} {f : α → Except ErrCode State} (hx : ∀ e : ErrCode, x = .error e → e ∈ codes)
    (hf : ∀ a : α, ErrsWithin codes (s.complete (f a))) : ErrsWithin codes (s.complete (x >>= f)) := by
  cases x with
  | error e => exact errsWithin_completeErr (hx e rfl)
  | ok a => exact hf a

theorem errsWithin_check {c : Prop} [Decidable c] {e : ErrCode} {r : Except ErrCode State} (he : e ∈ codes)
    (hr : ErrsWithin codes (s.complete r)) : ErrsWithin codes (s.complete (if c then .error e else r)) := by
  split
  · exact errsWithin_completeErr he
  · exact hr

theorem errsWithin_ite {c : Prop} [Decidable c] {u : State} (ht : ErrsWithin codes t) (hu : ErrsWithin codes u) :
    ErrsWithin codes (if c then t else u) := by
  split
  · exact ht
  · exact hu

theorem errsWithin_mulStep {m : Mul} {failed : ErrCode → State} {finish : Point → State} (herr : s.err = false)
    (hfailed : ∀ e : ErrCode, m.iterate s.curve = .error e → ErrsWithin codes (failed e))
    (hfinish : ∀ R : Point, ErrsWithin codes (finish R)) : ErrsWithin codes (mulStep s m failed finish) := by
  unfold mulStep
  split
  · split
    · exact hfailed _ ‹_›
    · exact errsWithin_of_no_err herr
  · exact hfinish _

theorem errsWithin_multiply {P : Point} {k : Nat} {finish : Point → State} (herr : s.err = false)
    (hfailed : ∀ (m : Mul) (e : ErrCode), s.work = .mul m → m.iterate s.curve = .error e → e ∈ codes)
    (hfinish : ∀ R : Point, ErrsWithin codes (finish R)) : ErrsWithin codes (multiply s P k finish) := by
  unfold multiply
  split
  · next m hw => exact errsWithin_mulStep herr (fun e he => errsWithin_completeErr (hfailed m e hw he)) hfinish
  · exact errsWithin_of_no_err herr
  · exact errsWithin_of_no_err herr

theorem errsWithin_genStep {z x q : Nat} {accepted : Nat → State} (herr : s.err = false)
    (haccepted : ∀ k : Nat, (accepted k).err = false) : ErrsWithin codes (genStep s z x q accepted) := by
  unfold genStep
  split
  · split
    · exact errsWithin_of_no_err herr
    · split
      · exact errsWithin_of_no_err herr
      · exact errsWithin_of_no_err herr
      · exact errsWithin_of_no_err (haccepted _)
  · exact errsWithin_of_no_err herr
  · exact errsWithin_of_no_err herr

theorem errsWithin_finishSign {rdr rds : RegIx} {z x k : Nat} {R : Point} (herr : s.err = false)
    (hcode : .degenerateNonce ∈ codes) : ErrsWithin codes (finishSign s rdr rds z x k R) :=
  errsWithin_bind (fun e he => by rwa [signCore_error he]) fun _ => errsWithin_of_no_err herr

/-! ### The commands (spec 60_exceptions R271) -/

/-- Every command raises the errors of its row alone. -/
theorem exec_errsWithin (hd : decode s.cmd = .ok i) (hL : s.LoopConsistent) (herr : s.err = false) (h : exec i s = .next t) :
    ErrsWithin (errorsOf i) t := by
  have noErr {u : State} (hu : u.err = s.err) : ErrsWithin (errorsOf i) u := errsWithin_of_no_err (hu.trans herr)
  -- a multiplication of G has no error
  have hgenerator (hi : slot0Only i = true) (hv : writesVres i = false) (m : Mul) (e : ErrCode) (hw : s.work = .mul m)
      (he : m.iterate s.curve = .error e) : e ∈ errorsOf i := by
    obtain ⟨-, P, hP, hl⟩ := LoopConsistent.mul hL hw
    obtain rfl := multiplies_generator hd hi hv hP
    obtain ⟨m', hm'⟩ := iterate_generator hl
    cases he.symm.trans hm'
  have hread {j : PointIx} (hcode : .undefinedOperand ∈ errorsOf i) (e : ErrCode) (he : pointRead s j = .error e) :
      e ∈ errorsOf i := by
    rwa [(pointRead_error he).1]
  have helem {j : RegIx} (hcode : .undefinedOperand ∈ errorsOf i) (e : ErrCode) (he : elemRead s j = .error e) :
      e ∈ errorsOf i := by
    rwa [elemRead_error he]
  have helem2 {j j' : RegIx} (hcode : .undefinedOperand ∈ errorsOf i) (hcode' : .orderMismatch ∈ errorsOf i) (e : ErrCode)
      (he : elemRead2 s j j' = .error e) : e ∈ errorsOf i := by
    rcases elemRead2_error he with rfl | rfl
    · exact hcode
    · exact hcode'
  cases i with
  | nop | feq | pinf => cases h; exact noErr rfl
  | fnew rd rs m =>
    cases h
    exact errsWithin_check (by simp [errorsOf]) (errsWithin_check (by simp [errorsOf]) (noErr rfl))
  | fadd | fsub | fmul =>
    cases h
    exact errsWithin_bind (helem2 (by simp [errorsOf]) (by simp [errorsOf])) fun _ => noErr rfl
  | fdiv rd rs1 rs2 =>
    cases h
    exact errsWithin_bind (helem2 (by simp [errorsOf]) (by simp [errorsOf])) fun _ =>
      errsWithin_check (by simp [errorsOf]) (noErr rfl)
  | finv | fpow =>
    cases h
    exact errsWithin_bind (helem (by simp [errorsOf])) fun _ => errsWithin_check (by simp [errorsOf]) (noErr rfl)
  | fscale =>
    cases h
    exact errsWithin_bind (helem (by simp [errorsOf])) fun _ => noErr rfl
  | pnew pd rx ry c =>
    cases h
    refine errsWithin_bind (fun e he => ?_) fun _ => noErr rfl
    rcases newPoint_error he with ⟨rfl, rfl⟩ | rfl | rfl
    · simp [errorsOf]
    · cases c <;> simp [errorsOf]
    · cases c <;> simp [errorsOf]
  | pgen pd c =>
    cases h
    cases c with
    | s0 => exact noErr rfl
    | s1 =>
      refine errsWithin_bind (fun e he => ?_) fun _ => noErr rfl
      rcases newPoint_error he with ⟨-, rfl⟩ | rfl | rfl <;> simp [errorsOf]
  | padd pd ps1 ps2 =>
    cases h
    refine errsWithin_bind (hread (by simp [errorsOf])) fun _ => errsWithin_bind (hread (by simp [errorsOf])) fun _ =>
      errsWithin_bind (fun e he => ?_) fun _ => noErr rfl
    rcases pointAdd_error he with rfl | rfl <;> simp [errorsOf]
  | pmul pd ps rk =>
    cases h
    split
    · next e he => exact errsWithin_completeErr (hread (by simp [errorsOf]) e he)
    · refine errsWithin_multiply herr (fun m e hw he => ?_) fun R => noErr rfl
      obtain ⟨-, P, -, hl⟩ := LoopConsistent.mul hL hw
      obtain ⟨hresult, hcurrent⟩ := Mul.loop_slot hl (slotOf_inf _) (slotOf_self P)
      obtain rfl := iterate_error_of_slot hresult hcurrent he
      simp [errorsOf]
  | peq ps1 ps2 =>
    cases h
    exact errsWithin_bind (hread (by simp [errorsOf])) fun _ => errsWithin_bind (hread (by simp [errorsOf])) fun _ => noErr rfl
  | pubkey pd re =>
    cases h
    exact errsWithin_multiply herr (hgenerator rfl rfl) fun R => noErr rfl
  | pget rdx rdy ps =>
    cases h
    refine errsWithin_bind (hread (by simp [errorsOf])) fun P => ?_
    cases P with
    | inf => exact errsWithin_completeErr (by simp [errorsOf])
    | aff c x y => exact noErr rfl
  | nonce rd rz re m =>
    cases h
    exact errsWithin_ite (errsWithin_completeErr (by simp [errorsOf])) (errsWithin_genStep herr fun k => herr)
  | sign rdr rz re rk rds =>
    cases h
    exact errsWithin_ite (errsWithin_completeErr (by simp [errorsOf])) (errsWithin_ite (errsWithin_completeErr (by simp [errorsOf]))
      (errsWithin_multiply herr (hgenerator rfl rfl) fun R => errsWithin_finishSign herr (by simp [errorsOf])))
  | signd rdr rz re rds =>
    cases h
    refine errsWithin_ite (errsWithin_completeErr (by simp [errorsOf])) ?_
    split
    · next m hw =>
      exact errsWithin_mulStep herr (fun e he => errsWithin_completeErr (hgenerator rfl rfl m e hw he)) fun R =>
        errsWithin_finishSign herr (by simp [errorsOf])
    · exact errsWithin_genStep herr fun k => herr
  | verify rr rs rz rpx rpy =>
    cases h
    refine errsWithin_ite ?_ (noErr rfl)
    split
    · refine errsWithin_mulStep herr (fun e he => noErr rfl) fun R => ?_
      split <;> exact noErr rfl
    · exact noErr rfl
    · exact noErr rfl

end Sys2Proof.Machine

namespace Sys2Proof.Proofs

open Sys2Proof.Machine Sys2Proof.Claims

/-- Settles O10: each next state of `Effect` is a completion, a wait for a MAC response or a turn of the loop of PMUL. -/
theorem execCompletesOrGoesOn : Obligations.ExecCompletesOrGoesOn := by
  intro i s
  obtain ⟨t, ht, heffect⟩ := exec_effect i s
  refine ⟨t, ht, ?_⟩
  cases heffect with
  | waits hi hw => exact .inr (.inl ⟨rfl, hi, State.waiting_eq_true hw⟩)
  | asks g hi hg | rejects g hi hg => exact .inr (.inl ⟨rfl, hi, 0, g, rfl, hg⟩)
  | looping m hi => exact .inr (.inr ⟨rfl, hi, m, rfl⟩)
  | _ => exact .inl ⟨rfl, rfl⟩

/-- Settles O11: an error completion is `complete_err`, which writes no destination and no flag. -/
theorem errorCompletionsWriteNothing : Obligations.ErrorCompletionsWriteNothing := by
  intro i s t herr h hterr
  obtain ⟨e, he, rfl⟩ := eq_completeErr_of_exec herr h hterr
  exact ⟨he, rfl⟩

/-- Settles O12: PMUL stays on the slot of its point, and the multiplications of G have no error. -/
theorem errorCodesOfEachCommand : Obligations.ErrorCodesOfEachCommand :=
  fun _ _ _ hd hL herr h => exec_errsWithin hd hL herr h

end Sys2Proof.Proofs
end

section
/-! PROOFS. Every command without GEN_K completes, and every pending event is served (spec 60_exceptions R280, 70_reset_and_hazards R320,
R326, 43_nonce R219): O9. A number of steps left falls in every step but one that sends a request on the MAC port, so the engine comes to
complete or to wait for a response, and then serves what is next. -/

namespace Sys2Proof.Machine

open Sys2Proof.Claims

variable {s t : State} {i : Instr} {m : Mul}

/-! ### The steps left (spec 42_point R181, 44_ecdsa R245) -/

theorem bitlen_value (v : Value) : bitlen v.toNat ≤ 256 := bitlen_le_iff.2 v.isLt

theorem bitlen_of_lt_order {k : Nat} (h : k < Config.mod1.toNat) : bitlen k ≤ 256 := bitlen_le_iff.2 (h.trans Config.mod1.isLt)

/-- A bound on the steps of the multiplication that VERIFY begins after its first: at most 256 iterations, and its end. -/
def stepsAfter : Option Point → Nat
  | none => 257
  | some _ => 0

/-- A bound on the steps that the executing command still takes, once its drawn accesses are served and no request on the MAC port is left:
in the loop of PMUL the iterations to come and the step after them, before it that loop with any scalar. -/
def State.stepsLeft (s : State) : Nat :=
  match s.phase with
  | .idle => 0
  | .exec _ (.mul m) => bitlen m.k - m.iters + 1 + stepsAfter m.earlier
  | .exec _ (.gen _) => 515
  | .exec _ .fresh => 515

theorem stepsLeft_idle (h : s.phase = .idle) : s.stepsLeft = 0 := by simp [State.stepsLeft, h]

theorem stepsLeft_pos {n : Nat} {w : Work} (h : s.phase = .exec n w) : 0 < s.stepsLeft := by
  cases w <;> simp [State.stepsLeft, h]

theorem stepsLeft_of_work_mul (hw : s.work = .mul m) : s.stepsLeft = bitlen m.k - m.iters + 1 + stepsAfter m.earlier := by
  unfold State.work at hw
  split at hw
  · cases hw
  · next hp =>
    subst hw
    simp [State.stepsLeft, hp]

theorem stepsLeft_lt_of_idle {n : Nat} {w : Work} (h : s.phase = .exec n w) (ht : t.phase = .idle) : t.stepsLeft < s.stepsLeft := by
  rw [stepsLeft_idle ht]
  exact stepsLeft_pos h

theorem stepsLeft_before_loop {n : Nat} {w : Work} (h : s.phase = .exec n w) (hw : ∀ m : Mul, s.work ≠ .mul m) :
    s.stepsLeft = 515 := by
  rw [State.work_of_phase h] at hw
  cases w with
  | fresh | gen => simp [State.stepsLeft, h]
  | mul m => exact absurd rfl (hw m)

theorem stepsLeft_start (P : Point) (k : Nat) (earlier : Option Point) :
    (s.holdMul (Mul.start P k earlier)).stepsLeft = bitlen k + 1 + stepsAfter earlier := rfl

theorem stepsLeft_start_lt {n k : Nat} {w : Work} (h : s.phase = .exec n w) (hw : ∀ m : Mul, s.work ≠ .mul m) (hk : bitlen k ≤ 256)
    (P : Point) (earlier : Option Point) : (s.holdMul (Mul.start P k earlier)).stepsLeft < s.stepsLeft := by
  rw [stepsLeft_start, stepsLeft_before_loop h hw]
  cases earlier <;> simp only [stepsAfter] <;> omega

/-- One step inside the loop takes one of its iterations, or ends it. -/
theorem mulStep_stepsLeft_lt {failed : ErrCode → State} {finish : Point → State} (hw : s.work = .mul m)
    (hfailed : ∀ e : ErrCode, (failed e).phase = .idle) (hfinish : (finish m.result).stepsLeft ≤ stepsAfter m.earlier) :
    (mulStep s m failed finish).stepsLeft < s.stepsLeft := by
  rw [stepsLeft_of_work_mul hw]
  by_cases hmore : m.iters < bitlen m.k
  · cases hm : m.iterate s.curve with
    | error e =>
      rw [mulStep_fails hmore hm, stepsLeft_idle (hfailed e)]
      omega
    | ok m' =>
      obtain ⟨hk, hearlier, hiters, -, -⟩ := Mul.iterate_ok hm
      rw [mulStep_iterates hmore hm, stepsLeft_of_work_mul (s := s.holdMul m') rfl, hk, hearlier, hiters]
      omega
  · rw [mulStep_finishes (Nat.not_lt.1 hmore)]
    omega

theorem multiply_stepsLeft_lt {n k : Nat} {w : Work} {P : Point} {finish : Point → State} (hp : s.phase = .exec n w)
    (hk : bitlen k ≤ 256) (hfinish : ∀ R : Point, (finish R).phase = .idle) : (multiply s P k finish).stepsLeft < s.stepsLeft := by
  have hw := State.work_of_phase hp
  cases w with
  | mul m =>
    rw [multiply_goes_on hw]
    exact mulStep_stepsLeft_lt hw (fun e => rfl) (by rw [stepsLeft_idle (hfinish _)]; exact Nat.zero_le _)
  | fresh =>
    rw [multiply_begins hw]
    exact stepsLeft_start_lt hp (by simp [hw]) hk P none
  | gen g =>
    simp only [multiply, hw]
    exact stepsLeft_start_lt hp (by simp [hw]) hk P none

/-- A step of GEN_K ends with a request on the MAC port, or with an accepted candidate. -/
theorem genStep_waits_or_accepts {n z e q : Nat} {w : Work} {accepted : Nat → State} (hp : s.phase = .exec n w) :
    (genStep s z e q accepted).waiting = true ∨ ∃ k : Nat, inRange q k = true ∧ genStep s z e q accepted = accepted k := by
  have hw := State.work_of_phase hp
  cases w with
  | fresh | mul =>
    rw [genStep_begins (by simp [hw])]
    exact .inl rfl
  | gen g =>
    cases ht : g.tag with
    | none =>
      rw [genStep_waits hw ht]
      exact .inl (by rw [State.waiting_gen hp, ht]; rfl)
    | some y =>
      cases hr : g.advance z e q y with
      | goes g' =>
        rw [genStep_goes hw ht hr]
        exact .inl (by rw [State.waiting_holdGen, (Drbg.advance_sends (.inl hr)).1]; rfl)
      | rejects g' =>
        rw [genStep_rejects hw ht hr]
        exact .inl (by rw [State.waiting_holdGen, (Drbg.advance_sends (.inr hr)).1]; rfl)
      | accepts k =>
        rw [genStep_accepts hw ht hr]
        exact .inr ⟨k, (Drbg.advance_accepts hr).2.2.2, rfl⟩

/-- A step of a command leaves a request on the MAC port, or fewer steps. -/
theorem exec_waits_or_stepsLeft_lt {n : Nat} {w : Work} (hp : s.phase = .exec n w) (h : exec i s = .next t) :
    t.waiting = true ∨ t.stepsLeft < s.stepsLeft := by
  have idle {u : State} (hu : u.phase = .idle) : u.stepsLeft < s.stepsLeft := stepsLeft_lt_of_idle hp hu
  cases i with
  | pmul pd ps rk =>
    cases h
    refine .inr ?_
    split
    · exact idle rfl
    · exact multiply_stepsLeft_lt hp (bitlen_value _) fun R => rfl
  | pubkey pd re =>
    cases h
    exact .inr (multiply_stepsLeft_lt hp (bitlen_value _) fun R => rfl)
  | nonce rd rz re m =>
    cases h
    split
    · exact .inr (idle rfl)
    · rcases genStep_waits_or_accepts hp with hwait | ⟨k, -, haccepts⟩
      · exact .inl hwait
      · rw [haccepts]
        exact .inr (idle rfl)
  | sign rdr rz re rk rds =>
    cases h
    refine .inr ?_
    split
    · exact idle rfl
    · split
      · exact idle rfl
      · exact multiply_stepsLeft_lt hp (bitlen_value _) fun R => finishSign_phase ..
  | signd rdr rz re rds =>
    by_cases hkey : 1 ≤ s.valNat re ∧ s.valNat re < Config.mod1.toNat
    · by_cases hw : ∃ m : Mul, s.work = .mul m
      · obtain ⟨m, hw⟩ := hw
        cases (exec_signd_mul hkey.1 hkey.2 hw).symm.trans h
        exact .inr (mulStep_stepsLeft_lt hw (fun e => rfl) (by rw [stepsLeft_idle (finishSign_phase ..)]; exact Nat.zero_le _))
      · have hw : ∀ m : Mul, s.work ≠ .mul m := by simpa using hw
        cases (exec_signd_gen hkey.1 hkey.2 hw).symm.trans h
        rcases genStep_waits_or_accepts hp with hwait | ⟨k, hk, haccepts⟩
        · exact .inl hwait
        · rw [haccepts]
          exact .inr (stepsLeft_start_lt hp hw (bitlen_of_lt_order (inRange_iff.1 hk).2) _ _)
    · cases (exec_signd_bad_key (by omega)).symm.trans h
      exact .inr (idle rfl)
  | verify rr rs rz rpx rpy =>
    have horder (v : Nat) : bitlen (v % Config.mod1.toNat) ≤ 256 := bitlen_of_lt_order (Nat.mod_lt _ (by decide))
    cases h
    refine .inr ?_
    dsimp only
    split
    · split
      · next m hw =>
        refine mulStep_stepsLeft_lt hw (fun e => rfl) ?_
        cases m.earlier with
        | none => exact Nat.succ_le_succ (horder _)
        | some P1 => exact Nat.zero_le _
      · next hw => exact stepsLeft_start_lt hp (by simp [hw]) (horder _) _ _
      · next hw => exact stepsLeft_start_lt hp (by simp [hw]) (horder _) _ _
    · exact idle rfl
  | _ => exact .inr (idle (exec_completes rfl rfl h).1)

/-! ### To the end of a command, or to a request -/

/-- The engine has completed, or waits for a MAC response. -/
def State.AtRest (s : State) : Prop :=
  (s.phase = .idle ∧ s.done = true) ∨ ((∃ work : Work, s.phase = .exec 0 work) ∧ s.waiting = true)

/-- The engine goes from s to its rest at t, serving nothing. -/
structure ComesToRest (s t : State) : Prop where
  reached : reaches s t
  host : t.host = s.host
  cmd : t.cmd = s.cmd
  loop : s.LoopConsistent → t.LoopConsistent
  rests : t.AtRest

theorem exec_host (h : exec i s = .next t) : t.host = s.host := by
  cases effect_of_exec h <;> rfl

theorem exec_cmd (h : exec i s = .next t) : t.cmd = s.cmd := by
  cases effect_of_exec h <;> rfl

theorem resetPending_of_host_eq (h : t.host = s.host) : t.resetPending = s.resetPending := by
  simp only [State.resetPending, h]

/-- One step of a command that does not wait brings it to rest or takes one of its steps. -/
theorem exec_rests_or_goes_on {work : Work} (hp : s.phase = .exec 0 work) (hw : s.waiting = false) (h : exec i s = .next t) :
    t.AtRest ∨ ((∃ work : Work, t.phase = .exec 0 work) ∧ t.stepsLeft < s.stepsLeft) := by
  have hsteps := exec_waits_or_stepsLeft_lt hp h
  cases effect_of_exec h with
  | waits _ hs => cases hw.symm.trans hs
  | asks g _ hg | rejects g _ hg => exact .inl (.inr ⟨⟨_, rfl⟩, by rw [State.waiting_holdGen, hg]; rfl⟩)
  | looping m => exact .inr ⟨⟨_, rfl⟩, hsteps.resolve_left (by simp)⟩
  | _ => exact .inl (.inl ⟨rfl, rfl⟩)

/-- An executing command whose drawn accesses are served completes or comes to wait for a MAC response. -/
theorem exists_comesToRest {work : Work} (hp : s.phase = .exec 0 work) (hr : s.resetPending = false) :
    ∃ t : State, ComesToRest s t := by
  induction hn : s.stepsLeft using Nat.strong_induction_on generalizing s work with
  | _ n ih =>
    subst hn
    cases hw : s.waiting with
    | true => exact ⟨s, ⟨0, rfl⟩, rfl, rfl, id, .inr ⟨⟨_, hp⟩, hw⟩⟩
    | false =>
      have hstep := step_of_exec_zero hp hr hw
      cases hd : decode s.cmd with
      | error e =>
        rw [runLatched_of_error hd] at hstep
        exact ⟨_, ⟨1, run_one hstep⟩, rfl, rfl, fun _ => loopConsistent_idle rfl, .inl ⟨rfl, rfl⟩⟩
      | ok i =>
        obtain ⟨u, hu, -⟩ := exec_effect i s
        rw [runLatched_of_ok hd, hu] at hstep
        have hhost := exec_host hu
        have hloop : s.LoopConsistent → u.LoopConsistent := fun hL => exec_loopConsistent hd hL hu
        rcases exec_rests_or_goes_on hp hw hu with hrest | ⟨⟨work', hp'⟩, hlt⟩
        · exact ⟨u, ⟨1, run_one hstep⟩, hhost, exec_cmd hu, hloop, hrest⟩
        · obtain ⟨t, ht⟩ := ih _ hlt hp' ((resetPending_of_host_eq hhost).trans hr) rfl
          exact ⟨t, reaches_trans ⟨1, run_one hstep⟩ ht.reached, ht.host.trans hhost, ht.cmd.trans (exec_cmd hu),
            fun hL => ht.loop (hloop hL), ht.rests⟩

/-- Working values of GEN_K belong to a command that runs it. -/
theorem runsGenK_of_generates {z e q : Nat} (h : s.generates z e q) : ∃ i : Instr, decode s.cmd = .ok i ∧ runsGenK i = true := by
  unfold State.generates at h
  split at h
  · next hd => exact ⟨_, hd, rfl⟩
  · next hd => exact ⟨_, hd, rfl⟩
  · exact h.elim

/-! ### Events are served in their order (spec 20_memory R72) -/

/-- The pending events are the host's: no write of the window changes them. -/
theorem memWrite_host (s : State) (off : BitVec 12) (w : Word) : (memWrite s off w).host = s.host := by
  have ignored (u : State) (hu : u.host = s.host) : (s.unlessBusy u).host = s.host := by
    unfold State.unlessBusy
    split
    · rfl
    · exact hu
  unfold memWrite
  cases locate off with
  | ctrl =>
    simp only [writeTarget, writeCtrl]
    split
    · rfl
    · split <;> rfl
  | status => simp only [writeTarget, writeStatus_eq]
  | cmd | reg => exact ignored _ rfl
  | wide r k =>
    cases r with
    | mod0 | mod1 | gx0 | gy0 => rfl
    | _ => exact ignored _ rfl
  | _ => rfl

theorem busAccess_host (s : State) (width : Nat) (off : BitVec 12) (op : BusOp) : (busAccess s width off op).host = s.host := by
  cases op with
  | read =>
    simp only [busAccess]
    split <;> rfl
  | write w =>
    simp only [busAccess]
    split
    · split
      · rfl
      · exact memWrite_host s off w
    · rfl

/-- Serving an event adds none and takes none. -/
theorem handleEvent_host (s : State) (ev : HostEvent) : (handleEvent s ev).host = s.host := by
  cases ev with
  | access width addr op =>
    simp only [handleEvent, addressed]
    split
    · exact busAccess_host ..
    · rfl
  | rst asserted =>
    simp only [handleEvent, driveReset]
    split
    · rfl
    · split <;> rfl
  | macReply =>
    by_cases h0 : 0 < s.abandoned
    · rw [handleEvent, macResponse_abandoned h0]
    · cases hw : s.waiting with
      | false => rw [handleEvent, macResponse_ignored (by omega) hw]
      | true =>
        obtain ⟨n, g, hp, hg⟩ := State.waiting_eq_true hw
        rw [handleEvent, macResponse_delivered (by omega) hp hg]
  | quiet => rfl

theorem serveHost_host {ev : HostEvent} {rest : List HostEvent} (h : s.host = ev :: rest) : (serveHost s).host = rest := by
  rw [serveHost_cons h, handleEvent_host]

/-- An engine at rest serves what is next. -/
theorem step_of_atRest (h : s.AtRest) : step s = .next (serveHost s) := by
  rcases h with ⟨hp, -⟩ | ⟨⟨work, hp⟩, hw⟩
  · exact step_of_idle hp
  · exact step_of_waiting hp hw

/-- The engine comes to serve the oldest event: at once, or after the steps that its command still takes. -/
theorem exists_step_serves {ev : HostEvent} {rest : List HostEvent} (h : s.host = ev :: rest) :
    ∃ t u : State, reaches s t ∧ t.host = s.host ∧ step t = .next u ∧ u.host = rest := by
  have now {u : State} (hs : step s = .next (serveHost u)) (hu : u.host = s.host) :
      ∃ t u : State, reaches s t ∧ t.host = s.host ∧ step t = .next u ∧ u.host = rest :=
    ⟨s, _, ⟨0, rfl⟩, rfl, hs, serveHost_host (hu.trans h)⟩
  cases hr : s.resetPending with
  | true => exact now (step_of_resetPending hr) rfl
  | false =>
    cases hp : s.phase with
    | idle => exact now (step_of_idle hp) rfl
    | exec beats work =>
      cases beats with
      | succ n => exact now (step_of_exec_succ hp hr) (by split <;> rfl)
      | zero =>
        obtain ⟨t, ht⟩ := exists_comesToRest hp hr
        exact ⟨t, _, ht.reached, ht.host, step_of_atRest ht.rests, serveHost_host (ht.host.trans h)⟩

end Sys2Proof.Machine

namespace Sys2Proof.Proofs

open Sys2Proof.Machine Sys2Proof.Claims

/-- Settles O9: the engine comes to rest; a command without GEN_K never waits there, and at rest the oldest event is served. -/
theorem commandsWithoutGenKComplete : Obligations.CommandsWithoutGenKComplete := by
  refine ⟨fun s beats work hp hhost hL hgen => ?_, fun s ev rest h => exists_step_serves h⟩
  have hL' : ({ s with phase := .exec 0 work } : State).LoopConsistent := by
    cases beats with
    | zero => rwa [← hp]
    | succ n => exact loopConsistent_beat hL hp rfl
  obtain ⟨t, ht⟩ := exists_comesToRest (s := { s with phase := .exec 0 work }) rfl (by simp [State.resetPending, hhost])
  rcases ht.rests with ⟨hidle, hdone⟩ | ⟨-, hwait⟩
  · exact ⟨t, reaches_trans ⟨beats, run_beats hp hhost⟩ ht.reached, hidle, hdone, ht.cmd⟩
  · obtain ⟨n, g, hphase, -⟩ := State.waiting_eq_true hwait
    obtain ⟨-, z, e, q, -, -, hgenerates, -⟩ := (ht.loop hL').1 n g hphase
    obtain ⟨i, hd, hi⟩ := runsGenK_of_generates hgenerates
    cases (hgen i ((congrArg decode ht.cmd).symm.trans hd)).symm.trans hi

end Sys2Proof.Proofs
end

section
/-! PROOFS. What a reset gives, by CTRL.SRST and by RST (spec 70_reset_and_hazards R310 to R313): O56 and O57. -/

namespace Sys2Proof.Machine

open Sys2Proof.Claims

variable {s : State} {rest : List HostEvent}

/-! ### What the host sees of a reset engine -/

@[simp] theorem State.irq_toReset (s : State) : s.toReset.irq = false := rfl

@[simp] theorem State.busy_toReset (s : State) : s.toReset.busy = false := rfl

/-- CTRL and STATUS show no field that a reset leaves alone, so they read as they do of `State.reset`. -/
theorem memRead_ctrl_toReset (s : State) : memRead s.toReset 0x008 = 0#32 :=
  calc
    memRead s.toReset 0x008 = ctrlWord State.reset := memRead_ctrl s.toReset
    _ = 0#32 := by decide

theorem memRead_status_toReset (s : State) : memRead s.toReset 0x00C = 0#32 :=
  calc
    memRead s.toReset 0x00C = statusWord State.reset := memRead_status s.toReset
    _ = 0#32 := by decide

/-! ### The levels of RST -/

/-- A level of RST is served in every phase (spec 70_reset_and_hazards R313). -/
theorem step_rst {level : Bool} (h : s.host = .rst level :: rest) :
    step s = .next (driveReset { s with host := rest } level) := by
  rw [step_of_resetPending (by simp [State.resetPending, h]), serveHost_cons h, handleEvent]

theorem driveReset_asserted (s : State) : driveReset s true = { s.toReset with rst := true } := rfl

theorem driveReset_released (h : s.rst = true) : driveReset s false = { s.toReset with rst := false } := by
  simp [driveReset, h]

/-! ### While RST is asserted -/

/-- The engine answers a well-formed access and does nothing more; a read gets 0 (spec 70_reset_and_hazards R310). -/
theorem busAccess_under_rst {off : BitVec 12} (hr : s.rst = true) (h4 : off.toNat % 4 = 0) (op : BusOp) :
    ∃ r : BusResp, busAccess s 32 off op = { s with resp := some r } ∧ (op = .read → r = .read false 0#32) := by
  have hw : wellFormedAccess 32 off = true := wellFormedAccess_iff.2 ⟨rfl, h4⟩
  cases op with
  | read => exact ⟨.read false 0#32, by rw [busAccess, if_pos hw, if_pos hr, State.respond], fun _ => rfl⟩
  | write w => exact ⟨.write false, by rw [busAccess, if_pos hw, if_pos hr, State.respond], nofun⟩

/-- Reset values that are held under RST include IE = 0 and DONE = 0 (spec 10_state R42). -/
theorem irq_of_resetHeld (h : s.ResetHeld) (hr : s.rst = true) : s.irq = false := by
  rw [← h hr, State.irq_toReset]

end Sys2Proof.Machine

namespace Sys2Proof.Proofs

open Sys2Proof.Machine Sys2Proof.Claims

/-- Settles O57: a level of RST is served before all else, and an access under RST is only answered. -/
theorem hardResetHoldsTheResetValues : Obligations.HardResetHoldsTheResetValues := by
  refine ⟨fun s rest hhost => ⟨s.abandons, discards_abandons s, ?_⟩, fun s rest hidle hrst hhost => ?_,
    fun s off op rest hidle hrst hhost h4 => ?_, fun s => irq_of_resetHeld⟩
  · rw [step_rst hhost, driveReset_asserted]
    rfl
  · have hnone : s.abandons = s.abandoned := State.abandons_of_not_waiting (State.waiting_idle hidle)
    rw [← hnone, step_rst hhost, driveReset_released (by exact hrst)]
    rfl
  · obtain ⟨r, haccess, hread⟩ := busAccess_under_rst (s := { s with host := rest }) hrst h4 op
    exact ⟨r, by rw [step_access (.inl ⟨.inl hidle, rfl⟩) hhost, haccess], hread⟩

/-- Settles O56: a write of CTRL with SRST is the reset, in every phase. -/
theorem softResetGivesTheResetValues : Obligations.SoftResetGivesTheResetValues := by
  intro s w hsrst t ht
  rw [memWrite_ctrl, writeCtrl_srst hsrst] at ht
  subst ht
  exact ⟨⟨s.abandons, discards_abandons s, rfl⟩, s.irq_toReset, s.busy_toReset, memRead_ctrl_toReset s,
    memRead_status_toReset s⟩

end Sys2Proof.Proofs
end
